-- ==== Sys2Proof/Word.lean ====
section
/-! DEFINITION. The words of the block: bytes, register addresses, the 16-bit CRC (00_scope.md R8, R9). -/

namespace Sys2Proof

/-- A byte: every register, FIFO entry and memory cell is 8 bits (R8 `REG_WIDTH`, R87). -/
abbrev Byte := BitVec 8

/-- A register address, 6 bits (10_state.md R33). -/
abbrev RegAddr := BitVec 6

/-- The one multi-byte value of the block, the CRC (20_memory.md R83). -/
abbrev Word16 := BitVec 16

end Sys2Proof
end

