-- ==== Sys2Proof/Config.lean ====
section
/-! DEFINITION. The parameters of 00_scope.md R8, and the free values of the model (R10 `draw`). -/

namespace Sys2Proof

/-- The ten registers of the block (10_state.md R36). -/
inductive Reg where
  | command
  | comIrq
  | divIrq
  | error
  | fifoData
  | fifoLevel
  | control
  | bitFraming
  | crcResultM
  | crcResultL
  deriving DecidableEq, Repr

/-- The ten registers, in the order of R36's table. -/
def Reg.all : List Reg :=
  [.command, .comIrq, .divIrq, .error, .fifoData, .fifoLevel, .control, .bitFraming,
   .crcResultM, .crcResultL]

/-- The field layout of a register: `bi` is the bit of the byte on the bus at which the bit stands that the register's
table of 10_state.md R38-R48 numbers `i`. A named flag or field, a reserved bit and the set/clear bit of R41 all stand
where their table's numbers stand. The default is the tables' own places. -/
structure Layout where
  b0 : Fin 8 := 0
  b1 : Fin 8 := 1
  b2 : Fin 8 := 2
  b3 : Fin 8 := 3
  b4 : Fin 8 := 4
  b5 : Fin 8 := 5
  b6 : Fin 8 := 6
  b7 : Fin 8 := 7
  deriving DecidableEq, Repr

/-- `RegMap`: the address of each register (10_state.md R35, R36) and the field layouts of R38 to R48, "carried in
`RegMap` with the addresses" (92_eei_decisions.md D3, 93_implementation_defined.md U22). `FIFODataReg` and the two CRC
result registers hold a whole byte each (R45, R50) and have no fields. -/
structure RegMap where
  command    : RegAddr := 0x01#6
  comIrq     : RegAddr := 0x04#6
  divIrq     : RegAddr := 0x05#6
  error      : RegAddr := 0x06#6
  fifoData   : RegAddr := 0x09#6
  fifoLevel  : RegAddr := 0x0A#6
  control    : RegAddr := 0x0C#6
  bitFraming : RegAddr := 0x0D#6
  crcResultM : RegAddr := 0x21#6
  crcResultL : RegAddr := 0x22#6
  commandBits    : Layout := {}
  comIrqBits     : Layout := {}
  divIrqBits     : Layout := {}
  errorBits      : Layout := {}
  fifoLevelBits  : Layout := {}
  controlBits    : Layout := {}
  bitFramingBits : Layout := {}
  deriving DecidableEq, Repr

/-- The address of a register under a register map. -/
def RegMap.addr (m : RegMap) : Reg → RegAddr
  | .command    => m.command
  | .comIrq     => m.comIrq
  | .divIrq     => m.divIrq
  | .error      => m.error
  | .fifoData   => m.fifoData
  | .fifoLevel  => m.fifoLevel
  | .control    => m.control
  | .bitFraming => m.bitFraming
  | .crcResultM => m.crcResultM
  | .crcResultL => m.crcResultL

/-- The places of a layout, bit 0 first. -/
def Layout.places (l : Layout) : List (Fin 8) := [l.b0, l.b1, l.b2, l.b3, l.b4, l.b5, l.b6, l.b7]

/-- The field layout of a register under a register map. -/
def RegMap.layout (m : RegMap) : Reg → Layout
  | .command    => m.commandBits
  | .comIrq     => m.comIrqBits
  | .divIrq     => m.divIrqBits
  | .error      => m.errorBits
  | .fifoData   => {}
  | .fifoLevel  => m.fifoLevelBits
  | .control    => m.controlBits
  | .bitFraming => m.bitFramingBits
  | .crcResultM => {}
  | .crcResultL => {}

/-- How a write of an interrupt flag register acts (10_state.md R41). -/
inductive IrqWriteMode where
  /-- Bit 7 chooses set or clear, the marked flags change. -/
  | setClear
  /-- The flags take the written bits. -/
  | plain
  deriving DecidableEq, Repr

/-- The parameters of 00_scope.md R8: "Every parameter marked gk or decision is a configuration field of the model, not
a constant of its semantics." The defaults are R8's values. `hostMemSize` is OPEN in the spec (D23) and its default is the
model's (log 6). -/
structure Config where
  regMap        : RegMap := {}
  fifoDepth     : Nat := 64
  frameCap      : Nat := 18
  waitMask      : Byte := 0x21#8
  bitLenWidth   : Nat := 32
  crcPreset     : Word16 := 0x6363#16
  crcPoly       : Word16 := 0x8408#16
  cmdIdle       : BitVec 4 := 0x0#4
  cmdCalcCrc    : BitVec 4 := 0x3#4
  cmdTransceive : BitVec 4 := 0xC#4
  opRead        : Byte := 0x30#8
  opWrite       : Byte := 0xA2#8
  opHalt        : Byte := 0x50#8
  dummy         : Byte := 0x00#8
  irqWriteMode  : IrqWriteMode := .setClear
  hostMemSize   : Nat := 65536
  deriving DecidableEq, Repr

/-- The parameters with the values of R8. -/
def Config.default : Config := {}

/-! The parameters R8 grounds in the document alone are constants (log 7). -/

/-- `CRC_POLL_BUDGET` (R8). -/
def crcPollBudget : Nat := 255

/-- `TRX_POLL_BUDGET` (R8). -/
def trxPollBudget : Nat := 1000

/-- `ERR_MASK` (R8): tested on the byte as read, "kept whatever the layout" (92_eei_decisions.md D3, 90_conflicts.md C1). -/
def errMask : Byte := 0x1B#8

/-- `REQA` (R8). -/
def reqa : Byte := 0x26#8

/-- `WUPA` (R8). -/
def wupa : Byte := 0x52#8

/-- `ACK`, four bits (R8). -/
def ack : BitVec 4 := 0xA#4

/-- A parameter set under which the block's rules make sense: the ten addresses differ, so do the three command codes, the
frame opcodes that share a length differ, a built frame (nine bytes, R111) fits the frame buffer, a frame buffer fits
the FIFO, and the FIFO level fits the seven bits of `FIFOLevelReg[6:0]` (R46); the eight bits of a register stand at eight
places, and the reserved bit of `ErrorReg` at none that `ERR_MASK` tests ("The block never tests them", 10_state.md R51). -/
abbrev Config.Wf (c : Config) : Prop :=
  (Reg.all.map c.regMap.addr).Nodup ∧ [c.cmdIdle, c.cmdCalcCrc, c.cmdTransceive].Nodup ∧
    c.opRead ≠ c.opHalt ∧ 9 ≤ c.frameCap ∧ c.frameCap ≤ c.fifoDepth ∧ c.fifoDepth ≤ 127 ∧
    (∀ r ∈ Reg.all, (c.regMap.layout r).places.Nodup) ∧ errMask.getLsbD c.regMap.errorBits.b5 = false

/-- One step of a chip agent other than the bus's driver. Whether an enabled one happens, when, and with what card
answer, is free (20_memory.md R93, 41_chip_commands.md R163, R169, R170, R173, R176). -/
inductive EngineEvent where
  /-- The CRC engine completes; `left` is drawn for the FIFO's contents (R163). -/
  | crcComplete (left : List Byte)
  /-- The transceive engine sends the FIFO (R169). -/
  | transmit
  /-- The card's answer comes in: bytes, valid bits of the last one, error byte (R170). -/
  | receive (bytes : List Byte) (lastBits : BitVec 3) (err : Byte)
  /-- The timer's flag is set (R173). -/
  | timer
  deriving DecidableEq, Repr

/-- The free byte of draw number `n` (R10 `draw T`, "under no law"). -/
opaque Config.freeByte : Nat → Byte

/-- The free list of engine steps of draw number `n`: any finite list, any card answers (R93, R176, R324). -/
opaque Config.freeEvents : Nat → List EngineEvent

end Sys2Proof
end

