-- ==== Sys2Proof/Machine/Crc.lean ====
section
/-! DEFINITION. The checksums of the block: CRC16 (41_chip_commands.md R164) and the BCC (44_card_frames.md R247). -/

namespace Sys2Proof

/-- One shift of the reflected CRC register: R164's inner loop body. -/
def crcShift (poly crc : Word16) : Word16 :=
  if crc.getLsbD 0 then (crc >>> 1) ^^^ poly else crc >>> 1

/-- One byte of data: R164's outer loop body. -/
def crcByte (poly crc : Word16) (b : Byte) : Word16 :=
  (crcShift poly)^[8] (crc ^^^ b.setWidth 16)

/-- `CRC16(data)`, head first, no final XOR (R164). -/
def crc16 (c : Config) (data : List Byte) : Word16 :=
  data.foldl (crcByte c.crcPoly) c.crcPreset

/-- `crc[7:0]`, the byte that goes first (30_encoding.md R115). -/
def crcLow (crc : Word16) : Byte := crc.extractLsb' 0 8

/-- `crc[15:8]`, the byte that goes second (R115). -/
def crcHigh (crc : Word16) : Byte := crc.extractLsb' 8 8

/-- `CRC16` of `data` as a frame carries it, low byte first (R115). -/
def crcBytes (c : Config) (data : List Byte) : List Byte :=
  [crcLow (crc16 c data), crcHigh (crc16 c data)]

/-- Whether `l`, `h` are the CRC bytes a frame that begins with `first` carries (R115). -/
def crcMatches (c : Config) (first : List Byte) (l h : Byte) : Bool := [l, h] == crcBytes c first

/-- The exclusive or of a list of bytes. -/
def xorBytes (bs : List Byte) : Byte := bs.foldl (· ^^^ ·) 0#8

/-- The BCC of a serial (44_card_frames.md R247). -/
def bcc (u0 u1 u2 u3 : Byte) : Byte := xorBytes [u0, u1, u2, u3]

/-- The first seven bytes of a `SELECT` frame, before its CRC (30_encoding.md R111). -/
def selectBytes (b a u0 u1 u2 u3 : Byte) : List Byte := [b, a, u0, u1, u2, u3, bcc u0 u1 u2 u3]

/-- The first two bytes of a `READ` frame, before its CRC (R112). -/
def readBytes (c : Config) (p : Byte) : List Byte := [c.opRead, p]

/-- The first six bytes of a `WRITE` frame, before its CRC (R113). -/
def writeBytes (c : Config) (p d0 d1 d2 d3 : Byte) : List Byte := [c.opWrite, p, d0, d1, d2, d3]

end Sys2Proof
end

