-- ==== Sys2Proof/Machine/Layout.lean ====
section
/-! DEFINITION. The bytes of the ten registers on the bus against their fields: the rules number a register's bits by its
table (10_state.md R38-R48), and `RegMap` says where each stands on the bus (R35, 92_eei_decisions.md D3). -/

namespace Sys2Proof

/-- The place on the bus of the bit that a register's table numbers `i`. -/
def Layout.place (l : Layout) (i : Nat) : Nat := (l.places.map Fin.val).getD i 8

/-- The byte whose bit `i` is `b i`. -/
def byteOf (b : Nat → Bool) : Byte := BitVec.ofBoolListLE [b 0, b 1, b 2, b 3, b 4, b 5, b 6, b 7]

/-- A byte on the bus, its bits numbered as the register's table numbers them. -/
def Layout.fields (l : Layout) (v : Byte) : Byte := byteOf fun i => v.getLsbD (l.place i)

/-- The byte on the bus that carries the fields `f`. -/
def Layout.byte (l : Layout) (f : Byte) : Byte :=
  byteOf fun j => (List.range 8).any fun i => l.place i == j && f.getLsbD i

/-- The fields in a byte of register `r` on the bus. -/
def RegMap.fields (m : RegMap) (r : Reg) (v : Byte) : Byte := (m.layout r).fields v

/-- The byte on the bus that carries the fields `f` of register `r`. -/
def RegMap.byte (m : RegMap) (r : Reg) (f : Byte) : Byte := (m.layout r).byte f

/-- A command code in the field `Command`, "with bits 7:4 = 0" (30_encoding.md R106). -/
def cmdByte (code : BitVec 4) : Byte := code.setWidth 8

/-- `FlushBuffer` alone (10_state.md R46, 30_encoding.md R127). -/
def flushByte : Byte := 0x80#8

/-- The byte on the bus that writes a command (R106, R107). -/
def Config.cmdBus (c : Config) (code : BitVec 4) : Byte := c.regMap.byte .command (cmdByte code)

/-- The byte on the bus that flushes the FIFO (R127). -/
def Config.flushBus (c : Config) : Byte := c.regMap.byte .fifoLevel flushByte

end Sys2Proof
end

