-- ==== Sys2Proof/Syntax.lean ====
section
/-! DEFINITION. The instructions: one constructor for each row of spec/opcode_table.json (00_scope.md R3), and the forms
in which the host issues one (30_encoding.md R100, R129). -/

namespace Sys2Proof

/-- A buffer operand: a region `(base,len)` of host buffer memory (20_memory.md R84, 30_encoding.md R128). -/
structure Region where
  base : Nat
  len  : Nat
  deriving DecidableEq, Repr

/-- The instructions. -/
inductive Instr where
  /-- `TRANSFER_BYTE` (40_bus.md R141). -/
  | transferByte (out : Byte)
  /-- `REG_WRITE` (R142). -/
  | regWrite (a : RegAddr) (v : Byte)
  /-- `REG_READ` (R144). -/
  | regRead (a : RegAddr)
  /-- `SET_BITS` (R146). -/
  | setBits (a : RegAddr) (m : Byte)
  /-- `CLEAR_BITS` (R147). -/
  | clearBits (a : RegAddr) (m : Byte)
  /-- `CMD_IDLE` (41_chip_commands.md R161). -/
  | cmdIdle
  /-- `CMD_CALCCRC` (R162). -/
  | cmdCalcCrc
  /-- `CMD_TRANSCEIVE` (R166). -/
  | cmdTransceive
  /-- `FLUSH` (30_encoding.md R127). -/
  | flush
  /-- `STARTSEND` (R127). -/
  | startSend
  /-- `STOPSEND` (R127). -/
  | stopSend
  /-- `COMPUTE_CRC` (42_crc_unit.md R200). -/
  | computeCrc (src dst : Region)
  /-- `TRANSCEIVE` (43_command_engine.md R215). -/
  | transceive (inp out : Region)
  /-- `REQUEST` (44_card_frames.md R241). -/
  | request (code : Byte) (buf : Region)
  /-- `READ_UID` (R242). -/
  | readUid (cmd arg : Byte) (buf : Region)
  /-- `SELECT` (R243). -/
  | select (cmd arg : Byte) (serial : Region)
  /-- `READ_PAGE` (R244). -/
  | readPage (page : Byte) (buf : Region)
  /-- `WRITE_PAGE` (R245). -/
  | writePage (page : Byte) (data : Region)
  /-- `HALT` (R246). -/
  | halt
  /-- `FRAME_REQA` (30_encoding.md R109). -/
  | frameReqa
  /-- `FRAME_WUPA` (R109). -/
  | frameWupa
  /-- `FRAME_ANTICOLL` (R110). -/
  | frameAnticoll (c a : Byte)
  /-- `FRAME_SELECT` (R111); the BCC follows from the serial, and `l`, `h` are the CRC of the bytes before them (R115, log 11). -/
  | frameSelect (c a u0 u1 u2 u3 l h : Byte)
  /-- `FRAME_READ` (R112), with its CRC `l`, `h`. -/
  | frameRead (p l h : Byte)
  /-- `FRAME_WRITE` (R113), with its CRC `l`, `h`. -/
  | frameWrite (p d0 d1 d2 d3 l h : Byte)
  /-- `FRAME_HALT` (R114). -/
  | frameHalt
  /-- `RESP_ATQA` (R116). -/
  | respAtqa (q0 q1 : Byte)
  /-- `RESP_UID` (R117). -/
  | respUid (u0 u1 u2 u3 b : Byte)
  /-- `RESP_SAK` (R118). -/
  | respSak (s l h : Byte)
  /-- `RESP_READ` (R119): sixteen data bytes and the card's CRC. -/
  | respRead (d : List Byte) (l h : Byte)
  /-- `RESP_ACK` (R120); `hi` is bits 7:4 of the received byte, which nothing examines. -/
  | respAck (hi : BitVec 4)
  deriving DecidableEq, Repr

/-- What the host issues: the bytes of one of the encoded forms of 30_encoding.md R100, or an operation term. "The eight
sequencer operations are issued by the host as operation terms, not as bit patterns" (R129); the syntax of R126 gives every
other instruction a term too. -/
inductive Issue where
  /-- One byte shifted with no framing (`bit-transfer`). -/
  | bitTransfer (b : Byte)
  /-- A transaction, "always 16 bits" (R125): `bus-write`, `bus-read`, `command`. -/
  | bus (b0 b1 : Byte)
  /-- A frame the encoder writes to the FIFO. -/
  | txFrame (bytes : List Byte)
  /-- A response the decoder reads from the FIFO. -/
  | rxFrame (bytes : List Byte)
  /-- A term. -/
  | term (i : Instr)
  deriving DecidableEq, Repr

end Sys2Proof
end

