-- ==== Sys2Proof/WellFormed.lean ====
section
/-! DEFINITION. What a well-formed instruction is. -/

namespace Sys2Proof

/-- A register write whose word the table names as `CMD_IDLE`, `CMD_CALCCRC`, `CMD_TRANSCEIVE` or `FLUSH`. -/
def namedWrite (c : Config) (a : RegAddr) (v : Byte) : Bool :=
  (a == c.regMap.command &&
      (v == c.cmdBus c.cmdIdle || v == c.cmdBus c.cmdCalcCrc || v == c.cmdBus c.cmdTransceive)) ||
    (a == c.regMap.fifoLevel && v == c.flushBus)

/-- An instruction is well formed when its words read back as itself and its lengths are in range: a register write is
not one that has a row of its own (log 18); `COMPUTE_CRC` and `TRANSCEIVE` take the lengths of 60_exceptions.md R287; a
read response has sixteen data bytes (30_encoding.md R119); the CRC bytes of a `SELECT`, `READ` or `WRITE` frame are the
CRC of the bytes before them (R111-R113, R115). A register write of the first kind still runs. -/
def Instr.wellFormed (c : Config) : Instr → Bool
  | .regWrite a v     => !namedWrite c a v
  | .computeCrc src _ => src.len ≤ c.frameCap
  | .transceive inp _ => 1 ≤ inp.len && inp.len ≤ c.frameCap
  | .respRead d _ _   => d.length == 16
  | .transferByte _ => true
  | .regRead _ => true
  | .setBits _ _ => true
  | .clearBits _ _ => true
  | .cmdIdle => true
  | .cmdCalcCrc => true
  | .cmdTransceive => true
  | .flush => true
  | .startSend => true
  | .stopSend => true
  | .request _ _ => true
  | .readUid _ _ _ => true
  | .select _ _ _ => true
  | .readPage _ _ => true
  | .writePage _ _ => true
  | .halt => true
  | .frameReqa => true
  | .frameWupa => true
  | .frameAnticoll _ _ => true
  | .frameSelect b a u0 u1 u2 u3 l h => crcMatches c (selectBytes b a u0 u1 u2 u3) l h
  | .frameRead p l h => crcMatches c (readBytes c p) l h
  | .frameWrite p d0 d1 d2 d3 l h => crcMatches c (writeBytes c p d0 d1 d2 d3) l h
  | .frameHalt => true
  | .respAtqa _ _ => true
  | .respUid _ _ _ _ _ => true
  | .respSak _ _ _ => true
  | .respAck _ => true

end Sys2Proof
end

