-- ==== Sys2Proof/Decode.lean ====
section
/-! DEFINITION. The decoder, total on any issue and rejecting by name, and the encoder written from the same tables
(30_encoding.md R100-R129). -/

namespace Sys2Proof

/-- Why bytes are no instruction. -/
inductive DecodeError where
  /-- An address byte with bit 0 set (30_encoding.md R123). -/
  | reservedBusBit
  /-- A frame or a response of none of the forms of R109 to R120: "the encoder emits none; the decoder has no other form"
  (R123). A wrong CRC of a `SELECT`, `READ` or `WRITE` frame is met by its meaning (log 11). -/
  | unlistedFrame
  deriving DecidableEq, Repr

/-- The address byte of a write, `(address<<1) & 0x7E` (R101). -/
def writeAddrByte (a : RegAddr) : Byte := (a.setWidth 8 <<< 1) &&& 0x7E#8

/-- The address byte of a read, `(address<<1) | 0x80` (R102). -/
def readAddrByte (a : RegAddr) : Byte := (a.setWidth 8 <<< 1) ||| 0x80#8

/-- The instruction a write transaction is: the commands and `FLUSH` have rows of their own (R107, R127). -/
def nameWrite (c : Config) (a : RegAddr) (v : Byte) : Instr :=
  if a = c.regMap.command ∧ v = c.cmdBus c.cmdIdle then .cmdIdle
  else if a = c.regMap.command ∧ v = c.cmdBus c.cmdCalcCrc then .cmdCalcCrc
  else if a = c.regMap.command ∧ v = c.cmdBus c.cmdTransceive then .cmdTransceive
  else if a = c.regMap.fifoLevel ∧ v = c.flushBus then .flush
  else .regWrite a v

/-- The instruction of a bus transaction: bit 7 of the first byte tells a read from a write, bits 6:1 are the address,
bit 0 is reserved (R101, R102, R123, R125). A read is a read whatever its second byte, which the chip ignores
(93_implementation_defined.md G16; log 19). -/
def decodeBus (c : Config) (b0 b1 : Byte) : Except DecodeError Instr :=
  if b0.getLsbD 0 then .error .reservedBusBit
  else if b0.getLsbD 7 then .ok (.regRead (b0.extractLsb' 1 6))
  else .ok (nameWrite c (b0.extractLsb' 1 6) b1)

/-- The bytes of `FRAME_HALT`: `OP_HALT`, the reserved 0x00, and their CRC (R114). -/
def haltFrame (c : Config) : List Byte := [c.opHalt, 0x00#8] ++ crcBytes c [c.opHalt, 0x00#8]

/-- The frame the encoder writes, by its bytes; their number fixes the kind (R109-R114, R125). None where it emits none. The
`l` and `h` of `SELECT`, `READ` and `WRITE` are read as operands (R108); their meanings hold them to R115 (log 11). -/
def decodeTxFrame (c : Config) (bytes : List Byte) : Option Instr :=
  match bytes with
  | [b] => if b = reqa then some .frameReqa else if b = wupa then some .frameWupa else none
  | [b, a] => some (.frameAnticoll b a)
  | [o, p, l, h] =>
    if o = c.opRead then some (.frameRead p l h) else if [o, p, l, h] = haltFrame c then some .frameHalt else none
  | [o, p, d0, d1, d2, d3, l, h] => if o = c.opWrite then some (.frameWrite p d0 d1 d2 d3 l h) else none
  | [b, a, u0, u1, u2, u3, x, l, h] => if x = bcc u0 u1 u2 u3 then some (.frameSelect b a u0 u1 u2 u3 l h) else none
  | _ => none

/-- The response the decoder is given, by its bytes (R116-R120). None where it has no such form. -/
def decodeRxFrame (bytes : List Byte) : Option Instr :=
  match bytes with
  | [k] => if k.extractLsb' 0 4 = ack then some (.respAck (k.extractLsb' 4 4)) else none
  | [q0, q1] => some (.respAtqa q0 q1)
  | [s, l, h] => some (.respSak s l h)
  | [u0, u1, u2, u3, b] => some (.respUid u0 u1 u2 u3 b)
  | _ =>
    match bytes.drop 16 with
    | [l, h] => some (.respRead (bytes.take 16) l h)
    | _ => none

/-- A frame or response that is one of the listed forms (R123). -/
def listed : Option Instr → Except DecodeError Instr
  | some i => .ok i
  | none => .error .unlistedFrame

/-- The instruction the host issues. -/
def decode (c : Config) : Issue → Except DecodeError Instr
  | .bitTransfer b => .ok (.transferByte b)
  | .bus b0 b1 => decodeBus c b0 b1
  | .txFrame bytes => listed (decodeTxFrame c bytes)
  | .rxFrame bytes => listed (decodeRxFrame bytes)
  | .term i => .ok i

/-- The words of an instruction: the bytes of its encoded form, in bus or FIFO order, or its term where the table gives it
no bit pattern of its own (R100, R129). -/
def encode (c : Config) : Instr → Issue
  | .transferByte b => .bitTransfer b
  | .regWrite a v => .bus (writeAddrByte a) v
  | .regRead a => .bus (readAddrByte a) c.dummy
  | .setBits a m => .term (.setBits a m)
  | .clearBits a m => .term (.clearBits a m)
  | .cmdIdle => .bus (writeAddrByte c.regMap.command) (c.cmdBus c.cmdIdle)
  | .cmdCalcCrc => .bus (writeAddrByte c.regMap.command) (c.cmdBus c.cmdCalcCrc)
  | .cmdTransceive => .bus (writeAddrByte c.regMap.command) (c.cmdBus c.cmdTransceive)
  | .flush => .bus (writeAddrByte c.regMap.fifoLevel) c.flushBus
  | .startSend => .term .startSend
  | .stopSend => .term .stopSend
  | .computeCrc src dst => .term (.computeCrc src dst)
  | .transceive inp out => .term (.transceive inp out)
  | .request code buf => .term (.request code buf)
  | .readUid cmd arg buf => .term (.readUid cmd arg buf)
  | .select cmd arg serial => .term (.select cmd arg serial)
  | .readPage page buf => .term (.readPage page buf)
  | .writePage page data => .term (.writePage page data)
  | .halt => .term .halt
  | .frameReqa => .txFrame [reqa]
  | .frameWupa => .txFrame [wupa]
  | .frameAnticoll b a => .txFrame [b, a]
  | .frameSelect b a u0 u1 u2 u3 l h => .txFrame [b, a, u0, u1, u2, u3, bcc u0 u1 u2 u3, l, h]
  | .frameRead p l h => .txFrame [c.opRead, p, l, h]
  | .frameWrite p d0 d1 d2 d3 l h => .txFrame [c.opWrite, p, d0, d1, d2, d3, l, h]
  | .frameHalt => .txFrame (haltFrame c)
  | .respAtqa q0 q1 => .rxFrame [q0, q1]
  | .respUid u0 u1 u2 u3 b => .rxFrame [u0, u1, u2, u3, b]
  | .respSak s l h => .rxFrame [s, l, h]
  | .respRead d l h => .rxFrame (d ++ [l, h])
  | .respAck hi => .rxFrame [hi ++ ack]

/-- The bytes of a table word of `nbits` bits, the leftmost (most significant) byte first: the table writes the first byte
of a transaction or frame on the left (R101, R108). -/
def tableBytes (nbits w : Nat) : List Byte :=
  let n := (nbits + 7) / 8
  (List.range n).map fun k => BitVec.ofNat 8 (w >>> (8 * (n - 1 - k)))

/-- The issue a table word stands for; its length tells the format, and one byte is a request frame, the ACK, or a byte
transfer (log 9). -/
def Issue.ofTable (nbits w : Nat) : Issue :=
  match tableBytes nbits w with
  | [b] =>
    if b = reqa ∨ b = wupa then .txFrame [b] else if b = ack.setWidth 8 then .rxFrame [b] else .bitTransfer b
  | [b0, b1] => .bus b0 b1
  | bytes => if bytes.length ∈ [4, 8, 9] then .txFrame bytes else .rxFrame bytes

/-- The instruction the decoder reads from a table word, under the default parameters. -/
def decodeTableWord (nbits w : Nat) : Option Instr :=
  (decode Config.default (Issue.ofTable nbits w)).toOption

end Sys2Proof
end

