-- ==== Sys2Proof/Machine/State.lean ====
section
/-! DEFINITION. The state of the block (10_state.md), the fault, the refusals, and the launch state (70_reset_and_hazards.md R311). -/

namespace Sys2Proof.Machine

open Sys2Proof

/-- The one fault of the model (60_exceptions.md R286). -/
inductive Fault where
  /-- `BufferOverrun`: an access outside the operand's region, at or beyond `HOST_MEM_SIZE`, or past the scratch buffer
  (20_memory.md R84, 44_card_frames.md R253). Raised by the sequencer's buffer accesses. Safe: the spec stops there. -/
  | bufferOverrun
  deriving DecidableEq, Repr

/-- Why an issue has no meaning: "The state does not change" (60_exceptions.md R287), and the run goes on
(70_reset_and_hazards.md R325). -/
inductive Refusal where
  /-- An instruction with no meaning yet: only `exec`'s arms may raise it, and none does. Safe. -/
  | notModelled (mnemonic : String)
  /-- A raw transaction to an address outside the ten registers (R287, 10_state.md R37). Safe. -/
  | unmodelledRegister
  /-- A `CommandReg` write of another command code (R287, 41_chip_commands.md R167). Safe. -/
  | unmodelledCommand
  /-- A `CommandReg` write with bits 7:4 not 0 (R287, 10_state.md R38). Safe. -/
  | unmodelledCommandBits
  /-- A raw write of `ErrorReg`, `CRCResultRegM` or `CRCResultRegL` (R287, 10_state.md R44, R50). Safe. -/
  | readOnlyRegister
  /-- A raw write of `ControlReg` (R287, 10_state.md R47). Safe. -/
  | unmodelledRegisterWrite
  /-- A `BitFramingReg` write with bits 6:3 not 0 (R287, 10_state.md R48). Safe. -/
  | unmodelledFraming
  /-- A bus address byte with bit 0 = 1: raised by fetching an issue (R287, 30_encoding.md R123). Safe. -/
  | reservedBusBit
  /-- `COMPUTE_CRC` or `TRANSCEIVE` with a length out of range (R287). Safe. -/
  | lengthOutOfRange
  /-- A host issue while an operation runs (R287, R298). Safe. -/
  | operationInProgress
  /-- Issued bytes of a frame or a response of no listed form, which stand for no instruction: "the encoder emits none; the
  decoder has no other form. [...] Refusal is the model's "no meaning" outcome" (30_encoding.md R123, R287). Raised by
  fetching an issue, and by `FRAME_SELECT`, `FRAME_READ` and `FRAME_WRITE` where the last two bytes are not the CRC of
  those before them (R115, log 11). Safe. -/
  | unlistedFrame
  deriving DecidableEq, Repr

/-- `crcState` (10_state.md R53). -/
inductive CrcState where
  | off
  | busy (data : List Byte)
  | done
  deriving DecidableEq, Repr

/-- `trxState` (10_state.md R54). -/
inductive TrxState where
  | off
  | armed
  | receiving
  | done
  deriving DecidableEq, Repr

/-- A recorded transmission `Tx(txFrame, txLastBitsLatched)` (41_chip_commands.md R169). -/
structure TxEvent where
  frame    : List Byte
  lastBits : BitVec 3
  deriving DecidableEq, Repr

/-- Status values (10_state.md R59). -/
inductive Status where
  | ok
  | err
  deriving DecidableEq, Repr

/-- The cause label of an `ERR`, for observation only (60_exceptions.md R282). -/
inductive Cause where
  | timeout
  | hwErr
  | proto
  deriving DecidableEq, Repr

/-- What an ended operation hands to the host (70_reset_and_hazards.md R325): a status where it has one, the cause of an
`ERR`, a bit length where `TRANSCEIVE` delivers one, and the bytes returned. -/
structure Result where
  status : Option Status := none
  cause  : Option Cause := none
  bitLen : Option Nat := none
  data   : List Byte := []
  deriving DecidableEq, Repr

/-- Where a buffer stands: host buffer memory, or the sequencer's scratch buffer (44_card_frames.md R253). -/
inductive Space where
  | host
  | scratch
  deriving DecidableEq, Repr

/-- The bytes an operation may reach through one operand: `len` bytes from `base` of a space (20_memory.md R84). -/
structure Area where
  space : Space
  base  : Nat
  len   : Nat
  deriving DecidableEq, Repr

/-- The lines of `COMPUTE_CRC` that call a primitive (42_crc_unit.md R200). -/
inductive CrcLine where
  | clearIrq
  | idle
  | flush
  | readByte
  | pushByte
  | command
  | poll
  | readLow
  | storeLow
  | readHigh
  | storeHigh
  deriving DecidableEq, Repr

/-- A running `COMPUTE_CRC`: its next line, operands and locals (10_state.md R58, R60). `len` bytes of `src` go in. -/
structure CrcFrame where
  line      : CrcLine := .clearIrq
  src       : Area
  len       : Nat
  dst       : Area
  i         : Nat := 0
  byte      : Byte := 0#8
  pollCount : Nat := 0
  lo        : Byte := 0#8
  hi        : Byte := 0#8
  deriving DecidableEq, Repr

/-- The lines of `TRANSCEIVE` that call a primitive (43_command_engine.md R215). -/
inductive TrxLine where
  | clearIrq
  | idle
  | flush
  | readByte
  | pushByte
  | command
  | startRead
  | startWrite
  | poll
  | stopRead
  | stopWrite
  | readError
  | readLevel
  | readLast
  | drainRead
  | drainStore
  | finalIdle
  deriving DecidableEq, Repr

/-- A running `TRANSCEIVE`: its next line, operands and locals (10_state.md R58, R60). `len` bytes of `inp` go out;
`byte` is the byte in hand (of a buffer, the FIFO, or `BitFramingReg`). -/
structure TrxFrame where
  line      : TrxLine := .clearIrq
  inp       : Area
  len       : Nat
  out       : Area
  i         : Nat := 0
  byte      : Byte := 0#8
  pollCount : Nat := 0
  seen      : Bool := false
  n         : Nat := 0
  lastBits  : BitVec 3 := 0#3
  bitLen    : Nat := 0
  cnt       : Nat := 0
  status    : Status := .err
  cause     : Option Cause := none
  deriving DecidableEq, Repr

/-- A card operation and its operands (44_card_frames.md R241-R246). -/
inductive CardOp where
  | request (code : Byte) (buf : Region)
  | readUid (cmd arg : Byte) (buf : Region)
  | select (cmd arg : Byte) (serial : Region)
  | readPage (page : Byte) (buf : Region)
  | writePage (page : Byte) (data : Region)
  | halt
  deriving DecidableEq, Repr

/-- The lines of the card operations (44_card_frames.md R241-R246): those that call a primitive, and the two calls. -/
inductive CardLine where
  /-- The `BitFramingReg` write. -/
  | framing
  /-- The next byte of the frame goes to host memory. -/
  | put
  /-- The next byte of a caller's buffer is read. -/
  | load
  /-- The next byte of the frame goes to the scratch buffer. -/
  | build
  /-- `COMPUTE_CRC` runs in the second frame. -/
  | callCrc
  /-- `TRANSCEIVE` runs in the second frame. -/
  | callTrx
  /-- `READ_UID` step 5: the next byte of the UID is read. -/
  | check
  /-- `WRITE_PAGE` step 4: the acknowledgement is read. -/
  | ackByte
  deriving DecidableEq, Repr

/-- A running card operation: its operands, next line and own locals (10_state.md R58). `u` is the bytes read from the
caller's buffer so far, `bitLen` the bit length its `TRANSCEIVE` delivered. -/
structure CardFrame where
  op     : CardOp
  line   : CardLine
  i      : Nat := 0
  u      : List Byte := []
  bitLen : Nat := 0
  deriving DecidableEq, Repr

/-- The responses of 30_encoding.md R116. -/
inductive RespKind where
  | atqa
  | uid
  | sak
  | read
  | ack
  deriving DecidableEq, Repr

/-- The register reads that give the decoder a response (30_encoding.md R116, R122). -/
inductive RespLine where
  | readLast
  | drain
  deriving DecidableEq, Repr

/-- A response being decoded: its kind, the bytes the issued row names, and the locals of TRANSCEIVE's step 8. -/
structure RespFrame where
  kind     : RespKind
  expected : List Byte
  line     : RespLine := .readLast
  n        : Nat := 0
  bitLen   : Nat := 0
  cnt      : Nat := 0
  got      : List Byte := []
  deriving DecidableEq, Repr

/-- The running operation with its position and locals (10_state.md R58, R60; nesting 60_exceptions.md R294). -/
inductive Running where
  /-- The raw register writes still to make of a compound or of a frame the encoder writes. -/
  | writes (ws : List (Reg × Byte))
  /-- A response being decoded. -/
  | resp (f : RespFrame)
  /-- `COMPUTE_CRC` issued by the host. -/
  | crc (f : CrcFrame)
  /-- `TRANSCEIVE` issued by the host. -/
  | trx (f : TrxFrame)
  /-- A card operation between calls. -/
  | card (c : CardFrame)
  /-- A card operation whose `COMPUTE_CRC` runs. -/
  | cardCrc (c : CardFrame) (f : CrcFrame)
  /-- A card operation whose `TRANSCEIVE` runs. -/
  | cardTrx (c : CardFrame) (f : TrxFrame)
  deriving DecidableEq, Repr

/-- Host buffer memory: the listed bytes, addresses strictly rising (20_memory.md R80, R84). -/
abbrev Memory := List Host.Cell

/-- The state of the block and of its inputs. INVENTORY.md names the rule of each field. -/
structure State where
  cfg               : Config
  sck               : Bool
  mosi              : Bool
  nss               : Bool
  rstAsserted       : Bool
  pwrEn             : Bool
  commandReg        : Byte
  comIrq            : BitVec 7
  divIrq            : BitVec 7
  errorReg          : Byte
  fifo              : List Byte
  bitFraming        : Byte
  crcResult         : Word16
  crcState          : CrcState
  trxState          : TrxState
  txLastBitsLatched : BitVec 3
  rxLastBits        : BitVec 3
  txEvents          : List TxEvent
  mem               : Memory
  scratch           : List Byte
  seq               : Option Running
  result            : Option Result
  issues            : List Issue
  overlaps          : List (List Issue)
  events            : List (List EngineEvent)
  draws             : List Byte
  drawCount         : Nat
  busOut            : List Byte
  refusals          : List Refusal
  deriving DecidableEq, Repr

/-- The launch state of 70_reset_and_hazards.md R311. Where R311 says "unspecified" the value is the model's (log 4), and
no statement rests on it; `Launch` (Safety.lean) is every state R311 admits. -/
def State.reset : State where
  cfg := Config.default
  sck := false
  mosi := false
  nss := true
  rstAsserted := false
  pwrEn := true
  commandReg := 0x00#8
  comIrq := 0x14#7
  divIrq := 0x00#7
  errorReg := 0x00#8
  fifo := []
  bitFraming := 0x00#8
  crcResult := 0xFFFF#16
  crcState := .off
  trxState := .off
  txLastBitsLatched := 0#3
  rxLastBits := 0#3
  txEvents := []
  mem := []
  scratch := List.replicate Config.default.frameCap 0x00#8
  seq := none
  result := none
  issues := []
  overlaps := []
  events := []
  draws := []
  drawCount := 0
  busOut := []
  refusals := []

end Sys2Proof.Machine
end

