-- ==== Sys2Proof/Machine/Flags.lean ====
section
/-! DEFINITION. Flags and register fields: the interrupt flag registers (10_state.md R39-R42), the error register (R43,
R44), `BitFramingReg` (R48), and the tests the sequencer makes of them. A bit's number here is that of its register's
table; where it stands on the bus is `RegMap`'s (Machine/Layout.lean). -/

namespace Sys2Proof.Machine

open Sys2Proof

/-- `TxIRq`, `ComIrqReg` bit 6 (R39). -/
def txIrqBit : BitVec 7 := 0x40#7

/-- `RxIRq`, `ComIrqReg` bit 5 (R39). -/
def rxIrqBit : BitVec 7 := 0x20#7

/-- `TimerIRq`, `ComIrqReg` bit 0 (R39). -/
def timerIrqBit : BitVec 7 := 0x01#7

/-- `CRCIRq`, `DivIrqReg` bit 2 (R42). -/
def crcIrqBit : BitVec 7 := 0x04#7

/-- The flags of `ComIrqReg` that a write reaches: all seven (40_bus.md R143). -/
def comIrqFlags : BitVec 7 := 0x7F#7

/-- The flags of `DivIrqReg` that a write reaches: `MfinActIRq` and `CRCIRq` (R143). -/
def divIrqFlags : BitVec 7 := 0x14#7

/-- A write of `v` to an interrupt flag register that has the flags `mask` (R41). -/
def irqWrite (mode : IrqWriteMode) (mask flags : BitVec 7) (v : Byte) : BitVec 7 :=
  let m := v.setWidth 7 &&& mask
  match mode with
  | .setClear => if v.getLsbD 7 then flags ||| m else flags &&& ~~~m
  | .plain => (flags &&& ~~~mask) ||| m

/-- The byte `ClearIrq(reg, m)` writes (42_crc_unit.md R201). -/
def clearIrqByte (mode : IrqWriteMode) (m : Byte) : Byte :=
  match mode with
  | .setClear => m &&& 0x7F#8
  | .plain => 0x00#8

/-- The reserved bits of a register (10_state.md R38, R42, R43, R47, R48). -/
def reservedBits : Reg → Byte
  | .command => 0xC0#8
  | .divIrq => 0x6B#8
  | .error => 0x20#8
  | .control => 0x38#8
  | .bitFraming => 0x08#8
  | .comIrq => 0x00#8
  | .fifoData => 0x00#8
  | .fifoLevel => 0x00#8
  | .crcResultM => 0x00#8
  | .crcResultL => 0x00#8

/-- A register read whose reserved bits are drawn: "Reserved bits of every register in rule R36 read as a draw"
(10_state.md R51, 30_encoding.md R124; log 26). -/
def withReserved (r : Reg) (held d : Byte) : Byte := (held &&& ~~~reservedBits r) ||| (d &&& reservedBits r)

/-- A byte read from a register with its reserved bits 0, as the block writes them back: "Reserved register bits are
written as 0 by every write the block makes" (30_encoding.md R124; log 26). -/
def dropReserved (c : Config) (r : Reg) (t : Byte) : Byte := t &&& ~~~c.regMap.byte r (reservedBits r)

/-- What `SET_BITS` writes where it read `t` (40_bus.md R146). -/
def setIn (c : Config) (r : Reg) (m t : Byte) : Byte := dropReserved c r t ||| m

/-- What `CLEAR_BITS` writes where it read `t` (R147). -/
def clearIn (c : Config) (r : Reg) (m t : Byte) : Byte := dropReserved c r t &&& ~~~m

/-- What a read of `ComIrqReg` shows: bits 6, 5 and 0 held, bits 4:1 drawn, bit 7 zero (40_bus.md R145). -/
def comIrqValue (flags : BitVec 7) (d : Byte) : Byte := (flags.setWidth 8 &&& 0x61#8) ||| (d &&& 0x1E#8)

/-- What a read of `DivIrqReg` shows: bit 2 held, bit 7 zero, the others drawn (R145). -/
def divIrqValue (flags : BitVec 7) (d : Byte) : Byte := (flags.setWidth 8 &&& 0x04#8) ||| (d &&& 0x7B#8)

/-- What a read of `ControlReg` shows: `RxLastBits`, the others drawn (R145). -/
def controlValue (lb : BitVec 3) (d : Byte) : Byte := lb.setWidth 8 ||| (d &&& 0xF8#8)

/-- `BufferOvfl`, `ErrorReg` bit 4 (R43). -/
def bufferOvfl : Byte := 0x10#8

/-- `StartSend`, `BitFramingReg` bit 7 (R48). -/
def startSendMask : Byte := 0x80#8

/-- `StartSend` in the byte on the bus: the mask of `STARTSEND` and `STOPSEND` (30_encoding.md R127). -/
def startSendBus (c : Config) : Byte := c.regMap.byte .bitFraming startSendMask

/-- `FlushBuffer`, `FIFOLevelReg` bit 7 (R46). -/
def isFlush (v : Byte) : Bool := v.getLsbD 7

/-- `TxLastBits`, `BitFramingReg[2:0]` (R48). -/
def txLastBitsOf (framing : Byte) : BitVec 3 := framing.extractLsb' 0 3

/-- `RxLastBits` as read from `ControlReg`: `RegRead(ControlReg) & 0x07` (43_command_engine.md R215 step 8). -/
def rxLastBitsOf (c : Config) (v : Byte) : BitVec 3 := (c.regMap.fields .control v).extractLsb' 0 3

/-- `FIFOLevel` as read from `FIFOLevelReg`: `RegRead(FIFOLevelReg) & 0x7F` (R215 step 8). -/
def levelOf (c : Config) (v : Byte) : Nat := (c.regMap.fields .fifoLevel v &&& 0x7F#8).toNat

/-- `CommandReg[3:0]` (R38). -/
def commandOf (v : Byte) : BitVec 4 := v.extractLsb' 0 4

/-- The CRC poll's test, `n[2] = 1` (42_crc_unit.md R200 step 6). -/
def crcSeen (c : Config) (v : Byte) : Bool := (c.regMap.fields .divIrq v).getLsbD 2

/-- The transceive poll's test of the byte read, `n & WAIT_MASK != 0` (43_command_engine.md R215 step 4). -/
def waitSeen (c : Config) (v : Byte) : Bool := (v &&& c.waitMask) != 0#8

/-- The error test of the byte read, `e & ERR_MASK != 0` (R215 step 7, R219): "the mask literal is kept whatever the layout"
(92_eei_decisions.md D3). -/
def errorSeen (e : Byte) : Bool := (e &&& errMask) != 0#8

/-- Whether a write of the fields `f` is given a meaning, and the refusal where it is not (40_bus.md R143 `WriteLegal`). -/
def fieldRefusal (c : Config) (r : Reg) (f : Byte) : Option Refusal :=
  match r with
  | .command =>
    if f.extractLsb' 4 4 ≠ 0#4 then some .unmodelledCommandBits
    else if commandOf f ∈ [c.cmdIdle, c.cmdCalcCrc, c.cmdTransceive] then none
    else some .unmodelledCommand
  | .bitFraming => if f.extractLsb' 3 4 ≠ 0#4 then some .unmodelledFraming else none
  | .error => some .readOnlyRegister
  | .crcResultM => some .readOnlyRegister
  | .crcResultL => some .readOnlyRegister
  | .control => some .unmodelledRegisterWrite
  | .comIrq => none
  | .divIrq => none
  | .fifoData => none
  | .fifoLevel => none

/-- Whether a raw write of the byte `v` is given a meaning, and the refusal where it is not (R143). -/
def writeRefusal (c : Config) (r : Reg) (v : Byte) : Option Refusal := fieldRefusal c r (c.regMap.fields r v)

end Sys2Proof.Machine
end

