-- ==== Sys2Proof/Machine/Memory.lean ====
section
/-! DEFINITION. Host buffer memory, byte by byte (20_memory.md R80, R84, R87). -/

namespace Sys2Proof.Machine

open Sys2Proof

/-- What an address that no cell lists reads as. DESIGN CHOICE, log 5: the memory is the host's (R311), the spec gives it no
contents. -/
def Memory.unlisted : Byte := 0x00#8

/-- The byte at an address (`MemRead`, R84). -/
def Memory.read : Memory → Nat → Byte
  | [], _ => Memory.unlisted
  | (b, v) :: m, a => if a = b then v else Memory.read m a

/-- Store a byte (`MemWrite`, R84), keeping the canonical form: addresses rising, nothing listed that reads as unlisted. -/
def Memory.write : Memory → Nat → Byte → Memory
  | [], a, v => if v = Memory.unlisted then [] else [(a, v)]
  | (b, w) :: m, a, v =>
    if a < b then (if v = Memory.unlisted then (b, w) :: m else (a, v) :: (b, w) :: m)
    else if a = b then (if v = Memory.unlisted then m else (a, v) :: m)
    else (b, w) :: Memory.write m a v

/-- The canonical form: addresses strictly rising and no cell that holds the unlisted byte. -/
def Memory.wf : Memory → Bool
  | [] => true
  | (b, w) :: m => w != Memory.unlisted && m.all (fun x => decide (b < x.1)) && Memory.wf m

end Sys2Proof.Machine
end

