-- ==== Sys2Proof/Machine/Operands.lean ====
section
/-! DEFINITION. Operand forms: registers by address, buffer areas, the bit length and the drain count. -/

namespace Sys2Proof.Machine

open Sys2Proof

/-- The register an address names, none outside the ten (10_state.md R36, R37). -/
def regOf (c : Config) (a : RegAddr) : Option Reg :=
  Reg.all.find? fun r => c.regMap.addr r == a

/-- A caller's region as an area of host memory (20_memory.md R84). -/
def areaOf (r : Region) : Area := ⟨.host, r.base, r.len⟩

/-- The part of an area from byte `o` on: a part of an operand stays inside the operand (log 17). -/
def Area.from (a : Area) (o : Nat) : Area := ⟨a.space, a.base + o, a.len - o⟩

/-- The scratch buffer from byte `o` on; it ends only at `FRAME_CAP` (44_card_frames.md R253). -/
def scratchFrom (c : Config) (o : Nat) : Area := ⟨.scratch, o, c.frameCap - o⟩

/-- The address that byte `i` of an area stands at. -/
def Area.addr (a : Area) (i : Nat) : Nat := a.base + i

/-- The received bit length of `n` bytes with `lb` valid bits in the last, modulo 2^`BITLEN_WIDTH`
(30_encoding.md R122, 43_command_engine.md R220). -/
def bitLength (c : Config) (n : Nat) (lb : BitVec 3) : Nat :=
  let bits : Int := if lb = 0#3 then 8 * n else 8 * ((n : Int) - 1) + lb.toNat
  (bits % (2 ^ c.bitLenWidth : Nat)).toNat

/-- The number of bytes the drain reads (43_command_engine.md R215 step 8, R221). -/
def drainCount (c : Config) (n : Nat) : Nat := min (if n = 0 then 1 else n) c.frameCap

end Sys2Proof.Machine
end

