-- ==== Sys2Proof/Machine/Ops.lean ====
section
/-! DEFINITION. The shared operations: draws, bus lines, the FIFO, the chip's side of a transaction, the two bus transactions
and the buffer accesses. The block has no trap to take (60_exceptions.md R280); an operation ends by `State.finish`. -/

namespace Sys2Proof.Machine

open Sys2Proof

/-! ### Draws (00_scope.md R10) -/

/-- The next draw byte: the head of the tape, or past its end a free byte (log 2). -/
def State.draw (s : State) : Byte × State :=
  match s.draws with
  | d :: ds => (d, { s with draws := ds })
  | [] => (Config.freeByte s.drawCount, { s with drawCount := s.drawCount + 1 })

/-- A draw of 16 bits. -/
def State.draw16 (s : State) : Word16 × State :=
  let (h, s1) := s.draw
  let (l, s2) := s1.draw
  (h ++ l, s2)

/-! ### Bus lines (40_bus.md R140, R141, R149) -/

/-- The bits of a byte in the order they go out (20_memory.md R82). -/
def bitsMsbFirst (b : Byte) : List Bool := [7, 6, 5, 4, 3, 2, 1, 0].map b.getLsbD

/-- One clock pulse with MOSI at `bit`; SCK is low again after it (R141). -/
def State.clockBit (s : State) (bit : Bool) : State := { s with mosi := bit, sck := false }

/-- The MOSI side of `TRANSFER_BYTE` (R141). Chip-select is the caller's. -/
def State.shiftOut (s : State) (out : Byte) : State :=
  (bitsMsbFirst out).foldl State.clockBit { s with busOut := out :: s.busOut }

/-- The lines of one register transaction: select, two bytes, deselect (R142, R144, R150). -/
def State.transact (s : State) (b0 b1 : Byte) : State :=
  let sel := { s with nss := false }
  { (sel.shiftOut b0).shiftOut b1 with nss := true }

/-! ### FIFO (41_chip_commands.md R171, R175, R177, R178) -/

/-- `FifoPush(v)` (R177). -/
def State.fifoPush (s : State) (v : Byte) : State :=
  if s.fifo.length < s.cfg.fifoDepth then { s with fifo := s.fifo ++ [v] }
  else { s with errorReg := s.errorReg ||| bufferOvfl }

/-- `FifoPop()` (R178): a draw from an empty FIFO. -/
def State.fifoPop (s : State) : Byte × State :=
  match s.fifo with
  | b :: bs => (b, { s with fifo := bs })
  | [] => s.draw

/-- `FifoFlush()` (R175). -/
def State.fifoFlush (s : State) : State :=
  { s with fifo := [], errorReg := s.errorReg &&& ~~~bufferOvfl }

/-! ### Chip side of the transactions -/

/-- "a half-done result is any value": the CRC result of a busy engine is drawn (R160). -/
def State.spoilCrc (s : State) : State :=
  match s.crcState with
  | .busy _ => { s.draw16.2 with crcResult := s.draw16.1 }
  | .off => s
  | .done => s

/-- The running command ends: both engines go off (R160). -/
def State.endCommand (s : State) : State := { s.spoilCrc with crcState := .off, trxState := .off }

/-- `StartCommand(c)` (R160, R161, R162, R166). -/
def State.startCommand (s : State) (code : BitVec 4) : State :=
  if code = s.cfg.cmdCalcCrc then { s.endCommand with crcState := .busy s.fifo }
  else if code = s.cfg.cmdTransceive then { s.endCommand with errorReg := 0x00#8, trxState := .armed }
  else s.endCommand

/-- `ChipWrite(a, v)` (40_bus.md R143) of the fields `v`, for a write that `writeRefusal` lets pass; a register with no
write effect keeps its value. -/
def State.chipWrite (s : State) (r : Reg) (v : Byte) : State :=
  match r with
  | .command => ({ s with commandReg := v }).startCommand (commandOf v)
  | .comIrq => { s with comIrq := irqWrite s.cfg.irqWriteMode comIrqFlags s.comIrq v }
  | .divIrq => { s with divIrq := irqWrite s.cfg.irqWriteMode divIrqFlags s.divIrq v }
  | .fifoData => s.fifoPush v
  | .fifoLevel => if isFlush v then s.fifoFlush else s
  | .bitFraming => { s with bitFraming := v }
  | .error => s
  | .control => s
  | .crcResultM => s
  | .crcResultL => s

/-- One byte of the CRC result: a draw while the engine is busy (41_chip_commands.md R165). -/
def State.crcRead (s : State) (part : Word16 → Byte) : Byte × State :=
  match s.crcState with
  | .busy _ => s.draw
  | .off => (part s.crcResult, s)
  | .done => (part s.crcResult, s)

/-- `ChipRead(a)` (40_bus.md R145), as fields; reserved bits are drawn (10_state.md R51). -/
def State.chipRead (s : State) (r : Reg) : Byte × State :=
  match r with
  | .command => let (d, s') := s.draw; (withReserved .command s.commandReg d, s')
  | .comIrq => let (d, s') := s.draw; (comIrqValue s.comIrq d, s')
  | .divIrq => let (d, s') := s.draw; (divIrqValue s.divIrq d, s')
  | .error => let (d, s') := s.draw; (withReserved .error s.errorReg d, s')
  | .fifoData => s.fifoPop
  | .fifoLevel => ((BitVec.ofNat 7 s.fifo.length).setWidth 8, s)
  | .control => let (d, s') := s.draw; (controlValue s.rxLastBits d, s')
  | .bitFraming => let (d, s') := s.draw; (withReserved .bitFraming s.bitFraming d, s')
  | .crcResultM => s.crcRead crcHigh
  | .crcResultL => s.crcRead crcLow

/-! ### The two bus transactions (40_bus.md R142, R144) -/

/-- `RegWrite(a, v)` of the byte `v`: the lines, then the chip's effect. -/
def State.regWrite (s : State) (r : Reg) (v : Byte) : State :=
  (s.transact (writeAddrByte (s.cfg.regMap.addr r)) v).chipWrite r (s.cfg.regMap.fields r v)

/-- `RegRead(a)`: the lines, then the byte the chip gives. -/
def State.regRead (s : State) (r : Reg) : Byte × State :=
  let (f, s') := (s.transact (readAddrByte (s.cfg.regMap.addr r)) s.cfg.dummy).chipRead r
  (s.cfg.regMap.byte r f, s')

/-- `RegWrite` of the byte that carries the fields `f`: how the block writes what its rules say in fields. -/
def State.setReg (s : State) (r : Reg) (f : Byte) : State := s.regWrite r (s.cfg.regMap.byte r f)

/-- `ClearIrq(reg, m)` (42_crc_unit.md R201). -/
def State.clearIrq (s : State) (r : Reg) (m : Byte) : State := s.setReg r (clearIrqByte s.cfg.irqWriteMode m)

/-! ### Buffer accesses (20_memory.md R84, 44_card_frames.md R253) -/

/-- Whether byte `i` of an area may be reached. -/
def State.reaches (s : State) (a : Area) (i : Nat) : Bool :=
  match a.space with
  | .host => i < a.len && a.addr i < s.cfg.hostMemSize
  | .scratch => a.addr i < s.cfg.frameCap

/-- The byte at byte `i` of an area, looked at with no step. -/
def State.peek (s : State) (a : Area) (i : Nat) : Byte :=
  match a.space with
  | .host => Memory.read s.mem (a.addr i)
  | .scratch => s.scratch.getD (a.addr i) 0x00#8

/-- `MemRead` or `ScratchRead`; none where it overruns. -/
def State.areaRead (s : State) (a : Area) (i : Nat) : Option Byte :=
  if s.reaches a i then some (s.peek a i) else none

/-- `MemWrite` or `ScratchWrite`; none where it overruns. -/
def State.areaWrite (s : State) (a : Area) (i : Nat) (v : Byte) : Option State :=
  if s.reaches a i then
    match a.space with
    | .host => some { s with mem := Memory.write s.mem (a.addr i) v }
    | .scratch => some { s with scratch := s.scratch.set (a.addr i) v }
  else none

/-! ### The end of an operation, and a refused issue -/

/-- An operation ends: `op` and `pos` are none again and the host has its result (60_exceptions.md R293, 70 R325). -/
def State.finish (s : State) (r : Result) : State := { s with seq := none, result := some r }

/-- The operation goes on from its next line. -/
def State.goOn (s : State) (r : Running) : State := { s with seq := some r }

/-- `refuse(reason)`: the host learns the reason and nothing else changes (60_exceptions.md R287); `refusals` records it,
newest first (log 21). -/
def State.refuse (s : State) (x : Refusal) : State := { s with refusals := x :: s.refusals }

/-- The issues a host makes before the running operation's next line, each refused: "a host issue while `op` ≠ none is refused
with `OperationInProgress`" (R298). The head of the tape `overlaps` is those issues; past its end the host waits (log 15). -/
def State.refuseOverlaps (s : State) : State :=
  match s.overlaps with
  | [] => s
  | ws :: rest =>
    { s with overlaps := rest, refusals := List.replicate ws.length .operationInProgress ++ s.refusals }

end Sys2Proof.Machine
end

