-- ==== Sys2Proof/Machine/Sequencer.lean ====
section
/-! DEFINITION. The sequencer: one step of each operation, line by line of its pseudocode (42_crc_unit.md R200,
43_command_engine.md R215, 44_card_frames.md R241-R246). A line that calls a primitive is one step; what stands between
two such lines takes none (00_scope.md R11). -/

namespace Sys2Proof.Machine

open Sys2Proof

/-- What one step of a frame does: it goes on in the frame, ends with a result, or faults. -/
inductive Move (φ ρ : Type) where
  | go (f : φ) (s : State)
  | done (r : ρ) (s : State)
  | fault (x : Fault)

/-! ### `COMPUTE_CRC` -/

/-- The line after the flush or after a push: the next byte, or the command (R200 steps 4, 5). -/
def crcNextInput (f : CrcFrame) : CrcFrame := { f with line := if f.i < f.len then .readByte else .command }

/-- The poll's read number `f.pollCount + 1` showed `v`: the flag or the spent budget ends it (R200 step 6, R202). -/
def crcAfterPoll (c : Config) (f : CrcFrame) (v : Byte) : CrcFrame :=
  let k := f.pollCount + 1
  { f with pollCount := k, line := if crcSeen c v ∨ crcPollBudget ≤ k then .readLow else .poll }

/-- One step of `COMPUTE_CRC`; it ends with the result bytes, low first (R200). -/
def crcStep (f : CrcFrame) (s : State) : Move CrcFrame (Byte × Byte) :=
  match f.line with
  | .clearIrq => .go { f with line := .idle } (s.clearIrq .divIrq 0x04#8)
  | .idle => .go { f with line := .flush } (s.setReg .command (cmdByte s.cfg.cmdIdle))
  | .flush => .go (crcNextInput f) (s.setReg .fifoLevel flushByte)
  | .readByte =>
    match s.areaRead f.src f.i with
    | some b => .go { f with line := .pushByte, byte := b } s
    | none => .fault .bufferOverrun
  | .pushByte => .go (crcNextInput { f with i := f.i + 1 }) (s.regWrite .fifoData f.byte)
  | .command => .go { f with line := .poll, pollCount := 0 } (s.setReg .command (cmdByte s.cfg.cmdCalcCrc))
  | .poll => let (v, s') := s.regRead .divIrq; .go (crcAfterPoll s.cfg f v) s'
  | .readLow => let (v, s') := s.regRead .crcResultL; .go { f with line := .storeLow, lo := v } s'
  | .storeLow =>
    match s.areaWrite f.dst 0 f.lo with
    | some s' => .go { f with line := .readHigh } s'
    | none => .fault .bufferOverrun
  | .readHigh => let (v, s') := s.regRead .crcResultM; .go { f with line := .storeHigh, hi := v } s'
  | .storeHigh =>
    match s.areaWrite f.dst 1 f.hi with
    | some s' => .done (f.lo, f.hi) s'
    | none => .fault .bufferOverrun

/-! ### `TRANSCEIVE` -/

/-- What `TRANSCEIVE` returns: status, the bit length it delivers with `OK` (R227), the cause of an `ERR`. -/
structure TrxResult where
  status : Status
  bitLen : Nat
  cause  : Option Cause
  deriving DecidableEq, Repr

/-- The line after the flush or after a push: the next byte, or the command (R215 steps 2, 3). -/
def trxNextInput (f : TrxFrame) : TrxFrame := { f with line := if f.i < f.len then .readByte else .command }

/-- The poll's read number `f.pollCount + 1` showed `v` (R215 step 4, R217): a flag in the last read counts. -/
def trxAfterPoll (c : Config) (f : TrxFrame) (v : Byte) : TrxFrame :=
  let k := f.pollCount + 1
  { f with
    pollCount := k
    seen := waitSeen c v
    line := if waitSeen c v ∨ trxPollBudget ≤ k then .stopRead else .poll }

/-- Step 6, after `StartSend` is cleared: the timeout exit, or the error check (R215, R218). -/
def trxAfterStop (f : TrxFrame) : TrxFrame :=
  if f.seen then { f with line := .readError }
  else { f with line := .finalIdle, status := .err, cause := some .timeout }

/-- Step 7: the error exit, or the level read (R215, R219). -/
def trxAfterError (f : TrxFrame) (e : Byte) : TrxFrame :=
  if errorSeen e then { f with line := .finalIdle, status := .err, cause := some .hwErr }
  else { f with line := .readLevel }

/-- Step 8, once level and last bits are read: bit length and drain count (R215, R220, R221). -/
def trxAfterLast (c : Config) (f : TrxFrame) (v : Byte) : TrxFrame :=
  { f with
    line := .drainRead
    lastBits := rxLastBitsOf c v
    bitLen := bitLength c f.n (rxLastBitsOf c v)
    cnt := drainCount c f.n
    i := 0 }

/-- Step 8, after a drained byte is stored: the next one, or `OK` and the idle write (R215). -/
def trxAfterStore (f : TrxFrame) : TrxFrame :=
  if f.i + 1 < f.cnt then { f with line := .drainRead, i := f.i + 1 }
  else { f with line := .finalIdle, i := f.i + 1, status := .ok, cause := none }

/-- One step of `TRANSCEIVE` (R215). -/
def trxStep (f : TrxFrame) (s : State) : Move TrxFrame TrxResult :=
  match f.line with
  | .clearIrq => .go { f with line := .idle } (s.clearIrq .comIrq 0x7F#8)
  | .idle => .go { f with line := .flush } (s.setReg .command (cmdByte s.cfg.cmdIdle))
  | .flush => .go (trxNextInput f) (s.setReg .fifoLevel flushByte)
  | .readByte =>
    match s.areaRead f.inp f.i with
    | some b => .go { f with line := .pushByte, byte := b } s
    | none => .fault .bufferOverrun
  | .pushByte => .go (trxNextInput { f with i := f.i + 1 }) (s.regWrite .fifoData f.byte)
  | .command => .go { f with line := .startRead } (s.setReg .command (cmdByte s.cfg.cmdTransceive))
  | .startRead => let (v, s') := s.regRead .bitFraming; .go { f with line := .startWrite, byte := v } s'
  | .startWrite =>
    .go { f with line := .poll, pollCount := 0 } (s.regWrite .bitFraming (setIn s.cfg .bitFraming (startSendBus s.cfg) f.byte))
  | .poll => let (v, s') := s.regRead .comIrq; .go (trxAfterPoll s.cfg f v) s'
  | .stopRead => let (v, s') := s.regRead .bitFraming; .go { f with line := .stopWrite, byte := v } s'
  | .stopWrite => .go (trxAfterStop f) (s.regWrite .bitFraming (clearIn s.cfg .bitFraming (startSendBus s.cfg) f.byte))
  | .readError => let (v, s') := s.regRead .error; .go (trxAfterError f v) s'
  | .readLevel => let (v, s') := s.regRead .fifoLevel; .go { f with line := .readLast, n := levelOf s.cfg v } s'
  | .readLast => let (v, s') := s.regRead .control; .go (trxAfterLast s.cfg f v) s'
  | .drainRead => let (v, s') := s.regRead .fifoData; .go { f with line := .drainStore, byte := v } s'
  | .drainStore =>
    match s.areaWrite f.out f.i f.byte with
    | some s' => .go (trxAfterStore f) s'
    | none => .fault .bufferOverrun
  | .finalIdle => .done ⟨f.status, f.bitLen, f.cause⟩ (s.setReg .command (cmdByte s.cfg.cmdIdle))

/-! ### The calls of the card operations -/

/-- `COMPUTE_CRC` over the first `len` bytes of a frame, its result appended to the frame (R243-R246). -/
def appendCrc (a : Area) (len : Nat) : CrcFrame := { src := a, len := len, dst := a.from len }

/-- The `COMPUTE_CRC` a card operation calls; `REQUEST` and `READ_UID` call none and have a frame that is never run. -/
def CardOp.crcFrame (c : Config) : CardOp → CrcFrame
  | .select _ _ _ => appendCrc (scratchFrom c 0) 7
  | .readPage _ buf => appendCrc (areaOf buf) 2
  | .writePage _ _ => appendCrc (scratchFrom c 0) 6
  | .halt => appendCrc (scratchFrom c 0) 2
  | .request _ buf => appendCrc (areaOf buf) 0
  | .readUid _ _ buf => appendCrc (areaOf buf) 0

/-- The `TRANSCEIVE` a card operation calls (R241 step 3 to R246 step 3). -/
def CardOp.trxFrame (c : Config) : CardOp → TrxFrame
  | .request _ buf => { inp := areaOf buf, len := 1, out := areaOf buf }
  | .readUid _ _ buf => { inp := areaOf buf, len := 2, out := areaOf buf }
  | .select _ _ serial => { inp := scratchFrom c 0, len := 9, out := areaOf serial }
  | .readPage _ buf => { inp := areaOf buf, len := 4, out := areaOf buf }
  | .writePage _ _ => { inp := scratchFrom c 0, len := 8, out := scratchFrom c 0 }
  | .halt => { inp := scratchFrom c 0, len := 4, out := scratchFrom c 0 }

/-- A card operation calls `COMPUTE_CRC`: the second frame begins (R294). -/
def callCrc (c : CardFrame) (s : State) : Running :=
  .cardCrc { c with line := .callCrc } (c.op.crcFrame s.cfg)

/-- A card operation calls `TRANSCEIVE`. -/
def callTrx (c : CardFrame) (s : State) : Running :=
  .cardTrx { c with line := .callTrx } (c.op.trxFrame s.cfg)

/-! ### The card operations -/

/-- The byte that goes to scratch index `c.i` while a frame is built (R243 step 2, R245 step 1, R246 step 1). -/
def buildByte (cfg : Config) (c : CardFrame) : Byte :=
  match c.op with
  | .select cmd arg _ => ([cmd, arg] ++ c.u ++ [xorBytes c.u]).getD c.i 0x00#8
  | .writePage page _ => ([cfg.opWrite, page] ++ c.u).getD c.i 0x00#8
  | .halt => [cfg.opHalt, 0x00#8].getD c.i 0x00#8
  | .request _ _ => 0x00#8
  | .readUid _ _ _ => 0x00#8
  | .readPage _ _ => 0x00#8

/-- The byte that goes to byte `c.i` of the caller's buffer (R241 step 2, R242 step 2, R244 step 1). -/
def putByte (cfg : Config) (c : CardFrame) : Byte :=
  match c.op with
  | .request code _ => code
  | .readUid cmd arg _ => [cmd, arg].getD c.i 0x00#8
  | .readPage page _ => [cfg.opRead, page].getD c.i 0x00#8
  | .select _ _ _ => 0x00#8
  | .writePage _ _ => 0x00#8
  | .halt => 0x00#8

/-- The caller's buffer of a card operation; `HALT` has none. -/
def CardOp.buffer : CardOp → Area
  | .request _ buf => areaOf buf
  | .readUid _ _ buf => areaOf buf
  | .select _ _ serial => areaOf serial
  | .readPage _ buf => areaOf buf
  | .writePage _ data => areaOf data
  | .halt => ⟨.host, 0, 0⟩

/-- How many bytes of the frame go to the caller's buffer before the call. -/
def CardOp.putCount : CardOp → Nat
  | .request _ _ => 1
  | .readUid _ _ _ => 2
  | .readPage _ _ => 2
  | .select _ _ _ => 0
  | .writePage _ _ => 0
  | .halt => 0

/-- After a byte of the frame went to the caller's buffer. -/
def afterPut (c : CardFrame) (s : State) : Running :=
  if c.i + 1 < c.op.putCount then .card { c with line := .put, i := c.i + 1 }
  else
    match c.op with
    | .readPage _ _ => callCrc c s
    | .request _ _ => callTrx c s
    | .readUid _ _ _ => callTrx c s
    | .select _ _ _ => callTrx c s
    | .writePage _ _ => callTrx c s
    | .halt => callTrx c s

/-- After a byte of the caller's buffer was read: `SELECT` reads all four and then builds, `WRITE_PAGE` builds with each. -/
def afterLoad (c : CardFrame) (b : Byte) : Running :=
  let u := c.u ++ [b]
  match c.op with
  | .select _ _ _ =>
    if u.length < 4 then .card { c with line := .load, u := u } else .card { c with line := .build, i := 0, u := u }
  | .writePage _ _ => .card { c with line := .build, u := u }
  | .request _ _ => .card { c with u := u }
  | .readUid _ _ _ => .card { c with u := u }
  | .readPage _ _ => .card { c with u := u }
  | .halt => .card { c with u := u }

/-- After a byte of the frame went to the scratch buffer. -/
def afterBuild (c : CardFrame) (s : State) : Running :=
  let c' := { c with i := c.i + 1 }
  match c.op with
  | .select _ _ _ => if c'.i < 7 then .card { c' with line := .build } else callCrc c' s
  | .writePage _ _ =>
    if c'.i < 2 then .card { c' with line := .build }
    else if c'.i < 6 then .card { c' with line := .load }
    else callCrc c' s
  | .halt => if c'.i < 2 then .card { c' with line := .build } else callCrc c' s
  | .request _ _ => callCrc c' s
  | .readUid _ _ _ => callCrc c' s
  | .readPage _ _ => callCrc c' s

/-- `ERR` with its cause label (60_exceptions.md R282). -/
def errResult (cause : Option Cause) : Result := { status := some .err, cause := cause }

/-- `OK` with the bytes returned. -/
def okResult (data : List Byte) : Result := { status := some .ok, data := data }

/-- `ERR` for a wrong length or content (60_exceptions.md R284). -/
def protoErr : Result := errResult (some .proto)

/-- The bytes 0 to `n - 1` of an area, looked at with no step. -/
def State.peekList (s : State) (a : Area) (n : Nat) : List Byte := (List.range n).map (s.peek a)

/-- A card operation whose `TRANSCEIVE` returned `OK` goes on: the length checks, and the lines after them
(R240, R241 step 4 to R246 step 4). -/
def afterTrxOk (c : CardFrame) (bitLen : Nat) (s : State) : State :=
  match c.op with
  | .request _ buf =>
    s.finish (if bitLen = 16 then okResult (s.peekList (areaOf buf) 2) else protoErr)
  | .readUid _ _ _ => s.goOn (.card { c with line := .check, i := 0, u := [], bitLen := bitLen })
  | .select _ _ serial =>
    s.finish (if bitLen = 24 then okResult (s.peekList (areaOf serial) 1) else protoErr)
  | .readPage _ buf =>
    s.finish (if bitLen = 144 then okResult (s.peekList (areaOf buf) 16) else protoErr)
  | .writePage _ _ => s.goOn (.card { c with line := .ackByte, bitLen := bitLen })
  | .halt => s.finish (okResult [])

/-- A card operation whose `TRANSCEIVE` returned. An `ERR` of it is the operation's `ERR`, with the same label (R240, R282). -/
def afterTrx (c : CardFrame) (r : TrxResult) (s : State) : State :=
  match r.status with
  | .ok => afterTrxOk c r.bitLen s
  | .err => s.finish (errResult r.cause)

/-- `READ_UID` step 5 after one more byte: five bytes with exclusive or 0 are accepted (R242, R248). -/
def afterCheck (c : CardFrame) (b : Byte) (s : State) : State :=
  let u := c.u ++ [b]
  if c.i + 1 < 5 then s.goOn (.card { c with i := c.i + 1, u := u })
  else s.finish (if xorBytes u = 0x00#8 then okResult u else protoErr)

/-- `WRITE_PAGE` step 4: the length first, then the low nibble (R245, 60 R291). -/
def afterAck (c : CardFrame) (a : Byte) (s : State) : State :=
  s.finish (if c.bitLen = 4 ∧ a.extractLsb' 0 4 = ack then okResult [] else protoErr)

/-- The framing a card operation writes: `REQUEST` seven bits, `READ_UID` whole bytes (R241 step 1, R242 step 1); the others
write none and have no such line. -/
def CardOp.framing : CardOp → Byte
  | .request _ _ => 0x07#8
  | .readUid _ _ _ => 0x00#8
  | .select _ _ _ => 0x00#8
  | .readPage _ _ => 0x00#8
  | .writePage _ _ => 0x00#8
  | .halt => 0x00#8

/-- One step of a card operation on a line of its own. The two call lines have no primitive: they begin the call. -/
def cardStep (c : CardFrame) (s : State) : Host.Outcome State Fault Refusal :=
  match c.line with
  | .framing =>
    .next ((s.setReg .bitFraming c.op.framing).goOn (.card { c with line := .put }))
  | .put =>
    match s.areaWrite c.op.buffer c.i (putByte s.cfg c) with
    | some s' => .next (s'.goOn (afterPut c s'))
    | none => .fault .bufferOverrun
  | .load =>
    match s.areaRead c.op.buffer c.u.length with
    | some b => .next (s.goOn (afterLoad c b))
    | none => .fault .bufferOverrun
  | .build =>
    match s.areaWrite (scratchFrom s.cfg 0) c.i (buildByte s.cfg c) with
    | some s' => .next (s'.goOn (afterBuild c s'))
    | none => .fault .bufferOverrun
  | .check =>
    match s.areaRead c.op.buffer c.i with
    | some b => .next (afterCheck c b s)
    | none => .fault .bufferOverrun
  | .ackByte =>
    match s.areaRead (scratchFrom s.cfg 0) 0 with
    | some b => .next (afterAck c b s)
    | none => .fault .bufferOverrun
  | .callCrc => .next (s.goOn (callCrc c s))
  | .callTrx => .next (s.goOn (callTrx c s))

/-! ### Raw writes and responses -/

/-- The next raw write of a compound or of a frame the encoder writes; the last one ends it. -/
def writesStep (ws : List (Reg × Byte)) (s : State) : State :=
  match ws with
  | [] => s.finish {}
  | [(r, v)] => (s.regWrite r v).finish {}
  | (r, v) :: w :: rest => (s.regWrite r v).goOn (.writes (w :: rest))

/-- The bytes accepted as a response of a kind: the length it requires, the bytes the issued row names, and its check
(30_encoding.md R116). The upper nibble of the acknowledgement is not examined (R120, 90_conflicts.md C2). -/
def RespKind.accepts (k : RespKind) (expected got : List Byte) (bitLen : Nat) : Bool :=
  match k with
  | .atqa => bitLen == 16 && got == expected
  | .uid => got.take 5 == expected && xorBytes (got.take 5) == 0x00#8
  | .sak => bitLen == 24 && got == expected
  | .read => bitLen == 144 && got == expected
  | .ack => bitLen == 4 && (got.getD 0 0x00#8).extractLsb' 0 4 == Sys2Proof.ack

/-- The bytes a response hands on: a read gives the first 16 (R119), the SAK its first, the acknowledgement none. -/
def RespKind.payload (k : RespKind) (got : List Byte) : List Byte :=
  match k with
  | .atqa => got
  | .uid => got.take 5
  | .sak => got.take 1
  | .read => got.take 16
  | .ack => []

/-- One step of decoding a response: `ControlReg`, then the drain, then the check (R116, R122). -/
def respStep (f : RespFrame) (s : State) : State :=
  match f.line with
  | .readLast =>
    let (v, s') := s.regRead .control
    s'.goOn (.resp { f with
      line := .drain, bitLen := bitLength s.cfg f.n (rxLastBitsOf s.cfg v), cnt := drainCount s.cfg f.n })
  | .drain =>
    let (v, s') := s.regRead .fifoData
    let got := f.got ++ [v]
    if got.length < f.cnt then s'.goOn (.resp { f with got := got })
    else s'.finish (if f.kind.accepts f.expected got f.bitLen then okResult (f.kind.payload got) else protoErr)

/-! ### The running operation -/

/-- The result `COMPUTE_CRC` hands to the host: the two bytes and no status (R200). -/
def crcResultOf (r : Byte × Byte) : Result := { data := [r.1, r.2] }

/-- The result `TRANSCEIVE` hands to the host: the bit length only with `OK` (R215, R227). -/
def trxResultOf (r : TrxResult) : Result :=
  match r.status with
  | .ok => { status := some .ok, bitLen := some r.bitLen }
  | .err => errResult r.cause

/-- One step of the sequencer. -/
def seqStep (r : Running) (s : State) : Host.Outcome State Fault Refusal :=
  match r with
  | .writes ws => .next (writesStep ws s)
  | .resp f => .next (respStep f s)
  | .crc f =>
    match crcStep f s with
    | .go f' s' => .next (s'.goOn (.crc f'))
    | .done b s' => .next (s'.finish (crcResultOf b))
    | .fault x => .fault x
  | .trx f =>
    match trxStep f s with
    | .go f' s' => .next (s'.goOn (.trx f'))
    | .done b s' => .next (s'.finish (trxResultOf b))
    | .fault x => .fault x
  | .card c => cardStep c s
  | .cardCrc c f =>
    match crcStep f s with
    | .go f' s' => .next (s'.goOn (.cardCrc c f'))
    | .done _ s' => .next (s'.goOn (callTrx c s'))
    | .fault x => .fault x
  | .cardTrx c f =>
    match trxStep f s with
    | .go f' s' => .next (s'.goOn (.cardTrx c f'))
    | .done b s' => .next (afterTrx c b s')
    | .fault x => .fault x

end Sys2Proof.Machine
end

