-- ==== Sys2Proof/Machine/Bus.lean ====
section
/-! DEFINITION. Meanings of the byte transfer, the two transactions, the compounds, the chip commands and the
pseudo-instructions (40_bus.md R141-R148, 41_chip_commands.md R160-R167, 30_encoding.md R127). -/

namespace Sys2Proof.Machine

open Sys2Proof

/-- A host issue while an operation runs is refused (60_exceptions.md R298). -/
def whenIdle (s : State) (k : Host.Outcome State Fault Refusal) : Host.Outcome State Fault Refusal :=
  match s.seq with
  | some _ => .refused .operationInProgress
  | none => k

/-- A raw `RegWrite` by the host (R142): the refusals first, then the transaction. -/
def rawWrite (r : Reg) (v : Byte) (s : State) : Host.Outcome State Fault Refusal :=
  whenIdle s <|
    match writeRefusal s.cfg r v with
    | some x => .refused x
    | none => .next ((s.regWrite r v).finish {})

/-- A raw transaction names its register by address: "if a not in RegMap.block: refuse(UnmodelledRegister)" (R142, R144). -/
def withReg (a : RegAddr) (s : State) (k : Reg → Host.Outcome State Fault Refusal) :
    Host.Outcome State Fault Refusal :=
  match regOf s.cfg a with
  | some r => k r
  | none => .refused .unmodelledRegister

/-- The fields a register holds, for the check of a compound at issue: only `CommandReg` and `BitFramingReg` refuse some
values and not others (60_exceptions.md R287). -/
def State.heldValue (s : State) (r : Reg) : Byte :=
  match r with
  | .command => s.commandReg
  | .bitFraming => s.bitFraming
  | .comIrq => 0x00#8
  | .divIrq => 0x00#8
  | .error => 0x00#8
  | .fifoData => 0x00#8
  | .fifoLevel => 0x00#8
  | .control => 0x00#8
  | .crcResultM => 0x00#8
  | .crcResultL => 0x00#8

/-- A read-modify-write by the host: refused as a whole at issue on the held value (R287; log 14), else the read now and the
write as the next step, so that engine steps may fall between (R146-R148). -/
def rawModify (r : Reg) (f : Byte → Byte) (s : State) : Host.Outcome State Fault Refusal :=
  whenIdle s <|
    match writeRefusal s.cfg r (f (s.cfg.regMap.byte r (s.heldValue r))) with
    | some x => .refused x
    | none => let (t, s') := s.regRead r; .next (s'.goOn (.writes [(r, f t)]))

/-- `TRANSFER_BYTE` by the host (R141): eight pulses, chip-select untouched. No chip is selected between transactions
(R149), so the sampled byte is a draw and the chip takes nothing (log 13). -/
def execTransferByte (out : Byte) (s : State) : Host.Outcome State Fault Refusal :=
  whenIdle s <| let (b, s') := (s.shiftOut out).draw; .next (s'.finish { data := [b] })

/-- `REG_WRITE` (R142). -/
def execRegWrite (a : RegAddr) (v : Byte) (s : State) : Host.Outcome State Fault Refusal :=
  whenIdle s <| withReg a s fun r => rawWrite r v s

/-- `REG_READ` (R144). -/
def execRegRead (a : RegAddr) (s : State) : Host.Outcome State Fault Refusal :=
  whenIdle s <| withReg a s fun r => let (v, s') := s.regRead r; .next (s'.finish { data := [v] })

/-- `SET_BITS` (R146). -/
def execSetBits (a : RegAddr) (m : Byte) (s : State) : Host.Outcome State Fault Refusal :=
  whenIdle s <| withReg a s fun r => rawModify r (setIn s.cfg r m) s

/-- `CLEAR_BITS` (R147). -/
def execClearBits (a : RegAddr) (m : Byte) (s : State) : Host.Outcome State Fault Refusal :=
  whenIdle s <| withReg a s fun r => rawModify r (clearIn s.cfg r m) s

/-- `CMD_IDLE` (R161). -/
def execCmdIdle (s : State) : Host.Outcome State Fault Refusal := rawWrite .command (s.cfg.cmdBus s.cfg.cmdIdle) s

/-- `CMD_CALCCRC` (R162). -/
def execCmdCalcCrc (s : State) : Host.Outcome State Fault Refusal := rawWrite .command (s.cfg.cmdBus s.cfg.cmdCalcCrc) s

/-- `CMD_TRANSCEIVE` (R166). -/
def execCmdTransceive (s : State) : Host.Outcome State Fault Refusal :=
  rawWrite .command (s.cfg.cmdBus s.cfg.cmdTransceive) s

/-- `FLUSH` (R127). -/
def execFlush (s : State) : Host.Outcome State Fault Refusal := rawWrite .fifoLevel s.cfg.flushBus s

/-- `STARTSEND` (R127). -/
def execStartSend (s : State) : Host.Outcome State Fault Refusal :=
  rawModify .bitFraming (setIn s.cfg .bitFraming (startSendBus s.cfg)) s

/-- `STOPSEND` (R127). -/
def execStopSend (s : State) : Host.Outcome State Fault Refusal :=
  rawModify .bitFraming (clearIn s.cfg .bitFraming (startSendBus s.cfg)) s

end Sys2Proof.Machine
end

