-- ==== Sys2Proof/Machine/Frames.lean ====
section
/-! DEFINITION. Meanings of the card frame rows: "a card frame the encoder writes to the FIFO, or a response the decoder
accepts from it" (30_encoding.md R100). -/

namespace Sys2Proof.Machine

open Sys2Proof

/-- The encoder's writes: the first now, each other as a step of its own (00_scope.md R11, log 10). -/
def emit (ws : List (Reg × Byte)) (s : State) : Host.Outcome State Fault Refusal := whenIdle s (.next (writesStep ws s))

/-- The `FIFODataReg` writes of a frame, in FIFO order (20_memory.md R83). -/
def pushAll (bytes : List Byte) : List (Reg × Byte) := bytes.map fun b => (.fifoData, b)

/-- The write of the framing `f` that goes before a frame whose rule names one. -/
def framingWrite (c : Config) (f : Byte) : Reg × Byte := (.bitFraming, c.regMap.byte .bitFraming f)

/-- `FRAME_REQA`: "sent with `TxLastBits` = 7" (R109). -/
def execFrameReqa (s : State) : Host.Outcome State Fault Refusal :=
  emit (framingWrite s.cfg 0x07#8 :: pushAll [reqa]) s

/-- `FRAME_WUPA` (R109). -/
def execFrameWupa (s : State) : Host.Outcome State Fault Refusal :=
  emit (framingWrite s.cfg 0x07#8 :: pushAll [wupa]) s

/-- `FRAME_ANTICOLL`: "`TxLastBits` = 0" (R110). -/
def execFrameAnticoll (c a : Byte) (s : State) : Host.Outcome State Fault Refusal :=
  emit (framingWrite s.cfg 0x00#8 :: pushAll [c, a]) s

/-- The frame that is `first` and its CRC `l`, `h` (R115). Where `l`, `h` are another value it is no frame of R109 to R114,
and "the encoder emits none" (R123, log 11). -/
def emitWithCrc (first : List Byte) (l h : Byte) (s : State) : Host.Outcome State Fault Refusal :=
  if crcMatches s.cfg first l h then emit (pushAll (first ++ [l, h])) s else whenIdle s (.refused .unlistedFrame)

/-- `FRAME_SELECT` (R111); `BitFramingReg` is not written (70_reset_and_hazards.md R315). -/
def execFrameSelect (c a u0 u1 u2 u3 l h : Byte) (s : State) : Host.Outcome State Fault Refusal :=
  emitWithCrc (selectBytes c a u0 u1 u2 u3) l h s

/-- `FRAME_READ` (R112). -/
def execFrameRead (p l h : Byte) (s : State) : Host.Outcome State Fault Refusal :=
  emitWithCrc (readBytes s.cfg p) l h s

/-- `FRAME_WRITE` (R113). -/
def execFrameWrite (p d0 d1 d2 d3 l h : Byte) (s : State) : Host.Outcome State Fault Refusal :=
  emitWithCrc (writeBytes s.cfg p d0 d1 d2 d3) l h s

/-- `FRAME_HALT` (R114). -/
def execFrameHalt (s : State) : Host.Outcome State Fault Refusal := emit (pushAll (haltFrame s.cfg)) s

/-- The decoder is given a response: the level is read now, the rest as steps of their own (R116, R122, log 12). -/
def takeResponse (k : RespKind) (expected : List Byte) (s : State) : Host.Outcome State Fault Refusal :=
  whenIdle s <|
    let (v, s') := s.regRead .fifoLevel
    .next (s'.goOn (.resp { kind := k, expected := expected, n := levelOf s.cfg v }))

/-- `RESP_ATQA` (R116). -/
def execRespAtqa (q0 q1 : Byte) (s : State) : Host.Outcome State Fault Refusal := takeResponse .atqa [q0, q1] s

/-- `RESP_UID` (R117). -/
def execRespUid (u0 u1 u2 u3 b : Byte) (s : State) : Host.Outcome State Fault Refusal :=
  takeResponse .uid [u0, u1, u2, u3, b] s

/-- `RESP_SAK` (R118). -/
def execRespSak (k l h : Byte) (s : State) : Host.Outcome State Fault Refusal := takeResponse .sak [k, l, h] s

/-- `RESP_READ` (R119). -/
def execRespRead (d : List Byte) (l h : Byte) (s : State) : Host.Outcome State Fault Refusal :=
  takeResponse .read (d ++ [l, h]) s

/-- `RESP_ACK` (R120). -/
def execRespAck (hi : BitVec 4) (s : State) : Host.Outcome State Fault Refusal := takeResponse .ack [hi ++ ack] s

end Sys2Proof.Machine
end

