-- ==== Sys2Proof/Machine/HostOps.lean ====
section
/-! DEFINITION. Meanings of the eight sequencer operations: the host's step issues the operation (10_state.md R30), the
sequencer then runs it line by line (Machine/Sequencer.lean). -/

namespace Sys2Proof.Machine

open Sys2Proof

/-- The host issues an operation: `op` and `pos` are set to its first line. -/
def issueOp (r : Running) (s : State) : Host.Outcome State Fault Refusal := whenIdle s (.next (s.goOn r))

/-- `COMPUTE_CRC` (42_crc_unit.md R200): "if len > FRAME_CAP: refuse(LengthOutOfRange)". -/
def execComputeCrc (src dst : Region) (s : State) : Host.Outcome State Fault Refusal :=
  if s.cfg.frameCap < src.len then whenIdle s (.refused .lengthOutOfRange)
  else issueOp (.crc { src := areaOf src, len := src.len, dst := areaOf dst }) s

/-- `TRANSCEIVE` (43_command_engine.md R215): "if inLen < 1 or inLen > FRAME_CAP: refuse(LengthOutOfRange)". -/
def execTransceive (inp out : Region) (s : State) : Host.Outcome State Fault Refusal :=
  if inp.len < 1 ∨ s.cfg.frameCap < inp.len then whenIdle s (.refused .lengthOutOfRange)
  else issueOp (.trx { inp := areaOf inp, len := inp.len, out := areaOf out }) s

/-- `REQUEST` (44_card_frames.md R241). -/
def execRequest (code : Byte) (buf : Region) (s : State) : Host.Outcome State Fault Refusal :=
  issueOp (.card { op := .request code buf, line := .framing }) s

/-- `READ_UID` (R242). -/
def execReadUid (cmd arg : Byte) (buf : Region) (s : State) : Host.Outcome State Fault Refusal :=
  issueOp (.card { op := .readUid cmd arg buf, line := .framing }) s

/-- `SELECT` (R243). -/
def execSelect (cmd arg : Byte) (serial : Region) (s : State) : Host.Outcome State Fault Refusal :=
  issueOp (.card { op := .select cmd arg serial, line := .load }) s

/-- `READ_PAGE` (R244). -/
def execReadPage (page : Byte) (buf : Region) (s : State) : Host.Outcome State Fault Refusal :=
  issueOp (.card { op := .readPage page buf, line := .put }) s

/-- `WRITE_PAGE` (R245). -/
def execWritePage (page : Byte) (data : Region) (s : State) : Host.Outcome State Fault Refusal :=
  issueOp (.card { op := .writePage page data, line := .build }) s

/-- `HALT` (R246). -/
def execHalt (s : State) : Host.Outcome State Fault Refusal :=
  issueOp (.card { op := .halt, line := .build }) s

end Sys2Proof.Machine
end

