-- ==== Sys2Proof/Machine/Dispatch.lean ====
section
/-! DEFINITION. The meaning of each instruction. -/

namespace Sys2Proof.Machine

open Sys2Proof

def exec (i : Instr) (s : State) : Host.Outcome State Fault Refusal :=
  match i with
  | .transferByte out => Sys2Proof.Machine.execTransferByte out s
  | .regWrite a v => Sys2Proof.Machine.execRegWrite a v s
  | .regRead a => Sys2Proof.Machine.execRegRead a s
  | .setBits a m => Sys2Proof.Machine.execSetBits a m s
  | .clearBits a m => Sys2Proof.Machine.execClearBits a m s
  | .cmdIdle => Sys2Proof.Machine.execCmdIdle s
  | .cmdCalcCrc => Sys2Proof.Machine.execCmdCalcCrc s
  | .cmdTransceive => Sys2Proof.Machine.execCmdTransceive s
  | .flush => Sys2Proof.Machine.execFlush s
  | .startSend => Sys2Proof.Machine.execStartSend s
  | .stopSend => Sys2Proof.Machine.execStopSend s
  | .computeCrc src dst => Sys2Proof.Machine.execComputeCrc src dst s
  | .transceive inp out => Sys2Proof.Machine.execTransceive inp out s
  | .request code buf => Sys2Proof.Machine.execRequest code buf s
  | .readUid cmd arg buf => Sys2Proof.Machine.execReadUid cmd arg buf s
  | .select cmd arg serial => Sys2Proof.Machine.execSelect cmd arg serial s
  | .readPage page buf => Sys2Proof.Machine.execReadPage page buf s
  | .writePage page data => Sys2Proof.Machine.execWritePage page data s
  | .halt => Sys2Proof.Machine.execHalt s
  | .frameReqa => Sys2Proof.Machine.execFrameReqa s
  | .frameWupa => Sys2Proof.Machine.execFrameWupa s
  | .frameAnticoll c a => Sys2Proof.Machine.execFrameAnticoll c a s
  | .frameSelect c a u0 u1 u2 u3 l h => Sys2Proof.Machine.execFrameSelect c a u0 u1 u2 u3 l h s
  | .frameRead p l h => Sys2Proof.Machine.execFrameRead p l h s
  | .frameWrite p d0 d1 d2 d3 l h => Sys2Proof.Machine.execFrameWrite p d0 d1 d2 d3 l h s
  | .frameHalt => Sys2Proof.Machine.execFrameHalt s
  | .respAtqa q0 q1 => Sys2Proof.Machine.execRespAtqa q0 q1 s
  | .respUid u0 u1 u2 u3 b => Sys2Proof.Machine.execRespUid u0 u1 u2 u3 b s
  | .respSak k l h => Sys2Proof.Machine.execRespSak k l h s
  | .respRead d l h => Sys2Proof.Machine.execRespRead d l h s
  | .respAck hi => Sys2Proof.Machine.execRespAck hi s

end Sys2Proof.Machine
end

