-- ==== Sys2Proof/Machine/Engines.lean ====
section
/-! DEFINITION. The steps of the chip's own agents: CRC engine, transceive engine with the card oracle, timer
(41_chip_commands.md R163, R168-R173). -/

namespace Sys2Proof.Machine

open Sys2Proof

/-- CRC completion, enabled while the engine is busy (R163). The FIFO afterwards is a drawn list no longer than the data. -/
def State.crcComplete (s : State) (left : List Byte) : State :=
  match s.crcState with
  | .busy data =>
    { s with
      crcResult := crc16 s.cfg data
      divIrq := s.divIrq ||| crcIrqBit
      fifo := left.take data.length
      crcState := .done }
  | .off => s
  | .done => s

/-- The bits (n-1):0 of a byte, bit 0 first in the list; in which order they leave is stated nowhere. -/
def lowBits (n : Nat) (b : Byte) : List Bool := (List.range n).map b.getLsbD

/-- How many bits of a frame's last byte go out: "`TxLastBits` = 0 means all 8 bits" (30_encoding.md R108). -/
def sentBits (lastBits : BitVec 3) : Nat := if lastBits = 0#3 then 8 else lastBits.toNat

/-- The bits of a transmitted frame that go out, byte by byte: every byte whole, but of the last only the low bits that
`TxLastBits` counts (30_encoding.md R108, 41_chip_commands.md R169). -/
def TxEvent.sent (e : TxEvent) : List (List Bool) :=
  e.frame.dropLast.map (lowBits 8) ++ (e.frame.getLast?.map (lowBits (sentBits e.lastBits))).toList

/-- Whether the transmit step is enabled (R168). -/
def State.transmitEnabled (s : State) : Bool :=
  commandOf s.commandReg == s.cfg.cmdTransceive && s.trxState == .armed && s.bitFraming.getLsbD 7 && !s.fifo.isEmpty

/-- The transmit step (R169): the whole FIFO goes out and is recorded, with the cut of its last byte; `TxEvent.sent` are the
bits that went. -/
def State.transmit (s : State) : State :=
  if s.transmitEnabled then
    { s with
      txEvents := ⟨s.fifo, txLastBitsOf s.bitFraming⟩ :: s.txEvents
      txLastBitsLatched := txLastBitsOf s.bitFraming
      fifo := []
      comIrq := s.comIrq ||| txIrqBit
      trxState := .receiving }
  else s

/-- The receive step, enabled while the engine receives (R170, R171): what fits goes into the FIFO, and a lost byte sets
`BufferOvfl`. -/
def State.receive (s : State) (bytes : List Byte) (lastBits : BitVec 3) (err : Byte) : State :=
  match s.trxState with
  | .receiving =>
    let room := s.cfg.fifoDepth - s.fifo.length
    let ovfl := if room < bytes.length then bufferOvfl else 0x00#8
    { s with
      fifo := s.fifo ++ bytes.take room
      rxLastBits := lastBits
      errorReg := err ||| ovfl ||| s.errorReg
      comIrq := s.comIrq ||| rxIrqBit
      trxState := .done }
  | .off => s
  | .armed => s
  | .done => s

/-- The timer step, enabled once a transmission has ended (R173). -/
def State.timerStep (s : State) : State :=
  match s.trxState with
  | .receiving => { s with comIrq := s.comIrq ||| timerIrqBit }
  | .done => { s with comIrq := s.comIrq ||| timerIrqBit }
  | .off => s
  | .armed => s

/-- One engine step; one that is not enabled does not happen. -/
def State.engineStep (s : State) : EngineEvent → State
  | .crcComplete left => s.crcComplete left
  | .transmit => s.transmit
  | .receive bytes lastBits err => s.receive bytes lastBits err
  | .timer => s.timerStep

/-- The engine steps that fall before the next move: the head of the tape, or past its end a free list (log 3). -/
def State.takeEvents (s : State) : List EngineEvent × State :=
  match s.events with
  | evs :: rest => (evs, { s with events := rest })
  | [] => (Config.freeEvents s.drawCount, { s with drawCount := s.drawCount + 1 })

/-- The engine steps between two moves (20_memory.md R93), each atomic, in their order. -/
def State.engines (s : State) : State :=
  let (evs, s') := s.takeEvents
  evs.foldl State.engineStep s'

end Sys2Proof.Machine
end

