-- ==== Sys2Proof/Machine/Fetch.lean ====
section
/-! DEFINITION. The host's next issue and the engine steps around a move (10_state.md R30, 70_reset_and_hazards.md R325). -/

namespace Sys2Proof.Machine

open Sys2Proof

/-- Why the decoder rejects, as a refusal. -/
def refusalOf : DecodeError → Refusal
  | .reservedBusBit => .reservedBusBit
  | .unlistedFrame => .unlistedFrame

/-- A move, then the engine steps that fall before the next one (20_memory.md R93). A fault ends the run: "no further step
of any agent is taken" (60_exceptions.md R286). -/
def thenEngines (o : Host.Outcome State Fault Refusal) : Host.Outcome State Fault Refusal :=
  match o with
  | .next s => .next s.engines
  | .fault x => .fault x
  | .refused x => .refused x

/-- What an issue comes to in the state `s` it is made in. A refused one leaves the block as it is (R287) and the run goes on:
only a fault stops it (70_reset_and_hazards.md R325; log 28). -/
def answer (s : State) (o : Host.Outcome State Fault Refusal) : Host.Outcome State Fault Refusal :=
  match o with
  | .next t => .next t
  | .fault x => .fault x
  | .refused x => .next (s.refuse x)

/-- The host's move while no operation runs: its next issue, or waiting. -/
def hostMove (s : State) : Host.Outcome State Fault Refusal :=
  match s.issues with
  | [] => .next s
  | w :: rest =>
    let s' := { s with issues := rest }
    answer s' <|
      match decode s.cfg w with
      | .ok i => exec i s'
      | .error e => .refused (refusalOf e)

/-- One move of the block: the sequencer's while an operation runs, where an issue the host makes before it is refused and
the others wait (60_exceptions.md R297, R298; log 15), else the host's. -/
def move (s : State) : Host.Outcome State Fault Refusal :=
  match s.seq with
  | some r => seqStep r s.refuseOverlaps
  | none => hostMove s

end Sys2Proof.Machine
end

