-- ==== Sys2Proof/Machine/Step.lean ====
section
/-! DEFINITION. One step: a move of the host or the sequencer, then the engine steps before the next move. -/

namespace Sys2Proof.Machine

open Sys2Proof

/-- One step of the block. -/
def step (s : State) : Host.Outcome State Fault Refusal := thenEngines (move s)

/-- The state with a table word as the host's next issue and no operation running, so that the next step runs it (log 8). -/
def State.withFetchWord (s : State) (nbits w : Nat) : State :=
  { s with seq := none, issues := Issue.ofTable nbits w :: s.issues }

end Sys2Proof.Machine
end

