-- ==== Sys2Proof/Safety.lean ====
section
/-! DEFINITION. Runs, the launch states, the invariant every step keeps, and what a run of an operation is safe under: the
terms the claims use. -/

namespace Sys2Proof.Machine

open Sys2Proof

/-! ### Runs -/

/-- `k` steps of the machine. -/
def run (k : Nat) (s : State) : Host.Outcome State Fault Refusal := Host.Core.run Sys2Proof.core k s

/-- `v` is a state of the run from `s` that comes no later than the first one with no operation running: the operation of
`s` runs at every state before, and at none of them does the run fault. -/
def Reaches (k : Nat) (s v : State) : Prop :=
  run k s = .next v ∧ ∀ j, j < k → ∃ w, run j s = .next w ∧ w.seq ≠ none

/-- The running operation of `s` ends after at most `n` steps, in `u`. -/
def EndsWithin (n : Nat) (s u : State) : Prop := ∃ k, k ≤ n ∧ Reaches k s u ∧ u.seq = none

/-! ### What statements speak of -/

/-- The lines after one transaction with the bytes `b0`, `b1`: chip-select released, clock low, the last bit on MOSI
(40_bus.md R142, R144, R149); `busOut` records both bytes (log 21). -/
def State.bus (s : State) (b0 b1 : Byte) : State :=
  { s with nss := true, sck := false, mosi := b1.getLsbD 0, busOut := b1 :: b0 :: s.busOut }

/-- The `n` bytes of host memory from `base` on. -/
def State.hostBytes (s : State) (base n : Nat) : List Byte := (List.range n).map fun i => Memory.read s.mem (base + i)

/-- Neither engine has a step to take: no CRC is running and the transceive engine neither waits to send nor to receive,
nor may the timer fire (41_chip_commands.md R163, R168, R170, R173). -/
def State.Calm (s : State) : Prop := (∀ d, s.crcState ≠ .busy d) ∧ s.trxState = .off

/-- The chip's flags, errors, engines, last bits and record of transmissions are as before. -/
def State.ChipKept (s u : State) : Prop :=
  u.comIrq = s.comIrq ∧ u.divIrq = s.divIrq ∧ u.errorReg = s.errorReg ∧ u.crcState = s.crcState ∧
    u.crcResult = s.crcResult ∧ u.trxState = s.trxState ∧ u.rxLastBits = s.rxLastBits ∧
    u.txLastBitsLatched = s.txLastBitsLatched ∧ u.txEvents = s.txEvents

/-- What a frame row does: the encoder writes the framing where it writes one, then the bytes (30_encoding.md R108-R114).
It touches no command, memory or flag register, and with calm engines the FIFO is lengthened by exactly the bytes. -/
def Queues (i : Instr) (framing : Option Byte) (bytes : List Byte) (s : State) : Prop :=
  ∃ t, exec i s = .next t ∧ ∃ u, EndsWithin bytes.length t.engines u ∧
    u.commandReg = s.commandReg ∧ u.mem = s.mem ∧ u.scratch = s.scratch ∧
    u.bitFraming = framing.getD s.bitFraming ∧ u.result = some {} ∧
    (s.Calm → s.fifo.length + bytes.length ≤ s.cfg.fifoDepth →
      u.fifo = s.fifo ++ bytes ∧ s.ChipKept u)

/-- What a response row does: level, last bits and bytes are read, and the answer is `OK` with the payload exactly where
`accepts` holds of the received bytes and bit length, else `ERR` (30_encoding.md R116, R122). It writes no register and no
memory; with calm engines and a FIFO that is not empty the bytes are the FIFO's first `FRAME_CAP`. -/
def Answers (i : Instr) (accepts : List Byte → Nat → Bool) (payload : List Byte → List Byte) (s : State) : Prop :=
  ∃ t, exec i s = .next t ∧ ∃ u, EndsWithin (s.cfg.frameCap + 2) t.engines u ∧
    u.commandReg = s.commandReg ∧ u.mem = s.mem ∧ u.scratch = s.scratch ∧ u.bitFraming = s.bitFraming ∧
    (s.Calm → s.fifo ≠ [] →
      u.fifo = s.fifo.drop s.cfg.frameCap ∧ s.ChipKept u ∧
      u.result = some (
        if accepts (s.fifo.take s.cfg.frameCap) (bitLength s.cfg s.fifo.length s.rxLastBits) then
          { status := some .ok, data := payload (s.fifo.take s.cfg.frameCap) }
        else { status := some .err, cause := some .proto }))

/-! ### Launch states -/

/-- Every state that 70_reset_and_hazards.md R311 admits: the values it fixes, and any values where it says "unspecified".
The host's memory, issues and inputs are the host's. -/
structure Launch (s : State) : Prop where
  cfg     : s.cfg.Wf
  command : s.commandReg = cmdByte s.cfg.cmdIdle
  crc     : s.crcState = .off
  trx     : s.trxState = .off
  fifo    : s.fifo.length ≤ s.cfg.fifoDepth
  framing : s.bitFraming.extractLsb' 3 5 = 0#5
  lines   : s.nss = true ∧ s.sck = false ∧ s.rstAsserted = false ∧ s.pwrEn = true
  seq     : s.seq = none
  scratch : s.scratch.length = s.cfg.frameCap
  mem     : Memory.wf s.mem = true ∧ ∀ x ∈ s.mem, x.1 < s.cfg.hostMemSize

/-! ### The invariant -/

/-- A `COMPUTE_CRC` frame polls within its budget (10_state.md R58, 42_crc_unit.md R200). -/
def CrcFrame.Ok (f : CrcFrame) : Prop :=
  f.pollCount ≤ crcPollBudget ∧ (f.line = .poll → f.pollCount < crcPollBudget)

/-- A `TRANSCEIVE` frame polls within its budget, and between the read and the write of a compound it holds the value of
`BitFramingReg`, its reserved bit aside (R58, 40_bus.md R148, 30_encoding.md R124). -/
def TrxFrame.Ok (s : State) (f : TrxFrame) : Prop :=
  f.pollCount ≤ trxPollBudget ∧ (f.line = .poll → f.pollCount < trxPollBudget) ∧
    (f.line = .startWrite ∨ f.line = .stopWrite →
      s.cfg.regMap.fields .bitFraming (dropReserved s.cfg .bitFraming f.byte) = s.bitFraming)

/-- What the running operation's position and locals keep to. -/
def Running.Ok (s : State) : Running → Prop
  | .writes ws => ws ≠ [] ∧ ∀ w ∈ ws, writeRefusal s.cfg w.1 w.2 = none
  | .resp _ => True
  | .crc f => f.Ok
  | .trx f => f.Ok s
  | .card _ => True
  | .cardCrc _ f => f.Ok
  | .cardTrx _ f => f.Ok s

/-- What holds of the registers, engines, lines and memories in every state of a run: parameters that make sense; memory
in its canonical form and inside `HOST_MEM_SIZE` (20_memory.md R84); a FIFO and a scratch buffer of their sizes
(10_state.md R52, R61); the bus idle, powered and not reset (40_bus.md R149, 60 R299, 70 R310); legal `CommandReg` and
`BitFramingReg` (10_state.md R38, R48); and an engine that is off exactly when its command is not the current one
(41_chip_commands.md R160). -/
structure State.Steady (s : State) : Prop where
  cfg     : s.cfg.Wf
  memWf   : Memory.wf s.mem = true
  memIn   : ∀ x ∈ s.mem, x.1 < s.cfg.hostMemSize
  fifo    : s.fifo.length ≤ s.cfg.fifoDepth
  scratch : s.scratch.length = s.cfg.frameCap
  lines   : s.nss = true ∧ s.sck = false ∧ s.rstAsserted = false ∧ s.pwrEn = true
  command : fieldRefusal s.cfg .command s.commandReg = none
  framing : fieldRefusal s.cfg .bitFraming s.bitFraming = none
  crcRuns : s.crcState = .off ↔ commandOf s.commandReg ≠ s.cfg.cmdCalcCrc
  trxRuns : s.trxState = .off ↔ commandOf s.commandReg ≠ s.cfg.cmdTransceive
  busy    : ∀ data, s.crcState = .busy data → data.length ≤ s.cfg.fifoDepth

/-- The invariant: `Steady`, and the running operation keeps to its own rule. -/
structure State.Inv (s : State) : Prop where
  steady : s.Steady
  seq    : ∀ r, s.seq = some r → r.Ok s

/-! ### Operations that overrun nothing -/

/-- The first `n` bytes of a caller's region are in it and in host memory (20_memory.md R84, R85). -/
def Holds (c : Config) (r : Region) (n : Nat) : Prop := n ≤ r.len ∧ r.base + n ≤ c.hostMemSize

/-- The first `n` bytes of an area may be reached (R84, 44_card_frames.md R253). -/
def Covers (c : Config) (a : Area) (n : Nat) : Prop :=
  ∀ i, i < n →
    match a.space with
    | .host => i < a.len ∧ a.base + i < c.hostMemSize
    | .scratch => a.base + i < c.frameCap

/-- Byte `i` of an area may not be reached: it is outside the operand's region, at or beyond `HOST_MEM_SIZE`, or past the
scratch buffer (R84, 44_card_frames.md R253). -/
def Overruns (c : Config) (a : Area) (i : Nat) : Prop :=
  match a.space with
  | .host => ¬ (i < a.len ∧ a.base + i < c.hostMemSize)
  | .scratch => c.frameCap ≤ a.base + i

/-- The regions of a card operation hold what it reads and what its drain may write (R85, 70 R319). -/
def CardOp.Fits (c : Config) : CardOp → Prop
  | .request _ buf => Holds c buf c.frameCap
  | .readUid _ _ buf => Holds c buf c.frameCap
  | .select _ _ serial => Holds c serial c.frameCap
  | .readPage _ buf => Holds c buf c.frameCap
  | .writePage _ data => Holds c data 4
  | .halt => True

/-- A `COMPUTE_CRC` frame overruns nothing. -/
def CrcFrame.Fits (c : Config) (f : CrcFrame) : Prop :=
  f.len ≤ c.frameCap ∧ Covers c f.src f.len ∧ Covers c f.dst 2 ∧ (f.line = .readByte ∨ f.line = .pushByte → f.i < f.len)

/-- A `TRANSCEIVE` frame overruns nothing. -/
def TrxFrame.Fits (c : Config) (f : TrxFrame) : Prop :=
  1 ≤ f.len ∧ f.len ≤ c.frameCap ∧ Covers c f.inp f.len ∧ Covers c f.out c.frameCap ∧
    (f.line = .readByte ∨ f.line = .pushByte → f.i < f.len) ∧
    (f.line = .drainRead ∨ f.line = .drainStore → f.i < f.cnt ∧ f.cnt ≤ c.frameCap)

/-- A card operation stands on a line of its own rule, with its indexes in range. -/
def CardFrame.Placed (c : CardFrame) : Prop :=
  match c.op with
  | .request _ _ => (c.line = .framing ∧ c.i = 0) ∨ (c.line = .put ∧ c.i < 1)
  | .readUid _ _ _ => (c.line = .framing ∧ c.i = 0) ∨ (c.line = .put ∧ c.i < 2) ∨ (c.line = .check ∧ c.i < 5)
  | .select _ _ _ => (c.line = .load ∧ c.i = 0 ∧ c.u.length < 4) ∨ (c.line = .build ∧ c.i < 7 ∧ c.u.length = 4)
  | .readPage _ _ => c.line = .put ∧ c.i < 2
  | .writePage _ _ =>
    (c.line = .build ∧ c.i < 2 ∧ c.u = []) ∨ (c.line = .load ∧ c.i = c.u.length + 2 ∧ c.i < 6) ∨
      (c.line = .build ∧ c.i + 1 = c.u.length + 2 ∧ c.i < 6) ∨ c.line = .ackByte
  | .halt => c.line = .build ∧ c.i < 2

/-- The running operation overruns nothing from here on. -/
def Running.Fits (c : Config) : Running → Prop
  | .writes _ => True
  | .resp _ => True
  | .crc f => f.Fits c
  | .trx f => f.Fits c
  | .card k => k.op.Fits c ∧ k.Placed
  | .cardCrc k f => k.op.Fits c ∧ f.Fits c
  | .cardTrx k f => k.op.Fits c ∧ f.Fits c

/-! ### How many steps an operation may still take (60_exceptions.md R301) -/

/-- Steps left of a `COMPUTE_CRC` at most. -/
def CrcFrame.stepsLeft (f : CrcFrame) : Nat :=
  match f.line with
  | .clearIrq => 2 * f.len + crcPollBudget + 11
  | .idle => 2 * f.len + crcPollBudget + 10
  | .flush => 2 * f.len + crcPollBudget + 9
  | .readByte => 2 * (f.len - f.i) + crcPollBudget + 8
  | .pushByte => 2 * (f.len - f.i) + crcPollBudget + 7
  | .command => crcPollBudget + 6
  | .poll => (crcPollBudget - f.pollCount) + 5
  | .readLow => 4
  | .storeLow => 3
  | .readHigh => 2
  | .storeHigh => 1

/-- Steps left of a `TRANSCEIVE` at most. -/
def TrxFrame.stepsLeft (c : Config) (f : TrxFrame) : Nat :=
  match f.line with
  | .clearIrq => 2 * f.len + trxPollBudget + 2 * c.frameCap + 16
  | .idle => 2 * f.len + trxPollBudget + 2 * c.frameCap + 15
  | .flush => 2 * f.len + trxPollBudget + 2 * c.frameCap + 14
  | .readByte => 2 * (f.len - f.i) + trxPollBudget + 2 * c.frameCap + 13
  | .pushByte => 2 * (f.len - f.i) + trxPollBudget + 2 * c.frameCap + 12
  | .command => trxPollBudget + 2 * c.frameCap + 11
  | .startRead => trxPollBudget + 2 * c.frameCap + 10
  | .startWrite => trxPollBudget + 2 * c.frameCap + 9
  | .poll => (trxPollBudget - f.pollCount) + 2 * c.frameCap + 8
  | .stopRead => 2 * c.frameCap + 7
  | .stopWrite => 2 * c.frameCap + 6
  | .readError => 2 * c.frameCap + 5
  | .readLevel => 2 * c.frameCap + 4
  | .readLast => 2 * c.frameCap + 3
  | .drainRead => 2 * (f.cnt - f.i) + 2
  | .drainStore => 2 * (f.cnt - f.i) + 1
  | .finalIdle => 1

/-- Steps of the `TRANSCEIVE` of a card operation and what follows it, at most. -/
def trxCallSteps (c : Config) : Nat := trxPollBudget + 2 * c.frameCap + 41

/-- Steps of both calls of a card operation and what follows them, at most. -/
def callSteps (c : Config) : Nat := crcPollBudget + 26 + trxCallSteps c

/-- Steps left of a card operation on a line of its own at most. -/
def CardFrame.stepsLeft (c : Config) (k : CardFrame) : Nat :=
  match k.line with
  | .framing => callSteps c + 4
  | .put => callSteps c + (3 - k.i)
  | .load => callSteps c + 2 * (9 - k.i) + 2 * (4 - k.u.length) + 1
  | .build => callSteps c + 2 * (9 - k.i) + 2 * (4 - k.u.length)
  | .callCrc => callSteps c
  | .callTrx => trxCallSteps c
  | .check => 5 - k.i
  | .ackByte => 1

/-- Steps left of the running operation at most: "at most 255 + 1000 poll reads plus a fixed count per operation" (R301). -/
def Running.stepsLeft (c : Config) : Running → Nat
  | .writes ws => max ws.length 1
  | .resp f =>
    match f.line with
    | .readLast => c.frameCap + 2
    | .drain => (f.cnt - f.got.length) + 1
  | .crc f => f.stepsLeft
  | .trx f => f.stepsLeft c
  | .card k => k.stepsLeft c
  | .cardCrc _ f => f.stepsLeft + trxCallSteps c
  | .cardTrx _ f => f.stepsLeft c + 6

end Sys2Proof.Machine
end

