-- ==== Sys2Proof/Certificates/Slice0/Obligations.lean ====
section
/-! DEFINITION. The statements for the provers, in the order of OBLIGATIONS.json. -/

open Sys2Proof Sys2Proof.Machine

/-! ### Encoding and decoding -/

/-- Words written out from the spec's encodings decode to what they stand for (30_encoding.md R105, R107, R109-R114, R116; that
the CRC bytes of a `READ` frame are read as operands, which its meaning holds to R115, is log 11). -/
def Obligations.SpecWordsDecode : Prop :=
  decode Config.default (.bitTransfer 0x82#8) = .ok (.transferByte 0x82#8) ∧
  decode Config.default (.bus 0x12#8 0x50#8) = .ok (.regWrite 0x09#6 0x50#8) ∧
  decode Config.default (.bus 0xC4#8 0x00#8) = .ok (.regRead 0x22#6) ∧
  decode Config.default (.bus 0x02#8 0x00#8) = .ok .cmdIdle ∧
  decode Config.default (.bus 0x02#8 0x03#8) = .ok .cmdCalcCrc ∧
  decode Config.default (.bus 0x02#8 0x0C#8) = .ok .cmdTransceive ∧
  decode Config.default (.bus 0x14#8 0x80#8) = .ok .flush ∧
  decode Config.default (.txFrame [0x26#8]) = .ok .frameReqa ∧
  decode Config.default (.txFrame [0x52#8]) = .ok .frameWupa ∧
  decode Config.default (.txFrame [0x93#8, 0x20#8]) = .ok (.frameAnticoll 0x93#8 0x20#8) ∧
  decode Config.default (.txFrame [0x30#8, 0x04#8, 0x26#8, 0xEE#8]) = .ok (.frameRead 0x04#8 0x26#8 0xEE#8) ∧
  decode Config.default (.txFrame [0x50#8, 0x00#8, 0x57#8, 0xCD#8]) = .ok .frameHalt ∧
  decode Config.default (.rxFrame [0x04#8, 0x00#8]) = .ok (.respAtqa 0x04#8 0x00#8) ∧
  decode Config.default (.rxFrame [0x08#8, 0xB6#8, 0xDD#8]) = .ok (.respSak 0x08#8 0xB6#8 0xDD#8) ∧
  decode Config.default (.rxFrame [0x1A#8]) = .ok (.respAck 0x1#4)

/-- The address bytes of every register address, field by field, each with the byte that follows it in the transaction
(30_encoding.md R101, R102), and the opcode bytes of the ten registers (R105). -/
def Obligations.RegisterAddressBytes : Prop :=
  (∀ (c : Config) (a : RegAddr) (v : Byte),
    encode c (.regWrite a v) = .bus (writeAddrByte a) v ∧
    encode c (.regRead a) = .bus (readAddrByte a) c.dummy ∧
    (writeAddrByte a).getLsbD 7 = false ∧ (writeAddrByte a).extractLsb' 1 6 = a ∧ (writeAddrByte a).getLsbD 0 = false ∧
    (readAddrByte a).getLsbD 7 = true ∧ (readAddrByte a).extractLsb' 1 6 = a ∧ (readAddrByte a).getLsbD 0 = false) ∧
  Reg.all.map (fun r => (writeAddrByte (Config.default.regMap.addr r), readAddrByte (Config.default.regMap.addr r))) =
    [(0x02#8, 0x82#8), (0x08#8, 0x88#8), (0x0A#8, 0x8A#8), (0x0C#8, 0x8C#8), (0x12#8, 0x92#8), (0x14#8, 0x94#8),
     (0x18#8, 0x98#8), (0x1A#8, 0x9A#8), (0x42#8, 0xC2#8), (0x44#8, 0xC4#8)]

/-- Decoding the words of any well-formed instruction gives it back, under all parameters that make sense. -/
def Obligations.DecodeInvertsEncode : Prop :=
  ∀ (c : Config) (i : Instr), c.Wf → i.wellFormed c = true → decode c (encode c i) = .ok i

/-- Bytes that decode are exactly the words of the instruction they decode to: no two instructions share words, and no bit of
an encoding is dropped but for the second byte of a read transaction, which the chip ignores (30_encoding.md R104, R125,
93_implementation_defined.md G16; log 19). The instruction is well formed, or its words are a
frame the encoder does not emit, which its meaning refuses (R123): `FrameRowsQueue` says which; that the meaning and not the
decoder finds it is log 11. -/
def Obligations.EncodeInvertsDecode : Prop :=
  ∀ (c : Config) (w : Issue) (i : Instr), (∀ j, w ≠ .term j) → decode c w = .ok i →
    (i.wellFormed c = true ∨ ((∃ bytes, w = .txFrame bytes) ∧
      ∀ s : State, s.cfg = c → s.seq = none → exec i s = .refused .unlistedFrame)) ∧
    ((∀ a d, w ≠ .bus (readAddrByte a) d) → encode c i = w) ∧
    ∀ a d, w = .bus (readAddrByte a) d → i = .regRead a ∧ encode c i = .bus (readAddrByte a) c.dummy

/-- A transaction whose address byte has bit 0 set is refused as `ReservedBusBit` (30_encoding.md R123, 60_exceptions.md R287),
and the run goes on (70_reset_and_hazards.md R325). That the refused issue is a step of its own, which takes it from the
host's issues, records the reason, changes nothing else and then lets the engines step, is the model's (log 28, log 1). -/
def Obligations.ReservedBusBitRefused : Prop :=
  ∀ (s : State) (b0 b1 : Byte) (rest : List Issue),
    s.seq = none → s.issues = .bus b0 b1 :: rest → b0.getLsbD 0 = true →
      step s = .next { s with issues := rest, refusals := .reservedBusBit :: s.refusals }.engines

/-! ### Steps -/

/-- A step runs the instruction of the host's next issue, then the engine steps before the next move (what one step holds is
log 1). A refused issue, one that decodes to no instruction among them, is taken and recorded and changes nothing else
(60_exceptions.md R287; that it is a step, which engine steps may follow, is log 28). -/
def Obligations.StepRunsIssuedInstruction : Prop :=
  ∀ (s : State) (w : Issue) (rest : List Issue), s.seq = none → s.issues = w :: rest →
    (∀ i : Instr, decode s.cfg w = .ok i →
      step s = (match exec i { s with issues := rest } with
        | .next t => .next t.engines
        | .fault x => .fault x
        | .refused x => .next { s with issues := rest, refusals := x :: s.refusals }.engines)) ∧
    ∀ e : DecodeError, decode s.cfg w = .error e →
      step s = .next { s with issues := rest, refusals := refusalOf e :: s.refusals }.engines

/-- While an operation runs a step is its next line, before which the issues the host makes meanwhile are refused; with nothing
running and nothing to issue only the engines step (10_state.md R30, 60_exceptions.md R297, R298). The engine steps of a step
are a list, each taken on the result of the one before: the tape's next list where there is one (20_memory.md R93). That a
step is a move and then engine steps is the model's (log 1), and so are the tape of engine steps (log 3), the one of issues
made during an operation, apart from those that wait for its end (log 15), and the step that waits with nothing to issue
(log 24). -/
def Obligations.StepWithoutIssue : Prop :=
  (∀ (s v : State) (r : Running), s.seq = some r →
    (s.overlaps = [] ∧ v = s) ∨
      (∃ ws rest, s.overlaps = ws :: rest ∧
        v = { s with overlaps := rest, refusals := List.replicate ws.length .operationInProgress ++ s.refusals }) →
    step s = (match seqStep r v with
      | .next t => .next t.engines
      | .fault x => .fault x
      | .refused x => .refused x)) ∧
  (∀ s : State, s.seq = none → s.issues = [] → step s = .next s.engines) ∧
  ∀ (s : State) (evs : List EngineEvent) (rest : List (List EngineEvent)),
    s.events = evs :: rest → s.engines = evs.foldl State.engineStep { s with events := rest }

/-- Every instruction issued while an operation runs is refused with `OperationInProgress`, and so is everything the host issues
before a line of a running operation, bytes that decode to no instruction among them: the reason is recorded once for each
and the step is otherwise the one without them (60_exceptions.md R287, R298). The tape of such issues is log 15. -/
def Obligations.IssueDuringOperationRefused : Prop :=
  ∀ (s : State) (r : Running), s.seq = some r →
    (∀ i : Instr, exec i s = .refused .operationInProgress) ∧
    ∀ (ws : List Issue) (rest : List (List Issue)), s.overlaps = ws :: rest →
      step s = step { s with
        overlaps := [] :: rest
        refusals := List.replicate ws.length .operationInProgress ++ s.refusals }

/-! ### Byte transfer and raw writes -/

/-- `TRANSFER_BYTE` shifts the byte out most-significant bit first, ends with the clock low and the last bit on MOSI, and
gives a sampled byte that is any byte (40_bus.md R141, 20_memory.md R82; the sampled byte is log 13). Nothing else changes. -/
def Obligations.TransferByteShifts : Prop :=
  ∀ (s : State) (out : Byte), s.seq = none →
    (bitsMsbFirst out = (List.range 8).map fun k => out.getLsbD (7 - k)) ∧
    ∃ d t, exec (.transferByte out) s = .next t ∧
      t = { s with sck := false, mosi := out.getLsbD 0, busOut := out :: s.busOut, draws := t.draws,
                   drawCount := t.drawCount, result := some { data := [d] } } ∧
      ∀ x xs, s.draws = x :: xs → d = x ∧ t.draws = xs

/-- Each of the ten addresses names its register and every other address none (10_state.md R36, R37); the default
addresses are R36's. -/
def Obligations.RegisterMapNames : Prop :=
  (∀ (c : Config), c.Wf →
    (∀ r : Reg, regOf c (c.regMap.addr r) = some r) ∧ ∀ a : RegAddr, (∀ r : Reg, c.regMap.addr r ≠ a) → regOf c a = none) ∧
  Reg.all.map Config.default.regMap.addr =
    [0x01#6, 0x04#6, 0x05#6, 0x06#6, 0x09#6, 0x0A#6, 0x0C#6, 0x0D#6, 0x21#6, 0x22#6]

/-- A raw transaction to an address outside the ten registers is refused (10_state.md R37, 60_exceptions.md R287). -/
def Obligations.UnmodelledRegisterRefused : Prop :=
  ∀ (s : State) (a : RegAddr) (v : Byte), s.seq = none → (∀ r : Reg, s.cfg.regMap.addr r ≠ a) →
    exec (.regWrite a v) s = .refused .unmodelledRegister ∧ exec (.regRead a) s = .refused .unmodelledRegister ∧
    exec (.setBits a v) s = .refused .unmodelledRegister ∧ exec (.clearBits a v) s = .refused .unmodelledRegister

/-- The raw writes that are refused, each with its reason, by the fields the byte carries (40_bus.md R143). Where both a
reserved bit and the code are wrong the write is refused by one of the two reasons (which one is log 14, and not said
here). -/
def Obligations.IllegalWriteRefused : Prop :=
  ∀ (s : State) (a : RegAddr) (v f : Byte) (r : Reg), s.seq = none → regOf s.cfg a = some r → s.cfg.regMap.fields r v = f →
    (r = .command → f.extractLsb' 4 4 ≠ 0#4 → commandOf f ∈ [s.cfg.cmdIdle, s.cfg.cmdCalcCrc, s.cfg.cmdTransceive] →
      exec (.regWrite a v) s = .refused .unmodelledCommandBits) ∧
    (r = .command → f.extractLsb' 4 4 = 0#4 → commandOf f ∉ [s.cfg.cmdIdle, s.cfg.cmdCalcCrc, s.cfg.cmdTransceive] →
      exec (.regWrite a v) s = .refused .unmodelledCommand) ∧
    (r = .command → f.extractLsb' 4 4 ≠ 0#4 → commandOf f ∉ [s.cfg.cmdIdle, s.cfg.cmdCalcCrc, s.cfg.cmdTransceive] →
      exec (.regWrite a v) s = .refused .unmodelledCommandBits ∨ exec (.regWrite a v) s = .refused .unmodelledCommand) ∧
    (r = .bitFraming → f.extractLsb' 3 4 ≠ 0#4 → exec (.regWrite a v) s = .refused .unmodelledFraming) ∧
    (r = .error ∨ r = .crcResultM ∨ r = .crcResultL → exec (.regWrite a v) s = .refused .readOnlyRegister) ∧
    (r = .control → exec (.regWrite a v) s = .refused .unmodelledRegisterWrite)

/-- A write of `ComIrqReg` or `DivIrqReg` sets or clears the marked flags, or stores the flags, by `IrqWriteMode`; of
`DivIrqReg` it reaches `MfinActIRq` and `CRCIRq` (10_state.md R41, 40_bus.md R143; log 20). The flags are numbered as in
R39 and R42. Nothing but the flags and the lines changes. -/
def Obligations.IrqFlagWrite : Prop :=
  ∀ (s : State) (a : RegAddr) (v : Byte), s.seq = none →
    (regOf s.cfg a = some .comIrq →
      ∃ f : BitVec 7, exec (.regWrite a v) s =
          .next { s.bus (writeAddrByte (s.cfg.regMap.addr .comIrq)) v with comIrq := f, result := some {} } ∧
        ∀ i, i < 7 → f.getLsbD i =
          (match s.cfg.irqWriteMode with
           | .setClear =>
             if (s.cfg.regMap.fields .comIrq v).getLsbD i then (s.cfg.regMap.fields .comIrq v).getLsbD 7
             else s.comIrq.getLsbD i
           | .plain => (s.cfg.regMap.fields .comIrq v).getLsbD i)) ∧
    (regOf s.cfg a = some .divIrq →
      ∃ f : BitVec 7, exec (.regWrite a v) s =
          .next { s.bus (writeAddrByte (s.cfg.regMap.addr .divIrq)) v with divIrq := f, result := some {} } ∧
        ∀ i, i < 7 → f.getLsbD i =
          (if i = 4 ∨ i = 2 then
            match s.cfg.irqWriteMode with
            | .setClear =>
              if (s.cfg.regMap.fields .divIrq v).getLsbD i then (s.cfg.regMap.fields .divIrq v).getLsbD 7
              else s.divIrq.getLsbD i
            | .plain => (s.cfg.regMap.fields .divIrq v).getLsbD i
           else s.divIrq.getLsbD i))

/-- A write of `FIFODataReg` pushes the byte, or loses it and sets `BufferOvfl` when the FIFO is full
(41_chip_commands.md R177). -/
def Obligations.FifoPush : Prop :=
  ∀ (s : State) (a : RegAddr) (v : Byte), s.seq = none → regOf s.cfg a = some .fifoData →
    (s.fifo.length < s.cfg.fifoDepth → exec (.regWrite a v) s =
      .next { s.bus (writeAddrByte (s.cfg.regMap.addr .fifoData)) v with fifo := s.fifo ++ [v], result := some {} }) ∧
    (s.cfg.fifoDepth ≤ s.fifo.length → exec (.regWrite a v) s =
      .next { s.bus (writeAddrByte (s.cfg.regMap.addr .fifoData)) v with
        errorReg := s.errorReg ||| 0x10#8, result := some {} })

/-- A write of `FIFOLevelReg` with `FlushBuffer` (bit 7) set empties the FIFO and clears `BufferOvfl`, and nothing else of the
chip; one with it clear has no effect (41_chip_commands.md R175, 10_state.md R46). `FLUSH` is such a write (30 R127). -/
def Obligations.FifoFlush : Prop :=
  ∀ (s : State), s.seq = none →
    (∀ (a : RegAddr) (v : Byte), regOf s.cfg a = some .fifoLevel → (s.cfg.regMap.fields .fifoLevel v).getLsbD 7 = true →
      exec (.regWrite a v) s = .next { s.bus (writeAddrByte (s.cfg.regMap.addr .fifoLevel)) v with
        fifo := [], errorReg := s.errorReg &&& 0xEF#8, result := some {} }) ∧
    (∀ (a : RegAddr) (v : Byte), regOf s.cfg a = some .fifoLevel → (s.cfg.regMap.fields .fifoLevel v).getLsbD 7 = false →
      exec (.regWrite a v) s = .next { s.bus (writeAddrByte (s.cfg.regMap.addr .fifoLevel)) v with result := some {} }) ∧
    (s.cfg.Wf → exec .flush s =
      .next { s.bus (writeAddrByte (s.cfg.regMap.addr .fifoLevel)) (s.cfg.regMap.byte .fifoLevel 0x80#8) with
        fifo := [], errorReg := s.errorReg &&& 0xEF#8, result := some {} })

/-- A legal write of `BitFramingReg` stores its fields, and a read gives them back but for the reserved bit 3, which is drawn
(10_state.md R48, R51, 30_encoding.md R124; log 26). -/
def Obligations.BitFramingReadsBack : Prop :=
  ∀ (s : State) (a : RegAddr) (v f : Byte), s.cfg.Wf → s.seq = none → regOf s.cfg a = some .bitFraming →
    s.cfg.regMap.fields .bitFraming v = f → f.extractLsb' 3 4 = 0#4 →
    ∃ t, exec (.regWrite a v) s = .next t ∧
      t = { s.bus (writeAddrByte (s.cfg.regMap.addr .bitFraming)) v with bitFraming := f, result := some {} } ∧
      ∃ w u, exec (.regRead a) t = .next u ∧
        u = { t.bus (readAddrByte (s.cfg.regMap.addr .bitFraming)) s.cfg.dummy with
          draws := u.draws, drawCount := u.drawCount, result := some { data := [w] } } ∧
        ∀ i, i < 8 → i ≠ 3 → (s.cfg.regMap.fields .bitFraming w).getLsbD i = f.getLsbD i

/-! ### Chip commands -/

/-- `CMD_IDLE` stops both engines and keeps flags, errors, FIFO, last bits and a CRC result that is not half done; a half-done
one is any value (41_chip_commands.md R160, R161). -/
def Obligations.IdleStopsEngines : Prop :=
  ∀ s : State, s.cfg.Wf → s.seq = none →
    ∃ t, exec .cmdIdle s = .next t ∧
      t = { s.bus (writeAddrByte (s.cfg.regMap.addr .command)) (s.cfg.cmdBus s.cfg.cmdIdle) with
        commandReg := cmdByte s.cfg.cmdIdle, crcState := .off, trxState := .off, crcResult := t.crcResult,
        draws := t.draws, drawCount := t.drawCount, result := some {} } ∧
      ((∀ d, s.crcState ≠ .busy d) → t.crcResult = s.crcResult ∧ t.draws = s.draws ∧ t.drawCount = s.drawCount) ∧
      ∀ d h l xs, s.crcState = .busy d → s.draws = h :: l :: xs → t.crcResult = h ++ l

/-- `CMD_CALCCRC` starts the CRC engine on the FIFO as it stands and writes no flag (41_chip_commands.md R160, R162). -/
def Obligations.CalcCrcStartsOnFifo : Prop :=
  ∀ s : State, s.cfg.Wf → s.seq = none →
    ∃ t, exec .cmdCalcCrc s = .next t ∧
      t = { s.bus (writeAddrByte (s.cfg.regMap.addr .command)) (s.cfg.cmdBus s.cfg.cmdCalcCrc) with
        commandReg := cmdByte s.cfg.cmdCalcCrc, crcState := .busy s.fifo, trxState := .off, crcResult := t.crcResult,
        draws := t.draws, drawCount := t.drawCount, result := some {} } ∧
      ((∀ d, s.crcState ≠ .busy d) → t.crcResult = s.crcResult ∧ t.draws = s.draws ∧ t.drawCount = s.drawCount)

/-- `CMD_TRANSCEIVE` arms the engine and clears `ErrorReg`; it does not send (41_chip_commands.md R160, R166). -/
def Obligations.TransceiveCommandArms : Prop :=
  ∀ s : State, s.cfg.Wf → s.seq = none →
    ∃ t, exec .cmdTransceive s = .next t ∧
      t = { s.bus (writeAddrByte (s.cfg.regMap.addr .command)) (s.cfg.cmdBus s.cfg.cmdTransceive) with
        commandReg := cmdByte s.cfg.cmdTransceive, crcState := .off, trxState := .armed, errorReg := 0x00#8,
        crcResult := t.crcResult, draws := t.draws, drawCount := t.drawCount, result := some {} } ∧
      ((∀ d, s.crcState ≠ .busy d) → t.crcResult = s.crcResult ∧ t.draws = s.draws ∧ t.drawCount = s.drawCount)

/-- A raw write of one of the three command bytes does what the command does (30_encoding.md R106, R107). -/
def Obligations.CommandWriteIsCommand : Prop :=
  ∀ s : State, s.cfg.Wf →
    exec (.regWrite s.cfg.regMap.command (s.cfg.regMap.byte .command (cmdByte s.cfg.cmdIdle))) s = exec .cmdIdle s ∧
    exec (.regWrite s.cfg.regMap.command (s.cfg.regMap.byte .command (cmdByte s.cfg.cmdCalcCrc))) s = exec .cmdCalcCrc s ∧
    exec (.regWrite s.cfg.regMap.command (s.cfg.regMap.byte .command (cmdByte s.cfg.cmdTransceive))) s = exec .cmdTransceive s ∧
    exec (.regWrite s.cfg.regMap.fifoLevel (s.cfg.regMap.byte .fifoLevel 0x80#8)) s = exec .flush s

/-! ### Raw reads -/

/-- Reads of what the chip holds: the FIFO level whole, and `CommandReg` and `BitFramingReg` but for their reserved bits, which
are drawn (40_bus.md R145, 10_state.md R38, R46, R48, R51, 30_encoding.md R124; log 26). -/
def Obligations.HeldRegisterReads : Prop :=
  ∀ (s : State) (a : RegAddr) (r : Reg), s.seq = none → regOf s.cfg a = some r →
    (r = .fifoLevel → s.fifo.length ≤ 127 → exec (.regRead a) s =
      .next { s.bus (readAddrByte (s.cfg.regMap.addr .fifoLevel)) s.cfg.dummy with
        result := some { data := [s.cfg.regMap.byte .fifoLevel (BitVec.ofNat 8 s.fifo.length)] } }) ∧
    (s.cfg.Wf → r = .command ∨ r = .bitFraming →
      ∃ (d v : Byte) (t : State), exec (.regRead a) s = .next t ∧
        t = { s.bus (readAddrByte (s.cfg.regMap.addr r)) s.cfg.dummy with
          draws := t.draws, drawCount := t.drawCount, result := some { data := [v] } } ∧
        (∀ x xs, s.draws = x :: xs → d = x ∧ t.draws = xs) ∧
        (r = .command → ∀ i, i < 8 → (s.cfg.regMap.fields .command v).getLsbD i =
          (if i = 7 ∨ i = 6 then d.getLsbD i else s.commandReg.getLsbD i)) ∧
        (r = .bitFraming → ∀ i, i < 8 → (s.cfg.regMap.fields .bitFraming v).getLsbD i =
          (if i = 3 then d.getLsbD i else s.bitFraming.getLsbD i)))

/-- A read of `FIFODataReg` takes the FIFO's head; from the empty FIFO it gives any byte and leaves it empty, and is no fault
(41_chip_commands.md R178). -/
def Obligations.FifoPop : Prop :=
  ∀ (s : State) (a : RegAddr), s.seq = none → regOf s.cfg a = some .fifoData →
    (∀ b bs, s.fifo = b :: bs → exec (.regRead a) s =
      .next { s.bus (readAddrByte (s.cfg.regMap.addr .fifoData)) s.cfg.dummy with
        fifo := bs, result := some { data := [b] } }) ∧
    (s.fifo = [] → ∃ d t, exec (.regRead a) s = .next t ∧
      t = { s.bus (readAddrByte (s.cfg.regMap.addr .fifoData)) s.cfg.dummy with
        draws := t.draws, drawCount := t.drawCount, result := some { data := [d] } } ∧
      ∀ x xs, s.draws = x :: xs → d = x ∧ t.draws = xs)

/-- Reads of the two flag registers, `ErrorReg` and `ControlReg`: the bits the chip holds, bit by bit, the others drawn;
no flag changes (40_bus.md R145). -/
def Obligations.DrawnBitReads : Prop :=
  ∀ (s : State) (a : RegAddr) (r : Reg), s.cfg.Wf → s.seq = none → regOf s.cfg a = some r →
    r = .comIrq ∨ r = .divIrq ∨ r = .error ∨ r = .control →
    ∃ (d v f : Byte) (t : State), exec (.regRead a) s = .next t ∧ s.cfg.regMap.fields r v = f ∧
      t = { s.bus (readAddrByte (s.cfg.regMap.addr r)) s.cfg.dummy with
        draws := t.draws, drawCount := t.drawCount, result := some { data := [v] } } ∧
      (∀ x xs, s.draws = x :: xs → d = x ∧ t.draws = xs) ∧
      (r = .comIrq → ∀ i, i < 8 → f.getLsbD i =
        (if i = 7 then false else if i = 6 ∨ i = 5 ∨ i = 0 then s.comIrq.getLsbD i else d.getLsbD i)) ∧
      (r = .divIrq → ∀ i, i < 8 → f.getLsbD i =
        (if i = 7 then false else if i = 2 then s.divIrq.getLsbD i else d.getLsbD i)) ∧
      (r = .error → ∀ i, i < 8 → f.getLsbD i = (if i = 5 then d.getLsbD i else s.errorReg.getLsbD i)) ∧
      (r = .control → ∀ i, i < 8 → f.getLsbD i = (if i < 3 then s.rxLastBits.getLsbD i else d.getLsbD i))

/-- Reads of the CRC result registers: the bytes of `crcResult`, high in `CRCResultRegM` and low in `CRCResultRegL`, or any
byte while the engine is busy (41_chip_commands.md R165, 10_state.md R50). -/
def Obligations.CrcResultReads : Prop :=
  ∀ (s : State) (a : RegAddr) (r : Reg), s.seq = none → regOf s.cfg a = some r → r = .crcResultM ∨ r = .crcResultL →
    ∃ (v : Byte) (t : State), exec (.regRead a) s = .next t ∧
      t = { s.bus (readAddrByte (s.cfg.regMap.addr r)) s.cfg.dummy with
        draws := t.draws, drawCount := t.drawCount, result := some { data := [v] } } ∧
      ((∀ d, s.crcState ≠ .busy d) → v = s.crcResult.extractLsb' (if r = .crcResultM then 8 else 0) 8 ∧ t.draws = s.draws) ∧
      ∀ d x xs, s.crcState = .busy d → s.draws = x :: xs → v = x ∧ t.draws = xs

/-! ### Compounds -/

/-- A read of any of the ten registers completes, and a compound that is not refused is that read now and a `REG_WRITE` of the
changed value as its next step, with engine steps between (40_bus.md R144, R146, R147, R148; log 1), before which what the
host issues meanwhile is refused (60_exceptions.md R298; log 15); the register's reserved bits go back as 0
(30_encoding.md R124; log 26). `STARTSEND` and `STOPSEND` are such compounds on `BitFramingReg` (30 R127). -/
def Obligations.CompoundIsReadThenWrite : Prop :=
  ∀ (s : State) (a : RegAddr) (r : Reg), s.seq = none → regOf s.cfg a = some r →
    ∃ t v w, exec (.regRead a) s = .next t ∧ t.seq = none ∧ t.result = some { data := [v] } ∧
      w = v &&& ~~~s.cfg.regMap.byte r (reservedBits r) ∧
      (∀ m : Byte, writeRefusal s.cfg r (setIn s.cfg r m (s.cfg.regMap.byte r (s.heldValue r))) = none →
        exec (.setBits a m) s = .next { t with result := s.result, seq := some (.writes [(r, w ||| m)]) }) ∧
      (∀ m : Byte, writeRefusal s.cfg r (clearIn s.cfg r m (s.cfg.regMap.byte r (s.heldValue r))) = none →
        exec (.clearBits a m) s = .next { t with result := s.result, seq := some (.writes [(r, w &&& ~~~m)]) }) ∧
      (r = .bitFraming →
        exec .startSend s = exec (.setBits a (s.cfg.regMap.byte .bitFraming 0x80#8)) s ∧
        exec .stopSend s = exec (.clearBits a (s.cfg.regMap.byte .bitFraming 0x80#8)) s) ∧
      ∀ (z : State) (x : Byte), z.seq = some (.writes [(r, x)]) → z.cfg = s.cfg → writeRefusal s.cfg r x = none →
        move z = exec (.regWrite a x) { z.refuseOverlaps with seq := none }

/-- On `BitFramingReg`, which no engine changes, a compound that is not refused is exact, whatever the engines do between
its two steps and whatever its reserved bit is read as (40_bus.md R148, 30_encoding.md R124); with calm engines nothing else
of the chip changes. -/
def Obligations.BitFramingCompoundExact : Prop :=
  ∀ (s : State) (a : RegAddr) (m f : Byte), s.cfg.Wf → s.seq = none → regOf s.cfg a = some .bitFraming →
    fieldRefusal s.cfg .bitFraming s.bitFraming = none → s.cfg.regMap.fields .bitFraming m = f →
    ∀ (i : Instr) (v : Byte),
      (i = .setBits a m ∧ v = s.bitFraming ||| f ∧ v.extractLsb' 3 4 = 0#4) ∨ (i = .clearBits a m ∧ v = s.bitFraming &&& ~~~f) ∨
        (i = .startSend ∧ v = s.bitFraming ||| 0x80#8) ∨ (i = .stopSend ∧ v = s.bitFraming &&& 0x7F#8) →
      ∃ t, exec i s = .next t ∧ ∃ u, EndsWithin 1 t.engines u ∧ u.bitFraming = v ∧ u.result = some {} ∧
        u.commandReg = s.commandReg ∧ u.mem = s.mem ∧ u.scratch = s.scratch ∧
        (s.Calm → u.fifo = s.fifo ∧ s.ChipKept u)

/-- A compound whose written value would be refused is refused as a whole at issue (60_exceptions.md R287); that the check is
made on the value the register holds then is log 14. -/
def Obligations.CompoundRefusedAtIssue : Prop :=
  ∀ (s : State) (a : RegAddr) (m : Byte) (x : Refusal), s.Inv → s.seq = none →
    (regOf s.cfg a = some .command →
      (exec (.setBits a m) s = .refused x ↔
        exec (.regWrite a (s.cfg.regMap.byte .command s.commandReg ||| m)) s = .refused x) ∧
      (exec (.clearBits a m) s = .refused x ↔
        exec (.regWrite a (s.cfg.regMap.byte .command s.commandReg &&& ~~~m)) s = .refused x)) ∧
    (regOf s.cfg a = some .bitFraming →
      (exec (.setBits a m) s = .refused x ↔
        exec (.regWrite a (s.cfg.regMap.byte .bitFraming s.bitFraming ||| m)) s = .refused x) ∧
      (exec (.clearBits a m) s = .refused x ↔
        exec (.regWrite a (s.cfg.regMap.byte .bitFraming s.bitFraming &&& ~~~m)) s = .refused x)) ∧
    (∀ r, regOf s.cfg a = some r → r = .error ∨ r = .crcResultM ∨ r = .crcResultL →
      exec (.setBits a m) s = .refused .readOnlyRegister ∧ exec (.clearBits a m) s = .refused .readOnlyRegister) ∧
    (regOf s.cfg a = some .control →
      exec (.setBits a m) s = .refused .unmodelledRegisterWrite ∧
      exec (.clearBits a m) s = .refused .unmodelledRegisterWrite)

/-! ### Engine steps -/

/-- The CRC completion step (41_chip_commands.md R163): enabled exactly while busy; the FIFO afterwards is any list no
longer than the data. -/
def Obligations.CrcCompletionStep : Prop :=
  ∀ (s : State) (left : List Byte),
    (∀ data, s.crcState = .busy data → left.length ≤ data.length →
      s.engineStep (.crcComplete left) =
        { s with crcResult := crc16 s.cfg data, divIrq := s.divIrq ||| 0x04#7, fifo := left, crcState := .done }) ∧
    ((∀ data, s.crcState ≠ .busy data) → s.engineStep (.crcComplete left) = s)

/-- The transmit step sends the whole FIFO with the framing of that moment (41_chip_commands.md R168, R169), and is enabled
exactly while the command is Transceive, the engine is armed, `StartSend` is set and the FIFO is not empty. Of a transmitted
frame every byte goes out whole but the last, of which `TxLastBits` bits go: all 8 where it is 0, else bits (TxLastBits-1):0
(30_encoding.md R108). -/
def Obligations.TransmitStep : Prop :=
  (∀ s : State,
    (commandOf s.commandReg = s.cfg.cmdTransceive ∧ s.trxState = .armed ∧ s.bitFraming.getLsbD 7 = true ∧ s.fifo ≠ [] →
      s.engineStep .transmit =
        { s with
          txEvents := ⟨s.fifo, s.bitFraming.extractLsb' 0 3⟩ :: s.txEvents
          txLastBitsLatched := s.bitFraming.extractLsb' 0 3
          fifo := []
          comIrq := s.comIrq ||| 0x40#7
          trxState := .receiving }) ∧
    (¬ (commandOf s.commandReg = s.cfg.cmdTransceive ∧ s.trxState = .armed ∧ s.bitFraming.getLsbD 7 = true ∧ s.fifo ≠ []) →
      s.engineStep .transmit = s)) ∧
  ∀ (e : TxEvent) (i j : Nat),
    (e.sent[i]?.bind fun bits => bits[j]?) =
      if i < e.frame.length ∧ j < (if i + 1 = e.frame.length ∧ e.lastBits ≠ 0#3 then e.lastBits.toNat else 8)
      then some ((e.frame.getD i 0#8).getLsbD j) else none

/-- The receive step appends what fits, records the last bits, gathers the error bits, sets `RxIRq`; a byte that does not fit
sets `BufferOvfl` (41_chip_commands.md R170, R171). -/
def Obligations.ReceiveStep : Prop :=
  ∀ (s : State) (bytes : List Byte) (lb : BitVec 3) (e : Byte), s.fifo.length ≤ s.cfg.fifoDepth →
    (s.trxState = .receiving →
      s.engineStep (.receive bytes lb e) =
        { s with
          fifo := (s.fifo ++ bytes).take s.cfg.fifoDepth
          rxLastBits := lb
          errorReg := e ||| (if s.cfg.fifoDepth < s.fifo.length + bytes.length then 0x10#8 else 0x00#8) ||| s.errorReg
          comIrq := s.comIrq ||| 0x20#7
          trxState := .done }) ∧
    (s.trxState ≠ .receiving → s.engineStep (.receive bytes lb e) = s)

/-- The timer step sets `TimerIRq`, once a transmission has ended (41_chip_commands.md R173). -/
def Obligations.TimerStep : Prop :=
  ∀ s : State,
    (s.trxState = .receiving ∨ s.trxState = .done → s.engineStep .timer = { s with comIrq := s.comIrq ||| 0x01#7 }) ∧
    (s.trxState = .off ∨ s.trxState = .armed → s.engineStep .timer = s)

/-- The engines between two moves change only the chip: no memory, no scratch byte, no line, not the sequencer, and neither
`CommandReg` nor `BitFramingReg` (10_state.md R31, R48). -/
def Obligations.EnginesChangeOnlyChip : Prop :=
  ∀ s : State, ∃ u : State, s.engines = u ∧
    u = { s with
      comIrq := u.comIrq, divIrq := u.divIrq, errorReg := u.errorReg, fifo := u.fifo, crcResult := u.crcResult,
      crcState := u.crcState, trxState := u.trxState, txLastBitsLatched := u.txLastBitsLatched,
      rxLastBits := u.rxLastBits, txEvents := u.txEvents, events := u.events, drawCount := u.drawCount }

/-- No engine step and no read clears a flag of `ComIrqReg` or `DivIrqReg` (60_exceptions.md R290), and no write of another
register changes one. -/
def Obligations.FlagsStayPending : Prop :=
  ∀ s : State,
    (∀ i, (s.comIrq.getLsbD i = true → s.engines.comIrq.getLsbD i = true) ∧
      (s.divIrq.getLsbD i = true → s.engines.divIrq.getLsbD i = true)) ∧
    (∀ a t, exec (.regRead a) s = .next t → t.comIrq = s.comIrq ∧ t.divIrq = s.divIrq) ∧
    (∀ a v t, exec (.regWrite a v) s = .next t → regOf s.cfg a ≠ some .comIrq → t.comIrq = s.comIrq) ∧
    (∀ a v t, exec (.regWrite a v) s = .next t → regOf s.cfg a ≠ some .divIrq → t.divIrq = s.divIrq)

/-! ### CRC and counts -/

/-- The reference values of 41_chip_commands.md R164 and 95_test_vectors.md 2.4. -/
def Obligations.CrcReferenceValues : Prop :=
  crc16 Config.default [] = 0x6363#16 ∧ crc16 Config.default [0x00#8, 0x00#8] = 0x1EA0#16 ∧
  crc16 Config.default [0x12#8, 0x34#8] = 0xCF26#16 ∧ crc16 Config.default [0x50#8, 0x00#8] = 0xCD57#16 ∧
  crc16 Config.default [0x93#8, 0x70#8, 0x11#8, 0x22#8, 0x33#8, 0x44#8, 0x44#8] = 0x9C51#16

/-- A block followed by its own CRC, low byte first, has CRC 0, for every block, preset and polynomial
(95_test_vectors.md CRC-22). -/
def Obligations.CrcOfBlockWithItsCrc : Prop :=
  ∀ (c : Config) (data : List Byte),
    crc16 c (data ++ [(crc16 c data).extractLsb' 0 8, (crc16 c data).extractLsb' 8 8]) = 0x0000#16

/-- The received bit length by level and last bits, and the number of bytes drained, at most `FRAME_CAP` and at least one
(43_command_engine.md R220, R221). -/
def Obligations.BitLengthAndDrainCount : Prop :=
  ∀ (c : Config) (n : Nat) (lb : BitVec 3),
    (c.bitLenWidth = 32 → n ≤ 64 → bitLength c n lb =
      (if n = 0 then (if lb = 0#3 then 0 else 2 ^ 32 - 8 + lb.toNat)
       else if lb = 0#3 then 8 * n else 8 * (n - 1) + lb.toNat)) ∧
    drainCount c n = min (max n 1) c.frameCap

/-! ### Lines of the operations -/

/-- Step 1 of `TRANSCEIVE` clears every flag of `ComIrqReg`, and step 1 of `COMPUTE_CRC` clears `CRCIRq`, whatever
`IrqWriteMode` is (43_command_engine.md R216, 42_crc_unit.md R201). The poll of `TRANSCEIVE` ends at the first read that
shows `RxIRq` or `TimerIRq`, the last of the 1000 reads included, and otherwise after the last; only then is nothing
seen (43_command_engine.md R217). The poll of `COMPUTE_CRC` ends at the first read that shows `CRCIRq` and otherwise
after 255 reads; either way the operation goes on to read the result (42_crc_unit.md R200 step 6, R202). -/
def Obligations.PollLoops : Prop :=
  (∀ (s : State) (f : TrxFrame), s.cfg.Wf → f.line = .clearIrq →
    ∃ t, seqStep (.trx f) s = .next t ∧ t.seq = some (.trx { f with line := .idle }) ∧ t.comIrq = 0x00#7) ∧
  (∀ (s : State) (f : CrcFrame), s.cfg.Wf → f.line = .clearIrq →
    ∃ t, seqStep (.crc f) s = .next t ∧ t.seq = some (.crc { f with line := .idle }) ∧ t.divIrq.getLsbD 2 = false) ∧
  (∀ (s : State) (f : TrxFrame), s.cfg.Wf → s.cfg.waitMask = s.cfg.regMap.byte .comIrq 0x21#8 → f.line = .poll →
    f.pollCount < 1000 →
    ∃ t, seqStep (.trx f) s = .next t ∧
      t.seq = some (.trx { f with
        pollCount := f.pollCount + 1
        seen := s.comIrq.getLsbD 5 || s.comIrq.getLsbD 0
        line := if s.comIrq.getLsbD 5 || s.comIrq.getLsbD 0 then .stopRead
                else if f.pollCount + 1 = 1000 then .stopRead else .poll })) ∧
  ∀ (s : State) (f : CrcFrame), s.cfg.Wf → f.line = .poll → f.pollCount < 255 →
    ∃ t, seqStep (.crc f) s = .next t ∧
      t.seq = some (.crc { f with
        pollCount := f.pollCount + 1
        line := if s.divIrq.getLsbD 2 then .readLow else if f.pollCount + 1 = 255 then .readLow else .poll })

/-- The timeout exit and the error exit write no buffer, deliver no bit length and leave the chip idle: nothing seen by the
last poll, or a bit of mask 0x1B in the byte of `ErrorReg`, which under the default layout is the register's own bits 4, 3, 1
and 0. With none of those bits the level is read next (43_command_engine.md R218, R219). -/
def Obligations.TransceiveErrorExits : Prop :=
  ∀ (s : State) (f : TrxFrame), s.Inv → s.seq = some (.trx f) →
    (f.line = .stopWrite → f.seen = false →
      ∃ u, EndsWithin 2 s u ∧ u.result = some { status := some .err, cause := some .timeout } ∧
        u.mem = s.mem ∧ u.scratch = s.scratch ∧ u.commandReg = cmdByte s.cfg.cmdIdle ∧ u.trxState = .off ∧
        u.bitFraming = s.bitFraming &&& 0x7F#8) ∧
    (s.cfg.regMap.errorBits = {} → s.cfg.regMap.byte .error s.errorReg = s.errorReg) ∧
    (f.line = .readError → s.cfg.regMap.byte .error s.errorReg &&& 0x1B#8 ≠ 0#8 →
      ∃ u, EndsWithin 2 s u ∧ u.result = some { status := some .err, cause := some .hwErr } ∧
        u.mem = s.mem ∧ u.scratch = s.scratch ∧ u.commandReg = cmdByte s.cfg.cmdIdle ∧ u.trxState = .off ∧
        u.bitFraming = s.bitFraming) ∧
    (f.line = .readError → s.cfg.regMap.byte .error s.errorReg &&& 0x1B#8 = 0#8 →
      ∃ t, step s = .next t ∧ t.seq = some (.trx { f with line := .readLevel }) ∧ t.mem = s.mem ∧ t.scratch = s.scratch)

/-! ### Memory -/

/-- A buffer write stores the one byte and leaves every other byte of both memories; a read gives the byte; both have no
outcome outside the operand's region or at or beyond `HOST_MEM_SIZE` (20_memory.md R84). A scratch access touches the one
byte, and has no outcome at or past `FRAME_CAP` (44_card_frames.md R253). -/
def Obligations.BufferAccess : Prop :=
  ∀ (s : State) (r : Region) (o i : Nat) (v : Byte), Memory.wf s.mem = true → s.scratch.length = s.cfg.frameCap →
    (i < r.len ∧ r.base + i < s.cfg.hostMemSize →
      s.areaRead (areaOf r) i = some (Memory.read s.mem (r.base + i)) ∧
      ∃ t, s.areaWrite (areaOf r) i v = some t ∧ t = { s with mem := t.mem } ∧ Memory.wf t.mem = true ∧
        Memory.read t.mem (r.base + i) = v ∧ ∀ x, x ≠ r.base + i → Memory.read t.mem x = Memory.read s.mem x) ∧
    (¬ (i < r.len ∧ r.base + i < s.cfg.hostMemSize) → s.areaRead (areaOf r) i = none ∧ s.areaWrite (areaOf r) i v = none) ∧
    (o + i < s.cfg.frameCap →
      s.areaRead (scratchFrom s.cfg o) i = s.scratch[o + i]? ∧
      s.areaWrite (scratchFrom s.cfg o) i v = some { s with scratch := s.scratch.set (o + i) v }) ∧
    (s.cfg.frameCap ≤ o + i →
      s.areaRead (scratchFrom s.cfg o) i = none ∧ s.areaWrite (scratchFrom s.cfg o) i v = none)

/-- A line of an operation that reads or writes a byte outside its operand's region, or at or beyond `HOST_MEM_SIZE`, or
past the scratch buffer, faults with `BufferOverrun`, and no other access of it does: the lines of `COMPUTE_CRC` and of
`TRANSCEIVE`, issued by the host or called by a card operation, and the card operations' own lines. The step that meets
it ends the run (60_exceptions.md R286, 20_memory.md R84, 44_card_frames.md R253). On every line that touches no buffer the
step goes on (70_reset_and_hazards.md R325). That no step answers a refusal, a refused issue being a step that goes on or a
record made before a line (log 28, log 15), and that with no operation running a step goes on, where nothing is issued as
one that waits (log 24), is the model's. -/
def Obligations.OverrunFaults : Prop :=
  (∀ (s : State) (f : CrcFrame), s.seq = some (.crc f) ∨ (∃ c, s.seq = some (.cardCrc c f)) →
    (f.line = .readByte → (step s = .fault .bufferOverrun ↔ Overruns s.cfg f.src f.i)) ∧
    (f.line = .storeLow → (step s = .fault .bufferOverrun ↔ Overruns s.cfg f.dst 0)) ∧
    (f.line = .storeHigh → (step s = .fault .bufferOverrun ↔ Overruns s.cfg f.dst 1))) ∧
  (∀ (s : State) (f : TrxFrame), s.seq = some (.trx f) ∨ (∃ c, s.seq = some (.cardTrx c f)) →
    (f.line = .readByte → (step s = .fault .bufferOverrun ↔ Overruns s.cfg f.inp f.i)) ∧
    (f.line = .drainStore → (step s = .fault .bufferOverrun ↔ Overruns s.cfg f.out f.i))) ∧
  (∀ (s : State) (c : CardFrame), s.seq = some (.card c) →
    (∀ buf : Region,
      (∃ code, c.op = .request code buf ∧ c.line = .put) ∨ (∃ page, c.op = .readPage page buf ∧ c.line = .put) ∨
        (∃ cmd arg, c.op = .readUid cmd arg buf ∧ (c.line = .put ∨ c.line = .check)) →
      (step s = .fault .bufferOverrun ↔ ¬ (c.i < buf.len ∧ buf.base + c.i < s.cfg.hostMemSize))) ∧
    (∀ buf : Region, (∃ cmd arg, c.op = .select cmd arg buf) ∨ (∃ page, c.op = .writePage page buf) → c.line = .load →
      (step s = .fault .bufferOverrun ↔ ¬ (c.u.length < buf.len ∧ buf.base + c.u.length < s.cfg.hostMemSize))) ∧
    (c.line = .build → (step s = .fault .bufferOverrun ↔ s.cfg.frameCap ≤ c.i)) ∧
    (c.line = .ackByte → (step s = .fault .bufferOverrun ↔ s.cfg.frameCap = 0))) ∧
  ∀ s : State, (∀ x, step s ≠ .refused x) ∧
    (s.seq = none ∨ (∃ ws, s.seq = some (.writes ws)) ∨ (∃ f, s.seq = some (.resp f)) ∨
        (∃ f : CrcFrame, (s.seq = some (.crc f) ∨ ∃ c, s.seq = some (.cardCrc c f)) ∧
          f.line ∉ [.readByte, .storeLow, .storeHigh]) ∨
        (∃ f : TrxFrame, (s.seq = some (.trx f) ∨ ∃ c, s.seq = some (.cardTrx c f)) ∧ f.line ∉ [.readByte, .drainStore]) ∨
        (∃ c : CardFrame, s.seq = some (.card c) ∧ c.line ∈ [.framing, .callCrc, .callTrx]) →
      ∃ t, step s = .next t)

/-! ### The launch state and the invariant -/

/-- The reset state is a launch state of 70_reset_and_hazards.md R311 and meets the invariant. It is the model's choice among
them where R311 says "unspecified" (log 4). -/
def Obligations.ResetMeetsInvariant : Prop := Launch State.reset ∧ State.reset.Inv

/-- Every launch state of 70_reset_and_hazards.md R311 meets the invariant, whatever the values it leaves unspecified. -/
def Obligations.LaunchMeetsInvariant : Prop := ∀ s : State, Launch s → s.Inv

/-- Every step keeps the invariant and the parameters, from every state that meets it. -/
def Obligations.StepKeepsInvariant : Prop :=
  ∀ s t : State, s.Inv → step s = .next t → t.Inv ∧ t.cfg = s.cfg

/-- An operation that overruns no buffer comes to its end within its count of steps, whatever the engines and the card do
(60_exceptions.md R301), and hands over a result. -/
def Obligations.OperationEndsInBoundedSteps : Prop :=
  ∀ (s : State) (r : Running), s.Inv → s.seq = some r → r.Fits s.cfg →
    ∃ u, EndsWithin (r.stepsLeft s.cfg) s u ∧ u.Inv ∧ u.cfg = s.cfg ∧ u.result ≠ none

/-! ### `COMPUTE_CRC` and `TRANSCEIVE` -/

/-- The host's step of an operation only begins it: nothing but the sequencer's position is set, and the operation's own lines
follow as steps (10_state.md R30, R60; log 1). A length out of range is refused there (42_crc_unit.md R200,
43_command_engine.md R215, 60_exceptions.md R287). -/
def Obligations.IssueBeginsOperation : Prop :=
  ∀ (s : State) (x y : Region) (a b : Byte), s.seq = none →
    (x.len ≤ s.cfg.frameCap → ∃ r, exec (.computeCrc x y) s = .next { s with seq := some r }) ∧
    (s.cfg.frameCap < x.len → exec (.computeCrc x y) s = .refused .lengthOutOfRange) ∧
    (1 ≤ x.len → x.len ≤ s.cfg.frameCap → ∃ r, exec (.transceive x y) s = .next { s with seq := some r }) ∧
    (x.len < 1 ∨ s.cfg.frameCap < x.len → exec (.transceive x y) s = .refused .lengthOutOfRange) ∧
    ∀ i ∈ [Instr.request a x, .readUid a b x, .select a b x, .readPage a x, .writePage a x, .halt],
      ∃ r, exec i s = .next { s with seq := some r }

/-- `COMPUTE_CRC` completes, with the state after it as 42_crc_unit.md R204 says, whatever the engine does: the command left
running, the engine busy with the bytes read or done with their CRC, memory changed only at the two result bytes; `CRCIRq` set
exactly when done, unless an earlier CRC was still running at the issue (R206). Of the other registers only `BufferOvfl` is
cleared, unless a transceive was still running. -/
def Obligations.ComputeCrcCompletes : Prop :=
  ∀ (s : State) (src dst : Region), s.Inv → s.seq = none → src.len ≤ s.cfg.frameCap → Holds s.cfg src src.len →
    Holds s.cfg dst 2 →
    ∃ t, exec (.computeCrc src dst) s = .next t ∧
      ∃ u, EndsWithin (2 * src.len + 266) t.engines u ∧
        u.commandReg = cmdByte s.cfg.cmdCalcCrc ∧ u.trxState = .off ∧ u.bitFraming = s.bitFraming ∧
        u.scratch = s.scratch ∧
        (u.crcState = .busy (s.hostBytes src.base src.len) ∧ u.fifo = s.hostBytes src.base src.len ∨
          u.crcState = .done ∧ u.crcResult = crc16 s.cfg (s.hostBytes src.base src.len) ∧ u.fifo.length ≤ src.len) ∧
        (∃ lo hi, u.result = some { data := [lo, hi] } ∧ Memory.read u.mem dst.base = lo ∧
          Memory.read u.mem (dst.base + 1) = hi) ∧
        (∀ x, x ≠ dst.base → x ≠ dst.base + 1 → Memory.read u.mem x = Memory.read s.mem x) ∧
        ((∀ d, s.crcState ≠ .busy d) → (u.divIrq.getLsbD 2 = true ↔ u.crcState = .done)) ∧
        (s.cfg.irqWriteMode = .setClear → ∀ i, i ≠ 2 → u.divIrq.getLsbD i = s.divIrq.getLsbD i) ∧
        (s.trxState = .off → u.comIrq = s.comIrq ∧ u.rxLastBits = s.rxLastBits ∧ u.txEvents = s.txEvents ∧
          u.txLastBitsLatched = s.txLastBitsLatched ∧ u.errorReg = s.errorReg &&& 0xEF#8)

/-- Once the engine has completed before the low byte is read, which a poll that ended early shows, `COMPUTE_CRC` returns
and stores the CRC of the bytes it read, low byte first; a destination over the source changes nothing
(42_crc_unit.md R203 first row, R205). -/
def Obligations.ComputeCrcResult : Prop :=
  ∀ (s t v : State) (src dst : Region) (k : Nat) (f : CrcFrame), s.Inv → s.seq = none → src.len ≤ s.cfg.frameCap →
    Holds s.cfg src src.len → Holds s.cfg dst 2 → (∀ d, s.crcState ≠ .busy d) →
    exec (.computeCrc src dst) s = .next t → Reaches k t.engines v → v.seq = some (.crc f) → f.line = .readLow →
    f.pollCount < 255 ∨ v.crcState = .done →
    ∃ u, EndsWithin 4 v u ∧
      u.result = some { data := [(crc16 s.cfg (s.hostBytes src.base src.len)).extractLsb' 0 8,
        (crc16 s.cfg (s.hostBytes src.base src.len)).extractLsb' 8 8] } ∧
      Memory.read u.mem dst.base = (crc16 s.cfg (s.hostBytes src.base src.len)).extractLsb' 0 8 ∧
      Memory.read u.mem (dst.base + 1) = (crc16 s.cfg (s.hostBytes src.base src.len)).extractLsb' 8 8

/-- `TRANSCEIVE` completes, with the state after it of 43_command_engine.md R229 (its FIFO aside), whatever the engines
and the card do: the chip idle, `StartSend` clear and the other framing bits kept; on `ERR` no memory changed; on `OK`
the bit length is that of the FIFO level when the level was read and of the last bits when `ControlReg` was read,
whichever flag ended the poll (R220, R226), and only the bytes drained changed; and what was sent, if anything, is
exactly the input frame with the framing of the register. Where nothing was sent it is a timeout, whatever flags were
set before: step 1 clears them (R216, R225; with no transceive running at the issue, and a `WAIT_MASK` of the two
flags). -/
def Obligations.TransceiveCompletes : Prop :=
  ∀ (s : State) (inp out : Region), s.Inv → s.seq = none → 1 ≤ inp.len → inp.len ≤ s.cfg.frameCap →
    Holds s.cfg inp inp.len → Holds s.cfg out s.cfg.frameCap →
    ∃ t, exec (.transceive inp out) s = .next t ∧
      ∃ u, EndsWithin (2 * inp.len + 1016 + 2 * s.cfg.frameCap) t.engines u ∧
        u.commandReg = cmdByte s.cfg.cmdIdle ∧ u.crcState = .off ∧ u.trxState = .off ∧
        u.bitFraming = s.bitFraming &&& 0x7F#8 ∧ u.scratch = s.scratch ∧
        ((∀ d, s.crcState ≠ .busy d) → u.divIrq = s.divIrq ∧ u.crcResult = s.crcResult) ∧
        (s.trxState = .off → u.txEvents = s.txEvents ∨
          u.txEvents = ⟨s.hostBytes inp.base inp.len, s.bitFraming.extractLsb' 0 3⟩ :: s.txEvents) ∧
        (s.cfg.waitMask = s.cfg.regMap.byte .comIrq 0x21#8 → s.trxState = .off → u.txEvents = s.txEvents →
          u.result = some { status := some .err, cause := some .timeout }) ∧
        ((∃ c, (c = .timeout ∨ c = .hwErr) ∧ u.result = some { status := some .err, cause := some c } ∧ u.mem = s.mem) ∨
          ∃ (j k : Nat) (x y : State) (f g : TrxFrame),
            (Reaches j t.engines x ∧ x.seq = some (.trx f) ∧ f.line = .readLevel) ∧
            (Reaches k t.engines y ∧ y.seq = some (.trx g) ∧ g.line = .readLast) ∧
            u.result = some { status := some .ok, bitLen := some (bitLength s.cfg x.fifo.length y.rxLastBits) } ∧
            ∀ z, z < out.base ∨ out.base + min (max x.fifo.length 1) s.cfg.frameCap ≤ z →
              Memory.read u.mem z = Memory.read s.mem z)

/-- The end of a `TRANSCEIVE` that found no error (43_command_engine.md R215 step 8, R220, R221, R224). Once a reception is
complete when the level is read, it returns `OK` with the bit length of the bytes received, the first `FRAME_CAP` of them are
in the response buffer, and the rest stays in the FIFO. In every case, a poll that `TimerIRq` alone ended among them (R226),
the level read is the FIFO's length then, the bit length is that of the level read and of the last bits when `ControlReg` is
read, and only the bytes drained change; those that were in the FIFO by then arrive in order. -/
def Obligations.TransceiveDelivers : Prop :=
  ∀ (v : State) (f : TrxFrame), v.Inv → v.seq = some (.trx f) → f.Fits v.cfg → f.out.space = .host →
    (f.line = .readLevel → v.trxState = .done →
      ∃ u, EndsWithin (2 * v.cfg.frameCap + 4) v u ∧
        u.result = some { status := some .ok, bitLen := some (bitLength v.cfg v.fifo.length v.rxLastBits) } ∧
        u.fifo = v.fifo.drop v.cfg.frameCap ∧
        (∀ i, i < v.cfg.frameCap → i < v.fifo.length → Memory.read u.mem (f.out.base + i) = v.fifo.getD i 0#8) ∧
        ∀ x, x < f.out.base ∨ f.out.base + min (max v.fifo.length 1) v.cfg.frameCap ≤ x →
          Memory.read u.mem x = Memory.read v.mem x) ∧
    (f.line = .readLevel →
      ∃ t, step v = .next t ∧ t.seq = some (.trx { f with line := .readLast, n := v.fifo.length }) ∧ t.mem = v.mem) ∧
    (f.line = .readLast →
      ∃ u, EndsWithin (2 * v.cfg.frameCap + 3) v u ∧
        u.result = some { status := some .ok, bitLen := some (bitLength v.cfg f.n v.rxLastBits) } ∧
        (v.trxState ≠ .off → v.bitFraming.getLsbD 7 = false →
          ∀ i, i < min (max f.n 1) v.cfg.frameCap → i < v.fifo.length →
            Memory.read u.mem (f.out.base + i) = v.fifo.getD i 0#8) ∧
        ∀ x, x < f.out.base ∨ f.out.base + min (max f.n 1) v.cfg.frameCap ≤ x →
          Memory.read u.mem x = Memory.read v.mem x)

/-! ### Card operations -/

/-- `REQUEST` completes (44_card_frames.md R241, R240): seven-bit framing left behind, the request code sent as the frame if
anything was, `OK` with the two bytes of the buffer, or `ERR`; memory changed only in the buffer. -/
def Obligations.RequestCompletes : Prop :=
  ∀ (s : State) (code : Byte) (buf : Region), s.Inv → s.seq = none → Holds s.cfg buf s.cfg.frameCap →
    ∃ t, exec (.request code buf) s = .next t ∧
      ∃ u, EndsWithin (callSteps s.cfg + 4) t.engines u ∧
        u.commandReg = cmdByte s.cfg.cmdIdle ∧ u.crcState = .off ∧ u.trxState = .off ∧ u.bitFraming = 0x07#8 ∧
        u.scratch = s.scratch ∧
        ((∀ d, s.crcState ≠ .busy d) → u.divIrq = s.divIrq ∧ u.crcResult = s.crcResult) ∧
        (s.trxState = .off → u.txEvents = s.txEvents ∨ u.txEvents = ⟨[code], 7#3⟩ :: s.txEvents) ∧
        (∀ x, x < buf.base ∨ buf.base + s.cfg.frameCap ≤ x → Memory.read u.mem x = Memory.read s.mem x) ∧
        ((∃ q0 q1, u.result = some { status := some .ok, data := [q0, q1] } ∧ Memory.read u.mem buf.base = q0 ∧
            Memory.read u.mem (buf.base + 1) = q1) ∨
          u.result = some { status := some .err, cause := some .proto } ∨
          ((u.result = some { status := some .err, cause := some .timeout } ∨
              u.result = some { status := some .err, cause := some .hwErr }) ∧
            Memory.read u.mem buf.base = code))

/-- `READ_UID` completes (44_card_frames.md R242, R248, R250): whole-byte framing left behind, command and argument sent if
anything was, `OK` exactly with five bytes of the buffer whose exclusive or is 0; memory changed only in the buffer. -/
def Obligations.ReadUidCompletes : Prop :=
  ∀ (s : State) (cmd arg : Byte) (buf : Region), s.Inv → s.seq = none → Holds s.cfg buf s.cfg.frameCap →
    ∃ t, exec (.readUid cmd arg buf) s = .next t ∧
      ∃ u, EndsWithin (callSteps s.cfg + 4) t.engines u ∧
        u.commandReg = cmdByte s.cfg.cmdIdle ∧ u.crcState = .off ∧ u.trxState = .off ∧ u.bitFraming = 0x00#8 ∧
        u.scratch = s.scratch ∧
        ((∀ d, s.crcState ≠ .busy d) → u.divIrq = s.divIrq ∧ u.crcResult = s.crcResult) ∧
        (s.trxState = .off → u.txEvents = s.txEvents ∨ u.txEvents = ⟨[cmd, arg], 0#3⟩ :: s.txEvents) ∧
        (∀ x, x < buf.base ∨ buf.base + s.cfg.frameCap ≤ x → Memory.read u.mem x = Memory.read s.mem x) ∧
        ((∃ u0 u1 u2 u3 b, u.result = some { status := some .ok, data := [u0, u1, u2, u3, b] } ∧
            [u0, u1, u2, u3, b] = u.hostBytes buf.base 5 ∧ u0 ^^^ u1 ^^^ u2 ^^^ u3 ^^^ b = 0#8) ∨
          (∃ u0 u1 u2 u3 b, u.result = some { status := some .err, cause := some .proto } ∧
            [u0, u1, u2, u3, b] = u.hostBytes buf.base 5 ∧ u0 ^^^ u1 ^^^ u2 ^^^ u3 ^^^ b ≠ 0#8) ∨
          ((u.result = some { status := some .err, cause := some .timeout } ∨
              u.result = some { status := some .err, cause := some .hwErr }) ∧
            u.hostBytes buf.base 2 = [cmd, arg]))

/-- `SELECT` completes (44_card_frames.md R243, R247): the frame sent, if any, is command, argument, the four serial bytes, their
BCC and two CRC bytes, with the framing left by earlier operations (70_reset_and_hazards.md R315); `OK` with the first byte
of the buffer, or `ERR`; memory changed only in the buffer. -/
def Obligations.SelectCompletes : Prop :=
  ∀ (s : State) (cmd arg : Byte) (serial : Region), s.Inv → s.seq = none → Holds s.cfg serial s.cfg.frameCap →
    ∃ t, exec (.select cmd arg serial) s = .next t ∧
      ∃ u, EndsWithin (callSteps s.cfg + 27) t.engines u ∧
        u.commandReg = cmdByte s.cfg.cmdIdle ∧ u.crcState = .off ∧ u.trxState = .off ∧
        u.bitFraming = s.bitFraming &&& 0x7F#8 ∧
        (s.trxState = .off → u.txEvents = s.txEvents ∨
          ∃ u0 u1 u2 u3 l h, [u0, u1, u2, u3] = s.hostBytes serial.base 4 ∧
            u.txEvents = ⟨[cmd, arg, u0, u1, u2, u3, u0 ^^^ u1 ^^^ u2 ^^^ u3, l, h], s.bitFraming.extractLsb' 0 3⟩ ::
              s.txEvents) ∧
        (∀ x, x < serial.base ∨ serial.base + s.cfg.frameCap ≤ x → Memory.read u.mem x = Memory.read s.mem x) ∧
        (u.result = some { status := some .ok, data := [Memory.read u.mem serial.base] } ∨
          u.result = some { status := some .err, cause := some .proto } ∨
          ((u.result = some { status := some .err, cause := some .timeout } ∨
              u.result = some { status := some .err, cause := some .hwErr }) ∧ u.mem = s.mem))

/-- `READ_PAGE` completes (44_card_frames.md R244): the frame sent, if any, is `OP_READ`, the page and two CRC bytes; `OK` with
the first sixteen bytes of the buffer, or `ERR`; memory changed only in the buffer. -/
def Obligations.ReadPageCompletes : Prop :=
  ∀ (s : State) (page : Byte) (buf : Region), s.Inv → s.seq = none → Holds s.cfg buf s.cfg.frameCap →
    16 ≤ s.cfg.frameCap →
    ∃ t, exec (.readPage page buf) s = .next t ∧
      ∃ u, EndsWithin (callSteps s.cfg + 3) t.engines u ∧
        u.commandReg = cmdByte s.cfg.cmdIdle ∧ u.crcState = .off ∧ u.trxState = .off ∧
        u.bitFraming = s.bitFraming &&& 0x7F#8 ∧ u.scratch = s.scratch ∧
        (s.trxState = .off → u.txEvents = s.txEvents ∨
          ∃ l h, u.txEvents = ⟨[s.cfg.opRead, page, l, h], s.bitFraming.extractLsb' 0 3⟩ :: s.txEvents) ∧
        (∀ x, x < buf.base ∨ buf.base + s.cfg.frameCap ≤ x → Memory.read u.mem x = Memory.read s.mem x) ∧
        (u.result = some { status := some .ok, data := u.hostBytes buf.base 16 } ∨
          u.result = some { status := some .err, cause := some .proto } ∨
          ((u.result = some { status := some .err, cause := some .timeout } ∨
              u.result = some { status := some .err, cause := some .hwErr }) ∧
            u.hostBytes buf.base 2 = [s.cfg.opRead, page]))

/-- `WRITE_PAGE` completes (44_card_frames.md R245): the frame sent, if any, is `OP_WRITE`, the page, the four data bytes and
two CRC bytes; `OK` or `ERR`; no host memory changed. -/
def Obligations.WritePageCompletes : Prop :=
  ∀ (s : State) (page : Byte) (data : Region), s.Inv → s.seq = none → Holds s.cfg data 4 →
    ∃ t, exec (.writePage page data) s = .next t ∧
      ∃ u, EndsWithin (callSteps s.cfg + 26) t.engines u ∧
        u.commandReg = cmdByte s.cfg.cmdIdle ∧ u.crcState = .off ∧ u.trxState = .off ∧
        u.bitFraming = s.bitFraming &&& 0x7F#8 ∧ u.mem = s.mem ∧
        (s.trxState = .off → u.txEvents = s.txEvents ∨
          ∃ d0 d1 d2 d3 l h, [d0, d1, d2, d3] = s.hostBytes data.base 4 ∧
            u.txEvents = ⟨[s.cfg.opWrite, page, d0, d1, d2, d3, l, h], s.bitFraming.extractLsb' 0 3⟩ :: s.txEvents) ∧
        (u.result = some { status := some .ok } ∧ (u.scratch.getD 0 0#8).extractLsb' 0 4 = 0xA#4 ∨
          ∃ c, u.result = some { status := some .err, cause := some c })

/-- `HALT` completes, and leaves the block in the same state class however often it is issued (44_card_frames.md R246, R255):
chip idle, `StartSend` clear, no host memory changed; the frame sent, if any, is `OP_HALT`, 0x00 and two CRC bytes; the
status is `TRANSCEIVE`'s, never a protocol error. -/
def Obligations.HaltCompletes : Prop :=
  ∀ s : State, s.Inv → s.seq = none →
    ∃ t, exec .halt s = .next t ∧
      ∃ u, EndsWithin (callSteps s.cfg + 26) t.engines u ∧
        u.commandReg = cmdByte s.cfg.cmdIdle ∧ u.crcState = .off ∧ u.trxState = .off ∧
        u.bitFraming = s.bitFraming &&& 0x7F#8 ∧ u.mem = s.mem ∧
        (s.trxState = .off → u.txEvents = s.txEvents ∨
          ∃ l h, u.txEvents = ⟨[s.cfg.opHalt, 0x00#8, l, h], s.bitFraming.extractLsb' 0 3⟩ :: s.txEvents) ∧
        (u.result = some { status := some .ok } ∨ u.result = some { status := some .err, cause := some .timeout } ∨
          u.result = some { status := some .err, cause := some .hwErr })

/-- The lines of a `COMPUTE_CRC` or `TRANSCEIVE` that a card operation calls are those of one the host issues
(60_exceptions.md R294), and after the CRC the `TRANSCEIVE` begins. The checks after a `TRANSCEIVE` that returned `OK`
with bit length `b`: 16, 24 and 144 bits are the only lengths `REQUEST`, `SELECT` and `READ_PAGE` accept, `HALT` checks
nothing, `READ_UID` and `WRITE_PAGE` go on to their own check with the bit length delivered, and what `TRANSCEIVE`
returned as `ERR` is the operation's `ERR` with the same cause (44_card_frames.md R240, the last steps of R241 to R246;
60_exceptions.md R282). `READ_UID` reads five bytes and accepts them exactly when their exclusive or is 0 (R242, R248).
`WRITE_PAGE` accepts exactly a four-bit answer whose low nibble is the ACK; the upper nibble is not examined
(30_encoding.md R120). -/
def Obligations.CardLengthChecks : Prop :=
  (∀ (s t : State) (k : CardFrame),
    (∀ f g, seqStep (.crc f) s = .next t → t.seq = some (.crc g) →
      seqStep (.cardCrc k f) s = .next { t with seq := some (.cardCrc k g) }) ∧
    (∀ f, seqStep (.crc f) s = .next t → t.seq = none →
      ∃ j g, j.op = k.op ∧ g.line = .clearIrq ∧
        seqStep (.cardCrc k f) s = .next { t with seq := some (.cardTrx j g), result := s.result }) ∧
    ∀ f g, seqStep (.trx f) s = .next t → t.seq = some (.trx g) →
      seqStep (.cardTrx k f) s = .next { t with seq := some (.cardTrx k g) }) ∧
  (∀ (s : State) (k : CardFrame) (f : TrxFrame), f.line = .finalIdle →
    ∃ t, seqStep (.cardTrx k f) s = .next t ∧ t.mem = s.mem ∧ t.scratch = s.scratch ∧
      (f.status = .err → t.seq = none ∧ t.result = some { status := some .err, cause := f.cause }) ∧
      (f.status = .ok →
        (∀ code buf, k.op = .request code buf → t.seq = none ∧ t.result = some (
          if f.bitLen = 16 then { status := some .ok, data := s.hostBytes buf.base 2 }
          else { status := some .err, cause := some .proto })) ∧
        (∀ cmd arg buf, k.op = .readUid cmd arg buf →
          t.seq = some (.card { k with line := .check, i := 0, u := [], bitLen := f.bitLen })) ∧
        (∀ cmd arg serial, k.op = .select cmd arg serial → t.seq = none ∧ t.result = some (
          if f.bitLen = 24 then { status := some .ok, data := s.hostBytes serial.base 1 }
          else { status := some .err, cause := some .proto })) ∧
        (∀ page buf, k.op = .readPage page buf → t.seq = none ∧ t.result = some (
          if f.bitLen = 144 then { status := some .ok, data := s.hostBytes buf.base 16 }
          else { status := some .err, cause := some .proto })) ∧
        (∀ page data, k.op = .writePage page data →
          t.seq = some (.card { k with line := .ackByte, bitLen := f.bitLen })) ∧
        (k.op = .halt → t.seq = none ∧ t.result = some { status := some .ok }))) ∧
  (∀ (s : State) (k : CardFrame) (cmd arg : Byte) (buf : Region) (u : List Byte), k.op = .readUid cmd arg buf →
    k.line = .check → k.i < buf.len → buf.base + k.i < s.cfg.hostMemSize →
    u = k.u ++ [Memory.read s.mem (buf.base + k.i)] →
    ∃ t, seqStep (.card k) s = .next t ∧ t.mem = s.mem ∧
      (k.i + 1 < 5 → t.seq = some (.card { k with i := k.i + 1, u := u })) ∧
      (5 ≤ k.i + 1 → t.seq = none ∧ t.result = some (
        if u.foldl (· ^^^ ·) 0#8 = 0#8 then { status := some .ok, data := u }
        else { status := some .err, cause := some .proto }))) ∧
  ∀ (s : State) (k : CardFrame) (page : Byte) (data : Region), s.Inv → k.op = .writePage page data → k.line = .ackByte →
    ∃ t, seqStep (.card k) s = .next t ∧ t.seq = none ∧ t.mem = s.mem ∧
      t.result = some (
        if k.bitLen = 4 ∧ (s.scratch.getD 0 0#8).extractLsb' 0 4 = 0xA#4 then { status := some .ok }
        else { status := some .err, cause := some .proto })

/-! ### Frames and responses -/

/-- The frame rows queue their frames: REQA and WUPA with seven-bit framing, ANTICOLL with whole bytes, the others with
the framing as it stands (30_encoding.md R109-R114). A SELECT, READ or WRITE frame is queued where its last two bytes are
the CRC of the bytes before them, low byte first (R115); any others make it a frame the encoder does not emit, which is
refused (R123). That a row is the encoder's writes is log 10; that the refusal is met when the row is issued is log 11. -/
def Obligations.FrameRowsQueue : Prop :=
  ∀ (s : State) (c a p u0 u1 u2 u3 : Byte), s.cfg.Wf → s.seq = none →
    Queues .frameReqa (some 0x07#8) [0x26#8] s ∧
    Queues .frameWupa (some 0x07#8) [0x52#8] s ∧
    Queues (.frameAnticoll c a) (some 0x00#8) [c, a] s ∧
    (∀ (i : Byte → Byte → Instr) (first : List Byte) (l h : Byte),
      (i = .frameSelect c a u0 u1 u2 u3 ∧ first = [c, a, u0, u1, u2, u3, u0 ^^^ u1 ^^^ u2 ^^^ u3]) ∨
        (i = .frameRead p ∧ first = [s.cfg.opRead, p]) ∨
        (i = .frameWrite p u0 u1 u2 u3 ∧ first = [s.cfg.opWrite, p, u0, u1, u2, u3]) →
      (l = (crc16 s.cfg first).extractLsb' 0 8 ∧ h = (crc16 s.cfg first).extractLsb' 8 8 →
        Queues (i l h) none (first ++ [l, h]) s) ∧
      (¬ (l = (crc16 s.cfg first).extractLsb' 0 8 ∧ h = (crc16 s.cfg first).extractLsb' 8 8) →
        exec (i l h) s = .refused .unlistedFrame)) ∧
    Queues .frameHalt none ([s.cfg.opHalt, 0x00#8] ++
      [(crc16 s.cfg [s.cfg.opHalt, 0x00#8]).extractLsb' 0 8, (crc16 s.cfg [s.cfg.opHalt, 0x00#8]).extractLsb' 8 8]) s

/-- The response rows accept what 30_encoding.md R116 accepts, with the bytes the row names (log 12). -/
def Obligations.ResponseRowsAnswer : Prop :=
  ∀ (s : State) (b0 b1 b2 b3 b4 : Byte) (d : List Byte) (hi : BitVec 4), s.seq = none → s.cfg.Wf →
    s.fifo.length ≤ s.cfg.fifoDepth →
    Answers (.respAtqa b0 b1) (fun got n => n == 16 && got == [b0, b1]) (fun got => got) s ∧
    Answers (.respUid b0 b1 b2 b3 b4)
      (fun got _ => got.take 5 == [b0, b1, b2, b3, b4] && b0 ^^^ b1 ^^^ b2 ^^^ b3 ^^^ b4 == 0#8)
      (fun got => got.take 5) s ∧
    Answers (.respSak b0 b1 b2) (fun got n => n == 24 && got == [b0, b1, b2]) (fun got => got.take 1) s ∧
    Answers (.respRead d b0 b1) (fun got n => n == 144 && got == d ++ [b0, b1]) (fun got => got.take 16) s ∧
    Answers (.respAck hi) (fun got n => n == 4 && (got.getD 0 0#8).extractLsb' 0 4 == 0xA#4) (fun _ => []) s

/-! ### The frames' CRC bytes, and the acknowledgement -/

/-- The frame a card operation sends carries the CRC of its first bytes, low byte first, once the `COMPUTE_CRC` it calls has
completed before the low byte is read, which a poll that ended early shows (30_encoding.md R111 to R115; 42_crc_unit.md R203
first row). -/
def Obligations.FrameCarriesItsCrc : Prop :=
  ∀ (s t v : State) (i : Instr) (first : List Byte) (k : Nat) (c : CardFrame) (f : CrcFrame),
    s.Inv → s.seq = none → s.trxState = .off →
    ((∃ cmd arg serial u0 u1 u2 u3, i = .select cmd arg serial ∧ Holds s.cfg serial s.cfg.frameCap ∧
        [u0, u1, u2, u3] = s.hostBytes serial.base 4 ∧ first = [cmd, arg, u0, u1, u2, u3, u0 ^^^ u1 ^^^ u2 ^^^ u3]) ∨
      (∃ page buf, i = .readPage page buf ∧ Holds s.cfg buf s.cfg.frameCap ∧ first = [s.cfg.opRead, page]) ∨
      (∃ page data, i = .writePage page data ∧ Holds s.cfg data 4 ∧
        first = [s.cfg.opWrite, page] ++ s.hostBytes data.base 4) ∨
      (i = .halt ∧ first = [s.cfg.opHalt, 0x00#8])) →
    exec i s = .next t → Reaches k t.engines v → v.seq = some (.cardCrc c f) → f.line = .readLow →
    v.crcState = .done ∨ (f.pollCount < 255 ∧ ∀ d, s.crcState ≠ .busy d) →
    ∃ u, EndsWithin (trxCallSteps s.cfg + 4) v u ∧
      (u.txEvents = s.txEvents ∨
        u.txEvents = ⟨first ++ [(crc16 s.cfg first).extractLsb' 0 8, (crc16 s.cfg first).extractLsb' 8 8],
          s.bitFraming.extractLsb' 0 3⟩ :: s.txEvents)

/-- `WRITE_PAGE` accepts an answer exactly when it has four bits, as its `TRANSCEIVE` delivered them, and its low nibble is the
ACK code 0xA; bits 7:4 of the received byte are not examined (30_encoding.md R120). -/
def Obligations.AcknowledgementDecides : Prop :=
  ∀ (s : State) (k : CardFrame) (f : TrxFrame) (page : Byte) (data : Region), s.Inv → s.seq = some (.cardTrx k f) →
    k.op = .writePage page data → f.line = .finalIdle → f.status = .ok →
    ∃ u, EndsWithin 2 s u ∧ u.mem = s.mem ∧ u.scratch = s.scratch ∧
      u.result = some (
        if f.bitLen = 4 ∧ (s.scratch.getD 0 0#8).extractLsb' 0 4 = 0xA#4 then { status := some .ok }
        else { status := some .err, cause := some .proto })
end

