-- ==== Sys2Proof/Laws/Layout.lean ====
section
/-! SUPPORT. The fields of a register and its byte on the bus say the same, under every layout whose places differ. -/

namespace Sys2Proof

/-! ### Bytes by their bits -/

theorem byteOf_getLsbD (b : Nat → Bool) {i : Nat} (h : i < 8) : (byteOf b).getLsbD i = b i := by
  unfold byteOf
  interval_cases i <;> simp [BitVec.ofBoolListLE]

theorem byte_ext {x y : Byte} (h : ∀ i, i < 8 → x.getLsbD i = y.getLsbD i) : x = y := BitVec.eq_of_getLsbD_eq h

/-! ### One layout -/

theorem Layout.places_eq (l : Layout) : l.places.map Fin.val =
    [l.b0.val, l.b1.val, l.b2.val, l.b3.val, l.b4.val, l.b5.val, l.b6.val, l.b7.val] := rfl

theorem Layout.place_lt (l : Layout) {i : Nat} (h : i < 8) : l.place i < 8 := by
  unfold Layout.place
  rw [Layout.places_eq]
  interval_cases i <;> exact Fin.isLt _

theorem Layout.fields_getLsbD (l : Layout) (v : Byte) {i : Nat} (h : i < 8) :
    (l.fields v).getLsbD i = v.getLsbD (l.place i) := byteOf_getLsbD _ h

theorem Layout.fields_or (l : Layout) (x y : Byte) : l.fields (x ||| y) = l.fields x ||| l.fields y :=
  byte_ext fun i h => by simp [Layout.fields_getLsbD l _ h]

theorem Layout.fields_and (l : Layout) (x y : Byte) : l.fields (x &&& y) = l.fields x &&& l.fields y :=
  byte_ext fun i h => by simp [Layout.fields_getLsbD l _ h]

theorem Layout.fields_not (l : Layout) (x : Byte) : l.fields (~~~x) = ~~~l.fields x :=
  byte_ext fun i h => by
    rw [Layout.fields_getLsbD l _ h, BitVec.getLsbD_not, BitVec.getLsbD_not, Layout.fields_getLsbD l _ h]
    simp only [h, l.place_lt h]

/-- Different bits stand at different places. -/
theorem Layout.place_inj {l : Layout} (hl : l.places.Nodup) {i j : Nat} (hi : i < 8) (hj : j < 8)
    (h : l.place i = l.place j) : i = j := by
  have hn : (l.places.map Fin.val).Nodup := hl.map Fin.val_injective
  unfold Layout.place at h
  rw [List.getD_eq_getElem _ _ (by simpa [Layout.places] using hi),
    List.getD_eq_getElem _ _ (by simpa [Layout.places] using hj)] at h
  exact (List.Nodup.getElem_inj_iff hn).1 h

theorem Layout.byte_getLsbD {l : Layout} (hl : l.places.Nodup) (f : Byte) {i : Nat} (h : i < 8) :
    (l.byte f).getLsbD (l.place i) = f.getLsbD i := by
  unfold Layout.byte
  rw [byteOf_getLsbD _ (l.place_lt h), Bool.eq_iff_iff, List.any_eq_true]
  constructor
  · rintro ⟨k, hk, e⟩
    rw [Bool.and_eq_true, beq_iff_eq] at e
    obtain rfl := Layout.place_inj hl (List.mem_range.1 hk) h e.1
    exact e.2
  · exact fun e => ⟨i, List.mem_range.2 h, by simp [e]⟩

theorem Layout.fields_byte {l : Layout} (hl : l.places.Nodup) (f : Byte) : l.fields (l.byte f) = f :=
  byte_ext fun _ h => by rw [Layout.fields_getLsbD _ _ h, Layout.byte_getLsbD hl _ h]

/-- Every byte carries some fields, so a byte is that of its fields. -/
theorem Layout.byte_fields {l : Layout} (hl : l.places.Nodup) (v : Byte) : l.byte (l.fields v) = v := by
  have hinj : Function.Injective l.byte := fun x y h => by
    have := congrArg l.fields h
    rwa [Layout.fields_byte hl, Layout.fields_byte hl] at this
  have hsurj := (Finite.injective_iff_surjective (f := l.byte)).1 hinj
  obtain ⟨f, rfl⟩ := hsurj v
  rw [Layout.fields_byte hl]

theorem Layout.byte_default (f : Byte) : ({} : Layout).byte f = f := by revert f; decide

theorem Layout.fields_default (v : Byte) : ({} : Layout).fields v = v := by revert v; decide

/-! ### The registers -/

/-- The places of every register's layout differ. -/
theorem Config.Wf.layout {c : Config} (h : c.Wf) (r : Reg) : (c.regMap.layout r).places.Nodup :=
  h.2.2.2.2.2.2.1 r (by cases r <;> simp [Reg.all])

theorem Config.Wf.fields_byte {c : Config} (h : c.Wf) (r : Reg) (f : Byte) :
    c.regMap.fields r (c.regMap.byte r f) = f := Layout.fields_byte (h.layout r) f

theorem Config.Wf.byte_fields {c : Config} (h : c.Wf) (r : Reg) (v : Byte) :
    c.regMap.byte r (c.regMap.fields r v) = v := Layout.byte_fields (h.layout r) v

theorem Config.Wf.byte_inj {c : Config} (h : c.Wf) {r : Reg} {f g : Byte}
    (e : c.regMap.byte r f = c.regMap.byte r g) : f = g := by
  have := congrArg (c.regMap.fields r) e
  rwa [h.fields_byte, h.fields_byte] at this

theorem RegMap.fields_or (m : RegMap) (r : Reg) (x y : Byte) : m.fields r (x ||| y) = m.fields r x ||| m.fields r y :=
  Layout.fields_or _ _ _

theorem RegMap.fields_and (m : RegMap) (r : Reg) (x y : Byte) : m.fields r (x &&& y) = m.fields r x &&& m.fields r y :=
  Layout.fields_and _ _ _

theorem RegMap.fields_not (m : RegMap) (r : Reg) (x : Byte) : m.fields r (~~~x) = ~~~m.fields r x :=
  Layout.fields_not _ _

@[simp] theorem RegMap.fields_fifoData (m : RegMap) (v : Byte) : m.fields .fifoData v = v := Layout.fields_default v

@[simp] theorem RegMap.byte_fifoData (m : RegMap) (v : Byte) : m.byte .fifoData v = v := Layout.byte_default v

@[simp] theorem RegMap.byte_crcResultM (m : RegMap) (v : Byte) : m.byte .crcResultM v = v := Layout.byte_default v

@[simp] theorem RegMap.byte_crcResultL (m : RegMap) (v : Byte) : m.byte .crcResultL v = v := Layout.byte_default v

@[simp] theorem RegMap.byte_zero (m : RegMap) (r : Reg) : m.byte r 0x00#8 = 0x00#8 :=
  byte_ext fun i h => by unfold RegMap.byte Layout.byte; rw [byteOf_getLsbD _ h]; simp

end Sys2Proof
end

