-- ==== Sys2Proof/Laws/Decode.lean ====
section
/-! SUPPORT. The small laws of the decoder and the encoder. -/

namespace Sys2Proof

@[simp] theorem writeAddrByte_bit0 (a : RegAddr) : (writeAddrByte a).getLsbD 0 = false := by
  revert a; decide

@[simp] theorem writeAddrByte_bit7 (a : RegAddr) : (writeAddrByte a).getLsbD 7 = false := by
  revert a; decide

@[simp] theorem writeAddrByte_addr (a : RegAddr) : (writeAddrByte a).extractLsb' 1 6 = a := by
  revert a; decide

@[simp] theorem readAddrByte_bit0 (a : RegAddr) : (readAddrByte a).getLsbD 0 = false := by
  revert a; decide

@[simp] theorem readAddrByte_bit7 (a : RegAddr) : (readAddrByte a).getLsbD 7 = true := by
  revert a; decide

@[simp] theorem readAddrByte_addr (a : RegAddr) : (readAddrByte a).extractLsb' 1 6 = a := by
  revert a; decide

/-- A write transaction decodes to what its address and byte name. -/
theorem decodeBus_write (c : Config) (a : RegAddr) (v : Byte) :
    decodeBus c (writeAddrByte a) v = .ok (nameWrite c a v) := by
  simp only [decodeBus, writeAddrByte_bit0, writeAddrByte_bit7, writeAddrByte_addr, Bool.false_eq_true, if_false]

/-- A read transaction decodes to a read. -/
theorem decodeBus_read (c : Config) (a : RegAddr) (d : Byte) :
    decodeBus c (readAddrByte a) d = .ok (.regRead a) := by
  simp only [decodeBus, readAddrByte_bit0, readAddrByte_bit7, readAddrByte_addr, Bool.false_eq_true, if_false, if_true]

theorem cmdByte_inj {x y : BitVec 4} (h : cmdByte x = cmdByte y) : x = y := by
  have := congrArg (BitVec.setWidth 4) h
  simpa [cmdByte] using this

/-- Different codes are different bytes on the bus. -/
theorem Config.Wf.cmdBus_inj {c : Config} (h : c.Wf) {x y : BitVec 4} (e : c.cmdBus x = c.cmdBus y) : x = y :=
  cmdByte_inj (h.byte_inj e)

/-- A write that no row of its own names is a `REG_WRITE`. -/
theorem nameWrite_regWrite {c : Config} {a : RegAddr} {v : Byte} (h : namedWrite c a v = false) :
    nameWrite c a v = .regWrite a v := by
  simp only [namedWrite, Bool.or_eq_false_iff, Bool.and_eq_false_iff, beq_eq_false_iff_ne] at h
  simp only [nameWrite]
  split_ifs <;> simp_all

/-- The two addresses that name rows of their own differ. -/
theorem Config.Wf.command_ne_fifoLevel {c : Config} (h : c.Wf) : c.regMap.command ≠ c.regMap.fifoLevel := by
  have := h.1
  simp only [Reg.all, List.map_cons, List.map_nil, RegMap.addr, List.nodup_cons, List.mem_cons] at this
  tauto

theorem Config.Wf.codes_ne {c : Config} (h : c.Wf) :
    c.cmdIdle ≠ c.cmdCalcCrc ∧ c.cmdIdle ≠ c.cmdTransceive ∧ c.cmdCalcCrc ≠ c.cmdTransceive := by
  have := h.2.1
  simp only [List.nodup_cons, List.mem_cons, List.not_mem_nil, or_false] at this
  tauto

theorem haltFrame_eq (c : Config) :
    haltFrame c = [c.opHalt, 0x00#8, crcLow (crc16 c [c.opHalt, 0x00#8]), crcHigh (crc16 c [c.opHalt, 0x00#8])] := rfl

theorem ack_append_low (hi : BitVec 4) : (hi ++ ack : Byte).extractLsb' 0 4 = ack := by
  revert hi; decide

theorem ack_append_high (hi : BitVec 4) : (hi ++ ack : Byte).extractLsb' 4 4 = hi := by
  revert hi; decide

theorem high_append_low (k : Byte) : (k.extractLsb' 4 4 ++ k.extractLsb' 0 4 : Byte) = k := by
  revert k; decide

theorem default_wf : Config.default.Wf := by decide

end Sys2Proof
end

