-- ==== Sys2Proof/Laws/Memory.lean ====
section
/-! SUPPORT. The laws of host buffer memory: what a store leaves readable where, and that it keeps the canonical form. -/

namespace Sys2Proof.Machine

open Sys2Proof

theorem Memory.wf_cons (b : Nat) (w : Byte) (m : Memory) :
    Memory.wf ((b, w) :: m) = true ↔ w ≠ Memory.unlisted ∧ (∀ x ∈ m, b < x.1) ∧ Memory.wf m = true := by
  simp [Memory.wf, and_assoc]

theorem Memory.read_of_not_listed {m : Memory} {a : Nat} (h : ∀ x ∈ m, a < x.1) :
    Memory.read m a = Memory.unlisted := by
  induction m with
  | nil => rfl
  | cons x m ih =>
    have hx := h x (by simp)
    simp only [Memory.read, if_neg (Nat.ne_of_lt hx)]
    exact ih fun y hy => h y (by simp [hy])

/-- Every cell of the written memory is the new one or an old one. -/
theorem Memory.mem_write {m : Memory} {a : Nat} {v : Byte} {x : Host.Cell} (h : x ∈ Memory.write m a v) :
    x = (a, v) ∨ x ∈ m := by
  induction m with
  | nil => simp only [Memory.write] at h; split at h <;> simp_all
  | cons y m ih =>
    simp only [Memory.write] at h
    split_ifs at h <;> simp_all <;> tauto

theorem Memory.write_wf {m : Memory} (a : Nat) (v : Byte) (h : Memory.wf m = true) :
    Memory.wf (Memory.write m a v) = true := by
  induction m with
  | nil => simp only [Memory.write]; split_ifs with hv <;> simp [Memory.wf, hv]
  | cons y m ih =>
    obtain ⟨b, w⟩ := y
    obtain ⟨hw, hb, hm⟩ := (Memory.wf_cons b w m).1 h
    simp only [Memory.write]
    split_ifs with h1 h2 h3 h4
    · exact h
    · refine (Memory.wf_cons _ _ _).2 ⟨h2, fun x hx => ?_, h⟩
      rcases List.mem_cons.1 hx with rfl | hx
      · exact h1
      · exact Nat.lt_trans h1 (hb x hx)
    · exact hm
    · exact (Memory.wf_cons _ _ _).2 ⟨h4, fun x hx => h3 ▸ hb x hx, hm⟩
    · refine (Memory.wf_cons _ _ _).2 ⟨hw, fun x hx => ?_, ih hm⟩
      rcases Memory.mem_write hx with rfl | hx
      · show b < a; omega
      · exact hb x hx

/-- Read after write at the same address. -/
theorem Memory.read_write_same {m : Memory} (a : Nat) (v : Byte) (h : Memory.wf m = true) :
    Memory.read (Memory.write m a v) a = v := by
  induction m with
  | nil => simp only [Memory.write]; split_ifs with hv <;> simp [Memory.read, hv]
  | cons y m ih =>
    obtain ⟨b, w⟩ := y
    obtain ⟨hw, hb, hm⟩ := (Memory.wf_cons b w m).1 h
    simp only [Memory.write]
    split_ifs with h1 h2 h3 h4
    · rw [h2]
      refine Memory.read_of_not_listed fun x hx => ?_
      rcases List.mem_cons.1 hx with rfl | hx
      · exact h1
      · exact Nat.lt_trans h1 (hb x hx)
    · simp [Memory.read]
    · rw [h4]; exact Memory.read_of_not_listed fun x hx => h3 ▸ hb x hx
    · simp [Memory.read]
    · simp only [Memory.read, if_neg h3]; exact ih hm

/-- A write leaves every other address alone. -/
theorem Memory.read_write_ne {m : Memory} {a b : Nat} (v : Byte) (hab : b ≠ a) :
    Memory.read (Memory.write m a v) b = Memory.read m b := by
  induction m with
  | nil => simp only [Memory.write]; split_ifs <;> simp [Memory.read, hab]
  | cons y m ih =>
    obtain ⟨c, w⟩ := y
    simp only [Memory.write]
    split_ifs with h1 h2 h3 h4
    · rfl
    · simp [Memory.read, hab]
    · subst h3; simp [Memory.read, hab]
    · subst h3; simp [Memory.read, hab]
    · simp only [Memory.read, ih]

/-- Every operation on memory keeps it inside a bound that its address keeps to. -/
theorem Memory.write_below {m : Memory} {a n : Nat} (v : Byte) (h : ∀ x ∈ m, x.1 < n) (ha : a < n) :
    ∀ x ∈ Memory.write m a v, x.1 < n := by
  intro x hx
  rcases Memory.mem_write hx with rfl | hx
  · exact ha
  · exact h x hx

/-! ### Buffer accesses -/

theorem areaRead_eq_some {s : State} {a : Area} {i : Nat} {b : Byte} :
    s.areaRead a i = some b ↔ s.reaches a i = true ∧ s.peek a i = b := by
  simp [State.areaRead]

/-- Everything a buffer write does: to host memory the one byte, to the scratch buffer the one byte (R84, R253). -/
theorem areaWrite_cases {s t : State} {a : Area} {i : Nat} {v : Byte} (h : s.areaWrite a i v = some t) :
    s.reaches a i = true ∧
      ((a.space = .host ∧ t = { s with mem := Memory.write s.mem (a.addr i) v }) ∨
        (a.space = .scratch ∧ t = { s with scratch := s.scratch.set (a.addr i) v })) := by
  simp only [State.areaWrite] at h
  split at h
  · rename_i hr
    refine ⟨hr, ?_⟩
    split at h
    · rename_i hs; exact .inl ⟨hs, (Option.some.inj h).symm⟩
    · rename_i hs; exact .inr ⟨hs, (Option.some.inj h).symm⟩
  · exact absurd h (by simp)

theorem areaWrite_reaches {s : State} {a : Area} {i : Nat} (v : Byte) (h : s.reaches a i = true) :
    ∃ t, s.areaWrite a i v = some t := by
  simp only [State.areaWrite, h, if_true]
  split <;> exact ⟨_, rfl⟩

end Sys2Proof.Machine
end

