-- ==== Sys2Proof/Laws/State.lean ====
section
/-! SUPPORT. What each shared operation leaves unchanged: one lemma per operation and field it does not touch, so that no
proof unfolds a record update. -/

namespace Sys2Proof.Machine

open Sys2Proof

/-! ### What the lines and the ends of operations set -/

theorem clockBit_eq (s : State) (bit : Bool) : s.clockBit bit = { s with mosi := bit, sck := false } := rfl

/-- Eight pulses leave the last bit on MOSI and SCK low (40_bus.md R141). -/
theorem shiftOut_eq (s : State) (b : Byte) :
    s.shiftOut b = { s with mosi := b.getLsbD 0, sck := false, busOut := b :: s.busOut } := by
  simp only [State.shiftOut, bitsMsbFirst, List.map_cons, List.map_nil, List.foldl_cons, List.foldl_nil, clockBit_eq]

/-- A transaction leaves the bus idle again (R149). -/
theorem transact_eq (s : State) (b0 b1 : Byte) :
    s.transact b0 b1 =
      { s with nss := true, sck := false, mosi := b1.getLsbD 0, busOut := b1 :: b0 :: s.busOut } := by
  simp only [State.transact, shiftOut_eq]

@[simp] theorem shiftOut_sck (s : State) (b : Byte) : (s.shiftOut b).sck = false := by rw [shiftOut_eq]
@[simp] theorem shiftOut_mosi (s : State) (b : Byte) : (s.shiftOut b).mosi = b.getLsbD 0 := by rw [shiftOut_eq]
@[simp] theorem shiftOut_busOut (s : State) (b : Byte) : (s.shiftOut b).busOut = b :: s.busOut := by rw [shiftOut_eq]
@[simp] theorem transact_sck (s : State) (b0 b1 : Byte) : (s.transact b0 b1).sck = false := by rw [transact_eq]
@[simp] theorem transact_nss (s : State) (b0 b1 : Byte) : (s.transact b0 b1).nss = true := by rw [transact_eq]
@[simp] theorem transact_mosi (s : State) (b0 b1 : Byte) : (s.transact b0 b1).mosi = b1.getLsbD 0 := by
  rw [transact_eq]
@[simp] theorem transact_busOut (s : State) (b0 b1 : Byte) :
    (s.transact b0 b1).busOut = b1 :: b0 :: s.busOut := by rw [transact_eq]
@[simp] theorem finish_seq (s : State) (r : Result) : (s.finish r).seq = none := rfl
@[simp] theorem finish_result (s : State) (r : Result) : (s.finish r).result = some r := rfl
@[simp] theorem refuse_refusals (s : State) (x : Refusal) : (s.refuse x).refusals = x :: s.refusals := rfl
theorem refuseOverlaps_nil {s : State} (h : s.overlaps = []) : s.refuseOverlaps = s := by simp [State.refuseOverlaps, h]
theorem refuseOverlaps_cons {s : State} {ws : List Issue} {rest : List (List Issue)} (h : s.overlaps = ws :: rest) :
    s.refuseOverlaps =
      { s with overlaps := rest, refusals := List.replicate ws.length .operationInProgress ++ s.refusals } := by
  simp [State.refuseOverlaps, h]
@[simp] theorem goOn_seq (s : State) (r : Running) : (s.goOn r).seq = some r := rfl

/-! ### draw -/

@[simp] theorem draw_cfg (s : State) : s.draw.2.cfg = s.cfg := by unfold State.draw; split <;> rfl
@[simp] theorem draw_sck (s : State) : s.draw.2.sck = s.sck := by unfold State.draw; split <;> rfl
@[simp] theorem draw_mosi (s : State) : s.draw.2.mosi = s.mosi := by unfold State.draw; split <;> rfl
@[simp] theorem draw_nss (s : State) : s.draw.2.nss = s.nss := by unfold State.draw; split <;> rfl
@[simp] theorem draw_rstAsserted (s : State) : s.draw.2.rstAsserted = s.rstAsserted := by unfold State.draw; split <;> rfl
@[simp] theorem draw_pwrEn (s : State) : s.draw.2.pwrEn = s.pwrEn := by unfold State.draw; split <;> rfl
@[simp] theorem draw_commandReg (s : State) : s.draw.2.commandReg = s.commandReg := by unfold State.draw; split <;> rfl
@[simp] theorem draw_comIrq (s : State) : s.draw.2.comIrq = s.comIrq := by unfold State.draw; split <;> rfl
@[simp] theorem draw_divIrq (s : State) : s.draw.2.divIrq = s.divIrq := by unfold State.draw; split <;> rfl
@[simp] theorem draw_errorReg (s : State) : s.draw.2.errorReg = s.errorReg := by unfold State.draw; split <;> rfl
@[simp] theorem draw_fifo (s : State) : s.draw.2.fifo = s.fifo := by unfold State.draw; split <;> rfl
@[simp] theorem draw_bitFraming (s : State) : s.draw.2.bitFraming = s.bitFraming := by unfold State.draw; split <;> rfl
@[simp] theorem draw_crcResult (s : State) : s.draw.2.crcResult = s.crcResult := by unfold State.draw; split <;> rfl
@[simp] theorem draw_crcState (s : State) : s.draw.2.crcState = s.crcState := by unfold State.draw; split <;> rfl
@[simp] theorem draw_trxState (s : State) : s.draw.2.trxState = s.trxState := by unfold State.draw; split <;> rfl
@[simp] theorem draw_txLastBitsLatched (s : State) : s.draw.2.txLastBitsLatched = s.txLastBitsLatched := by unfold State.draw; split <;> rfl
@[simp] theorem draw_rxLastBits (s : State) : s.draw.2.rxLastBits = s.rxLastBits := by unfold State.draw; split <;> rfl
@[simp] theorem draw_txEvents (s : State) : s.draw.2.txEvents = s.txEvents := by unfold State.draw; split <;> rfl
@[simp] theorem draw_mem (s : State) : s.draw.2.mem = s.mem := by unfold State.draw; split <;> rfl
@[simp] theorem draw_scratch (s : State) : s.draw.2.scratch = s.scratch := by unfold State.draw; split <;> rfl
@[simp] theorem draw_seq (s : State) : s.draw.2.seq = s.seq := by unfold State.draw; split <;> rfl
@[simp] theorem draw_result (s : State) : s.draw.2.result = s.result := by unfold State.draw; split <;> rfl
@[simp] theorem draw_issues (s : State) : s.draw.2.issues = s.issues := by unfold State.draw; split <;> rfl
@[simp] theorem draw_overlaps (s : State) : s.draw.2.overlaps = s.overlaps := by unfold State.draw; split <;> rfl
@[simp] theorem draw_events (s : State) : s.draw.2.events = s.events := by unfold State.draw; split <;> rfl
@[simp] theorem draw_busOut (s : State) : s.draw.2.busOut = s.busOut := by unfold State.draw; split <;> rfl
@[simp] theorem draw_refusals (s : State) : s.draw.2.refusals = s.refusals := by unfold State.draw; split <;> rfl

/-! ### draw16 -/

@[simp] theorem draw16_cfg (s : State) : s.draw16.2.cfg = s.cfg := by simp [State.draw16]
@[simp] theorem draw16_sck (s : State) : s.draw16.2.sck = s.sck := by simp [State.draw16]
@[simp] theorem draw16_mosi (s : State) : s.draw16.2.mosi = s.mosi := by simp [State.draw16]
@[simp] theorem draw16_nss (s : State) : s.draw16.2.nss = s.nss := by simp [State.draw16]
@[simp] theorem draw16_rstAsserted (s : State) : s.draw16.2.rstAsserted = s.rstAsserted := by simp [State.draw16]
@[simp] theorem draw16_pwrEn (s : State) : s.draw16.2.pwrEn = s.pwrEn := by simp [State.draw16]
@[simp] theorem draw16_commandReg (s : State) : s.draw16.2.commandReg = s.commandReg := by simp [State.draw16]
@[simp] theorem draw16_comIrq (s : State) : s.draw16.2.comIrq = s.comIrq := by simp [State.draw16]
@[simp] theorem draw16_divIrq (s : State) : s.draw16.2.divIrq = s.divIrq := by simp [State.draw16]
@[simp] theorem draw16_errorReg (s : State) : s.draw16.2.errorReg = s.errorReg := by simp [State.draw16]
@[simp] theorem draw16_fifo (s : State) : s.draw16.2.fifo = s.fifo := by simp [State.draw16]
@[simp] theorem draw16_bitFraming (s : State) : s.draw16.2.bitFraming = s.bitFraming := by simp [State.draw16]
@[simp] theorem draw16_crcResult (s : State) : s.draw16.2.crcResult = s.crcResult := by simp [State.draw16]
@[simp] theorem draw16_crcState (s : State) : s.draw16.2.crcState = s.crcState := by simp [State.draw16]
@[simp] theorem draw16_trxState (s : State) : s.draw16.2.trxState = s.trxState := by simp [State.draw16]
@[simp] theorem draw16_txLastBitsLatched (s : State) : s.draw16.2.txLastBitsLatched = s.txLastBitsLatched := by simp [State.draw16]
@[simp] theorem draw16_rxLastBits (s : State) : s.draw16.2.rxLastBits = s.rxLastBits := by simp [State.draw16]
@[simp] theorem draw16_txEvents (s : State) : s.draw16.2.txEvents = s.txEvents := by simp [State.draw16]
@[simp] theorem draw16_mem (s : State) : s.draw16.2.mem = s.mem := by simp [State.draw16]
@[simp] theorem draw16_scratch (s : State) : s.draw16.2.scratch = s.scratch := by simp [State.draw16]
@[simp] theorem draw16_seq (s : State) : s.draw16.2.seq = s.seq := by simp [State.draw16]
@[simp] theorem draw16_result (s : State) : s.draw16.2.result = s.result := by simp [State.draw16]
@[simp] theorem draw16_issues (s : State) : s.draw16.2.issues = s.issues := by simp [State.draw16]
@[simp] theorem draw16_overlaps (s : State) : s.draw16.2.overlaps = s.overlaps := by simp [State.draw16]
@[simp] theorem draw16_events (s : State) : s.draw16.2.events = s.events := by simp [State.draw16]
@[simp] theorem draw16_busOut (s : State) : s.draw16.2.busOut = s.busOut := by simp [State.draw16]
@[simp] theorem draw16_refusals (s : State) : s.draw16.2.refusals = s.refusals := by simp [State.draw16]

/-! ### shiftOut -/

@[simp] theorem shiftOut_cfg (s : State) (b : Byte) : (s.shiftOut b).cfg = s.cfg := by rw [shiftOut_eq]
@[simp] theorem shiftOut_nss (s : State) (b : Byte) : (s.shiftOut b).nss = s.nss := by rw [shiftOut_eq]
@[simp] theorem shiftOut_rstAsserted (s : State) (b : Byte) : (s.shiftOut b).rstAsserted = s.rstAsserted := by rw [shiftOut_eq]
@[simp] theorem shiftOut_pwrEn (s : State) (b : Byte) : (s.shiftOut b).pwrEn = s.pwrEn := by rw [shiftOut_eq]
@[simp] theorem shiftOut_commandReg (s : State) (b : Byte) : (s.shiftOut b).commandReg = s.commandReg := by rw [shiftOut_eq]
@[simp] theorem shiftOut_comIrq (s : State) (b : Byte) : (s.shiftOut b).comIrq = s.comIrq := by rw [shiftOut_eq]
@[simp] theorem shiftOut_divIrq (s : State) (b : Byte) : (s.shiftOut b).divIrq = s.divIrq := by rw [shiftOut_eq]
@[simp] theorem shiftOut_errorReg (s : State) (b : Byte) : (s.shiftOut b).errorReg = s.errorReg := by rw [shiftOut_eq]
@[simp] theorem shiftOut_fifo (s : State) (b : Byte) : (s.shiftOut b).fifo = s.fifo := by rw [shiftOut_eq]
@[simp] theorem shiftOut_bitFraming (s : State) (b : Byte) : (s.shiftOut b).bitFraming = s.bitFraming := by rw [shiftOut_eq]
@[simp] theorem shiftOut_crcResult (s : State) (b : Byte) : (s.shiftOut b).crcResult = s.crcResult := by rw [shiftOut_eq]
@[simp] theorem shiftOut_crcState (s : State) (b : Byte) : (s.shiftOut b).crcState = s.crcState := by rw [shiftOut_eq]
@[simp] theorem shiftOut_trxState (s : State) (b : Byte) : (s.shiftOut b).trxState = s.trxState := by rw [shiftOut_eq]
@[simp] theorem shiftOut_txLastBitsLatched (s : State) (b : Byte) : (s.shiftOut b).txLastBitsLatched = s.txLastBitsLatched := by rw [shiftOut_eq]
@[simp] theorem shiftOut_rxLastBits (s : State) (b : Byte) : (s.shiftOut b).rxLastBits = s.rxLastBits := by rw [shiftOut_eq]
@[simp] theorem shiftOut_txEvents (s : State) (b : Byte) : (s.shiftOut b).txEvents = s.txEvents := by rw [shiftOut_eq]
@[simp] theorem shiftOut_mem (s : State) (b : Byte) : (s.shiftOut b).mem = s.mem := by rw [shiftOut_eq]
@[simp] theorem shiftOut_scratch (s : State) (b : Byte) : (s.shiftOut b).scratch = s.scratch := by rw [shiftOut_eq]
@[simp] theorem shiftOut_seq (s : State) (b : Byte) : (s.shiftOut b).seq = s.seq := by rw [shiftOut_eq]
@[simp] theorem shiftOut_result (s : State) (b : Byte) : (s.shiftOut b).result = s.result := by rw [shiftOut_eq]
@[simp] theorem shiftOut_issues (s : State) (b : Byte) : (s.shiftOut b).issues = s.issues := by rw [shiftOut_eq]
@[simp] theorem shiftOut_overlaps (s : State) (b : Byte) : (s.shiftOut b).overlaps = s.overlaps := by rw [shiftOut_eq]
@[simp] theorem shiftOut_events (s : State) (b : Byte) : (s.shiftOut b).events = s.events := by rw [shiftOut_eq]
@[simp] theorem shiftOut_draws (s : State) (b : Byte) : (s.shiftOut b).draws = s.draws := by rw [shiftOut_eq]
@[simp] theorem shiftOut_drawCount (s : State) (b : Byte) : (s.shiftOut b).drawCount = s.drawCount := by rw [shiftOut_eq]
@[simp] theorem shiftOut_refusals (s : State) (b : Byte) : (s.shiftOut b).refusals = s.refusals := by rw [shiftOut_eq]

/-! ### transact -/

@[simp] theorem transact_cfg (s : State) (b0 b1 : Byte) : (s.transact b0 b1).cfg = s.cfg := by rw [transact_eq]
@[simp] theorem transact_rstAsserted (s : State) (b0 b1 : Byte) : (s.transact b0 b1).rstAsserted = s.rstAsserted := by rw [transact_eq]
@[simp] theorem transact_pwrEn (s : State) (b0 b1 : Byte) : (s.transact b0 b1).pwrEn = s.pwrEn := by rw [transact_eq]
@[simp] theorem transact_commandReg (s : State) (b0 b1 : Byte) : (s.transact b0 b1).commandReg = s.commandReg := by rw [transact_eq]
@[simp] theorem transact_comIrq (s : State) (b0 b1 : Byte) : (s.transact b0 b1).comIrq = s.comIrq := by rw [transact_eq]
@[simp] theorem transact_divIrq (s : State) (b0 b1 : Byte) : (s.transact b0 b1).divIrq = s.divIrq := by rw [transact_eq]
@[simp] theorem transact_errorReg (s : State) (b0 b1 : Byte) : (s.transact b0 b1).errorReg = s.errorReg := by rw [transact_eq]
@[simp] theorem transact_fifo (s : State) (b0 b1 : Byte) : (s.transact b0 b1).fifo = s.fifo := by rw [transact_eq]
@[simp] theorem transact_bitFraming (s : State) (b0 b1 : Byte) : (s.transact b0 b1).bitFraming = s.bitFraming := by rw [transact_eq]
@[simp] theorem transact_crcResult (s : State) (b0 b1 : Byte) : (s.transact b0 b1).crcResult = s.crcResult := by rw [transact_eq]
@[simp] theorem transact_crcState (s : State) (b0 b1 : Byte) : (s.transact b0 b1).crcState = s.crcState := by rw [transact_eq]
@[simp] theorem transact_trxState (s : State) (b0 b1 : Byte) : (s.transact b0 b1).trxState = s.trxState := by rw [transact_eq]
@[simp] theorem transact_txLastBitsLatched (s : State) (b0 b1 : Byte) : (s.transact b0 b1).txLastBitsLatched = s.txLastBitsLatched := by rw [transact_eq]
@[simp] theorem transact_rxLastBits (s : State) (b0 b1 : Byte) : (s.transact b0 b1).rxLastBits = s.rxLastBits := by rw [transact_eq]
@[simp] theorem transact_txEvents (s : State) (b0 b1 : Byte) : (s.transact b0 b1).txEvents = s.txEvents := by rw [transact_eq]
@[simp] theorem transact_mem (s : State) (b0 b1 : Byte) : (s.transact b0 b1).mem = s.mem := by rw [transact_eq]
@[simp] theorem transact_scratch (s : State) (b0 b1 : Byte) : (s.transact b0 b1).scratch = s.scratch := by rw [transact_eq]
@[simp] theorem transact_seq (s : State) (b0 b1 : Byte) : (s.transact b0 b1).seq = s.seq := by rw [transact_eq]
@[simp] theorem transact_result (s : State) (b0 b1 : Byte) : (s.transact b0 b1).result = s.result := by rw [transact_eq]
@[simp] theorem transact_issues (s : State) (b0 b1 : Byte) : (s.transact b0 b1).issues = s.issues := by rw [transact_eq]
@[simp] theorem transact_overlaps (s : State) (b0 b1 : Byte) : (s.transact b0 b1).overlaps = s.overlaps := by rw [transact_eq]
@[simp] theorem transact_events (s : State) (b0 b1 : Byte) : (s.transact b0 b1).events = s.events := by rw [transact_eq]
@[simp] theorem transact_draws (s : State) (b0 b1 : Byte) : (s.transact b0 b1).draws = s.draws := by rw [transact_eq]
@[simp] theorem transact_drawCount (s : State) (b0 b1 : Byte) : (s.transact b0 b1).drawCount = s.drawCount := by rw [transact_eq]
@[simp] theorem transact_refusals (s : State) (b0 b1 : Byte) : (s.transact b0 b1).refusals = s.refusals := by rw [transact_eq]

/-! ### fifoPush -/

@[simp] theorem fifoPush_cfg (s : State) (v : Byte) : (s.fifoPush v).cfg = s.cfg := by unfold State.fifoPush; split <;> rfl
@[simp] theorem fifoPush_sck (s : State) (v : Byte) : (s.fifoPush v).sck = s.sck := by unfold State.fifoPush; split <;> rfl
@[simp] theorem fifoPush_mosi (s : State) (v : Byte) : (s.fifoPush v).mosi = s.mosi := by unfold State.fifoPush; split <;> rfl
@[simp] theorem fifoPush_nss (s : State) (v : Byte) : (s.fifoPush v).nss = s.nss := by unfold State.fifoPush; split <;> rfl
@[simp] theorem fifoPush_rstAsserted (s : State) (v : Byte) : (s.fifoPush v).rstAsserted = s.rstAsserted := by unfold State.fifoPush; split <;> rfl
@[simp] theorem fifoPush_pwrEn (s : State) (v : Byte) : (s.fifoPush v).pwrEn = s.pwrEn := by unfold State.fifoPush; split <;> rfl
@[simp] theorem fifoPush_commandReg (s : State) (v : Byte) : (s.fifoPush v).commandReg = s.commandReg := by unfold State.fifoPush; split <;> rfl
@[simp] theorem fifoPush_comIrq (s : State) (v : Byte) : (s.fifoPush v).comIrq = s.comIrq := by unfold State.fifoPush; split <;> rfl
@[simp] theorem fifoPush_divIrq (s : State) (v : Byte) : (s.fifoPush v).divIrq = s.divIrq := by unfold State.fifoPush; split <;> rfl
@[simp] theorem fifoPush_bitFraming (s : State) (v : Byte) : (s.fifoPush v).bitFraming = s.bitFraming := by unfold State.fifoPush; split <;> rfl
@[simp] theorem fifoPush_crcResult (s : State) (v : Byte) : (s.fifoPush v).crcResult = s.crcResult := by unfold State.fifoPush; split <;> rfl
@[simp] theorem fifoPush_crcState (s : State) (v : Byte) : (s.fifoPush v).crcState = s.crcState := by unfold State.fifoPush; split <;> rfl
@[simp] theorem fifoPush_trxState (s : State) (v : Byte) : (s.fifoPush v).trxState = s.trxState := by unfold State.fifoPush; split <;> rfl
@[simp] theorem fifoPush_txLastBitsLatched (s : State) (v : Byte) : (s.fifoPush v).txLastBitsLatched = s.txLastBitsLatched := by unfold State.fifoPush; split <;> rfl
@[simp] theorem fifoPush_rxLastBits (s : State) (v : Byte) : (s.fifoPush v).rxLastBits = s.rxLastBits := by unfold State.fifoPush; split <;> rfl
@[simp] theorem fifoPush_txEvents (s : State) (v : Byte) : (s.fifoPush v).txEvents = s.txEvents := by unfold State.fifoPush; split <;> rfl
@[simp] theorem fifoPush_mem (s : State) (v : Byte) : (s.fifoPush v).mem = s.mem := by unfold State.fifoPush; split <;> rfl
@[simp] theorem fifoPush_scratch (s : State) (v : Byte) : (s.fifoPush v).scratch = s.scratch := by unfold State.fifoPush; split <;> rfl
@[simp] theorem fifoPush_seq (s : State) (v : Byte) : (s.fifoPush v).seq = s.seq := by unfold State.fifoPush; split <;> rfl
@[simp] theorem fifoPush_result (s : State) (v : Byte) : (s.fifoPush v).result = s.result := by unfold State.fifoPush; split <;> rfl
@[simp] theorem fifoPush_issues (s : State) (v : Byte) : (s.fifoPush v).issues = s.issues := by unfold State.fifoPush; split <;> rfl
@[simp] theorem fifoPush_overlaps (s : State) (v : Byte) : (s.fifoPush v).overlaps = s.overlaps := by unfold State.fifoPush; split <;> rfl
@[simp] theorem fifoPush_events (s : State) (v : Byte) : (s.fifoPush v).events = s.events := by unfold State.fifoPush; split <;> rfl
@[simp] theorem fifoPush_draws (s : State) (v : Byte) : (s.fifoPush v).draws = s.draws := by unfold State.fifoPush; split <;> rfl
@[simp] theorem fifoPush_drawCount (s : State) (v : Byte) : (s.fifoPush v).drawCount = s.drawCount := by unfold State.fifoPush; split <;> rfl
@[simp] theorem fifoPush_busOut (s : State) (v : Byte) : (s.fifoPush v).busOut = s.busOut := by unfold State.fifoPush; split <;> rfl
@[simp] theorem fifoPush_refusals (s : State) (v : Byte) : (s.fifoPush v).refusals = s.refusals := by unfold State.fifoPush; split <;> rfl

/-! ### fifoPop -/

@[simp] theorem fifoPop_cfg (s : State) : s.fifoPop.2.cfg = s.cfg := by unfold State.fifoPop; split <;> simp
@[simp] theorem fifoPop_sck (s : State) : s.fifoPop.2.sck = s.sck := by unfold State.fifoPop; split <;> simp
@[simp] theorem fifoPop_mosi (s : State) : s.fifoPop.2.mosi = s.mosi := by unfold State.fifoPop; split <;> simp
@[simp] theorem fifoPop_nss (s : State) : s.fifoPop.2.nss = s.nss := by unfold State.fifoPop; split <;> simp
@[simp] theorem fifoPop_rstAsserted (s : State) : s.fifoPop.2.rstAsserted = s.rstAsserted := by unfold State.fifoPop; split <;> simp
@[simp] theorem fifoPop_pwrEn (s : State) : s.fifoPop.2.pwrEn = s.pwrEn := by unfold State.fifoPop; split <;> simp
@[simp] theorem fifoPop_commandReg (s : State) : s.fifoPop.2.commandReg = s.commandReg := by unfold State.fifoPop; split <;> simp
@[simp] theorem fifoPop_comIrq (s : State) : s.fifoPop.2.comIrq = s.comIrq := by unfold State.fifoPop; split <;> simp
@[simp] theorem fifoPop_divIrq (s : State) : s.fifoPop.2.divIrq = s.divIrq := by unfold State.fifoPop; split <;> simp
@[simp] theorem fifoPop_errorReg (s : State) : s.fifoPop.2.errorReg = s.errorReg := by unfold State.fifoPop; split <;> simp
@[simp] theorem fifoPop_bitFraming (s : State) : s.fifoPop.2.bitFraming = s.bitFraming := by unfold State.fifoPop; split <;> simp
@[simp] theorem fifoPop_crcResult (s : State) : s.fifoPop.2.crcResult = s.crcResult := by unfold State.fifoPop; split <;> simp
@[simp] theorem fifoPop_crcState (s : State) : s.fifoPop.2.crcState = s.crcState := by unfold State.fifoPop; split <;> simp
@[simp] theorem fifoPop_trxState (s : State) : s.fifoPop.2.trxState = s.trxState := by unfold State.fifoPop; split <;> simp
@[simp] theorem fifoPop_txLastBitsLatched (s : State) : s.fifoPop.2.txLastBitsLatched = s.txLastBitsLatched := by unfold State.fifoPop; split <;> simp
@[simp] theorem fifoPop_rxLastBits (s : State) : s.fifoPop.2.rxLastBits = s.rxLastBits := by unfold State.fifoPop; split <;> simp
@[simp] theorem fifoPop_txEvents (s : State) : s.fifoPop.2.txEvents = s.txEvents := by unfold State.fifoPop; split <;> simp
@[simp] theorem fifoPop_mem (s : State) : s.fifoPop.2.mem = s.mem := by unfold State.fifoPop; split <;> simp
@[simp] theorem fifoPop_scratch (s : State) : s.fifoPop.2.scratch = s.scratch := by unfold State.fifoPop; split <;> simp
@[simp] theorem fifoPop_seq (s : State) : s.fifoPop.2.seq = s.seq := by unfold State.fifoPop; split <;> simp
@[simp] theorem fifoPop_result (s : State) : s.fifoPop.2.result = s.result := by unfold State.fifoPop; split <;> simp
@[simp] theorem fifoPop_issues (s : State) : s.fifoPop.2.issues = s.issues := by unfold State.fifoPop; split <;> simp
@[simp] theorem fifoPop_overlaps (s : State) : s.fifoPop.2.overlaps = s.overlaps := by unfold State.fifoPop; split <;> simp
@[simp] theorem fifoPop_events (s : State) : s.fifoPop.2.events = s.events := by unfold State.fifoPop; split <;> simp
@[simp] theorem fifoPop_busOut (s : State) : s.fifoPop.2.busOut = s.busOut := by unfold State.fifoPop; split <;> simp
@[simp] theorem fifoPop_refusals (s : State) : s.fifoPop.2.refusals = s.refusals := by unfold State.fifoPop; split <;> simp

/-! ### fifoFlush -/

@[simp] theorem fifoFlush_cfg (s : State) : s.fifoFlush.cfg = s.cfg := rfl
@[simp] theorem fifoFlush_sck (s : State) : s.fifoFlush.sck = s.sck := rfl
@[simp] theorem fifoFlush_mosi (s : State) : s.fifoFlush.mosi = s.mosi := rfl
@[simp] theorem fifoFlush_nss (s : State) : s.fifoFlush.nss = s.nss := rfl
@[simp] theorem fifoFlush_rstAsserted (s : State) : s.fifoFlush.rstAsserted = s.rstAsserted := rfl
@[simp] theorem fifoFlush_pwrEn (s : State) : s.fifoFlush.pwrEn = s.pwrEn := rfl
@[simp] theorem fifoFlush_commandReg (s : State) : s.fifoFlush.commandReg = s.commandReg := rfl
@[simp] theorem fifoFlush_comIrq (s : State) : s.fifoFlush.comIrq = s.comIrq := rfl
@[simp] theorem fifoFlush_divIrq (s : State) : s.fifoFlush.divIrq = s.divIrq := rfl
@[simp] theorem fifoFlush_bitFraming (s : State) : s.fifoFlush.bitFraming = s.bitFraming := rfl
@[simp] theorem fifoFlush_crcResult (s : State) : s.fifoFlush.crcResult = s.crcResult := rfl
@[simp] theorem fifoFlush_crcState (s : State) : s.fifoFlush.crcState = s.crcState := rfl
@[simp] theorem fifoFlush_trxState (s : State) : s.fifoFlush.trxState = s.trxState := rfl
@[simp] theorem fifoFlush_txLastBitsLatched (s : State) : s.fifoFlush.txLastBitsLatched = s.txLastBitsLatched := rfl
@[simp] theorem fifoFlush_rxLastBits (s : State) : s.fifoFlush.rxLastBits = s.rxLastBits := rfl
@[simp] theorem fifoFlush_txEvents (s : State) : s.fifoFlush.txEvents = s.txEvents := rfl
@[simp] theorem fifoFlush_mem (s : State) : s.fifoFlush.mem = s.mem := rfl
@[simp] theorem fifoFlush_scratch (s : State) : s.fifoFlush.scratch = s.scratch := rfl
@[simp] theorem fifoFlush_seq (s : State) : s.fifoFlush.seq = s.seq := rfl
@[simp] theorem fifoFlush_result (s : State) : s.fifoFlush.result = s.result := rfl
@[simp] theorem fifoFlush_issues (s : State) : s.fifoFlush.issues = s.issues := rfl
@[simp] theorem fifoFlush_overlaps (s : State) : s.fifoFlush.overlaps = s.overlaps := rfl
@[simp] theorem fifoFlush_events (s : State) : s.fifoFlush.events = s.events := rfl
@[simp] theorem fifoFlush_draws (s : State) : s.fifoFlush.draws = s.draws := rfl
@[simp] theorem fifoFlush_drawCount (s : State) : s.fifoFlush.drawCount = s.drawCount := rfl
@[simp] theorem fifoFlush_busOut (s : State) : s.fifoFlush.busOut = s.busOut := rfl
@[simp] theorem fifoFlush_refusals (s : State) : s.fifoFlush.refusals = s.refusals := rfl

/-! ### spoilCrc -/

@[simp] theorem spoilCrc_cfg (s : State) : s.spoilCrc.cfg = s.cfg := by unfold State.spoilCrc; split <;> simp
@[simp] theorem spoilCrc_sck (s : State) : s.spoilCrc.sck = s.sck := by unfold State.spoilCrc; split <;> simp
@[simp] theorem spoilCrc_mosi (s : State) : s.spoilCrc.mosi = s.mosi := by unfold State.spoilCrc; split <;> simp
@[simp] theorem spoilCrc_nss (s : State) : s.spoilCrc.nss = s.nss := by unfold State.spoilCrc; split <;> simp
@[simp] theorem spoilCrc_rstAsserted (s : State) : s.spoilCrc.rstAsserted = s.rstAsserted := by unfold State.spoilCrc; split <;> simp
@[simp] theorem spoilCrc_pwrEn (s : State) : s.spoilCrc.pwrEn = s.pwrEn := by unfold State.spoilCrc; split <;> simp
@[simp] theorem spoilCrc_commandReg (s : State) : s.spoilCrc.commandReg = s.commandReg := by unfold State.spoilCrc; split <;> simp
@[simp] theorem spoilCrc_comIrq (s : State) : s.spoilCrc.comIrq = s.comIrq := by unfold State.spoilCrc; split <;> simp
@[simp] theorem spoilCrc_divIrq (s : State) : s.spoilCrc.divIrq = s.divIrq := by unfold State.spoilCrc; split <;> simp
@[simp] theorem spoilCrc_errorReg (s : State) : s.spoilCrc.errorReg = s.errorReg := by unfold State.spoilCrc; split <;> simp
@[simp] theorem spoilCrc_fifo (s : State) : s.spoilCrc.fifo = s.fifo := by unfold State.spoilCrc; split <;> simp
@[simp] theorem spoilCrc_bitFraming (s : State) : s.spoilCrc.bitFraming = s.bitFraming := by unfold State.spoilCrc; split <;> simp
@[simp] theorem spoilCrc_crcState (s : State) : s.spoilCrc.crcState = s.crcState := by unfold State.spoilCrc; split <;> simp
@[simp] theorem spoilCrc_trxState (s : State) : s.spoilCrc.trxState = s.trxState := by unfold State.spoilCrc; split <;> simp
@[simp] theorem spoilCrc_txLastBitsLatched (s : State) : s.spoilCrc.txLastBitsLatched = s.txLastBitsLatched := by unfold State.spoilCrc; split <;> simp
@[simp] theorem spoilCrc_rxLastBits (s : State) : s.spoilCrc.rxLastBits = s.rxLastBits := by unfold State.spoilCrc; split <;> simp
@[simp] theorem spoilCrc_txEvents (s : State) : s.spoilCrc.txEvents = s.txEvents := by unfold State.spoilCrc; split <;> simp
@[simp] theorem spoilCrc_mem (s : State) : s.spoilCrc.mem = s.mem := by unfold State.spoilCrc; split <;> simp
@[simp] theorem spoilCrc_scratch (s : State) : s.spoilCrc.scratch = s.scratch := by unfold State.spoilCrc; split <;> simp
@[simp] theorem spoilCrc_seq (s : State) : s.spoilCrc.seq = s.seq := by unfold State.spoilCrc; split <;> simp
@[simp] theorem spoilCrc_result (s : State) : s.spoilCrc.result = s.result := by unfold State.spoilCrc; split <;> simp
@[simp] theorem spoilCrc_issues (s : State) : s.spoilCrc.issues = s.issues := by unfold State.spoilCrc; split <;> simp
@[simp] theorem spoilCrc_overlaps (s : State) : s.spoilCrc.overlaps = s.overlaps := by unfold State.spoilCrc; split <;> simp
@[simp] theorem spoilCrc_events (s : State) : s.spoilCrc.events = s.events := by unfold State.spoilCrc; split <;> simp
@[simp] theorem spoilCrc_busOut (s : State) : s.spoilCrc.busOut = s.busOut := by unfold State.spoilCrc; split <;> simp
@[simp] theorem spoilCrc_refusals (s : State) : s.spoilCrc.refusals = s.refusals := by unfold State.spoilCrc; split <;> simp

/-! ### endCommand -/

@[simp] theorem endCommand_cfg (s : State) : s.endCommand.cfg = s.cfg := by simp [State.endCommand]
@[simp] theorem endCommand_sck (s : State) : s.endCommand.sck = s.sck := by simp [State.endCommand]
@[simp] theorem endCommand_mosi (s : State) : s.endCommand.mosi = s.mosi := by simp [State.endCommand]
@[simp] theorem endCommand_nss (s : State) : s.endCommand.nss = s.nss := by simp [State.endCommand]
@[simp] theorem endCommand_rstAsserted (s : State) : s.endCommand.rstAsserted = s.rstAsserted := by simp [State.endCommand]
@[simp] theorem endCommand_pwrEn (s : State) : s.endCommand.pwrEn = s.pwrEn := by simp [State.endCommand]
@[simp] theorem endCommand_commandReg (s : State) : s.endCommand.commandReg = s.commandReg := by simp [State.endCommand]
@[simp] theorem endCommand_comIrq (s : State) : s.endCommand.comIrq = s.comIrq := by simp [State.endCommand]
@[simp] theorem endCommand_divIrq (s : State) : s.endCommand.divIrq = s.divIrq := by simp [State.endCommand]
@[simp] theorem endCommand_errorReg (s : State) : s.endCommand.errorReg = s.errorReg := by simp [State.endCommand]
@[simp] theorem endCommand_fifo (s : State) : s.endCommand.fifo = s.fifo := by simp [State.endCommand]
@[simp] theorem endCommand_bitFraming (s : State) : s.endCommand.bitFraming = s.bitFraming := by simp [State.endCommand]
@[simp] theorem endCommand_txLastBitsLatched (s : State) : s.endCommand.txLastBitsLatched = s.txLastBitsLatched := by simp [State.endCommand]
@[simp] theorem endCommand_rxLastBits (s : State) : s.endCommand.rxLastBits = s.rxLastBits := by simp [State.endCommand]
@[simp] theorem endCommand_txEvents (s : State) : s.endCommand.txEvents = s.txEvents := by simp [State.endCommand]
@[simp] theorem endCommand_mem (s : State) : s.endCommand.mem = s.mem := by simp [State.endCommand]
@[simp] theorem endCommand_scratch (s : State) : s.endCommand.scratch = s.scratch := by simp [State.endCommand]
@[simp] theorem endCommand_seq (s : State) : s.endCommand.seq = s.seq := by simp [State.endCommand]
@[simp] theorem endCommand_result (s : State) : s.endCommand.result = s.result := by simp [State.endCommand]
@[simp] theorem endCommand_issues (s : State) : s.endCommand.issues = s.issues := by simp [State.endCommand]
@[simp] theorem endCommand_overlaps (s : State) : s.endCommand.overlaps = s.overlaps := by simp [State.endCommand]
@[simp] theorem endCommand_events (s : State) : s.endCommand.events = s.events := by simp [State.endCommand]
@[simp] theorem endCommand_busOut (s : State) : s.endCommand.busOut = s.busOut := by simp [State.endCommand]
@[simp] theorem endCommand_refusals (s : State) : s.endCommand.refusals = s.refusals := by simp [State.endCommand]

/-! ### startCommand -/

@[simp] theorem startCommand_cfg (s : State) (c : BitVec 4) : (s.startCommand c).cfg = s.cfg := by unfold State.startCommand; split_ifs <;> simp
@[simp] theorem startCommand_sck (s : State) (c : BitVec 4) : (s.startCommand c).sck = s.sck := by unfold State.startCommand; split_ifs <;> simp
@[simp] theorem startCommand_mosi (s : State) (c : BitVec 4) : (s.startCommand c).mosi = s.mosi := by unfold State.startCommand; split_ifs <;> simp
@[simp] theorem startCommand_nss (s : State) (c : BitVec 4) : (s.startCommand c).nss = s.nss := by unfold State.startCommand; split_ifs <;> simp
@[simp] theorem startCommand_rstAsserted (s : State) (c : BitVec 4) : (s.startCommand c).rstAsserted = s.rstAsserted := by unfold State.startCommand; split_ifs <;> simp
@[simp] theorem startCommand_pwrEn (s : State) (c : BitVec 4) : (s.startCommand c).pwrEn = s.pwrEn := by unfold State.startCommand; split_ifs <;> simp
@[simp] theorem startCommand_commandReg (s : State) (c : BitVec 4) : (s.startCommand c).commandReg = s.commandReg := by unfold State.startCommand; split_ifs <;> simp
@[simp] theorem startCommand_comIrq (s : State) (c : BitVec 4) : (s.startCommand c).comIrq = s.comIrq := by unfold State.startCommand; split_ifs <;> simp
@[simp] theorem startCommand_divIrq (s : State) (c : BitVec 4) : (s.startCommand c).divIrq = s.divIrq := by unfold State.startCommand; split_ifs <;> simp
@[simp] theorem startCommand_fifo (s : State) (c : BitVec 4) : (s.startCommand c).fifo = s.fifo := by unfold State.startCommand; split_ifs <;> simp
@[simp] theorem startCommand_bitFraming (s : State) (c : BitVec 4) : (s.startCommand c).bitFraming = s.bitFraming := by unfold State.startCommand; split_ifs <;> simp
@[simp] theorem startCommand_txLastBitsLatched (s : State) (c : BitVec 4) : (s.startCommand c).txLastBitsLatched = s.txLastBitsLatched := by unfold State.startCommand; split_ifs <;> simp
@[simp] theorem startCommand_rxLastBits (s : State) (c : BitVec 4) : (s.startCommand c).rxLastBits = s.rxLastBits := by unfold State.startCommand; split_ifs <;> simp
@[simp] theorem startCommand_txEvents (s : State) (c : BitVec 4) : (s.startCommand c).txEvents = s.txEvents := by unfold State.startCommand; split_ifs <;> simp
@[simp] theorem startCommand_mem (s : State) (c : BitVec 4) : (s.startCommand c).mem = s.mem := by unfold State.startCommand; split_ifs <;> simp
@[simp] theorem startCommand_scratch (s : State) (c : BitVec 4) : (s.startCommand c).scratch = s.scratch := by unfold State.startCommand; split_ifs <;> simp
@[simp] theorem startCommand_seq (s : State) (c : BitVec 4) : (s.startCommand c).seq = s.seq := by unfold State.startCommand; split_ifs <;> simp
@[simp] theorem startCommand_result (s : State) (c : BitVec 4) : (s.startCommand c).result = s.result := by unfold State.startCommand; split_ifs <;> simp
@[simp] theorem startCommand_issues (s : State) (c : BitVec 4) : (s.startCommand c).issues = s.issues := by unfold State.startCommand; split_ifs <;> simp
@[simp] theorem startCommand_overlaps (s : State) (c : BitVec 4) : (s.startCommand c).overlaps = s.overlaps := by unfold State.startCommand; split_ifs <;> simp
@[simp] theorem startCommand_events (s : State) (c : BitVec 4) : (s.startCommand c).events = s.events := by unfold State.startCommand; split_ifs <;> simp
@[simp] theorem startCommand_busOut (s : State) (c : BitVec 4) : (s.startCommand c).busOut = s.busOut := by unfold State.startCommand; split_ifs <;> simp
@[simp] theorem startCommand_refusals (s : State) (c : BitVec 4) : (s.startCommand c).refusals = s.refusals := by unfold State.startCommand; split_ifs <;> simp

/-! ### chipWrite -/

@[simp] theorem chipWrite_cfg (s : State) (r : Reg) (v : Byte) : (s.chipWrite r v).cfg = s.cfg := by (cases r <;> simp [State.chipWrite]); split <;> simp
@[simp] theorem chipWrite_sck (s : State) (r : Reg) (v : Byte) : (s.chipWrite r v).sck = s.sck := by (cases r <;> simp [State.chipWrite]); split <;> simp
@[simp] theorem chipWrite_mosi (s : State) (r : Reg) (v : Byte) : (s.chipWrite r v).mosi = s.mosi := by (cases r <;> simp [State.chipWrite]); split <;> simp
@[simp] theorem chipWrite_nss (s : State) (r : Reg) (v : Byte) : (s.chipWrite r v).nss = s.nss := by (cases r <;> simp [State.chipWrite]); split <;> simp
@[simp] theorem chipWrite_rstAsserted (s : State) (r : Reg) (v : Byte) : (s.chipWrite r v).rstAsserted = s.rstAsserted := by (cases r <;> simp [State.chipWrite]); split <;> simp
@[simp] theorem chipWrite_pwrEn (s : State) (r : Reg) (v : Byte) : (s.chipWrite r v).pwrEn = s.pwrEn := by (cases r <;> simp [State.chipWrite]); split <;> simp
@[simp] theorem chipWrite_txLastBitsLatched (s : State) (r : Reg) (v : Byte) : (s.chipWrite r v).txLastBitsLatched = s.txLastBitsLatched := by (cases r <;> simp [State.chipWrite]); split <;> simp
@[simp] theorem chipWrite_rxLastBits (s : State) (r : Reg) (v : Byte) : (s.chipWrite r v).rxLastBits = s.rxLastBits := by (cases r <;> simp [State.chipWrite]); split <;> simp
@[simp] theorem chipWrite_txEvents (s : State) (r : Reg) (v : Byte) : (s.chipWrite r v).txEvents = s.txEvents := by (cases r <;> simp [State.chipWrite]); split <;> simp
@[simp] theorem chipWrite_mem (s : State) (r : Reg) (v : Byte) : (s.chipWrite r v).mem = s.mem := by (cases r <;> simp [State.chipWrite]); split <;> simp
@[simp] theorem chipWrite_scratch (s : State) (r : Reg) (v : Byte) : (s.chipWrite r v).scratch = s.scratch := by (cases r <;> simp [State.chipWrite]); split <;> simp
@[simp] theorem chipWrite_seq (s : State) (r : Reg) (v : Byte) : (s.chipWrite r v).seq = s.seq := by (cases r <;> simp [State.chipWrite]); split <;> simp
@[simp] theorem chipWrite_result (s : State) (r : Reg) (v : Byte) : (s.chipWrite r v).result = s.result := by (cases r <;> simp [State.chipWrite]); split <;> simp
@[simp] theorem chipWrite_issues (s : State) (r : Reg) (v : Byte) : (s.chipWrite r v).issues = s.issues := by (cases r <;> simp [State.chipWrite]); split <;> simp
@[simp] theorem chipWrite_overlaps (s : State) (r : Reg) (v : Byte) : (s.chipWrite r v).overlaps = s.overlaps := by (cases r <;> simp [State.chipWrite]); split <;> simp
@[simp] theorem chipWrite_events (s : State) (r : Reg) (v : Byte) : (s.chipWrite r v).events = s.events := by (cases r <;> simp [State.chipWrite]); split <;> simp
@[simp] theorem chipWrite_busOut (s : State) (r : Reg) (v : Byte) : (s.chipWrite r v).busOut = s.busOut := by (cases r <;> simp [State.chipWrite]); split <;> simp
@[simp] theorem chipWrite_refusals (s : State) (r : Reg) (v : Byte) : (s.chipWrite r v).refusals = s.refusals := by (cases r <;> simp [State.chipWrite]); split <;> simp

/-! ### crcRead -/

@[simp] theorem crcRead_cfg (s : State) (p : Word16 → Byte) : (s.crcRead p).2.cfg = s.cfg := by unfold State.crcRead; split <;> simp
@[simp] theorem crcRead_sck (s : State) (p : Word16 → Byte) : (s.crcRead p).2.sck = s.sck := by unfold State.crcRead; split <;> simp
@[simp] theorem crcRead_mosi (s : State) (p : Word16 → Byte) : (s.crcRead p).2.mosi = s.mosi := by unfold State.crcRead; split <;> simp
@[simp] theorem crcRead_nss (s : State) (p : Word16 → Byte) : (s.crcRead p).2.nss = s.nss := by unfold State.crcRead; split <;> simp
@[simp] theorem crcRead_rstAsserted (s : State) (p : Word16 → Byte) : (s.crcRead p).2.rstAsserted = s.rstAsserted := by unfold State.crcRead; split <;> simp
@[simp] theorem crcRead_pwrEn (s : State) (p : Word16 → Byte) : (s.crcRead p).2.pwrEn = s.pwrEn := by unfold State.crcRead; split <;> simp
@[simp] theorem crcRead_commandReg (s : State) (p : Word16 → Byte) : (s.crcRead p).2.commandReg = s.commandReg := by unfold State.crcRead; split <;> simp
@[simp] theorem crcRead_comIrq (s : State) (p : Word16 → Byte) : (s.crcRead p).2.comIrq = s.comIrq := by unfold State.crcRead; split <;> simp
@[simp] theorem crcRead_divIrq (s : State) (p : Word16 → Byte) : (s.crcRead p).2.divIrq = s.divIrq := by unfold State.crcRead; split <;> simp
@[simp] theorem crcRead_errorReg (s : State) (p : Word16 → Byte) : (s.crcRead p).2.errorReg = s.errorReg := by unfold State.crcRead; split <;> simp
@[simp] theorem crcRead_fifo (s : State) (p : Word16 → Byte) : (s.crcRead p).2.fifo = s.fifo := by unfold State.crcRead; split <;> simp
@[simp] theorem crcRead_bitFraming (s : State) (p : Word16 → Byte) : (s.crcRead p).2.bitFraming = s.bitFraming := by unfold State.crcRead; split <;> simp
@[simp] theorem crcRead_crcResult (s : State) (p : Word16 → Byte) : (s.crcRead p).2.crcResult = s.crcResult := by unfold State.crcRead; split <;> simp
@[simp] theorem crcRead_crcState (s : State) (p : Word16 → Byte) : (s.crcRead p).2.crcState = s.crcState := by unfold State.crcRead; split <;> simp
@[simp] theorem crcRead_trxState (s : State) (p : Word16 → Byte) : (s.crcRead p).2.trxState = s.trxState := by unfold State.crcRead; split <;> simp
@[simp] theorem crcRead_txLastBitsLatched (s : State) (p : Word16 → Byte) : (s.crcRead p).2.txLastBitsLatched = s.txLastBitsLatched := by unfold State.crcRead; split <;> simp
@[simp] theorem crcRead_rxLastBits (s : State) (p : Word16 → Byte) : (s.crcRead p).2.rxLastBits = s.rxLastBits := by unfold State.crcRead; split <;> simp
@[simp] theorem crcRead_txEvents (s : State) (p : Word16 → Byte) : (s.crcRead p).2.txEvents = s.txEvents := by unfold State.crcRead; split <;> simp
@[simp] theorem crcRead_mem (s : State) (p : Word16 → Byte) : (s.crcRead p).2.mem = s.mem := by unfold State.crcRead; split <;> simp
@[simp] theorem crcRead_scratch (s : State) (p : Word16 → Byte) : (s.crcRead p).2.scratch = s.scratch := by unfold State.crcRead; split <;> simp
@[simp] theorem crcRead_seq (s : State) (p : Word16 → Byte) : (s.crcRead p).2.seq = s.seq := by unfold State.crcRead; split <;> simp
@[simp] theorem crcRead_result (s : State) (p : Word16 → Byte) : (s.crcRead p).2.result = s.result := by unfold State.crcRead; split <;> simp
@[simp] theorem crcRead_issues (s : State) (p : Word16 → Byte) : (s.crcRead p).2.issues = s.issues := by unfold State.crcRead; split <;> simp
@[simp] theorem crcRead_overlaps (s : State) (p : Word16 → Byte) : (s.crcRead p).2.overlaps = s.overlaps := by unfold State.crcRead; split <;> simp
@[simp] theorem crcRead_events (s : State) (p : Word16 → Byte) : (s.crcRead p).2.events = s.events := by unfold State.crcRead; split <;> simp
@[simp] theorem crcRead_busOut (s : State) (p : Word16 → Byte) : (s.crcRead p).2.busOut = s.busOut := by unfold State.crcRead; split <;> simp
@[simp] theorem crcRead_refusals (s : State) (p : Word16 → Byte) : (s.crcRead p).2.refusals = s.refusals := by unfold State.crcRead; split <;> simp

/-! ### chipRead -/

@[simp] theorem chipRead_cfg (s : State) (r : Reg) : (s.chipRead r).2.cfg = s.cfg := by cases r <;> simp [State.chipRead]
@[simp] theorem chipRead_sck (s : State) (r : Reg) : (s.chipRead r).2.sck = s.sck := by cases r <;> simp [State.chipRead]
@[simp] theorem chipRead_mosi (s : State) (r : Reg) : (s.chipRead r).2.mosi = s.mosi := by cases r <;> simp [State.chipRead]
@[simp] theorem chipRead_nss (s : State) (r : Reg) : (s.chipRead r).2.nss = s.nss := by cases r <;> simp [State.chipRead]
@[simp] theorem chipRead_rstAsserted (s : State) (r : Reg) : (s.chipRead r).2.rstAsserted = s.rstAsserted := by cases r <;> simp [State.chipRead]
@[simp] theorem chipRead_pwrEn (s : State) (r : Reg) : (s.chipRead r).2.pwrEn = s.pwrEn := by cases r <;> simp [State.chipRead]
@[simp] theorem chipRead_commandReg (s : State) (r : Reg) : (s.chipRead r).2.commandReg = s.commandReg := by cases r <;> simp [State.chipRead]
@[simp] theorem chipRead_comIrq (s : State) (r : Reg) : (s.chipRead r).2.comIrq = s.comIrq := by cases r <;> simp [State.chipRead]
@[simp] theorem chipRead_divIrq (s : State) (r : Reg) : (s.chipRead r).2.divIrq = s.divIrq := by cases r <;> simp [State.chipRead]
@[simp] theorem chipRead_errorReg (s : State) (r : Reg) : (s.chipRead r).2.errorReg = s.errorReg := by cases r <;> simp [State.chipRead]
@[simp] theorem chipRead_bitFraming (s : State) (r : Reg) : (s.chipRead r).2.bitFraming = s.bitFraming := by cases r <;> simp [State.chipRead]
@[simp] theorem chipRead_crcResult (s : State) (r : Reg) : (s.chipRead r).2.crcResult = s.crcResult := by cases r <;> simp [State.chipRead]
@[simp] theorem chipRead_crcState (s : State) (r : Reg) : (s.chipRead r).2.crcState = s.crcState := by cases r <;> simp [State.chipRead]
@[simp] theorem chipRead_trxState (s : State) (r : Reg) : (s.chipRead r).2.trxState = s.trxState := by cases r <;> simp [State.chipRead]
@[simp] theorem chipRead_txLastBitsLatched (s : State) (r : Reg) : (s.chipRead r).2.txLastBitsLatched = s.txLastBitsLatched := by cases r <;> simp [State.chipRead]
@[simp] theorem chipRead_rxLastBits (s : State) (r : Reg) : (s.chipRead r).2.rxLastBits = s.rxLastBits := by cases r <;> simp [State.chipRead]
@[simp] theorem chipRead_txEvents (s : State) (r : Reg) : (s.chipRead r).2.txEvents = s.txEvents := by cases r <;> simp [State.chipRead]
@[simp] theorem chipRead_mem (s : State) (r : Reg) : (s.chipRead r).2.mem = s.mem := by cases r <;> simp [State.chipRead]
@[simp] theorem chipRead_scratch (s : State) (r : Reg) : (s.chipRead r).2.scratch = s.scratch := by cases r <;> simp [State.chipRead]
@[simp] theorem chipRead_seq (s : State) (r : Reg) : (s.chipRead r).2.seq = s.seq := by cases r <;> simp [State.chipRead]
@[simp] theorem chipRead_result (s : State) (r : Reg) : (s.chipRead r).2.result = s.result := by cases r <;> simp [State.chipRead]
@[simp] theorem chipRead_issues (s : State) (r : Reg) : (s.chipRead r).2.issues = s.issues := by cases r <;> simp [State.chipRead]
@[simp] theorem chipRead_overlaps (s : State) (r : Reg) : (s.chipRead r).2.overlaps = s.overlaps := by cases r <;> simp [State.chipRead]
@[simp] theorem chipRead_events (s : State) (r : Reg) : (s.chipRead r).2.events = s.events := by cases r <;> simp [State.chipRead]
@[simp] theorem chipRead_busOut (s : State) (r : Reg) : (s.chipRead r).2.busOut = s.busOut := by cases r <;> simp [State.chipRead]
@[simp] theorem chipRead_refusals (s : State) (r : Reg) : (s.chipRead r).2.refusals = s.refusals := by cases r <;> simp [State.chipRead]

/-! ### regWrite -/

@[simp] theorem regWrite_cfg (s : State) (r : Reg) (v : Byte) : (s.regWrite r v).cfg = s.cfg := by simp [State.regWrite]
@[simp] theorem regWrite_rstAsserted (s : State) (r : Reg) (v : Byte) : (s.regWrite r v).rstAsserted = s.rstAsserted := by simp [State.regWrite]
@[simp] theorem regWrite_pwrEn (s : State) (r : Reg) (v : Byte) : (s.regWrite r v).pwrEn = s.pwrEn := by simp [State.regWrite]
@[simp] theorem regWrite_txLastBitsLatched (s : State) (r : Reg) (v : Byte) : (s.regWrite r v).txLastBitsLatched = s.txLastBitsLatched := by simp [State.regWrite]
@[simp] theorem regWrite_rxLastBits (s : State) (r : Reg) (v : Byte) : (s.regWrite r v).rxLastBits = s.rxLastBits := by simp [State.regWrite]
@[simp] theorem regWrite_txEvents (s : State) (r : Reg) (v : Byte) : (s.regWrite r v).txEvents = s.txEvents := by simp [State.regWrite]
@[simp] theorem regWrite_mem (s : State) (r : Reg) (v : Byte) : (s.regWrite r v).mem = s.mem := by simp [State.regWrite]
@[simp] theorem regWrite_scratch (s : State) (r : Reg) (v : Byte) : (s.regWrite r v).scratch = s.scratch := by simp [State.regWrite]
@[simp] theorem regWrite_seq (s : State) (r : Reg) (v : Byte) : (s.regWrite r v).seq = s.seq := by simp [State.regWrite]
@[simp] theorem regWrite_result (s : State) (r : Reg) (v : Byte) : (s.regWrite r v).result = s.result := by simp [State.regWrite]
@[simp] theorem regWrite_issues (s : State) (r : Reg) (v : Byte) : (s.regWrite r v).issues = s.issues := by simp [State.regWrite]
@[simp] theorem regWrite_overlaps (s : State) (r : Reg) (v : Byte) : (s.regWrite r v).overlaps = s.overlaps := by simp [State.regWrite]
@[simp] theorem regWrite_events (s : State) (r : Reg) (v : Byte) : (s.regWrite r v).events = s.events := by simp [State.regWrite]
@[simp] theorem regWrite_refusals (s : State) (r : Reg) (v : Byte) : (s.regWrite r v).refusals = s.refusals := by simp [State.regWrite]

/-! ### regRead -/

@[simp] theorem regRead_cfg (s : State) (r : Reg) : (s.regRead r).2.cfg = s.cfg := by simp [State.regRead]
@[simp] theorem regRead_rstAsserted (s : State) (r : Reg) : (s.regRead r).2.rstAsserted = s.rstAsserted := by simp [State.regRead]
@[simp] theorem regRead_pwrEn (s : State) (r : Reg) : (s.regRead r).2.pwrEn = s.pwrEn := by simp [State.regRead]
@[simp] theorem regRead_commandReg (s : State) (r : Reg) : (s.regRead r).2.commandReg = s.commandReg := by simp [State.regRead]
@[simp] theorem regRead_comIrq (s : State) (r : Reg) : (s.regRead r).2.comIrq = s.comIrq := by simp [State.regRead]
@[simp] theorem regRead_divIrq (s : State) (r : Reg) : (s.regRead r).2.divIrq = s.divIrq := by simp [State.regRead]
@[simp] theorem regRead_errorReg (s : State) (r : Reg) : (s.regRead r).2.errorReg = s.errorReg := by simp [State.regRead]
@[simp] theorem regRead_bitFraming (s : State) (r : Reg) : (s.regRead r).2.bitFraming = s.bitFraming := by simp [State.regRead]
@[simp] theorem regRead_crcResult (s : State) (r : Reg) : (s.regRead r).2.crcResult = s.crcResult := by simp [State.regRead]
@[simp] theorem regRead_crcState (s : State) (r : Reg) : (s.regRead r).2.crcState = s.crcState := by simp [State.regRead]
@[simp] theorem regRead_trxState (s : State) (r : Reg) : (s.regRead r).2.trxState = s.trxState := by simp [State.regRead]
@[simp] theorem regRead_txLastBitsLatched (s : State) (r : Reg) : (s.regRead r).2.txLastBitsLatched = s.txLastBitsLatched := by simp [State.regRead]
@[simp] theorem regRead_rxLastBits (s : State) (r : Reg) : (s.regRead r).2.rxLastBits = s.rxLastBits := by simp [State.regRead]
@[simp] theorem regRead_txEvents (s : State) (r : Reg) : (s.regRead r).2.txEvents = s.txEvents := by simp [State.regRead]
@[simp] theorem regRead_mem (s : State) (r : Reg) : (s.regRead r).2.mem = s.mem := by simp [State.regRead]
@[simp] theorem regRead_scratch (s : State) (r : Reg) : (s.regRead r).2.scratch = s.scratch := by simp [State.regRead]
@[simp] theorem regRead_seq (s : State) (r : Reg) : (s.regRead r).2.seq = s.seq := by simp [State.regRead]
@[simp] theorem regRead_result (s : State) (r : Reg) : (s.regRead r).2.result = s.result := by simp [State.regRead]
@[simp] theorem regRead_issues (s : State) (r : Reg) : (s.regRead r).2.issues = s.issues := by simp [State.regRead]
@[simp] theorem regRead_overlaps (s : State) (r : Reg) : (s.regRead r).2.overlaps = s.overlaps := by simp [State.regRead]
@[simp] theorem regRead_events (s : State) (r : Reg) : (s.regRead r).2.events = s.events := by simp [State.regRead]
@[simp] theorem regRead_refusals (s : State) (r : Reg) : (s.regRead r).2.refusals = s.refusals := by simp [State.regRead]

/-! ### setReg -/

@[simp] theorem setReg_cfg (s : State) (r : Reg) (f : Byte) : (s.setReg r f).cfg = s.cfg := by simp [State.setReg]
@[simp] theorem setReg_rstAsserted (s : State) (r : Reg) (f : Byte) : (s.setReg r f).rstAsserted = s.rstAsserted := by simp [State.setReg]
@[simp] theorem setReg_pwrEn (s : State) (r : Reg) (f : Byte) : (s.setReg r f).pwrEn = s.pwrEn := by simp [State.setReg]
@[simp] theorem setReg_txLastBitsLatched (s : State) (r : Reg) (f : Byte) : (s.setReg r f).txLastBitsLatched = s.txLastBitsLatched := by simp [State.setReg]
@[simp] theorem setReg_rxLastBits (s : State) (r : Reg) (f : Byte) : (s.setReg r f).rxLastBits = s.rxLastBits := by simp [State.setReg]
@[simp] theorem setReg_txEvents (s : State) (r : Reg) (f : Byte) : (s.setReg r f).txEvents = s.txEvents := by simp [State.setReg]
@[simp] theorem setReg_mem (s : State) (r : Reg) (f : Byte) : (s.setReg r f).mem = s.mem := by simp [State.setReg]
@[simp] theorem setReg_scratch (s : State) (r : Reg) (f : Byte) : (s.setReg r f).scratch = s.scratch := by simp [State.setReg]
@[simp] theorem setReg_seq (s : State) (r : Reg) (f : Byte) : (s.setReg r f).seq = s.seq := by simp [State.setReg]
@[simp] theorem setReg_result (s : State) (r : Reg) (f : Byte) : (s.setReg r f).result = s.result := by simp [State.setReg]
@[simp] theorem setReg_issues (s : State) (r : Reg) (f : Byte) : (s.setReg r f).issues = s.issues := by simp [State.setReg]
@[simp] theorem setReg_overlaps (s : State) (r : Reg) (f : Byte) : (s.setReg r f).overlaps = s.overlaps := by simp [State.setReg]
@[simp] theorem setReg_events (s : State) (r : Reg) (f : Byte) : (s.setReg r f).events = s.events := by simp [State.setReg]
@[simp] theorem setReg_refusals (s : State) (r : Reg) (f : Byte) : (s.setReg r f).refusals = s.refusals := by simp [State.setReg]

/-! ### clearIrq -/

@[simp] theorem clearIrq_cfg (s : State) (r : Reg) (m : Byte) : (s.clearIrq r m).cfg = s.cfg := by simp [State.clearIrq]
@[simp] theorem clearIrq_rstAsserted (s : State) (r : Reg) (m : Byte) : (s.clearIrq r m).rstAsserted = s.rstAsserted := by simp [State.clearIrq]
@[simp] theorem clearIrq_pwrEn (s : State) (r : Reg) (m : Byte) : (s.clearIrq r m).pwrEn = s.pwrEn := by simp [State.clearIrq]
@[simp] theorem clearIrq_txLastBitsLatched (s : State) (r : Reg) (m : Byte) : (s.clearIrq r m).txLastBitsLatched = s.txLastBitsLatched := by simp [State.clearIrq]
@[simp] theorem clearIrq_rxLastBits (s : State) (r : Reg) (m : Byte) : (s.clearIrq r m).rxLastBits = s.rxLastBits := by simp [State.clearIrq]
@[simp] theorem clearIrq_txEvents (s : State) (r : Reg) (m : Byte) : (s.clearIrq r m).txEvents = s.txEvents := by simp [State.clearIrq]
@[simp] theorem clearIrq_mem (s : State) (r : Reg) (m : Byte) : (s.clearIrq r m).mem = s.mem := by simp [State.clearIrq]
@[simp] theorem clearIrq_scratch (s : State) (r : Reg) (m : Byte) : (s.clearIrq r m).scratch = s.scratch := by simp [State.clearIrq]
@[simp] theorem clearIrq_seq (s : State) (r : Reg) (m : Byte) : (s.clearIrq r m).seq = s.seq := by simp [State.clearIrq]
@[simp] theorem clearIrq_result (s : State) (r : Reg) (m : Byte) : (s.clearIrq r m).result = s.result := by simp [State.clearIrq]
@[simp] theorem clearIrq_issues (s : State) (r : Reg) (m : Byte) : (s.clearIrq r m).issues = s.issues := by simp [State.clearIrq]
@[simp] theorem clearIrq_overlaps (s : State) (r : Reg) (m : Byte) : (s.clearIrq r m).overlaps = s.overlaps := by simp [State.clearIrq]
@[simp] theorem clearIrq_events (s : State) (r : Reg) (m : Byte) : (s.clearIrq r m).events = s.events := by simp [State.clearIrq]
@[simp] theorem clearIrq_refusals (s : State) (r : Reg) (m : Byte) : (s.clearIrq r m).refusals = s.refusals := by simp [State.clearIrq]

/-! ### finish -/

@[simp] theorem finish_cfg (s : State) (r : Result) : (s.finish r).cfg = s.cfg := rfl
@[simp] theorem finish_sck (s : State) (r : Result) : (s.finish r).sck = s.sck := rfl
@[simp] theorem finish_mosi (s : State) (r : Result) : (s.finish r).mosi = s.mosi := rfl
@[simp] theorem finish_nss (s : State) (r : Result) : (s.finish r).nss = s.nss := rfl
@[simp] theorem finish_rstAsserted (s : State) (r : Result) : (s.finish r).rstAsserted = s.rstAsserted := rfl
@[simp] theorem finish_pwrEn (s : State) (r : Result) : (s.finish r).pwrEn = s.pwrEn := rfl
@[simp] theorem finish_commandReg (s : State) (r : Result) : (s.finish r).commandReg = s.commandReg := rfl
@[simp] theorem finish_comIrq (s : State) (r : Result) : (s.finish r).comIrq = s.comIrq := rfl
@[simp] theorem finish_divIrq (s : State) (r : Result) : (s.finish r).divIrq = s.divIrq := rfl
@[simp] theorem finish_errorReg (s : State) (r : Result) : (s.finish r).errorReg = s.errorReg := rfl
@[simp] theorem finish_fifo (s : State) (r : Result) : (s.finish r).fifo = s.fifo := rfl
@[simp] theorem finish_bitFraming (s : State) (r : Result) : (s.finish r).bitFraming = s.bitFraming := rfl
@[simp] theorem finish_crcResult (s : State) (r : Result) : (s.finish r).crcResult = s.crcResult := rfl
@[simp] theorem finish_crcState (s : State) (r : Result) : (s.finish r).crcState = s.crcState := rfl
@[simp] theorem finish_trxState (s : State) (r : Result) : (s.finish r).trxState = s.trxState := rfl
@[simp] theorem finish_txLastBitsLatched (s : State) (r : Result) : (s.finish r).txLastBitsLatched = s.txLastBitsLatched := rfl
@[simp] theorem finish_rxLastBits (s : State) (r : Result) : (s.finish r).rxLastBits = s.rxLastBits := rfl
@[simp] theorem finish_txEvents (s : State) (r : Result) : (s.finish r).txEvents = s.txEvents := rfl
@[simp] theorem finish_mem (s : State) (r : Result) : (s.finish r).mem = s.mem := rfl
@[simp] theorem finish_scratch (s : State) (r : Result) : (s.finish r).scratch = s.scratch := rfl
@[simp] theorem finish_issues (s : State) (r : Result) : (s.finish r).issues = s.issues := rfl
@[simp] theorem finish_overlaps (s : State) (r : Result) : (s.finish r).overlaps = s.overlaps := rfl
@[simp] theorem finish_events (s : State) (r : Result) : (s.finish r).events = s.events := rfl
@[simp] theorem finish_draws (s : State) (r : Result) : (s.finish r).draws = s.draws := rfl
@[simp] theorem finish_drawCount (s : State) (r : Result) : (s.finish r).drawCount = s.drawCount := rfl
@[simp] theorem finish_busOut (s : State) (r : Result) : (s.finish r).busOut = s.busOut := rfl
@[simp] theorem finish_refusals (s : State) (r : Result) : (s.finish r).refusals = s.refusals := rfl

/-! ### refuse -/

@[simp] theorem refuse_cfg (s : State) (x : Refusal) : (s.refuse x).cfg = s.cfg := rfl
@[simp] theorem refuse_sck (s : State) (x : Refusal) : (s.refuse x).sck = s.sck := rfl
@[simp] theorem refuse_mosi (s : State) (x : Refusal) : (s.refuse x).mosi = s.mosi := rfl
@[simp] theorem refuse_nss (s : State) (x : Refusal) : (s.refuse x).nss = s.nss := rfl
@[simp] theorem refuse_rstAsserted (s : State) (x : Refusal) : (s.refuse x).rstAsserted = s.rstAsserted := rfl
@[simp] theorem refuse_pwrEn (s : State) (x : Refusal) : (s.refuse x).pwrEn = s.pwrEn := rfl
@[simp] theorem refuse_commandReg (s : State) (x : Refusal) : (s.refuse x).commandReg = s.commandReg := rfl
@[simp] theorem refuse_comIrq (s : State) (x : Refusal) : (s.refuse x).comIrq = s.comIrq := rfl
@[simp] theorem refuse_divIrq (s : State) (x : Refusal) : (s.refuse x).divIrq = s.divIrq := rfl
@[simp] theorem refuse_errorReg (s : State) (x : Refusal) : (s.refuse x).errorReg = s.errorReg := rfl
@[simp] theorem refuse_fifo (s : State) (x : Refusal) : (s.refuse x).fifo = s.fifo := rfl
@[simp] theorem refuse_bitFraming (s : State) (x : Refusal) : (s.refuse x).bitFraming = s.bitFraming := rfl
@[simp] theorem refuse_crcResult (s : State) (x : Refusal) : (s.refuse x).crcResult = s.crcResult := rfl
@[simp] theorem refuse_crcState (s : State) (x : Refusal) : (s.refuse x).crcState = s.crcState := rfl
@[simp] theorem refuse_trxState (s : State) (x : Refusal) : (s.refuse x).trxState = s.trxState := rfl
@[simp] theorem refuse_txLastBitsLatched (s : State) (x : Refusal) : (s.refuse x).txLastBitsLatched = s.txLastBitsLatched := rfl
@[simp] theorem refuse_rxLastBits (s : State) (x : Refusal) : (s.refuse x).rxLastBits = s.rxLastBits := rfl
@[simp] theorem refuse_txEvents (s : State) (x : Refusal) : (s.refuse x).txEvents = s.txEvents := rfl
@[simp] theorem refuse_mem (s : State) (x : Refusal) : (s.refuse x).mem = s.mem := rfl
@[simp] theorem refuse_scratch (s : State) (x : Refusal) : (s.refuse x).scratch = s.scratch := rfl
@[simp] theorem refuse_seq (s : State) (x : Refusal) : (s.refuse x).seq = s.seq := rfl
@[simp] theorem refuse_result (s : State) (x : Refusal) : (s.refuse x).result = s.result := rfl
@[simp] theorem refuse_issues (s : State) (x : Refusal) : (s.refuse x).issues = s.issues := rfl
@[simp] theorem refuse_overlaps (s : State) (x : Refusal) : (s.refuse x).overlaps = s.overlaps := rfl
@[simp] theorem refuse_events (s : State) (x : Refusal) : (s.refuse x).events = s.events := rfl
@[simp] theorem refuse_draws (s : State) (x : Refusal) : (s.refuse x).draws = s.draws := rfl
@[simp] theorem refuse_drawCount (s : State) (x : Refusal) : (s.refuse x).drawCount = s.drawCount := rfl
@[simp] theorem refuse_busOut (s : State) (x : Refusal) : (s.refuse x).busOut = s.busOut := rfl

/-! ### refuseOverlaps -/

@[simp] theorem refuseOverlaps_cfg (s : State) : s.refuseOverlaps.cfg = s.cfg := by unfold State.refuseOverlaps; split <;> rfl
@[simp] theorem refuseOverlaps_sck (s : State) : s.refuseOverlaps.sck = s.sck := by unfold State.refuseOverlaps; split <;> rfl
@[simp] theorem refuseOverlaps_mosi (s : State) : s.refuseOverlaps.mosi = s.mosi := by unfold State.refuseOverlaps; split <;> rfl
@[simp] theorem refuseOverlaps_nss (s : State) : s.refuseOverlaps.nss = s.nss := by unfold State.refuseOverlaps; split <;> rfl
@[simp] theorem refuseOverlaps_rstAsserted (s : State) : s.refuseOverlaps.rstAsserted = s.rstAsserted := by unfold State.refuseOverlaps; split <;> rfl
@[simp] theorem refuseOverlaps_pwrEn (s : State) : s.refuseOverlaps.pwrEn = s.pwrEn := by unfold State.refuseOverlaps; split <;> rfl
@[simp] theorem refuseOverlaps_commandReg (s : State) : s.refuseOverlaps.commandReg = s.commandReg := by unfold State.refuseOverlaps; split <;> rfl
@[simp] theorem refuseOverlaps_comIrq (s : State) : s.refuseOverlaps.comIrq = s.comIrq := by unfold State.refuseOverlaps; split <;> rfl
@[simp] theorem refuseOverlaps_divIrq (s : State) : s.refuseOverlaps.divIrq = s.divIrq := by unfold State.refuseOverlaps; split <;> rfl
@[simp] theorem refuseOverlaps_errorReg (s : State) : s.refuseOverlaps.errorReg = s.errorReg := by unfold State.refuseOverlaps; split <;> rfl
@[simp] theorem refuseOverlaps_fifo (s : State) : s.refuseOverlaps.fifo = s.fifo := by unfold State.refuseOverlaps; split <;> rfl
@[simp] theorem refuseOverlaps_bitFraming (s : State) : s.refuseOverlaps.bitFraming = s.bitFraming := by unfold State.refuseOverlaps; split <;> rfl
@[simp] theorem refuseOverlaps_crcResult (s : State) : s.refuseOverlaps.crcResult = s.crcResult := by unfold State.refuseOverlaps; split <;> rfl
@[simp] theorem refuseOverlaps_crcState (s : State) : s.refuseOverlaps.crcState = s.crcState := by unfold State.refuseOverlaps; split <;> rfl
@[simp] theorem refuseOverlaps_trxState (s : State) : s.refuseOverlaps.trxState = s.trxState := by unfold State.refuseOverlaps; split <;> rfl
@[simp] theorem refuseOverlaps_txLastBitsLatched (s : State) : s.refuseOverlaps.txLastBitsLatched = s.txLastBitsLatched := by unfold State.refuseOverlaps; split <;> rfl
@[simp] theorem refuseOverlaps_rxLastBits (s : State) : s.refuseOverlaps.rxLastBits = s.rxLastBits := by unfold State.refuseOverlaps; split <;> rfl
@[simp] theorem refuseOverlaps_txEvents (s : State) : s.refuseOverlaps.txEvents = s.txEvents := by unfold State.refuseOverlaps; split <;> rfl
@[simp] theorem refuseOverlaps_mem (s : State) : s.refuseOverlaps.mem = s.mem := by unfold State.refuseOverlaps; split <;> rfl
@[simp] theorem refuseOverlaps_scratch (s : State) : s.refuseOverlaps.scratch = s.scratch := by unfold State.refuseOverlaps; split <;> rfl
@[simp] theorem refuseOverlaps_seq (s : State) : s.refuseOverlaps.seq = s.seq := by unfold State.refuseOverlaps; split <;> rfl
@[simp] theorem refuseOverlaps_result (s : State) : s.refuseOverlaps.result = s.result := by unfold State.refuseOverlaps; split <;> rfl
@[simp] theorem refuseOverlaps_issues (s : State) : s.refuseOverlaps.issues = s.issues := by unfold State.refuseOverlaps; split <;> rfl
@[simp] theorem refuseOverlaps_events (s : State) : s.refuseOverlaps.events = s.events := by unfold State.refuseOverlaps; split <;> rfl
@[simp] theorem refuseOverlaps_draws (s : State) : s.refuseOverlaps.draws = s.draws := by unfold State.refuseOverlaps; split <;> rfl
@[simp] theorem refuseOverlaps_drawCount (s : State) : s.refuseOverlaps.drawCount = s.drawCount := by unfold State.refuseOverlaps; split <;> rfl
@[simp] theorem refuseOverlaps_busOut (s : State) : s.refuseOverlaps.busOut = s.busOut := by unfold State.refuseOverlaps; split <;> rfl

/-! ### goOn -/

@[simp] theorem goOn_cfg (s : State) (r : Running) : (s.goOn r).cfg = s.cfg := rfl
@[simp] theorem goOn_sck (s : State) (r : Running) : (s.goOn r).sck = s.sck := rfl
@[simp] theorem goOn_mosi (s : State) (r : Running) : (s.goOn r).mosi = s.mosi := rfl
@[simp] theorem goOn_nss (s : State) (r : Running) : (s.goOn r).nss = s.nss := rfl
@[simp] theorem goOn_rstAsserted (s : State) (r : Running) : (s.goOn r).rstAsserted = s.rstAsserted := rfl
@[simp] theorem goOn_pwrEn (s : State) (r : Running) : (s.goOn r).pwrEn = s.pwrEn := rfl
@[simp] theorem goOn_commandReg (s : State) (r : Running) : (s.goOn r).commandReg = s.commandReg := rfl
@[simp] theorem goOn_comIrq (s : State) (r : Running) : (s.goOn r).comIrq = s.comIrq := rfl
@[simp] theorem goOn_divIrq (s : State) (r : Running) : (s.goOn r).divIrq = s.divIrq := rfl
@[simp] theorem goOn_errorReg (s : State) (r : Running) : (s.goOn r).errorReg = s.errorReg := rfl
@[simp] theorem goOn_fifo (s : State) (r : Running) : (s.goOn r).fifo = s.fifo := rfl
@[simp] theorem goOn_bitFraming (s : State) (r : Running) : (s.goOn r).bitFraming = s.bitFraming := rfl
@[simp] theorem goOn_crcResult (s : State) (r : Running) : (s.goOn r).crcResult = s.crcResult := rfl
@[simp] theorem goOn_crcState (s : State) (r : Running) : (s.goOn r).crcState = s.crcState := rfl
@[simp] theorem goOn_trxState (s : State) (r : Running) : (s.goOn r).trxState = s.trxState := rfl
@[simp] theorem goOn_txLastBitsLatched (s : State) (r : Running) : (s.goOn r).txLastBitsLatched = s.txLastBitsLatched := rfl
@[simp] theorem goOn_rxLastBits (s : State) (r : Running) : (s.goOn r).rxLastBits = s.rxLastBits := rfl
@[simp] theorem goOn_txEvents (s : State) (r : Running) : (s.goOn r).txEvents = s.txEvents := rfl
@[simp] theorem goOn_mem (s : State) (r : Running) : (s.goOn r).mem = s.mem := rfl
@[simp] theorem goOn_scratch (s : State) (r : Running) : (s.goOn r).scratch = s.scratch := rfl
@[simp] theorem goOn_result (s : State) (r : Running) : (s.goOn r).result = s.result := rfl
@[simp] theorem goOn_issues (s : State) (r : Running) : (s.goOn r).issues = s.issues := rfl
@[simp] theorem goOn_overlaps (s : State) (r : Running) : (s.goOn r).overlaps = s.overlaps := rfl
@[simp] theorem goOn_events (s : State) (r : Running) : (s.goOn r).events = s.events := rfl
@[simp] theorem goOn_draws (s : State) (r : Running) : (s.goOn r).draws = s.draws := rfl
@[simp] theorem goOn_drawCount (s : State) (r : Running) : (s.goOn r).drawCount = s.drawCount := rfl
@[simp] theorem goOn_busOut (s : State) (r : Running) : (s.goOn r).busOut = s.busOut := rfl
@[simp] theorem goOn_refusals (s : State) (r : Running) : (s.goOn r).refusals = s.refusals := rfl

/-! ### crcComplete -/

@[simp] theorem crcComplete_cfg (s : State) (l : List Byte) : (s.crcComplete l).cfg = s.cfg := by unfold State.crcComplete; split <;> rfl
@[simp] theorem crcComplete_sck (s : State) (l : List Byte) : (s.crcComplete l).sck = s.sck := by unfold State.crcComplete; split <;> rfl
@[simp] theorem crcComplete_mosi (s : State) (l : List Byte) : (s.crcComplete l).mosi = s.mosi := by unfold State.crcComplete; split <;> rfl
@[simp] theorem crcComplete_nss (s : State) (l : List Byte) : (s.crcComplete l).nss = s.nss := by unfold State.crcComplete; split <;> rfl
@[simp] theorem crcComplete_rstAsserted (s : State) (l : List Byte) : (s.crcComplete l).rstAsserted = s.rstAsserted := by unfold State.crcComplete; split <;> rfl
@[simp] theorem crcComplete_pwrEn (s : State) (l : List Byte) : (s.crcComplete l).pwrEn = s.pwrEn := by unfold State.crcComplete; split <;> rfl
@[simp] theorem crcComplete_commandReg (s : State) (l : List Byte) : (s.crcComplete l).commandReg = s.commandReg := by unfold State.crcComplete; split <;> rfl
@[simp] theorem crcComplete_comIrq (s : State) (l : List Byte) : (s.crcComplete l).comIrq = s.comIrq := by unfold State.crcComplete; split <;> rfl
@[simp] theorem crcComplete_errorReg (s : State) (l : List Byte) : (s.crcComplete l).errorReg = s.errorReg := by unfold State.crcComplete; split <;> rfl
@[simp] theorem crcComplete_bitFraming (s : State) (l : List Byte) : (s.crcComplete l).bitFraming = s.bitFraming := by unfold State.crcComplete; split <;> rfl
@[simp] theorem crcComplete_trxState (s : State) (l : List Byte) : (s.crcComplete l).trxState = s.trxState := by unfold State.crcComplete; split <;> rfl
@[simp] theorem crcComplete_txLastBitsLatched (s : State) (l : List Byte) : (s.crcComplete l).txLastBitsLatched = s.txLastBitsLatched := by unfold State.crcComplete; split <;> rfl
@[simp] theorem crcComplete_rxLastBits (s : State) (l : List Byte) : (s.crcComplete l).rxLastBits = s.rxLastBits := by unfold State.crcComplete; split <;> rfl
@[simp] theorem crcComplete_txEvents (s : State) (l : List Byte) : (s.crcComplete l).txEvents = s.txEvents := by unfold State.crcComplete; split <;> rfl
@[simp] theorem crcComplete_mem (s : State) (l : List Byte) : (s.crcComplete l).mem = s.mem := by unfold State.crcComplete; split <;> rfl
@[simp] theorem crcComplete_scratch (s : State) (l : List Byte) : (s.crcComplete l).scratch = s.scratch := by unfold State.crcComplete; split <;> rfl
@[simp] theorem crcComplete_seq (s : State) (l : List Byte) : (s.crcComplete l).seq = s.seq := by unfold State.crcComplete; split <;> rfl
@[simp] theorem crcComplete_result (s : State) (l : List Byte) : (s.crcComplete l).result = s.result := by unfold State.crcComplete; split <;> rfl
@[simp] theorem crcComplete_issues (s : State) (l : List Byte) : (s.crcComplete l).issues = s.issues := by unfold State.crcComplete; split <;> rfl
@[simp] theorem crcComplete_overlaps (s : State) (l : List Byte) : (s.crcComplete l).overlaps = s.overlaps := by unfold State.crcComplete; split <;> rfl
@[simp] theorem crcComplete_events (s : State) (l : List Byte) : (s.crcComplete l).events = s.events := by unfold State.crcComplete; split <;> rfl
@[simp] theorem crcComplete_draws (s : State) (l : List Byte) : (s.crcComplete l).draws = s.draws := by unfold State.crcComplete; split <;> rfl
@[simp] theorem crcComplete_drawCount (s : State) (l : List Byte) : (s.crcComplete l).drawCount = s.drawCount := by unfold State.crcComplete; split <;> rfl
@[simp] theorem crcComplete_busOut (s : State) (l : List Byte) : (s.crcComplete l).busOut = s.busOut := by unfold State.crcComplete; split <;> rfl
@[simp] theorem crcComplete_refusals (s : State) (l : List Byte) : (s.crcComplete l).refusals = s.refusals := by unfold State.crcComplete; split <;> rfl

/-! ### transmit -/

@[simp] theorem transmit_cfg (s : State) : s.transmit.cfg = s.cfg := by unfold State.transmit; split <;> rfl
@[simp] theorem transmit_sck (s : State) : s.transmit.sck = s.sck := by unfold State.transmit; split <;> rfl
@[simp] theorem transmit_mosi (s : State) : s.transmit.mosi = s.mosi := by unfold State.transmit; split <;> rfl
@[simp] theorem transmit_nss (s : State) : s.transmit.nss = s.nss := by unfold State.transmit; split <;> rfl
@[simp] theorem transmit_rstAsserted (s : State) : s.transmit.rstAsserted = s.rstAsserted := by unfold State.transmit; split <;> rfl
@[simp] theorem transmit_pwrEn (s : State) : s.transmit.pwrEn = s.pwrEn := by unfold State.transmit; split <;> rfl
@[simp] theorem transmit_commandReg (s : State) : s.transmit.commandReg = s.commandReg := by unfold State.transmit; split <;> rfl
@[simp] theorem transmit_divIrq (s : State) : s.transmit.divIrq = s.divIrq := by unfold State.transmit; split <;> rfl
@[simp] theorem transmit_errorReg (s : State) : s.transmit.errorReg = s.errorReg := by unfold State.transmit; split <;> rfl
@[simp] theorem transmit_bitFraming (s : State) : s.transmit.bitFraming = s.bitFraming := by unfold State.transmit; split <;> rfl
@[simp] theorem transmit_crcResult (s : State) : s.transmit.crcResult = s.crcResult := by unfold State.transmit; split <;> rfl
@[simp] theorem transmit_crcState (s : State) : s.transmit.crcState = s.crcState := by unfold State.transmit; split <;> rfl
@[simp] theorem transmit_rxLastBits (s : State) : s.transmit.rxLastBits = s.rxLastBits := by unfold State.transmit; split <;> rfl
@[simp] theorem transmit_mem (s : State) : s.transmit.mem = s.mem := by unfold State.transmit; split <;> rfl
@[simp] theorem transmit_scratch (s : State) : s.transmit.scratch = s.scratch := by unfold State.transmit; split <;> rfl
@[simp] theorem transmit_seq (s : State) : s.transmit.seq = s.seq := by unfold State.transmit; split <;> rfl
@[simp] theorem transmit_result (s : State) : s.transmit.result = s.result := by unfold State.transmit; split <;> rfl
@[simp] theorem transmit_issues (s : State) : s.transmit.issues = s.issues := by unfold State.transmit; split <;> rfl
@[simp] theorem transmit_overlaps (s : State) : s.transmit.overlaps = s.overlaps := by unfold State.transmit; split <;> rfl
@[simp] theorem transmit_events (s : State) : s.transmit.events = s.events := by unfold State.transmit; split <;> rfl
@[simp] theorem transmit_draws (s : State) : s.transmit.draws = s.draws := by unfold State.transmit; split <;> rfl
@[simp] theorem transmit_drawCount (s : State) : s.transmit.drawCount = s.drawCount := by unfold State.transmit; split <;> rfl
@[simp] theorem transmit_busOut (s : State) : s.transmit.busOut = s.busOut := by unfold State.transmit; split <;> rfl
@[simp] theorem transmit_refusals (s : State) : s.transmit.refusals = s.refusals := by unfold State.transmit; split <;> rfl

/-! ### receive -/

@[simp] theorem receive_cfg (s : State) (b : List Byte) (l : BitVec 3) (e : Byte) : (s.receive b l e).cfg = s.cfg := by unfold State.receive; split <;> rfl
@[simp] theorem receive_sck (s : State) (b : List Byte) (l : BitVec 3) (e : Byte) : (s.receive b l e).sck = s.sck := by unfold State.receive; split <;> rfl
@[simp] theorem receive_mosi (s : State) (b : List Byte) (l : BitVec 3) (e : Byte) : (s.receive b l e).mosi = s.mosi := by unfold State.receive; split <;> rfl
@[simp] theorem receive_nss (s : State) (b : List Byte) (l : BitVec 3) (e : Byte) : (s.receive b l e).nss = s.nss := by unfold State.receive; split <;> rfl
@[simp] theorem receive_rstAsserted (s : State) (b : List Byte) (l : BitVec 3) (e : Byte) : (s.receive b l e).rstAsserted = s.rstAsserted := by unfold State.receive; split <;> rfl
@[simp] theorem receive_pwrEn (s : State) (b : List Byte) (l : BitVec 3) (e : Byte) : (s.receive b l e).pwrEn = s.pwrEn := by unfold State.receive; split <;> rfl
@[simp] theorem receive_commandReg (s : State) (b : List Byte) (l : BitVec 3) (e : Byte) : (s.receive b l e).commandReg = s.commandReg := by unfold State.receive; split <;> rfl
@[simp] theorem receive_divIrq (s : State) (b : List Byte) (l : BitVec 3) (e : Byte) : (s.receive b l e).divIrq = s.divIrq := by unfold State.receive; split <;> rfl
@[simp] theorem receive_bitFraming (s : State) (b : List Byte) (l : BitVec 3) (e : Byte) : (s.receive b l e).bitFraming = s.bitFraming := by unfold State.receive; split <;> rfl
@[simp] theorem receive_crcResult (s : State) (b : List Byte) (l : BitVec 3) (e : Byte) : (s.receive b l e).crcResult = s.crcResult := by unfold State.receive; split <;> rfl
@[simp] theorem receive_crcState (s : State) (b : List Byte) (l : BitVec 3) (e : Byte) : (s.receive b l e).crcState = s.crcState := by unfold State.receive; split <;> rfl
@[simp] theorem receive_txLastBitsLatched (s : State) (b : List Byte) (l : BitVec 3) (e : Byte) : (s.receive b l e).txLastBitsLatched = s.txLastBitsLatched := by unfold State.receive; split <;> rfl
@[simp] theorem receive_txEvents (s : State) (b : List Byte) (l : BitVec 3) (e : Byte) : (s.receive b l e).txEvents = s.txEvents := by unfold State.receive; split <;> rfl
@[simp] theorem receive_mem (s : State) (b : List Byte) (l : BitVec 3) (e : Byte) : (s.receive b l e).mem = s.mem := by unfold State.receive; split <;> rfl
@[simp] theorem receive_scratch (s : State) (b : List Byte) (l : BitVec 3) (e : Byte) : (s.receive b l e).scratch = s.scratch := by unfold State.receive; split <;> rfl
@[simp] theorem receive_seq (s : State) (b : List Byte) (l : BitVec 3) (e : Byte) : (s.receive b l e).seq = s.seq := by unfold State.receive; split <;> rfl
@[simp] theorem receive_result (s : State) (b : List Byte) (l : BitVec 3) (e : Byte) : (s.receive b l e).result = s.result := by unfold State.receive; split <;> rfl
@[simp] theorem receive_issues (s : State) (b : List Byte) (l : BitVec 3) (e : Byte) : (s.receive b l e).issues = s.issues := by unfold State.receive; split <;> rfl
@[simp] theorem receive_overlaps (s : State) (b : List Byte) (l : BitVec 3) (e : Byte) : (s.receive b l e).overlaps = s.overlaps := by unfold State.receive; split <;> rfl
@[simp] theorem receive_events (s : State) (b : List Byte) (l : BitVec 3) (e : Byte) : (s.receive b l e).events = s.events := by unfold State.receive; split <;> rfl
@[simp] theorem receive_draws (s : State) (b : List Byte) (l : BitVec 3) (e : Byte) : (s.receive b l e).draws = s.draws := by unfold State.receive; split <;> rfl
@[simp] theorem receive_drawCount (s : State) (b : List Byte) (l : BitVec 3) (e : Byte) : (s.receive b l e).drawCount = s.drawCount := by unfold State.receive; split <;> rfl
@[simp] theorem receive_busOut (s : State) (b : List Byte) (l : BitVec 3) (e : Byte) : (s.receive b l e).busOut = s.busOut := by unfold State.receive; split <;> rfl
@[simp] theorem receive_refusals (s : State) (b : List Byte) (l : BitVec 3) (e : Byte) : (s.receive b l e).refusals = s.refusals := by unfold State.receive; split <;> rfl

/-! ### timerStep -/

@[simp] theorem timerStep_cfg (s : State) : s.timerStep.cfg = s.cfg := by unfold State.timerStep; split <;> rfl
@[simp] theorem timerStep_sck (s : State) : s.timerStep.sck = s.sck := by unfold State.timerStep; split <;> rfl
@[simp] theorem timerStep_mosi (s : State) : s.timerStep.mosi = s.mosi := by unfold State.timerStep; split <;> rfl
@[simp] theorem timerStep_nss (s : State) : s.timerStep.nss = s.nss := by unfold State.timerStep; split <;> rfl
@[simp] theorem timerStep_rstAsserted (s : State) : s.timerStep.rstAsserted = s.rstAsserted := by unfold State.timerStep; split <;> rfl
@[simp] theorem timerStep_pwrEn (s : State) : s.timerStep.pwrEn = s.pwrEn := by unfold State.timerStep; split <;> rfl
@[simp] theorem timerStep_commandReg (s : State) : s.timerStep.commandReg = s.commandReg := by unfold State.timerStep; split <;> rfl
@[simp] theorem timerStep_divIrq (s : State) : s.timerStep.divIrq = s.divIrq := by unfold State.timerStep; split <;> rfl
@[simp] theorem timerStep_errorReg (s : State) : s.timerStep.errorReg = s.errorReg := by unfold State.timerStep; split <;> rfl
@[simp] theorem timerStep_fifo (s : State) : s.timerStep.fifo = s.fifo := by unfold State.timerStep; split <;> rfl
@[simp] theorem timerStep_bitFraming (s : State) : s.timerStep.bitFraming = s.bitFraming := by unfold State.timerStep; split <;> rfl
@[simp] theorem timerStep_crcResult (s : State) : s.timerStep.crcResult = s.crcResult := by unfold State.timerStep; split <;> rfl
@[simp] theorem timerStep_crcState (s : State) : s.timerStep.crcState = s.crcState := by unfold State.timerStep; split <;> rfl
@[simp] theorem timerStep_trxState (s : State) : s.timerStep.trxState = s.trxState := by unfold State.timerStep; split <;> rfl
@[simp] theorem timerStep_txLastBitsLatched (s : State) : s.timerStep.txLastBitsLatched = s.txLastBitsLatched := by unfold State.timerStep; split <;> rfl
@[simp] theorem timerStep_rxLastBits (s : State) : s.timerStep.rxLastBits = s.rxLastBits := by unfold State.timerStep; split <;> rfl
@[simp] theorem timerStep_txEvents (s : State) : s.timerStep.txEvents = s.txEvents := by unfold State.timerStep; split <;> rfl
@[simp] theorem timerStep_mem (s : State) : s.timerStep.mem = s.mem := by unfold State.timerStep; split <;> rfl
@[simp] theorem timerStep_scratch (s : State) : s.timerStep.scratch = s.scratch := by unfold State.timerStep; split <;> rfl
@[simp] theorem timerStep_seq (s : State) : s.timerStep.seq = s.seq := by unfold State.timerStep; split <;> rfl
@[simp] theorem timerStep_result (s : State) : s.timerStep.result = s.result := by unfold State.timerStep; split <;> rfl
@[simp] theorem timerStep_issues (s : State) : s.timerStep.issues = s.issues := by unfold State.timerStep; split <;> rfl
@[simp] theorem timerStep_overlaps (s : State) : s.timerStep.overlaps = s.overlaps := by unfold State.timerStep; split <;> rfl
@[simp] theorem timerStep_events (s : State) : s.timerStep.events = s.events := by unfold State.timerStep; split <;> rfl
@[simp] theorem timerStep_draws (s : State) : s.timerStep.draws = s.draws := by unfold State.timerStep; split <;> rfl
@[simp] theorem timerStep_drawCount (s : State) : s.timerStep.drawCount = s.drawCount := by unfold State.timerStep; split <;> rfl
@[simp] theorem timerStep_busOut (s : State) : s.timerStep.busOut = s.busOut := by unfold State.timerStep; split <;> rfl
@[simp] theorem timerStep_refusals (s : State) : s.timerStep.refusals = s.refusals := by unfold State.timerStep; split <;> rfl

/-! ### engineStep -/

@[simp] theorem engineStep_cfg (s : State) (e : EngineEvent) : (s.engineStep e).cfg = s.cfg := by cases e <;> simp [State.engineStep]
@[simp] theorem engineStep_sck (s : State) (e : EngineEvent) : (s.engineStep e).sck = s.sck := by cases e <;> simp [State.engineStep]
@[simp] theorem engineStep_mosi (s : State) (e : EngineEvent) : (s.engineStep e).mosi = s.mosi := by cases e <;> simp [State.engineStep]
@[simp] theorem engineStep_nss (s : State) (e : EngineEvent) : (s.engineStep e).nss = s.nss := by cases e <;> simp [State.engineStep]
@[simp] theorem engineStep_rstAsserted (s : State) (e : EngineEvent) : (s.engineStep e).rstAsserted = s.rstAsserted := by cases e <;> simp [State.engineStep]
@[simp] theorem engineStep_pwrEn (s : State) (e : EngineEvent) : (s.engineStep e).pwrEn = s.pwrEn := by cases e <;> simp [State.engineStep]
@[simp] theorem engineStep_commandReg (s : State) (e : EngineEvent) : (s.engineStep e).commandReg = s.commandReg := by cases e <;> simp [State.engineStep]
@[simp] theorem engineStep_bitFraming (s : State) (e : EngineEvent) : (s.engineStep e).bitFraming = s.bitFraming := by cases e <;> simp [State.engineStep]
@[simp] theorem engineStep_mem (s : State) (e : EngineEvent) : (s.engineStep e).mem = s.mem := by cases e <;> simp [State.engineStep]
@[simp] theorem engineStep_scratch (s : State) (e : EngineEvent) : (s.engineStep e).scratch = s.scratch := by cases e <;> simp [State.engineStep]
@[simp] theorem engineStep_seq (s : State) (e : EngineEvent) : (s.engineStep e).seq = s.seq := by cases e <;> simp [State.engineStep]
@[simp] theorem engineStep_result (s : State) (e : EngineEvent) : (s.engineStep e).result = s.result := by cases e <;> simp [State.engineStep]
@[simp] theorem engineStep_issues (s : State) (e : EngineEvent) : (s.engineStep e).issues = s.issues := by cases e <;> simp [State.engineStep]
@[simp] theorem engineStep_overlaps (s : State) (e : EngineEvent) : (s.engineStep e).overlaps = s.overlaps := by cases e <;> simp [State.engineStep]
@[simp] theorem engineStep_events (s : State) (e : EngineEvent) : (s.engineStep e).events = s.events := by cases e <;> simp [State.engineStep]
@[simp] theorem engineStep_draws (s : State) (e : EngineEvent) : (s.engineStep e).draws = s.draws := by cases e <;> simp [State.engineStep]
@[simp] theorem engineStep_drawCount (s : State) (e : EngineEvent) : (s.engineStep e).drawCount = s.drawCount := by cases e <;> simp [State.engineStep]
@[simp] theorem engineStep_busOut (s : State) (e : EngineEvent) : (s.engineStep e).busOut = s.busOut := by cases e <;> simp [State.engineStep]
@[simp] theorem engineStep_refusals (s : State) (e : EngineEvent) : (s.engineStep e).refusals = s.refusals := by cases e <;> simp [State.engineStep]

/-! ### takeEvents -/

@[simp] theorem takeEvents_cfg (s : State) : s.takeEvents.2.cfg = s.cfg := by unfold State.takeEvents; split <;> rfl
@[simp] theorem takeEvents_sck (s : State) : s.takeEvents.2.sck = s.sck := by unfold State.takeEvents; split <;> rfl
@[simp] theorem takeEvents_mosi (s : State) : s.takeEvents.2.mosi = s.mosi := by unfold State.takeEvents; split <;> rfl
@[simp] theorem takeEvents_nss (s : State) : s.takeEvents.2.nss = s.nss := by unfold State.takeEvents; split <;> rfl
@[simp] theorem takeEvents_rstAsserted (s : State) : s.takeEvents.2.rstAsserted = s.rstAsserted := by unfold State.takeEvents; split <;> rfl
@[simp] theorem takeEvents_pwrEn (s : State) : s.takeEvents.2.pwrEn = s.pwrEn := by unfold State.takeEvents; split <;> rfl
@[simp] theorem takeEvents_commandReg (s : State) : s.takeEvents.2.commandReg = s.commandReg := by unfold State.takeEvents; split <;> rfl
@[simp] theorem takeEvents_comIrq (s : State) : s.takeEvents.2.comIrq = s.comIrq := by unfold State.takeEvents; split <;> rfl
@[simp] theorem takeEvents_divIrq (s : State) : s.takeEvents.2.divIrq = s.divIrq := by unfold State.takeEvents; split <;> rfl
@[simp] theorem takeEvents_errorReg (s : State) : s.takeEvents.2.errorReg = s.errorReg := by unfold State.takeEvents; split <;> rfl
@[simp] theorem takeEvents_fifo (s : State) : s.takeEvents.2.fifo = s.fifo := by unfold State.takeEvents; split <;> rfl
@[simp] theorem takeEvents_bitFraming (s : State) : s.takeEvents.2.bitFraming = s.bitFraming := by unfold State.takeEvents; split <;> rfl
@[simp] theorem takeEvents_crcResult (s : State) : s.takeEvents.2.crcResult = s.crcResult := by unfold State.takeEvents; split <;> rfl
@[simp] theorem takeEvents_crcState (s : State) : s.takeEvents.2.crcState = s.crcState := by unfold State.takeEvents; split <;> rfl
@[simp] theorem takeEvents_trxState (s : State) : s.takeEvents.2.trxState = s.trxState := by unfold State.takeEvents; split <;> rfl
@[simp] theorem takeEvents_txLastBitsLatched (s : State) : s.takeEvents.2.txLastBitsLatched = s.txLastBitsLatched := by unfold State.takeEvents; split <;> rfl
@[simp] theorem takeEvents_rxLastBits (s : State) : s.takeEvents.2.rxLastBits = s.rxLastBits := by unfold State.takeEvents; split <;> rfl
@[simp] theorem takeEvents_txEvents (s : State) : s.takeEvents.2.txEvents = s.txEvents := by unfold State.takeEvents; split <;> rfl
@[simp] theorem takeEvents_mem (s : State) : s.takeEvents.2.mem = s.mem := by unfold State.takeEvents; split <;> rfl
@[simp] theorem takeEvents_scratch (s : State) : s.takeEvents.2.scratch = s.scratch := by unfold State.takeEvents; split <;> rfl
@[simp] theorem takeEvents_seq (s : State) : s.takeEvents.2.seq = s.seq := by unfold State.takeEvents; split <;> rfl
@[simp] theorem takeEvents_result (s : State) : s.takeEvents.2.result = s.result := by unfold State.takeEvents; split <;> rfl
@[simp] theorem takeEvents_issues (s : State) : s.takeEvents.2.issues = s.issues := by unfold State.takeEvents; split <;> rfl
@[simp] theorem takeEvents_overlaps (s : State) : s.takeEvents.2.overlaps = s.overlaps := by unfold State.takeEvents; split <;> rfl
@[simp] theorem takeEvents_draws (s : State) : s.takeEvents.2.draws = s.draws := by unfold State.takeEvents; split <;> rfl
@[simp] theorem takeEvents_busOut (s : State) : s.takeEvents.2.busOut = s.busOut := by unfold State.takeEvents; split <;> rfl
@[simp] theorem takeEvents_refusals (s : State) : s.takeEvents.2.refusals = s.refusals := by unfold State.takeEvents; split <;> rfl

/-! ### engine steps in a row, and the engine steps between two moves -/

@[simp] theorem foldEngines_cfg (es : List EngineEvent) (s : State) :
    (es.foldl State.engineStep s).cfg = s.cfg := by
  induction es generalizing s with
  | nil => rfl
  | cons e es ih => simp [ih]
@[simp] theorem foldEngines_sck (es : List EngineEvent) (s : State) :
    (es.foldl State.engineStep s).sck = s.sck := by
  induction es generalizing s with
  | nil => rfl
  | cons e es ih => simp [ih]
@[simp] theorem foldEngines_mosi (es : List EngineEvent) (s : State) :
    (es.foldl State.engineStep s).mosi = s.mosi := by
  induction es generalizing s with
  | nil => rfl
  | cons e es ih => simp [ih]
@[simp] theorem foldEngines_nss (es : List EngineEvent) (s : State) :
    (es.foldl State.engineStep s).nss = s.nss := by
  induction es generalizing s with
  | nil => rfl
  | cons e es ih => simp [ih]
@[simp] theorem foldEngines_rstAsserted (es : List EngineEvent) (s : State) :
    (es.foldl State.engineStep s).rstAsserted = s.rstAsserted := by
  induction es generalizing s with
  | nil => rfl
  | cons e es ih => simp [ih]
@[simp] theorem foldEngines_pwrEn (es : List EngineEvent) (s : State) :
    (es.foldl State.engineStep s).pwrEn = s.pwrEn := by
  induction es generalizing s with
  | nil => rfl
  | cons e es ih => simp [ih]
@[simp] theorem foldEngines_commandReg (es : List EngineEvent) (s : State) :
    (es.foldl State.engineStep s).commandReg = s.commandReg := by
  induction es generalizing s with
  | nil => rfl
  | cons e es ih => simp [ih]
@[simp] theorem foldEngines_bitFraming (es : List EngineEvent) (s : State) :
    (es.foldl State.engineStep s).bitFraming = s.bitFraming := by
  induction es generalizing s with
  | nil => rfl
  | cons e es ih => simp [ih]
@[simp] theorem foldEngines_mem (es : List EngineEvent) (s : State) :
    (es.foldl State.engineStep s).mem = s.mem := by
  induction es generalizing s with
  | nil => rfl
  | cons e es ih => simp [ih]
@[simp] theorem foldEngines_scratch (es : List EngineEvent) (s : State) :
    (es.foldl State.engineStep s).scratch = s.scratch := by
  induction es generalizing s with
  | nil => rfl
  | cons e es ih => simp [ih]
@[simp] theorem foldEngines_seq (es : List EngineEvent) (s : State) :
    (es.foldl State.engineStep s).seq = s.seq := by
  induction es generalizing s with
  | nil => rfl
  | cons e es ih => simp [ih]
@[simp] theorem foldEngines_result (es : List EngineEvent) (s : State) :
    (es.foldl State.engineStep s).result = s.result := by
  induction es generalizing s with
  | nil => rfl
  | cons e es ih => simp [ih]
@[simp] theorem foldEngines_issues (es : List EngineEvent) (s : State) :
    (es.foldl State.engineStep s).issues = s.issues := by
  induction es generalizing s with
  | nil => rfl
  | cons e es ih => simp [ih]
@[simp] theorem foldEngines_overlaps (es : List EngineEvent) (s : State) :
    (es.foldl State.engineStep s).overlaps = s.overlaps := by
  induction es generalizing s with
  | nil => rfl
  | cons e es ih => simp [ih]
@[simp] theorem foldEngines_events (es : List EngineEvent) (s : State) :
    (es.foldl State.engineStep s).events = s.events := by
  induction es generalizing s with
  | nil => rfl
  | cons e es ih => simp [ih]
@[simp] theorem foldEngines_draws (es : List EngineEvent) (s : State) :
    (es.foldl State.engineStep s).draws = s.draws := by
  induction es generalizing s with
  | nil => rfl
  | cons e es ih => simp [ih]
@[simp] theorem foldEngines_drawCount (es : List EngineEvent) (s : State) :
    (es.foldl State.engineStep s).drawCount = s.drawCount := by
  induction es generalizing s with
  | nil => rfl
  | cons e es ih => simp [ih]
@[simp] theorem foldEngines_busOut (es : List EngineEvent) (s : State) :
    (es.foldl State.engineStep s).busOut = s.busOut := by
  induction es generalizing s with
  | nil => rfl
  | cons e es ih => simp [ih]
@[simp] theorem foldEngines_refusals (es : List EngineEvent) (s : State) :
    (es.foldl State.engineStep s).refusals = s.refusals := by
  induction es generalizing s with
  | nil => rfl
  | cons e es ih => simp [ih]
@[simp] theorem engines_cfg (s : State) : s.engines.cfg = s.cfg := by simp [State.engines]
@[simp] theorem engines_sck (s : State) : s.engines.sck = s.sck := by simp [State.engines]
@[simp] theorem engines_mosi (s : State) : s.engines.mosi = s.mosi := by simp [State.engines]
@[simp] theorem engines_nss (s : State) : s.engines.nss = s.nss := by simp [State.engines]
@[simp] theorem engines_rstAsserted (s : State) : s.engines.rstAsserted = s.rstAsserted := by simp [State.engines]
@[simp] theorem engines_pwrEn (s : State) : s.engines.pwrEn = s.pwrEn := by simp [State.engines]
@[simp] theorem engines_commandReg (s : State) : s.engines.commandReg = s.commandReg := by simp [State.engines]
@[simp] theorem engines_bitFraming (s : State) : s.engines.bitFraming = s.bitFraming := by simp [State.engines]
@[simp] theorem engines_mem (s : State) : s.engines.mem = s.mem := by simp [State.engines]
@[simp] theorem engines_scratch (s : State) : s.engines.scratch = s.scratch := by simp [State.engines]
@[simp] theorem engines_seq (s : State) : s.engines.seq = s.seq := by simp [State.engines]
@[simp] theorem engines_result (s : State) : s.engines.result = s.result := by simp [State.engines]
@[simp] theorem engines_issues (s : State) : s.engines.issues = s.issues := by simp [State.engines]
@[simp] theorem engines_overlaps (s : State) : s.engines.overlaps = s.overlaps := by simp [State.engines]
@[simp] theorem engines_draws (s : State) : s.engines.draws = s.draws := by simp [State.engines]
@[simp] theorem engines_busOut (s : State) : s.engines.busOut = s.busOut := by simp [State.engines]
@[simp] theorem engines_refusals (s : State) : s.engines.refusals = s.refusals := by simp [State.engines]

end Sys2Proof.Machine
end

