-- ==== Sys2Proof/Laws/Chip.lean ====
section
/-! SUPPORT. What the chip's side of a transaction and the engine steps do, and that they keep the state steady. -/

namespace Sys2Proof.Machine

open Sys2Proof

/-! ### Register values -/

@[simp] theorem commandOf_cmdByte (c : BitVec 4) : commandOf (cmdByte c) = c := by
  revert c; decide

theorem cmdByte_high (c : BitVec 4) : (cmdByte c).extractLsb' 4 4 = 0#4 := by
  revert c; decide

/-- The three command bytes may be written (40_bus.md R143). -/
theorem fieldRefusal_cmd {c : Config} {code : BitVec 4} (h : code ∈ [c.cmdIdle, c.cmdCalcCrc, c.cmdTransceive]) :
    fieldRefusal c .command (cmdByte code) = none := by
  simp only [fieldRefusal, cmdByte_high, commandOf_cmdByte, ne_eq, not_true_eq_false, if_false, h, if_true]

theorem fieldRefusal_command_none {c : Config} {v : Byte} (h : fieldRefusal c .command v = none) :
    v.extractLsb' 4 4 = 0#4 ∧ commandOf v ∈ [c.cmdIdle, c.cmdCalcCrc, c.cmdTransceive] := by
  simp only [fieldRefusal] at h
  split_ifs at h with h1 h2
  exact ⟨not_not.1 h1, h2⟩

theorem fieldRefusal_framing {c : Config} {v : Byte} :
    fieldRefusal c .bitFraming v = none ↔ v.extractLsb' 3 4 = 0#4 := by
  simp [fieldRefusal]

/-- A write of the byte that carries the fields `f` is refused where a write of `f` is. -/
theorem writeRefusal_byte {c : Config} (h : c.Wf) (r : Reg) (f : Byte) :
    writeRefusal c r (c.regMap.byte r f) = fieldRefusal c r f := by
  unfold writeRefusal; rw [h.fields_byte]

/-- A legal `BitFramingReg` holds its reserved bit 0 (10_state.md R48). -/
theorem framing_reserved {v : Byte} (h : v.extractLsb' 3 4 = 0#4) : v &&& ~~~reservedBits .bitFraming = v := by
  revert v; decide

/-- A legal `CommandReg` holds its reserved bits 0 (R38). -/
theorem command_reserved {v : Byte} (h : v.extractLsb' 4 4 = 0#4) : v &&& ~~~reservedBits .command = v := by
  revert v; decide

theorem framing_set (v : Byte) : (v ||| startSendMask).extractLsb' 3 4 = v.extractLsb' 3 4 := by
  revert v; decide

theorem framing_clear (v : Byte) : (v &&& ~~~startSendMask).extractLsb' 3 4 = v.extractLsb' 3 4 := by
  revert v; decide

/-! ### `StartCommand` (41_chip_commands.md R160) -/

@[simp] theorem endCommand_crcState (s : State) : s.endCommand.crcState = .off := rfl

@[simp] theorem endCommand_trxState (s : State) : s.endCommand.trxState = .off := rfl

theorem startCommand_crcState (s : State) (code : BitVec 4) :
    (s.startCommand code).crcState = if code = s.cfg.cmdCalcCrc then .busy s.fifo else .off := by
  unfold State.startCommand; split_ifs <;> simp

theorem startCommand_trxState (s : State) (code : BitVec 4) :
    (s.startCommand code).trxState =
      if code ≠ s.cfg.cmdCalcCrc ∧ code = s.cfg.cmdTransceive then .armed else .off := by
  unfold State.startCommand; split_ifs <;> simp_all

theorem startCommand_errorReg (s : State) (code : BitVec 4) :
    (s.startCommand code).errorReg =
      if code ≠ s.cfg.cmdCalcCrc ∧ code = s.cfg.cmdTransceive then 0x00#8 else s.errorReg := by
  unfold State.startCommand; split_ifs <;> simp_all

/-- A CRC result that no busy engine leaves behind is kept (R161). -/
theorem startCommand_crcResult {s : State} (code : BitVec 4) (h : ∀ d, s.crcState ≠ .busy d) :
    (s.startCommand code).crcResult = s.crcResult := by
  have : s.spoilCrc = s := by
    unfold State.spoilCrc; split
    · rename_i d e; exact absurd e (h d)
    all_goals rfl
  unfold State.startCommand; split_ifs <;> simp [State.endCommand, this]

/-! ### What keeps the state steady -/

theorem Steady.commandMem {s : State} (h : s.Steady) :
    commandOf s.commandReg ∈ [s.cfg.cmdIdle, s.cfg.cmdCalcCrc, s.cfg.cmdTransceive] :=
  (fieldRefusal_command_none h.command).2

theorem steady_transact {s : State} (h : s.Steady) (b0 b1 : Byte) : (s.transact b0 b1).Steady := by
  obtain ⟨h1, h2, h3, h4, h5, h6, h7, h8, h9, h10, h11⟩ := h
  exact ⟨by simpa, by simpa, by simpa using h3, by simpa, by simpa, by simp [h6], by simpa, by simpa, by simpa, by simpa, by simpa⟩

theorem steady_shiftOut {s : State} (h : s.Steady) (b : Byte) : (s.shiftOut b).Steady := by
  obtain ⟨h1, h2, h3, h4, h5, h6, h7, h8, h9, h10, h11⟩ := h
  exact ⟨by simpa, by simpa, by simpa using h3, by simpa, by simpa, by simp [h6], by simpa, by simpa, by simpa, by simpa, by simpa⟩

theorem steady_draw {s : State} (h : s.Steady) : s.draw.2.Steady := by
  obtain ⟨h1, h2, h3, h4, h5, h6, h7, h8, h9, h10, h11⟩ := h
  exact ⟨by simpa, by simpa, by simpa using h3, by simpa, by simpa, by simp [h6], by simpa, by simpa, by simpa, by simpa, by simpa⟩

theorem steady_finish {s : State} (h : s.Steady) (r : Result) : (s.finish r).Steady := by
  obtain ⟨h1, h2, h3, h4, h5, h6, h7, h8, h9, h10, h11⟩ := h
  exact ⟨h1, h2, h3, h4, h5, h6, h7, h8, h9, h10, h11⟩

theorem steady_goOn {s : State} (h : s.Steady) (r : Running) : (s.goOn r).Steady := by
  obtain ⟨h1, h2, h3, h4, h5, h6, h7, h8, h9, h10, h11⟩ := h
  exact ⟨h1, h2, h3, h4, h5, h6, h7, h8, h9, h10, h11⟩

theorem fifoPush_length {s : State} (v : Byte) (h : s.fifo.length ≤ s.cfg.fifoDepth) :
    (s.fifoPush v).fifo.length ≤ s.cfg.fifoDepth := by
  unfold State.fifoPush; split
  · simp; omega
  · exact h

theorem fifoPop_length (s : State) : s.fifoPop.2.fifo.length ≤ s.fifo.length := by
  unfold State.fifoPop; split <;> simp_all

theorem steady_fifo {s t : State} (h : s.Steady) (hf : t.fifo.length ≤ s.cfg.fifoDepth)
    (e : t = { s with fifo := t.fifo, errorReg := t.errorReg, draws := t.draws, drawCount := t.drawCount }) :
    t.Steady := by
  obtain ⟨h1, h2, h3, h4, h5, h6, h7, h8, h9, h10, h11⟩ := h
  rw [e]
  exact ⟨h1, h2, h3, hf, h5, h6, h7, h8, h9, h10, h11⟩

theorem steady_startCommand {s : State} (h : s.Steady) {v : Byte} (hv : fieldRefusal s.cfg .command v = none) :
    (({ s with commandReg := v }).startCommand (commandOf v)).Steady := by
  obtain ⟨h1, h2, h3, h4, h5, h6, h7, h8, h9, h10, h11⟩ := h
  have hne := h1.codes_ne
  refine ⟨by simpa, by simpa, by simpa using h3, by simpa, by simpa, by simp [h6], by simpa, by simpa, ?_, ?_, ?_⟩
  · simp only [startCommand_crcState, startCommand_commandReg, startCommand_cfg]; split_ifs with e <;> simp [e]
  · simp only [startCommand_trxState, startCommand_commandReg, startCommand_cfg]
    split_ifs with e
    · simp [e.2]
    · have : commandOf v ≠ s.cfg.cmdTransceive := by
        intro e2
        exact e ⟨fun e3 => hne.2.2 (e3.symm.trans e2), e2⟩
      simp [this]
  · intro d
    simp only [startCommand_crcState, startCommand_cfg]
    split_ifs with e
    · intro e2; cases e2; exact h4
    · intro e2; cases e2

/-- A legal register write keeps the state steady. -/
theorem steady_chipWrite {s : State} (h : s.Steady) {r : Reg} {v : Byte} (hv : fieldRefusal s.cfg r v = none) :
    (s.chipWrite r v).Steady := by
  cases r
  case command => exact steady_startCommand h hv
  case fifoData =>
    refine steady_fifo h (fifoPush_length v h.fifo) ?_
    simp only [State.chipWrite, State.fifoPush]; split <;> rfl
  case fifoLevel =>
    refine steady_fifo h ?_ ?_
    · simp only [State.chipWrite]; split
      · exact Nat.zero_le _
      · exact h.fifo
    · simp only [State.chipWrite]; split <;> rfl
  all_goals
    obtain ⟨h1, h2, h3, h4, h5, h6, h7, h8, h9, h10, h11⟩ := h
    first
      | exact ⟨h1, h2, h3, h4, h5, h6, h7, h8, h9, h10, h11⟩
      | exact ⟨h1, h2, h3, h4, h5, h6, h7, hv, h9, h10, h11⟩

theorem steady_regWrite {s : State} (h : s.Steady) {r : Reg} {v : Byte} (hv : writeRefusal s.cfg r v = none) :
    (s.regWrite r v).Steady :=
  steady_chipWrite (steady_transact h _ _) (by simpa [writeRefusal] using hv)

theorem steady_setReg {s : State} (h : s.Steady) {r : Reg} {f : Byte} (hf : fieldRefusal s.cfg r f = none) :
    (s.setReg r f).Steady := steady_regWrite h (by rw [writeRefusal_byte h.cfg]; exact hf)

theorem steady_crcRead {s : State} (h : s.Steady) (p : Word16 → Byte) : (s.crcRead p).2.Steady := by
  unfold State.crcRead; split
  · exact steady_draw h
  · exact h
  · exact h

theorem steady_chipRead {s : State} (h : s.Steady) (r : Reg) : (s.chipRead r).2.Steady := by
  cases r
  case fifoData =>
    refine steady_fifo h (Nat.le_trans (fifoPop_length s) h.fifo) ?_
    simp only [State.chipRead, State.fifoPop]
    split
    · rfl
    · simp only [State.draw]; split <;> rfl
  case crcResultM => exact steady_crcRead h _
  case crcResultL => exact steady_crcRead h _
  all_goals first | exact h | exact steady_draw h

theorem steady_regRead {s : State} (h : s.Steady) (r : Reg) : (s.regRead r).2.Steady :=
  steady_chipRead (steady_transact h _ _) r

theorem steady_clearIrq {s : State} (h : s.Steady) {r : Reg} (hr : r = .comIrq ∨ r = .divIrq) (m : Byte) :
    (s.clearIrq r m).Steady :=
  steady_setReg h (by rcases hr with rfl | rfl <;> rfl)

theorem reaches_below {s : State} {a : Area} {i : Nat} (h : s.reaches a i = true) (ha : a.space = .host) :
    a.addr i < s.cfg.hostMemSize := by
  simp only [State.reaches, ha, Bool.and_eq_true, decide_eq_true_eq] at h
  exact h.2

theorem steady_areaWrite {s t : State} (h : s.Steady) {a : Area} {i : Nat} {v : Byte}
    (hw : s.areaWrite a i v = some t) : t.Steady := by
  obtain ⟨hr, hc⟩ := areaWrite_cases hw
  obtain ⟨h1, h2, h3, h4, h5, h6, h7, h8, h9, h10, h11⟩ := h
  rcases hc with ⟨ha, rfl⟩ | ⟨ha, rfl⟩
  · exact ⟨h1, Memory.write_wf _ _ h2, Memory.write_below _ h3 (reaches_below hr ha), h4, h5, h6, h7, h8, h9, h10, h11⟩
  · exact ⟨h1, h2, h3, h4, by simpa using h5, h6, h7, h8, h9, h10, h11⟩

/-! ### Engine steps -/

theorem steady_crcComplete {s : State} (h : s.Steady) (l : List Byte) : (s.crcComplete l).Steady := by
  unfold State.crcComplete
  split
  · rename_i data e
    obtain ⟨h1, h2, h3, h4, h5, h6, h7, h8, h9, h10, h11⟩ := h
    refine ⟨h1, h2, h3, ?_, h5, h6, h7, h8, ?_, h10, by simp⟩
    · have := h11 data e
      show (l.take data.length).length ≤ s.cfg.fifoDepth
      rw [List.length_take]; omega
    · simpa [e] using h9
  · exact h
  · exact h

theorem transmitEnabled_iff {s : State} :
    s.transmitEnabled = true ↔ commandOf s.commandReg = s.cfg.cmdTransceive ∧ s.trxState = .armed ∧
      s.bitFraming.getLsbD 7 = true ∧ s.fifo ≠ [] := by
  simp [State.transmitEnabled, and_assoc]

theorem steady_transmit {s : State} (h : s.Steady) : s.transmit.Steady := by
  unfold State.transmit
  split
  · rename_i he
    have he := (transmitEnabled_iff.1 he).1
    obtain ⟨h1, h2, h3, h4, h5, h6, h7, h8, h9, h10, h11⟩ := h
    exact ⟨h1, h2, h3, Nat.zero_le _, h5, h6, h7, h8, h9, by simp [he], h11⟩
  · exact h

theorem steady_receive {s : State} (h : s.Steady) (b : List Byte) (lb : BitVec 3) (e : Byte) :
    (s.receive b lb e).Steady := by
  unfold State.receive
  split
  · rename_i he
    obtain ⟨h1, h2, h3, h4, h5, h6, h7, h8, h9, h10, h11⟩ := h
    refine ⟨h1, h2, h3, ?_, h5, h6, h7, h8, h9, ?_, h11⟩
    · show (s.fifo ++ b.take (s.cfg.fifoDepth - s.fifo.length)).length ≤ s.cfg.fifoDepth
      rw [List.length_append, List.length_take]; omega
    · simpa [he] using h10
  all_goals exact h

theorem steady_timerStep {s : State} (h : s.Steady) : s.timerStep.Steady := by
  obtain ⟨h1, h2, h3, h4, h5, h6, h7, h8, h9, h10, h11⟩ := h
  exact ⟨by simpa, by simpa, by simpa using h3, by simpa, by simpa, by simp [h6], by simpa, by simpa, by simpa, by simpa, by simpa⟩

theorem steady_engineStep {s : State} (h : s.Steady) (e : EngineEvent) : (s.engineStep e).Steady := by
  cases e with
  | crcComplete l => exact steady_crcComplete h l
  | transmit => exact steady_transmit h
  | receive b lb e => exact steady_receive h b lb e
  | timer => exact steady_timerStep h

theorem takeEvents_eq (s : State) :
    s.takeEvents.2 = { s with events := s.takeEvents.2.events, drawCount := s.takeEvents.2.drawCount } := by
  unfold State.takeEvents; split <;> rfl

theorem steady_takeEvents {s : State} (h : s.Steady) : s.takeEvents.2.Steady := by
  obtain ⟨h1, h2, h3, h4, h5, h6, h7, h8, h9, h10, h11⟩ := h
  rw [takeEvents_eq]
  exact ⟨h1, h2, h3, h4, h5, h6, h7, h8, h9, h10, h11⟩

theorem steady_engines {s : State} (h : s.Steady) : s.engines.Steady := by
  have : ∀ (es : List EngineEvent) (t : State), t.Steady → (es.foldl State.engineStep t).Steady := by
    intro es
    induction es with
    | nil => exact fun _ ht => ht
    | cons e es ih => exact fun t ht => ih _ (steady_engineStep ht e)
  exact this _ _ (steady_takeEvents h)

/-- A property that every single engine step keeps holds after the engine steps between two moves, if it does not speak
of the tape. -/
theorem engines_keep {P : State → Prop} (ht : ∀ s : State, P s → P s.takeEvents.2)
    (hstep : ∀ (s : State) e, P s → P (s.engineStep e)) {s : State} (h : P s) : P s.engines := by
  have : ∀ (es : List EngineEvent) (t : State), P t → P (es.foldl State.engineStep t) := by
    intro es
    induction es with
    | nil => exact fun _ ht => ht
    | cons e es ih => exact fun t ht => ih _ (hstep t e ht)
  exact this _ _ (ht _ h)

end Sys2Proof.Machine
end

