-- ==== Sys2Proof/Laws/Bus.lean ====
section
/-! SUPPORT. What one register transaction does to each field, and the value a read gives. -/

namespace Sys2Proof.Machine

open Sys2Proof

/-! ### Registers by address (10_state.md R36, R37) -/

theorem find_of_nodup (g : Reg → RegAddr) (r : Reg) :
    ∀ l : List Reg, (l.map g).Nodup → r ∈ l → (l.find? fun x => g x == g r) = some r
  | [], _, h => absurd h (List.not_mem_nil)
  | x :: l, hn, h => by
    rw [List.map_cons, List.nodup_cons] at hn
    rw [List.find?_cons]
    rcases List.mem_cons.1 h with rfl | h'
    · simp
    · have e : g x ≠ g r := fun e => hn.1 (List.mem_map.2 ⟨r, h', e.symm⟩)
      simp only [beq_eq_false_iff_ne.2 e]
      exact find_of_nodup g r l hn.2 h'

/-- The address of a register names it, since the ten addresses differ. -/
theorem regOf_addr {c : Config} (h : c.Wf) (r : Reg) : regOf c (c.regMap.addr r) = some r :=
  find_of_nodup _ r _ h.1 (by cases r <;> simp [Reg.all])

/-- A transaction leaves the lines as `State.bus` says (40_bus.md R149). -/
theorem transact_bus (s : State) (b0 b1 : Byte) : s.transact b0 b1 = s.bus b0 b1 := transact_eq s b0 b1

/-! ### Writes (40_bus.md R142, R143) -/

theorem draw_seq_with (s : State) (q : Option Running) :
    ({ s with seq := q } : State).draw = (s.draw.1, { s.draw.2 with seq := q }) := by
  unfold State.draw
  dsimp only
  split <;> rfl

theorem spoilCrc_seq_with (s : State) (q : Option Running) :
    ({ s with seq := q } : State).spoilCrc = { s.spoilCrc with seq := q } := by
  unfold State.spoilCrc
  dsimp only
  split
  · simp only [State.draw16, draw_seq_with]
  · rfl
  · rfl

theorem startCommand_seq_with (s : State) (q : Option Running) (code : BitVec 4) :
    ({ s with seq := q } : State).startCommand code = { s.startCommand code with seq := q } := by
  unfold State.startCommand State.endCommand
  simp only [spoilCrc_seq_with]
  split_ifs <;> rfl

/-- A register write looks neither at the sequencer's position nor changes it. -/
theorem regWrite_seq_with (s : State) (q : Option Running) (r : Reg) (v : Byte) :
    ({ s with seq := q } : State).regWrite r v = { s.regWrite r v with seq := q } := by
  unfold State.regWrite
  simp only [transact_eq]
  generalize writeAddrByte (s.cfg.regMap.addr r) = b
  cases r
  case command => simp only [State.chipWrite, ← startCommand_seq_with]
  case fifoLevel => simp only [State.chipWrite]; split <;> rfl
  case fifoData => simp only [State.chipWrite, State.fifoPush]; split <;> rfl
  all_goals rfl

/-! What `ChipWrite` of the fields `f` does, field by field (R143). -/

theorem chipWrite_commandReg (s : State) (r : Reg) (f : Byte) :
    (s.chipWrite r f).commandReg = if r = .command then f else s.commandReg := by
  cases r <;> simp [State.chipWrite]
  split <;> simp

theorem chipWrite_comIrq (s : State) (r : Reg) (f : Byte) :
    (s.chipWrite r f).comIrq =
      if r = .comIrq then irqWrite s.cfg.irqWriteMode comIrqFlags s.comIrq f else s.comIrq := by
  cases r <;> simp [State.chipWrite]
  split <;> simp

theorem chipWrite_divIrq (s : State) (r : Reg) (f : Byte) :
    (s.chipWrite r f).divIrq =
      if r = .divIrq then irqWrite s.cfg.irqWriteMode divIrqFlags s.divIrq f else s.divIrq := by
  cases r <;> simp [State.chipWrite]
  split <;> simp

theorem chipWrite_bitFraming (s : State) (r : Reg) (f : Byte) :
    (s.chipWrite r f).bitFraming = if r = .bitFraming then f else s.bitFraming := by
  cases r <;> simp [State.chipWrite]
  split <;> simp

theorem chipWrite_fifo (s : State) (r : Reg) (f : Byte) :
    (s.chipWrite r f).fifo =
      if r = .fifoData ∧ s.fifo.length < s.cfg.fifoDepth then s.fifo ++ [f]
      else if r = .fifoLevel ∧ isFlush f = true then [] else s.fifo := by
  cases r <;> simp [State.chipWrite]
  · unfold State.fifoPush
    split <;> simp
  · split <;> simp [State.fifoFlush]

theorem chipWrite_errorReg (s : State) (r : Reg) (f : Byte) :
    (s.chipWrite r f).errorReg =
      if r = .command ∧ commandOf f ≠ s.cfg.cmdCalcCrc ∧ commandOf f = s.cfg.cmdTransceive then 0x00#8
      else if r = .fifoData ∧ ¬ s.fifo.length < s.cfg.fifoDepth then s.errorReg ||| bufferOvfl
      else if r = .fifoLevel ∧ isFlush f = true then s.errorReg &&& ~~~bufferOvfl
      else s.errorReg := by
  cases r <;> simp [State.chipWrite]
  · simp [startCommand_errorReg]
  · unfold State.fifoPush
    split <;> simp <;> omega
  · split <;> simp [State.fifoFlush]

theorem chipWrite_crcState (s : State) (r : Reg) (f : Byte) :
    (s.chipWrite r f).crcState =
      if r = .command then (if commandOf f = s.cfg.cmdCalcCrc then .busy s.fifo else .off) else s.crcState := by
  cases r <;> simp [State.chipWrite, startCommand_crcState]
  split <;> simp

theorem chipWrite_trxState (s : State) (r : Reg) (f : Byte) :
    (s.chipWrite r f).trxState =
      if r = .command then
        (if commandOf f ≠ s.cfg.cmdCalcCrc ∧ commandOf f = s.cfg.cmdTransceive then .armed else .off)
      else s.trxState := by
  cases r <;> simp [State.chipWrite, startCommand_trxState]
  split <;> simp

/-- A CRC result that no busy engine leaves behind is kept by every write (41_chip_commands.md R160). -/
theorem chipWrite_crcResult {s : State} (r : Reg) (f : Byte) (h : r = .command → ∀ d, s.crcState ≠ .busy d) :
    (s.chipWrite r f).crcResult = s.crcResult := by
  cases r
  case command => exact startCommand_crcResult _ (h rfl)
  case fifoData => simp only [State.chipWrite, fifoPush_crcResult]
  case fifoLevel => simp only [State.chipWrite]; split <;> simp only [fifoFlush_crcResult]
  all_goals rfl

/-- A write of the fields `f` is the transaction with their byte and the chip's effect on `f`. -/
theorem setReg_eq {s : State} (h : s.cfg.Wf) (r : Reg) (f : Byte) :
    s.setReg r f = (s.transact (writeAddrByte (s.cfg.regMap.addr r)) (s.cfg.regMap.byte r f)).chipWrite r f := by
  unfold State.setReg State.regWrite
  rw [h.fields_byte]

/-! The same of a transaction with the byte `v`, and of one with the byte of the fields `f`. -/

theorem regWrite_commandReg (s : State) (r : Reg) (v : Byte) :
    (s.regWrite r v).commandReg = if r = .command then (s.cfg.regMap.fields r v) else s.commandReg := by
  simp only [State.regWrite, chipWrite_commandReg, transact_commandReg]

theorem regWrite_comIrq (s : State) (r : Reg) (v : Byte) :
    (s.regWrite r v).comIrq =
      if r = .comIrq then irqWrite s.cfg.irqWriteMode comIrqFlags s.comIrq (s.cfg.regMap.fields r v) else s.comIrq := by
  simp only [State.regWrite, chipWrite_comIrq, transact_cfg, transact_comIrq]

theorem regWrite_divIrq (s : State) (r : Reg) (v : Byte) :
    (s.regWrite r v).divIrq =
      if r = .divIrq then irqWrite s.cfg.irqWriteMode divIrqFlags s.divIrq (s.cfg.regMap.fields r v) else s.divIrq := by
  simp only [State.regWrite, chipWrite_divIrq, transact_cfg, transact_divIrq]

theorem regWrite_bitFraming (s : State) (r : Reg) (v : Byte) :
    (s.regWrite r v).bitFraming = if r = .bitFraming then (s.cfg.regMap.fields r v) else s.bitFraming := by
  simp only [State.regWrite, chipWrite_bitFraming, transact_bitFraming]

theorem regWrite_fifo (s : State) (r : Reg) (v : Byte) :
    (s.regWrite r v).fifo =
      if r = .fifoData ∧ s.fifo.length < s.cfg.fifoDepth then s.fifo ++ [(s.cfg.regMap.fields r v)]
      else if r = .fifoLevel ∧ isFlush (s.cfg.regMap.fields r v) = true then [] else s.fifo := by
  simp only [State.regWrite, chipWrite_fifo, transact_cfg, transact_fifo]

theorem regWrite_errorReg (s : State) (r : Reg) (v : Byte) :
    (s.regWrite r v).errorReg =
      if r = .command ∧ commandOf (s.cfg.regMap.fields r v) ≠ s.cfg.cmdCalcCrc ∧ commandOf (s.cfg.regMap.fields r v) = s.cfg.cmdTransceive then 0x00#8
      else if r = .fifoData ∧ ¬ s.fifo.length < s.cfg.fifoDepth then s.errorReg ||| bufferOvfl
      else if r = .fifoLevel ∧ isFlush (s.cfg.regMap.fields r v) = true then s.errorReg &&& ~~~bufferOvfl
      else s.errorReg := by
  simp only [State.regWrite, chipWrite_errorReg, transact_cfg, transact_fifo, transact_errorReg]

theorem regWrite_crcState (s : State) (r : Reg) (v : Byte) :
    (s.regWrite r v).crcState =
      if r = .command then (if commandOf (s.cfg.regMap.fields r v) = s.cfg.cmdCalcCrc then .busy s.fifo else .off) else s.crcState := by
  simp only [State.regWrite, chipWrite_crcState, transact_cfg, transact_fifo, transact_crcState]

theorem regWrite_trxState (s : State) (r : Reg) (v : Byte) :
    (s.regWrite r v).trxState =
      if r = .command then
        (if commandOf (s.cfg.regMap.fields r v) ≠ s.cfg.cmdCalcCrc ∧ commandOf (s.cfg.regMap.fields r v) = s.cfg.cmdTransceive then .armed else .off)
      else s.trxState := by
  simp only [State.regWrite, chipWrite_trxState, transact_cfg, transact_trxState]

theorem setReg_commandReg {s : State} (h : s.cfg.Wf) (r : Reg) (f : Byte) :
    (s.setReg r f).commandReg = if r = .command then f else s.commandReg := by
  simp only [setReg_eq h, chipWrite_commandReg, transact_commandReg]

theorem setReg_comIrq {s : State} (h : s.cfg.Wf) (r : Reg) (f : Byte) :
    (s.setReg r f).comIrq =
      if r = .comIrq then irqWrite s.cfg.irqWriteMode comIrqFlags s.comIrq f else s.comIrq := by
  simp only [setReg_eq h, chipWrite_comIrq, transact_cfg, transact_comIrq]

theorem setReg_divIrq {s : State} (h : s.cfg.Wf) (r : Reg) (f : Byte) :
    (s.setReg r f).divIrq =
      if r = .divIrq then irqWrite s.cfg.irqWriteMode divIrqFlags s.divIrq f else s.divIrq := by
  simp only [setReg_eq h, chipWrite_divIrq, transact_cfg, transact_divIrq]

theorem setReg_bitFraming {s : State} (h : s.cfg.Wf) (r : Reg) (f : Byte) :
    (s.setReg r f).bitFraming = if r = .bitFraming then f else s.bitFraming := by
  simp only [setReg_eq h, chipWrite_bitFraming, transact_bitFraming]

theorem setReg_fifo {s : State} (h : s.cfg.Wf) (r : Reg) (f : Byte) :
    (s.setReg r f).fifo =
      if r = .fifoData ∧ s.fifo.length < s.cfg.fifoDepth then s.fifo ++ [f]
      else if r = .fifoLevel ∧ isFlush f = true then [] else s.fifo := by
  simp only [setReg_eq h, chipWrite_fifo, transact_cfg, transact_fifo]

theorem setReg_errorReg {s : State} (h : s.cfg.Wf) (r : Reg) (f : Byte) :
    (s.setReg r f).errorReg =
      if r = .command ∧ commandOf f ≠ s.cfg.cmdCalcCrc ∧ commandOf f = s.cfg.cmdTransceive then 0x00#8
      else if r = .fifoData ∧ ¬ s.fifo.length < s.cfg.fifoDepth then s.errorReg ||| bufferOvfl
      else if r = .fifoLevel ∧ isFlush f = true then s.errorReg &&& ~~~bufferOvfl
      else s.errorReg := by
  simp only [setReg_eq h, chipWrite_errorReg, transact_cfg, transact_fifo, transact_errorReg]

theorem setReg_crcState {s : State} (h : s.cfg.Wf) (r : Reg) (f : Byte) :
    (s.setReg r f).crcState =
      if r = .command then (if commandOf f = s.cfg.cmdCalcCrc then .busy s.fifo else .off) else s.crcState := by
  simp only [setReg_eq h, chipWrite_crcState, transact_cfg, transact_fifo, transact_crcState]

theorem setReg_trxState {s : State} (h : s.cfg.Wf) (r : Reg) (f : Byte) :
    (s.setReg r f).trxState =
      if r = .command then
        (if commandOf f ≠ s.cfg.cmdCalcCrc ∧ commandOf f = s.cfg.cmdTransceive then .armed else .off)
      else s.trxState := by
  simp only [setReg_eq h, chipWrite_trxState, transact_cfg, transact_trxState]

theorem regWrite_crcResult {s : State} (r : Reg) (v : Byte) (h : r = .command → ∀ d, s.crcState ≠ .busy d) :
    (s.regWrite r v).crcResult = s.crcResult := by
  unfold State.regWrite
  rw [chipWrite_crcResult _ _ (by simpa using h), transact_crcResult]

@[simp] theorem regWrite_nss (s : State) (r : Reg) (v : Byte) : (s.regWrite r v).nss = true := by
  simp [State.regWrite]

@[simp] theorem regWrite_sck (s : State) (r : Reg) (v : Byte) : (s.regWrite r v).sck = false := by
  simp [State.regWrite]

/-! ### Reads (R144, R145) -/

theorem regRead_fifo (s : State) (r : Reg) :
    (s.regRead r).2.fifo = if r = .fifoData then s.fifo.tail else s.fifo := by
  cases r <;> simp [State.regRead, State.chipRead]
  unfold State.fifoPop
  split
  · rename_i e; simp only [transact_fifo] at e; simp [e]
  · rename_i e; simp only [transact_fifo] at e; simp [e]

theorem regRead_command_val (s : State) :
    ∃ d, (s.regRead .command).1 = s.cfg.regMap.byte .command (withReserved .command s.commandReg d) := by
  exact ⟨_, by simp [State.regRead, State.chipRead]; rfl⟩

theorem regRead_bitFraming_val (s : State) :
    ∃ d, (s.regRead .bitFraming).1 = s.cfg.regMap.byte .bitFraming (withReserved .bitFraming s.bitFraming d) := by
  exact ⟨_, by simp [State.regRead, State.chipRead]; rfl⟩

theorem regRead_fifoLevel_val (s : State) :
    (s.regRead .fifoLevel).1 = s.cfg.regMap.byte .fifoLevel ((BitVec.ofNat 7 s.fifo.length).setWidth 8) := by
  simp [State.regRead, State.chipRead]

theorem regRead_fifoData_val {s : State} {b : Byte} {bs : List Byte} (h : s.fifo = b :: bs) :
    (s.regRead .fifoData).1 = b := by
  simp only [State.regRead, State.chipRead, State.fifoPop]
  split <;> simp_all

theorem regRead_comIrq_val (s : State) :
    ∃ d, (s.regRead .comIrq).1 = s.cfg.regMap.byte .comIrq (comIrqValue s.comIrq d) := by
  exact ⟨_, by simp [State.regRead, State.chipRead]; rfl⟩

theorem regRead_divIrq_val (s : State) :
    ∃ d, (s.regRead .divIrq).1 = s.cfg.regMap.byte .divIrq (divIrqValue s.divIrq d) := by
  exact ⟨_, by simp [State.regRead, State.chipRead]; rfl⟩

theorem regRead_error_val (s : State) :
    ∃ d, (s.regRead .error).1 = s.cfg.regMap.byte .error (withReserved .error s.errorReg d) := by
  exact ⟨_, by simp [State.regRead, State.chipRead]; rfl⟩

theorem regRead_control_val (s : State) :
    ∃ d, (s.regRead .control).1 = s.cfg.regMap.byte .control (controlValue s.rxLastBits d) := by
  exact ⟨_, by simp [State.regRead, State.chipRead]; rfl⟩

theorem regRead_crcLow_val {s : State} (h : ∀ d, s.crcState ≠ .busy d) :
    (s.regRead .crcResultL).1 = crcLow s.crcResult := by
  simp only [State.regRead, State.chipRead, State.crcRead]
  split <;> simp_all

theorem regRead_crcHigh_val {s : State} (h : ∀ d, s.crcState ≠ .busy d) :
    (s.regRead .crcResultM).1 = crcHigh s.crcResult := by
  simp only [State.regRead, State.chipRead, State.crcRead]
  split <;> simp_all

@[simp] theorem regRead_nss (s : State) (r : Reg) : (s.regRead r).2.nss = true := by
  simp [State.regRead]

@[simp] theorem regRead_sck (s : State) (r : Reg) : (s.regRead r).2.sck = false := by
  simp [State.regRead]

/-! ### What the sequencer's tests see -/

/-- The poll of `COMPUTE_CRC` sees `CRCIRq` whatever the draw (42_crc_unit.md R200 step 6). -/
theorem crcSeen_divIrqValue {c : Config} (h : c.Wf) (f : BitVec 7) (d : Byte) :
    crcSeen c (c.regMap.byte .divIrq (divIrqValue f d)) = f.getLsbD 2 := by
  simp only [crcSeen, h.fields_byte, divIrqValue, BitVec.getLsbD_or, BitVec.getLsbD_and, BitVec.getLsbD_setWidth]
  have h1 : (0x04#8).getLsbD 2 = true := by decide
  have h2 : (0x7B#8).getLsbD 2 = false := by decide
  simp only [h1, h2, Bool.and_true, Bool.and_false, Bool.or_false]
  decide +revert

/-- A bit of the byte on the bus, by the bit of the fields that stands there. -/
theorem byte_bits {c : Config} (h : c.Wf) {r : Reg} {f g : Byte} {m : Byte}
    (e : ∀ i, i < 8 → m.getLsbD ((c.regMap.layout r).place i) = true → f.getLsbD i = g.getLsbD i) :
    c.regMap.byte r f &&& m = c.regMap.byte r g &&& m := by
  have hb : ∀ x y : Byte, c.regMap.fields r x = c.regMap.fields r y → x = y := fun x y hxy => by
    have := congrArg (c.regMap.byte r) hxy
    rwa [h.byte_fields, h.byte_fields] at this
  refine hb _ _ (byte_ext fun i hi => ?_)
  rw [RegMap.fields_and, RegMap.fields_and, h.fields_byte, h.fields_byte, BitVec.getLsbD_and, BitVec.getLsbD_and]
  have hm : (c.regMap.fields r m).getLsbD i = m.getLsbD ((c.regMap.layout r).place i) := Layout.fields_getLsbD _ _ hi
  rw [hm]
  cases hmi : m.getLsbD ((c.regMap.layout r).place i)
  · simp
  · rw [e i hi hmi]

/-- The error check does not see the drawn reserved bit (10_state.md R43, R51, 43_command_engine.md R219). -/
theorem errorSeen_read {c : Config} (h : c.Wf) (e d : Byte) :
    errorSeen (c.regMap.byte .error (withReserved .error e d)) = errorSeen (c.regMap.byte .error e) := by
  unfold errorSeen
  rw [byte_bits h (r := .error) (f := withReserved .error e d) (g := e) fun i hi hm => ?_]
  have h5 : i ≠ 5 := by
    rintro rfl
    have := h.2.2.2.2.2.2.2
    rw [show (c.regMap.layout .error).place 5 = c.regMap.errorBits.b5.val from rfl] at hm
    exact absurd (hm.symm.trans this) nofun
  unfold withReserved
  rw [BitVec.getLsbD_or, BitVec.getLsbD_and, BitVec.getLsbD_and]
  have hr : (reservedBits .error).getLsbD i = false := by
    interval_cases i <;> first | rfl | exact absurd rfl h5
  rw [BitVec.getLsbD_not, hr]
  simp [hi]

/-- The last-bit count read is the one the chip holds (30_encoding.md R122). -/
theorem rxLastBitsOf_controlValue {c : Config} (h : c.Wf) (lb : BitVec 3) (d : Byte) :
    rxLastBitsOf c (c.regMap.byte .control (controlValue lb d)) = lb := by
  have h1 : (d &&& 0xF8#8).extractLsb' 0 3 = 0#3 := by revert d; decide
  have h2 : (lb.setWidth 8 : Byte).extractLsb' 0 3 = lb := by revert lb; decide
  unfold rxLastBitsOf controlValue
  rw [h.fields_byte, BitVec.extractLsb'_or, h1, h2, BitVec.or_zero]

/-- The level read is the FIFO's length (10_state.md R46, R52). -/
theorem levelOf_length {c : Config} (h : c.Wf) {n : Nat} (hn : n ≤ 127) :
    levelOf c (c.regMap.byte .fifoLevel ((BitVec.ofNat 7 n).setWidth 8)) = n := by
  unfold levelOf
  rw [h.fields_byte]
  have : ∀ x : Fin 128, (((BitVec.ofNat 7 x.val).setWidth 8 : Byte) &&& 0x7F#8).toNat = x.val := by decide
  exact this ⟨n, by omega⟩

/-- What a read of a register shows outside its reserved bits is what the register holds. -/
theorem withReserved_drop (r : Reg) (x d : Byte) :
    withReserved r x d &&& ~~~reservedBits r = x &&& ~~~reservedBits r := by
  unfold withReserved
  rw [BitVec.and_or_distrib_right, BitVec.and_assoc, BitVec.and_self, BitVec.and_assoc, BitVec.and_not_self]
  simp

/-- The fields that are written back after a read are the register's own (30_encoding.md R124, 40_bus.md R148). -/
theorem fields_dropReserved {c : Config} (h : c.Wf) (r : Reg) (x d : Byte) :
    c.regMap.fields r (dropReserved c r (c.regMap.byte r (withReserved r x d))) = x &&& ~~~reservedBits r := by
  unfold dropReserved
  rw [RegMap.fields_and, RegMap.fields_not, h.fields_byte, h.fields_byte, withReserved_drop]

theorem fields_setIn {c : Config} (r : Reg) (m t : Byte) :
    c.regMap.fields r (setIn c r m t) = c.regMap.fields r (dropReserved c r t) ||| c.regMap.fields r m :=
  RegMap.fields_or _ _ _ _

theorem fields_clearIn {c : Config} (r : Reg) (m t : Byte) :
    c.regMap.fields r (clearIn c r m t) = c.regMap.fields r (dropReserved c r t) &&& ~~~c.regMap.fields r m := by
  unfold clearIn
  rw [RegMap.fields_and, RegMap.fields_not]

theorem fields_startSendBus {c : Config} (h : c.Wf) : c.regMap.fields .bitFraming (startSendBus c) = startSendMask :=
  h.fields_byte _ _

end Sys2Proof.Machine
end

