-- ==== Sys2Proof/Laws/Run.lean ====
section
/-! SUPPORT. Runs: one induction for what holds along a run, one for the end of an operation, and what a step is. -/

namespace Sys2Proof.Machine

open Sys2Proof

@[simp] theorem run_zero (s : State) : run 0 s = .next s := rfl

theorem run_succ (k : Nat) (s : State) :
    run (k + 1) s = match step s with
      | .next s' => run k s'
      | .fault r => .fault r
      | .refused r => .refused r := by
  simp only [run, Host.Core.run]
  have e : Host.Core.step Sys2Proof.core s = step s := rfl
  rw [e]
  cases step s <;> rfl

/-- The last step of a run. -/
theorem run_succ_last {k : Nat} {s u : State} (h : run (k + 1) s = .next u) :
    ∃ v, run k s = .next v ∧ step v = .next u := by
  induction k generalizing s with
  | zero =>
    rw [run_succ] at h
    split at h
    · rename_i s' e; exact ⟨s, rfl, e.trans h⟩
    · cases h
    · cases h
  | succ k ih =>
    rw [run_succ] at h
    split at h
    · rename_i s' e
      obtain ⟨v, hv, hs⟩ := ih h
      exact ⟨v, by rw [run_succ, e]; exact hv, hs⟩
    · cases h
    · cases h

/-- The last step of a run that reaches a state, and the run without it. -/
theorem reaches_succ_last {k : Nat} {s u : State} (h : Reaches (k + 1) s u) :
    ∃ v, Reaches k s v ∧ v.seq ≠ none ∧ step v = .next u := by
  obtain ⟨v, hv, hu⟩ := run_succ_last h.1
  obtain ⟨w, hw, hne⟩ := h.2 k (Nat.lt_succ_self k)
  obtain rfl : v = w := by rw [hv] at hw; cases hw; rfl
  exact ⟨v, ⟨hv, fun j hj => h.2 j (Nat.lt_succ_of_lt hj)⟩, hne, hu⟩

/-- What the steps of the run from `s` keep, whatever was reached before each of them, holds at every state of it. -/
theorem reaches_keeps_along {P : State → Prop} {s : State}
    (hstep : ∀ (j : Nat) (v v' : State), Reaches j s v → P v → v.seq ≠ none → step v = .next v' → P v')
    {k : Nat} {u : State} (h : Reaches k s u) (hs : P s) : P u := by
  induction k generalizing u with
  | zero => obtain ⟨h, -⟩ := h; cases h; exact hs
  | succ k ih =>
    obtain ⟨v, hv, hne, hu⟩ := reaches_succ_last h
    exact hstep k v u hv (ih hv) hne hu

/-- What the operation's own steps keep holds at every state of its run. -/
theorem reaches_keeps {P : State → Prop}
    (hstep : ∀ v v' : State, P v → v.seq ≠ none → step v = .next v' → P v')
    {k : Nat} {s u : State} (h : Reaches k s u) (hs : P s) : P u :=
  reaches_keeps_along (fun _ v v' _ => hstep v v') h hs

/-- An operation each of whose steps goes on and leaves fewer steps to take comes to its end. -/
theorem ends_of_stepsLeft {P : State → Prop} {left : State → Nat}
    (hstep : ∀ v : State, P v → v.seq ≠ none →
      ∃ v', step v = .next v' ∧ P v' ∧ (v'.seq ≠ none → left v' < left v) ∧ 1 ≤ left v)
    {s : State} (hs : P s) (hrun : s.seq ≠ none) : ∃ u, EndsWithin (left s) s u ∧ P u := by
  induction hn : left s using Nat.strong_induction_on generalizing s with
  | _ n ih =>
    obtain ⟨v, hv, hP, hlt, hpos⟩ := hstep s hs hrun
    by_cases hvs : v.seq = none
    · refine ⟨v, ⟨1, hn ▸ hpos, ⟨by rw [run_succ, hv]; rfl, fun j hj => ?_⟩, hvs⟩, hP⟩
      obtain rfl : j = 0 := by omega
      exact ⟨s, rfl, hrun⟩
    · obtain ⟨u, ⟨k, hk, hr, hu⟩, hPu⟩ := ih (left v) (hn ▸ hlt hvs) hP hvs rfl
      refine ⟨u, ⟨k + 1, ?_, ⟨by rw [run_succ, hv]; exact hr.1, fun j hj => ?_⟩, hu⟩, hPu⟩
      · have := hlt hvs; omega
      · cases j with
        | zero => exact ⟨s, rfl, hrun⟩
        | succ j =>
          obtain ⟨w, hw, hne⟩ := hr.2 j (by omega)
          exact ⟨w, by rw [run_succ, hv]; exact hw, hne⟩

/-- A running operation's step: issues made meanwhile are refused, then its next line. -/
theorem step_running {s : State} {r : Running} (h : s.seq = some r) : step s = thenEngines (seqStep r s.refuseOverlaps) := by
  simp [step, move, h]

/-- The host's step when it has an issue. -/
theorem step_issue {s : State} {w : Issue} {rest : List Issue} {i : Instr} (h : s.seq = none)
    (hw : s.issues = w :: rest) (hd : decode s.cfg w = .ok i) :
    step s = thenEngines (answer { s with issues := rest } (exec i { s with issues := rest })) := by
  simp [step, move, hostMove, h, hw, hd]

/-- The host's step when its issue decodes to no instruction. -/
theorem step_undecoded {s : State} {w : Issue} {rest : List Issue} {e : DecodeError} (h : s.seq = none)
    (hw : s.issues = w :: rest) (hd : decode s.cfg w = .error e) :
    step s = .next ({ s with issues := rest }.refuse (refusalOf e)).engines := by
  simp [step, move, hostMove, h, hw, hd, answer, thenEngines]

/-- What an answered issue leaves: the state it comes to, or the block as it was and the reason. -/
theorem answer_next {s t : State} {o : Host.Outcome State Fault Refusal} (h : answer s o = .next t) :
    o = .next t ∨ ∃ x, o = .refused x ∧ t = s.refuse x := by
  cases o with
  | next u => exact .inl h
  | fault x => cases h
  | refused x => exact .inr ⟨x, rfl, by cases h; rfl⟩

theorem answer_ne_refused (s : State) (o : Host.Outcome State Fault Refusal) (x : Refusal) : answer s o ≠ .refused x := by
  cases o <;> nofun

theorem seqStep_ne_refused (r : Running) (s : State) (x : Refusal) : seqStep r s ≠ .refused x := by
  cases r with
  | writes ws => nofun
  | resp f => nofun
  | crc f => simp only [seqStep]; split <;> nofun
  | trx f => simp only [seqStep]; split <;> nofun
  | card c => simp only [seqStep, cardStep]; split <;> (try split) <;> nofun
  | cardCrc c f => simp only [seqStep]; split <;> nofun
  | cardTrx c f => simp only [seqStep]; split <;> nofun

/-- The host's step when it waits. -/
theorem step_wait {s : State} (h : s.seq = none) (hw : s.issues = []) : step s = .next s.engines := by
  simp [step, move, hostMove, h, hw, thenEngines]

theorem whenIdle_ne_fault {s : State} {k : Host.Outcome State Fault Refusal} {x : Fault} (h : k ≠ .fault x) :
    whenIdle s k ≠ .fault x := by
  unfold whenIdle; split
  · nofun
  · exact h

theorem rawWrite_ne_fault {r : Reg} {v : Byte} {s : State} {x : Fault} : rawWrite r v s ≠ .fault x :=
  whenIdle_ne_fault (by split <;> nofun)

theorem withReg_ne_fault {a : RegAddr} {s : State} {k : Reg → Host.Outcome State Fault Refusal} {x : Fault}
    (h : ∀ r, k r ≠ .fault x) : withReg a s k ≠ .fault x := by
  unfold withReg; split
  · exact h _
  · nofun

theorem rawModify_ne_fault {r : Reg} {f : Byte → Byte} {s : State} {x : Fault} : rawModify r f s ≠ .fault x :=
  whenIdle_ne_fault (by split <;> nofun)

theorem emitWithCrc_ne_fault {first : List Byte} {l h : Byte} {s : State} {x : Fault} :
    emitWithCrc first l h s ≠ .fault x := by
  unfold emitWithCrc; split <;> exact whenIdle_ne_fault nofun

/-- No issue faults: a fault is met by a line of a running operation (60_exceptions.md R286, R287). -/
theorem exec_ne_fault (i : Instr) (s : State) (x : Fault) : exec i s ≠ .fault x := by
  cases i with
  | transferByte => exact whenIdle_ne_fault nofun
  | regWrite => exact whenIdle_ne_fault (withReg_ne_fault fun _ => rawWrite_ne_fault)
  | regRead => exact whenIdle_ne_fault (withReg_ne_fault fun _ => nofun)
  | setBits => exact whenIdle_ne_fault (withReg_ne_fault fun _ => rawModify_ne_fault)
  | clearBits => exact whenIdle_ne_fault (withReg_ne_fault fun _ => rawModify_ne_fault)
  | cmdIdle => exact rawWrite_ne_fault
  | cmdCalcCrc => exact rawWrite_ne_fault
  | cmdTransceive => exact rawWrite_ne_fault
  | flush => exact rawWrite_ne_fault (r := .fifoLevel) (v := s.cfg.flushBus)
  | startSend => exact rawModify_ne_fault
  | stopSend => exact rawModify_ne_fault
  | computeCrc src dst => simp only [exec, execComputeCrc]; split <;> exact whenIdle_ne_fault nofun
  | transceive inp out => simp only [exec, execTransceive]; split <;> exact whenIdle_ne_fault nofun
  | frameSelect => exact emitWithCrc_ne_fault
  | frameRead => exact emitWithCrc_ne_fault
  | frameWrite => exact emitWithCrc_ne_fault
  | _ => exact whenIdle_ne_fault nofun

theorem thenEngines_next {o : Host.Outcome State Fault Refusal} {u : State} (h : thenEngines o = .next u) :
    ∃ t, o = .next t ∧ u = t.engines := by
  cases o with
  | next t => exact ⟨t, rfl, by cases h; rfl⟩
  | fault x => cases h
  | refused x => cases h

end Sys2Proof.Machine
end

