-- ==== Sys2Proof/Laws/Sequencer.lean ====
section
/-! SUPPORT. One step of each operation keeps the state steady, its frame in its rule, and leaves fewer steps to take. -/

namespace Sys2Proof.Machine

open Sys2Proof

/-! ### Reachable bytes -/

theorem reaches_of_covers {s : State} {a : Area} {n i : Nat} (h : Covers s.cfg a n) (hi : i < n) :
    s.reaches a i = true := by
  have := h i hi
  unfold State.reaches
  cases hs : a.space <;> simp_all [Area.addr]

theorem areaRead_of_covers {s : State} {a : Area} {n i : Nat} (h : Covers s.cfg a n) (hi : i < n) :
    s.areaRead a i = some (s.peek a i) := areaRead_eq_some.2 ⟨reaches_of_covers h hi, rfl⟩

theorem areaWrite_of_covers {s : State} {a : Area} {n i : Nat} (v : Byte) (h : Covers s.cfg a n) (hi : i < n) :
    ∃ t, s.areaWrite a i v = some t := areaWrite_reaches v (reaches_of_covers h hi)

/-- What a buffer write leaves unchanged. -/
theorem areaWrite_eq {s t : State} {a : Area} {i : Nat} {v : Byte} (h : s.areaWrite a i v = some t) :
    t = { s with mem := t.mem, scratch := t.scratch } := by
  rcases (areaWrite_cases h).2 with ⟨_, e⟩ | ⟨_, e⟩ <;> rw [e]

theorem areaWrite_cfg {s t : State} {a : Area} {i : Nat} {v : Byte} (h : s.areaWrite a i v = some t) :
    t.cfg = s.cfg := by rw [areaWrite_eq h]

theorem areaWrite_bitFraming {s t : State} {a : Area} {i : Nat} {v : Byte} (h : s.areaWrite a i v = some t) :
    t.bitFraming = s.bitFraming := by rw [areaWrite_eq h]

/-! ### `COMPUTE_CRC` -/

theorem crcAfterPoll_ok {f : CrcFrame} (c : Config) (v : Byte) (h : f.pollCount < crcPollBudget) :
    (crcAfterPoll c f v).Ok := by
  unfold crcAfterPoll CrcFrame.Ok
  dsimp only
  split_ifs with h2
  · exact ⟨by omega, fun e => by cases e⟩
  · push Not at h2; exact ⟨by omega, fun _ => by omega⟩

theorem crcNextInput_ok {f : CrcFrame} (h : f.pollCount ≤ crcPollBudget) : (crcNextInput f).Ok := by
  unfold crcNextInput CrcFrame.Ok
  dsimp only
  split_ifs <;> exact ⟨h, fun e => by cases e⟩

/-- What a step of a frame answers: `P` where it goes on, `Q` where it ends; nothing is said of a fault. -/
def Move.Keeps {φ ρ : Type} (m : Move φ ρ) (P : φ → State → Prop) (Q : ρ → State → Prop) : Prop :=
  match m with
  | .go f s => P f s
  | .done r s => Q r s
  | .fault _ => True

/-- What one step of `COMPUTE_CRC` keeps: the steady state, the parameters, and the frame's own rule. -/
theorem crcStep_keeps {f : CrcFrame} {s : State} (hs : s.Steady) (hf : f.Ok) :
    (crcStep f s).Keeps (fun f' s' => s'.Steady ∧ s'.cfg = s.cfg ∧ f'.Ok) (fun _ s' => s'.Steady ∧ s'.cfg = s.cfg) := by
  obtain ⟨hp, hpoll⟩ := hf
  have hw : ∀ {r v}, fieldRefusal s.cfg r v = none → (s.setReg r v).Steady := fun h => steady_setReg hs h
  have hr : ∀ r, (s.regRead r).2.Steady := fun r => steady_regRead hs r
  have ok : ∀ {l : CrcLine} {k : Nat}, k ≤ crcPollBudget → l ≠ .poll →
      (k ≤ crcPollBudget ∧ (l = .poll → k < crcPollBudget)) := fun h1 h2 => ⟨h1, fun e => absurd e h2⟩
  cases hl : f.line <;> simp only [crcStep, hl]
  case clearIrq => exact ⟨steady_clearIrq hs (.inr rfl) _, clearIrq_cfg _ _ _, ok hp nofun⟩
  case idle => exact ⟨hw (fieldRefusal_cmd (by simp)), setReg_cfg _ _ _, ok hp nofun⟩
  case flush => exact ⟨hw rfl, setReg_cfg _ _ _, crcNextInput_ok hp⟩
  case readByte =>
    cases h : s.areaRead f.src f.i with
    | none => trivial
    | some b => exact ⟨hs, rfl, ok hp nofun⟩
  case pushByte => exact ⟨steady_regWrite hs rfl, regWrite_cfg _ _ _, crcNextInput_ok hp⟩
  case command =>
    exact ⟨hw (fieldRefusal_cmd (by simp)), setReg_cfg _ _ _, Nat.zero_le _, fun _ => (by decide : 0 < crcPollBudget)⟩
  case poll => exact ⟨hr _, regRead_cfg _ _, crcAfterPoll_ok _ _ (hpoll hl)⟩
  case readLow => exact ⟨hr _, regRead_cfg _ _, ok hp nofun⟩
  case storeLow =>
    cases h : s.areaWrite f.dst 0 f.lo with
    | none => trivial
    | some t => exact ⟨steady_areaWrite hs h, areaWrite_cfg h, ok hp nofun⟩
  case readHigh => exact ⟨hr _, regRead_cfg _ _, ok hp nofun⟩
  case storeHigh =>
    cases h : s.areaWrite f.dst 1 f.hi with
    | none => trivial
    | some t => exact ⟨steady_areaWrite hs h, areaWrite_cfg h⟩

theorem crcNextInput_fits {c : Config} {f : CrcFrame} (h1 : f.len ≤ c.frameCap) (h2 : Covers c f.src f.len)
    (h3 : Covers c f.dst 2) : (crcNextInput f).Fits c := by
  unfold crcNextInput
  split_ifs with h
  · exact ⟨h1, h2, h3, fun _ => h⟩
  · exact ⟨h1, h2, h3, fun e => by rcases e with e | e <;> cases e⟩

theorem crcNextInput_left (f : CrcFrame) :
    (crcNextInput f).stepsLeft ≤ 2 * (f.len - f.i) + crcPollBudget + 8 := by
  unfold crcNextInput CrcFrame.stepsLeft
  dsimp only
  split_ifs <;> dsimp only <;> omega

/-- A `COMPUTE_CRC` that overruns nothing does not fault, goes on overrunning nothing, and has fewer steps left. -/
theorem crcStep_fits {f : CrcFrame} {s : State} (hf : f.Ok) (h : f.Fits s.cfg) :
    (∀ x, crcStep f s ≠ .fault x) ∧ 1 ≤ f.stepsLeft ∧
      (crcStep f s).Keeps (fun f' _ => f'.Fits s.cfg ∧ f'.stepsLeft < f.stepsLeft) (fun _ _ => True) := by
  obtain ⟨h1, h2, h3, h4⟩ := h
  obtain ⟨hp, hpoll⟩ := hf
  have fits : ∀ (l : CrcLine) (i k : Nat) (b lo hi : Byte), l ≠ .readByte → l ≠ .pushByte →
      CrcFrame.Fits s.cfg ⟨l, f.src, f.len, f.dst, i, b, k, lo, hi⟩ :=
    fun l i k b lo hi e1 e2 => ⟨h1, h2, h3, fun e => by rcases e with e | e <;> contradiction⟩
  cases hl : f.line <;> simp only [crcStep, hl]
  case clearIrq =>
    exact ⟨nofun, by simp [CrcFrame.stepsLeft, hl], fits _ _ _ _ _ _ nofun nofun, by simp [CrcFrame.stepsLeft, hl]⟩
  case idle =>
    exact ⟨nofun, by simp [CrcFrame.stepsLeft, hl], fits _ _ _ _ _ _ nofun nofun, by simp [CrcFrame.stepsLeft, hl]⟩
  case flush =>
    refine ⟨nofun, by simp [CrcFrame.stepsLeft, hl], crcNextInput_fits h1 h2 h3, ?_⟩
    have := crcNextInput_left f
    simp only [CrcFrame.stepsLeft, hl] at *; omega
  case readByte =>
    have hi := h4 (.inl hl)
    rw [areaRead_of_covers h2 hi]
    exact ⟨nofun, by simp [CrcFrame.stepsLeft, hl], ⟨h1, h2, h3, fun _ => hi⟩, by simp [CrcFrame.stepsLeft, hl]⟩
  case pushByte =>
    have hi := h4 (.inr hl)
    refine ⟨nofun, by simp [CrcFrame.stepsLeft, hl], crcNextInput_fits h1 h2 h3, ?_⟩
    have := crcNextInput_left { f with i := f.i + 1 }
    simp only [CrcFrame.stepsLeft, hl] at *; omega
  case command =>
    exact ⟨nofun, by simp [CrcFrame.stepsLeft, hl], fits _ _ _ _ _ _ nofun nofun, by simp [CrcFrame.stepsLeft, hl]⟩
  case poll =>
    have hp' := hpoll hl
    have e : (crcAfterPoll s.cfg f (s.regRead .divIrq).1).line = .readLow ∨
        (crcAfterPoll s.cfg f (s.regRead .divIrq).1).line = .poll := by
      unfold crcAfterPoll; dsimp only; split_ifs <;> simp
    refine ⟨nofun, by simp [CrcFrame.stepsLeft, hl], ⟨h1, h2, h3, fun e2 => ?_⟩, ?_⟩
    · rcases e with e | e <;> rw [e] at e2 <;> rcases e2 with e2 | e2 <;> cases e2
    · rcases e with e | e <;> simp only [CrcFrame.stepsLeft, hl, e] <;> try simp only [crcAfterPoll]
      all_goals omega
  case readLow =>
    exact ⟨nofun, by simp [CrcFrame.stepsLeft, hl], fits _ _ _ _ _ _ nofun nofun, by simp [CrcFrame.stepsLeft, hl]⟩
  case storeLow =>
    obtain ⟨t, ht⟩ := areaWrite_of_covers (s := s) f.lo h3 (by decide : 0 < 2)
    rw [ht]
    exact ⟨nofun, by simp [CrcFrame.stepsLeft, hl], fits _ _ _ _ _ _ nofun nofun, by simp [CrcFrame.stepsLeft, hl]⟩
  case readHigh =>
    exact ⟨nofun, by simp [CrcFrame.stepsLeft, hl], fits _ _ _ _ _ _ nofun nofun, by simp [CrcFrame.stepsLeft, hl]⟩
  case storeHigh =>
    obtain ⟨t, ht⟩ := areaWrite_of_covers (s := s) f.hi h3 (by decide : 1 < 2)
    rw [ht]
    exact ⟨nofun, by simp [CrcFrame.stepsLeft, hl], trivial⟩

/-! ### `TRANSCEIVE` -/

/-- What a read of `BitFramingReg` leaves to write back is the register, whatever its reserved bit was drawn as. -/
theorem framing_read {s : State} (hs : s.Steady) :
    (s.regRead .bitFraming).2.cfg.regMap.fields .bitFraming
      (dropReserved (s.regRead .bitFraming).2.cfg .bitFraming (s.regRead .bitFraming).1) =
        (s.regRead .bitFraming).2.bitFraming := by
  obtain ⟨d, hd⟩ := regRead_bitFraming_val s
  rw [hd, regRead_cfg, regRead_bitFraming, fields_dropReserved hs.cfg]
  exact framing_reserved (fieldRefusal_framing.1 hs.framing)

theorem framing_startWrite {s : State} (hs : s.Steady) {b : Byte}
    (h : s.cfg.regMap.fields .bitFraming (dropReserved s.cfg .bitFraming b) = s.bitFraming) :
    s.cfg.regMap.fields .bitFraming (setIn s.cfg .bitFraming (startSendBus s.cfg) b) = s.bitFraming ||| startSendMask := by
  rw [fields_setIn, h, fields_startSendBus hs.cfg]

theorem framing_stopWrite {s : State} (hs : s.Steady) {b : Byte}
    (h : s.cfg.regMap.fields .bitFraming (dropReserved s.cfg .bitFraming b) = s.bitFraming) :
    s.cfg.regMap.fields .bitFraming (clearIn s.cfg .bitFraming (startSendBus s.cfg) b) =
      s.bitFraming &&& ~~~startSendMask := by
  rw [fields_clearIn, h, fields_startSendBus hs.cfg]

theorem trxNextInput_ok {s : State} {f : TrxFrame} (h : f.pollCount ≤ trxPollBudget) : (trxNextInput f).Ok s := by
  unfold trxNextInput TrxFrame.Ok
  dsimp only
  split_ifs <;> exact ⟨h, nofun, fun e => by rcases e with e | e <;> cases e⟩

/-- What one step of `TRANSCEIVE` keeps: the steady state, the parameters, and the frame's own rule. -/
theorem trxStep_keeps {f : TrxFrame} {s : State} (hs : s.Steady) (hf : f.Ok s) :
    (trxStep f s).Keeps (fun f' s' => s'.Steady ∧ s'.cfg = s.cfg ∧ f'.Ok s')
      (fun _ s' => s'.Steady ∧ s'.cfg = s.cfg) := by
  obtain ⟨hp, hpoll, hbyte⟩ := hf
  have hw : ∀ {r v}, fieldRefusal s.cfg r v = none → (s.setReg r v).Steady := fun h => steady_setReg hs h
  have hr : ∀ r, (s.regRead r).2.Steady := fun r => steady_regRead hs r
  have ok : ∀ (t : State) (f' : TrxFrame), f'.pollCount ≤ trxPollBudget → f'.line ≠ .poll → f'.line ≠ .startWrite →
      f'.line ≠ .stopWrite → f'.Ok t :=
    fun t f' h1 h2 h3 h4 => ⟨h1, fun e => absurd e h2, fun e => by rcases e with e | e <;> contradiction⟩
  cases hl : f.line <;> simp only [trxStep, hl]
  case clearIrq => exact ⟨steady_clearIrq hs (.inl rfl) _, clearIrq_cfg _ _ _, ok _ _ hp nofun nofun nofun⟩
  case idle => exact ⟨hw (fieldRefusal_cmd (by simp)), setReg_cfg _ _ _, ok _ _ hp nofun nofun nofun⟩
  case flush => exact ⟨hw rfl, setReg_cfg _ _ _, trxNextInput_ok hp⟩
  case readByte =>
    cases h : s.areaRead f.inp f.i with
    | none => trivial
    | some b => exact ⟨hs, rfl, ok _ _ hp nofun nofun nofun⟩
  case pushByte => exact ⟨steady_regWrite hs rfl, regWrite_cfg _ _ _, trxNextInput_ok hp⟩
  case command => exact ⟨hw (fieldRefusal_cmd (by simp)), setReg_cfg _ _ _, ok _ _ hp nofun nofun nofun⟩
  case startRead => exact ⟨hr _, regRead_cfg _ _, hp, nofun, fun _ => framing_read hs⟩
  case startWrite =>
    refine ⟨steady_regWrite hs ?_, regWrite_cfg _ _ _, Nat.zero_le _, fun _ => (by decide : 0 < trxPollBudget),
      fun e => by rcases e with e | e <;> cases e⟩
    unfold writeRefusal
    rw [framing_startWrite hs (hbyte (.inl hl)), fieldRefusal_framing, framing_set]
    exact fieldRefusal_framing.1 hs.framing
  case poll =>
    have h := hpoll hl
    refine ⟨hr _, regRead_cfg _ _, ?_⟩
    unfold trxAfterPoll TrxFrame.Ok
    dsimp only
    split_ifs with h2
    · exact ⟨by omega, nofun, fun e => by rcases e with e | e <;> cases e⟩
    · push Not at h2; exact ⟨by omega, fun _ => by omega, fun e => by rcases e with e | e <;> cases e⟩
  case stopRead => exact ⟨hr _, regRead_cfg _ _, hp, nofun, fun _ => framing_read hs⟩
  case stopWrite =>
    refine ⟨steady_regWrite hs ?_, regWrite_cfg _ _ _, ?_⟩
    · unfold writeRefusal
      rw [framing_stopWrite hs (hbyte (.inr hl)), fieldRefusal_framing, framing_clear]
      exact fieldRefusal_framing.1 hs.framing
    · unfold trxAfterStop; split_ifs <;> exact ok _ _ hp nofun nofun nofun
  case readError =>
    refine ⟨hr _, regRead_cfg _ _, ?_⟩
    unfold trxAfterError; split_ifs <;> exact ok _ _ hp nofun nofun nofun
  case readLevel => exact ⟨hr _, regRead_cfg _ _, ok _ _ hp nofun nofun nofun⟩
  case readLast => exact ⟨hr _, regRead_cfg _ _, ok _ _ hp nofun nofun nofun⟩
  case drainRead => exact ⟨hr _, regRead_cfg _ _, ok _ _ hp nofun nofun nofun⟩
  case drainStore =>
    cases h : s.areaWrite f.out f.i f.byte with
    | none => trivial
    | some t =>
      refine ⟨steady_areaWrite hs h, areaWrite_cfg h, ?_⟩
      unfold trxAfterStore; split_ifs <;> exact ok _ _ hp nofun nofun nofun
  case finalIdle => exact ⟨hw (fieldRefusal_cmd (by simp)), setReg_cfg _ _ _⟩

theorem trxNextInput_fits {c : Config} {f : TrxFrame} (h0 : 1 ≤ f.len) (h1 : f.len ≤ c.frameCap)
    (h2 : Covers c f.inp f.len) (h3 : Covers c f.out c.frameCap) : (trxNextInput f).Fits c := by
  unfold trxNextInput
  split_ifs with h
  · exact ⟨h0, h1, h2, h3, fun _ => h, fun e => by rcases e with e | e <;> cases e⟩
  · exact ⟨h0, h1, h2, h3, fun e => by (rcases e with e | e <;> cases e), fun e => by rcases e with e | e <;> cases e⟩

theorem trxNextInput_left (c : Config) (f : TrxFrame) :
    (trxNextInput f).stepsLeft c ≤ 2 * (f.len - f.i) + trxPollBudget + 2 * c.frameCap + 13 := by
  unfold trxNextInput TrxFrame.stepsLeft
  dsimp only
  split_ifs <;> dsimp only <;> omega

theorem drainCount_pos {c : Config} (n : Nat) (h : 9 ≤ c.frameCap) : 0 < drainCount c n := by
  unfold drainCount; split_ifs <;> omega

theorem drainCount_le (c : Config) (n : Nat) : drainCount c n ≤ c.frameCap := by
  unfold drainCount; omega

/-- A `TRANSCEIVE` that overruns nothing does not fault, goes on overrunning nothing, and has fewer steps left. -/
theorem trxStep_fits {f : TrxFrame} {s : State} (hs : s.Steady) (hf : f.Ok s) (h : f.Fits s.cfg) :
    (∀ x, trxStep f s ≠ .fault x) ∧ 1 ≤ f.stepsLeft s.cfg ∧
      (trxStep f s).Keeps (fun f' _ => f'.Fits s.cfg ∧ f'.stepsLeft s.cfg < f.stepsLeft s.cfg) (fun _ _ => True) := by
  obtain ⟨h0, h1, h2, h3, h4, h5⟩ := h
  obtain ⟨hp, hpoll, -⟩ := hf
  have hcap := hs.cfg.2.2.2.1
  have fits : ∀ f' : TrxFrame, f'.inp = f.inp → f'.len = f.len → f'.out = f.out → f'.line ≠ .readByte →
      f'.line ≠ .pushByte → f'.line ≠ .drainRead → f'.line ≠ .drainStore → f'.Fits s.cfg := by
    intro f' e1 e2 e3 l1 l2 l3 l4
    unfold TrxFrame.Fits
    rw [e1, e2, e3]
    exact ⟨h0, h1, h2, h3, fun e => by rcases e with e | e <;> contradiction,
      fun e => by rcases e with e | e <;> contradiction⟩
  cases hl : f.line <;> simp only [trxStep, hl]
  case clearIrq =>
    exact ⟨nofun, by simp [TrxFrame.stepsLeft, hl], fits _ rfl rfl rfl nofun nofun nofun nofun, by simp [TrxFrame.stepsLeft, hl]⟩
  case idle =>
    exact ⟨nofun, by simp [TrxFrame.stepsLeft, hl], fits _ rfl rfl rfl nofun nofun nofun nofun, by simp [TrxFrame.stepsLeft, hl]⟩
  case flush =>
    refine ⟨nofun, by simp [TrxFrame.stepsLeft, hl], trxNextInput_fits h0 h1 h2 h3, ?_⟩
    have := trxNextInput_left s.cfg f
    simp only [TrxFrame.stepsLeft, hl] at *; omega
  case readByte =>
    have hi := h4 (.inl hl)
    rw [areaRead_of_covers h2 hi]
    exact ⟨nofun, by simp [TrxFrame.stepsLeft, hl],
      ⟨h0, h1, h2, h3, fun _ => hi, fun e => by rcases e with e | e <;> cases e⟩, by simp [TrxFrame.stepsLeft, hl]⟩
  case pushByte =>
    have hi := h4 (.inr hl)
    refine ⟨nofun, by simp [TrxFrame.stepsLeft, hl], trxNextInput_fits h0 h1 h2 h3, ?_⟩
    have := trxNextInput_left s.cfg { f with i := f.i + 1 }
    simp only [TrxFrame.stepsLeft, hl] at *; omega
  case poll =>
    have hp' := hpoll hl
    have e : (trxAfterPoll s.cfg f (s.regRead .comIrq).1).line = .stopRead ∨
        (trxAfterPoll s.cfg f (s.regRead .comIrq).1).line = .poll := by
      unfold trxAfterPoll; dsimp only; split_ifs <;> simp
    refine ⟨nofun, by simp [TrxFrame.stepsLeft, hl], ?_, ?_⟩
    · refine fits _ rfl rfl rfl ?_ ?_ ?_ ?_ <;> rcases e with e | e <;> rw [e] <;> nofun
    · rcases e with e | e <;> simp only [TrxFrame.stepsLeft, hl, e] <;> try simp only [trxAfterPoll]
      all_goals omega
  case stopWrite =>
    refine ⟨nofun, by simp [TrxFrame.stepsLeft, hl], ?_, ?_⟩ <;> unfold trxAfterStop <;> split_ifs
    · exact fits _ rfl rfl rfl nofun nofun nofun nofun
    · exact fits _ rfl rfl rfl nofun nofun nofun nofun
    · simp [TrxFrame.stepsLeft, hl]
    · simp [TrxFrame.stepsLeft, hl]
  case readError =>
    refine ⟨nofun, by simp [TrxFrame.stepsLeft, hl], ?_, ?_⟩ <;> unfold trxAfterError <;> split_ifs
    · exact fits _ rfl rfl rfl nofun nofun nofun nofun
    · exact fits _ rfl rfl rfl nofun nofun nofun nofun
    · simp [TrxFrame.stepsLeft, hl]
    · simp [TrxFrame.stepsLeft, hl]
  case readLast =>
    have hc := drainCount_le s.cfg f.n
    refine ⟨nofun, by simp [TrxFrame.stepsLeft, hl], ⟨h0, h1, h2, h3, fun e => ?_, fun _ => ?_⟩, ?_⟩
    · rcases e with e | e <;> cases e
    · exact ⟨drainCount_pos _ hcap, hc⟩
    · simp only [TrxFrame.stepsLeft, hl, trxAfterLast]; omega
  case drainRead =>
    have hi := h5 (.inl hl)
    refine ⟨nofun, by simp [TrxFrame.stepsLeft, hl], ⟨h0, h1, h2, h3, fun e => ?_, fun _ => hi⟩, by simp [TrxFrame.stepsLeft, hl]⟩
    rcases e with e | e <;> cases e
  case drainStore =>
    have hi := h5 (.inr hl)
    obtain ⟨t, ht⟩ := areaWrite_of_covers (s := s) f.byte h3 (Nat.lt_of_lt_of_le hi.1 hi.2)
    rw [ht]
    refine ⟨nofun, by simp [TrxFrame.stepsLeft, hl], ?_, ?_⟩ <;> unfold trxAfterStore <;> split_ifs with h6
    · exact ⟨h0, h1, h2, h3, fun e => by (rcases e with e | e <;> cases e), fun _ => ⟨h6, hi.2⟩⟩
    · exact fits _ rfl rfl rfl nofun nofun nofun nofun
    · simp only [TrxFrame.stepsLeft, hl]; omega
    · simp only [TrxFrame.stepsLeft, hl]; omega
  case finalIdle => exact ⟨nofun, by simp [TrxFrame.stepsLeft, hl], trivial⟩
  all_goals
    exact ⟨nofun, by simp [TrxFrame.stepsLeft, hl], fits _ rfl rfl rfl nofun nofun nofun nofun, by simp [TrxFrame.stepsLeft, hl]⟩

end Sys2Proof.Machine
end

