-- ==== Sys2Proof/Laws/Invariant.lean ====
section
/-! SUPPORT. One move of the block: what the sequencer's step and the host's issue keep, and that an operation that
overruns nothing goes on to its end. -/

namespace Sys2Proof.Machine

open Sys2Proof

/-! ### The running operation's rule -/

/-- The rule of a running operation speaks of the parameters and of `BitFramingReg` only. -/
theorem Running.Ok.congr {s t : State} {r : Running} (h : r.Ok s) (hc : t.cfg = s.cfg)
    (hb : t.bitFraming = s.bitFraming) : r.Ok t := by
  cases r with
  | writes ws => exact ⟨h.1, by rw [hc]; exact h.2⟩
  | resp f => trivial
  | crc f => exact h
  | trx f => exact ⟨h.1, h.2.1, by rw [hb, hc]; exact h.2.2⟩
  | card c => trivial
  | cardCrc c f => exact h
  | cardTrx c f => exact ⟨h.1, h.2.1, by rw [hb, hc]; exact h.2.2⟩

theorem inv_engines {s : State} (h : s.Inv) : s.engines.Inv :=
  ⟨steady_engines h.steady, fun r hr => (h.seq r (by simpa using hr)).congr (by simp) (by simp)⟩

/-- A move that is steady and whose running operation keeps its rule. -/
theorem inv_goOn {s : State} {r : Running} (h : s.Steady) (hr : r.Ok s) : (s.goOn r).Inv :=
  ⟨steady_goOn h r, fun r' e => by cases e; exact hr.congr rfl rfl⟩

theorem inv_finish {s : State} (h : s.Steady) (x : Result) : (s.finish x).Inv :=
  ⟨steady_finish h x, fun _ e => by cases e⟩

theorem crcFrame_ok (c : Config) (op : CardOp) : (op.crcFrame c).Ok := by
  cases op <;> exact ⟨Nat.zero_le _, nofun⟩

theorem trxFrame_ok (s : State) (op : CardOp) : (op.trxFrame s.cfg).Ok s := by
  cases op <;> exact ⟨Nat.zero_le _, nofun, fun e => by rcases e with e | e <;> cases e⟩

theorem callCrc_ok (c : CardFrame) (s t : State) : (callCrc c s).Ok t := crcFrame_ok _ _

theorem callTrx_ok (c : CardFrame) (s : State) : (callTrx c s).Ok s := trxFrame_ok _ _

theorem afterPut_ok (c : CardFrame) (s : State) : (afterPut c s).Ok s := by
  unfold afterPut
  split_ifs
  · trivial
  · cases c.op <;> first | exact callCrc_ok _ _ _ | exact callTrx_ok _ _

theorem afterLoad_ok (c : CardFrame) (b : Byte) (s : State) : (afterLoad c b).Ok s := by
  unfold afterLoad
  cases c.op <;> dsimp only <;> try split_ifs
  all_goals trivial

theorem afterBuild_ok (c : CardFrame) (s : State) : (afterBuild c s).Ok s := by
  unfold afterBuild
  cases c.op <;> dsimp only <;> try split_ifs
  all_goals first | trivial | exact callCrc_ok _ _ _

theorem inv_afterTrx {s : State} (h : s.Steady) (c : CardFrame) (r : TrxResult) : (afterTrx c r s).Inv := by
  unfold afterTrx
  cases r.status
  · unfold afterTrxOk
    cases c.op <;> first | exact inv_finish h _ | exact inv_goOn h trivial
  · exact inv_finish h _

theorem inv_afterCheck {s : State} (h : s.Steady) (c : CardFrame) (b : Byte) : (afterCheck c b s).Inv := by
  unfold afterCheck
  dsimp only
  split_ifs
  · exact inv_goOn h trivial
  all_goals exact inv_finish h _

theorem afterTrx_cfg (c : CardFrame) (r : TrxResult) (s : State) : (afterTrx c r s).cfg = s.cfg := by
  unfold afterTrx
  cases r.status
  · unfold afterTrxOk
    cases c.op <;> rfl
  · rfl

theorem afterCheck_cfg (c : CardFrame) (b : Byte) (s : State) : (afterCheck c b s).cfg = s.cfg := by
  unfold afterCheck
  dsimp only
  split_ifs <;> rfl

theorem framing_ok (c : Config) (op : CardOp) : fieldRefusal c .bitFraming op.framing = none := by
  rw [fieldRefusal_framing]
  cases op <;> simp only [CardOp.framing] <;> decide

theorem cardStep_keeps {c : CardFrame} {s t : State} (hs : s.Steady) (h : cardStep c s = .next t) :
    t.Inv ∧ t.cfg = s.cfg := by
  cases hl : c.line <;> simp only [cardStep, hl] at h
  case framing =>
    cases h
    exact ⟨inv_goOn (steady_setReg hs (framing_ok _ _)) trivial, by simp⟩
  case put =>
    cases e : s.areaWrite c.op.buffer c.i (putByte s.cfg c) with
    | none => rw [e] at h; cases h
    | some u =>
      rw [e] at h; cases h
      exact ⟨inv_goOn (steady_areaWrite hs e) (afterPut_ok _ _), (goOn_cfg _ _).trans (areaWrite_cfg e)⟩
  case load =>
    cases e : s.areaRead c.op.buffer c.u.length with
    | none => rw [e] at h; cases h
    | some u => rw [e] at h; cases h; exact ⟨inv_goOn hs (afterLoad_ok _ _ _), rfl⟩
  case build =>
    cases e : s.areaWrite (scratchFrom s.cfg 0) c.i (buildByte s.cfg c) with
    | none => rw [e] at h; cases h
    | some u =>
      rw [e] at h; cases h
      exact ⟨inv_goOn (steady_areaWrite hs e) (afterBuild_ok _ _), (goOn_cfg _ _).trans (areaWrite_cfg e)⟩
  case callCrc => cases h; exact ⟨inv_goOn hs (callCrc_ok _ _ _), rfl⟩
  case callTrx => cases h; exact ⟨inv_goOn hs (callTrx_ok _ _), rfl⟩
  case check =>
    cases e : s.areaRead c.op.buffer c.i with
    | none => rw [e] at h; cases h
    | some u => rw [e] at h; cases h; exact ⟨inv_afterCheck hs _ _, afterCheck_cfg _ _ _⟩
  case ackByte =>
    cases e : s.areaRead (scratchFrom s.cfg 0) 0 with
    | none => rw [e] at h; cases h
    | some u => rw [e] at h; cases h; exact ⟨inv_finish hs _, rfl⟩

theorem writesStep_keeps {ws : List (Reg × Byte)} {s : State} (hs : s.Steady)
    (h : ∀ w ∈ ws, writeRefusal s.cfg w.1 w.2 = none) : (writesStep ws s).Inv ∧ (writesStep ws s).cfg = s.cfg := by
  match ws with
  | [] => exact ⟨inv_finish hs _, rfl⟩
  | [(r, v)] => exact ⟨inv_finish (steady_regWrite hs (h (r, v) (by simp))) _, by simp [writesStep]⟩
  | (r, v) :: w :: rest =>
    refine ⟨inv_goOn (steady_regWrite hs (h (r, v) (by simp))) ⟨by simp, fun x hx => ?_⟩, by simp [writesStep]⟩
    simpa using h x (List.mem_cons_of_mem _ hx)

theorem respStep_keeps {f : RespFrame} {s : State} (hs : s.Steady) :
    (respStep f s).Inv ∧ (respStep f s).cfg = s.cfg := by
  cases hl : f.line <;> simp only [respStep, hl]
  · exact ⟨inv_goOn (steady_regRead hs _) trivial, by simp⟩
  · split_ifs
    · exact ⟨inv_goOn (steady_regRead hs _) trivial, by simp⟩
    all_goals exact ⟨inv_finish (steady_regRead hs _) _, by simp⟩

/-- The sequencer's step keeps the invariant and the parameters. -/
theorem seqStep_keeps {r : Running} {s t : State} (hs : s.Steady) (hr : r.Ok s) (h : seqStep r s = .next t) :
    t.Inv ∧ t.cfg = s.cfg := by
  cases r with
  | writes ws => cases h; exact writesStep_keeps hs hr.2
  | resp f => cases h; exact respStep_keeps hs
  | crc f =>
    have hk := crcStep_keeps hs hr
    simp only [seqStep] at h
    cases e : crcStep f s with
    | go f' s' => rw [e] at h hk; cases h; exact ⟨inv_goOn hk.1 hk.2.2, hk.2.1⟩
    | done b s' => rw [e] at h hk; cases h; exact ⟨inv_finish hk.1 _, hk.2⟩
    | fault x => rw [e] at h; cases h
  | trx f =>
    have hk := trxStep_keeps hs hr
    simp only [seqStep] at h
    cases e : trxStep f s with
    | go f' s' => rw [e] at h hk; cases h; exact ⟨inv_goOn hk.1 hk.2.2, hk.2.1⟩
    | done b s' => rw [e] at h hk; cases h; exact ⟨inv_finish hk.1 _, hk.2⟩
    | fault x => rw [e] at h; cases h
  | card c => exact cardStep_keeps hs h
  | cardCrc c f =>
    have hk := crcStep_keeps hs hr
    simp only [seqStep] at h
    cases e : crcStep f s with
    | go f' s' => rw [e] at h hk; cases h; exact ⟨inv_goOn hk.1 hk.2.2, hk.2.1⟩
    | done b s' => rw [e] at h hk; cases h; exact ⟨inv_goOn hk.1 (callTrx_ok _ _), hk.2⟩
    | fault x => rw [e] at h; cases h
  | cardTrx c f =>
    have hk := trxStep_keeps hs hr
    simp only [seqStep] at h
    cases e : trxStep f s with
    | go f' s' => rw [e] at h hk; cases h; exact ⟨inv_goOn hk.1 hk.2.2, hk.2.1⟩
    | done b s' => rw [e] at h hk; cases h; exact ⟨inv_afterTrx hk.1 _ _, (afterTrx_cfg _ _ _).trans hk.2⟩
    | fault x => rw [e] at h; cases h

/-! ### The host's issue -/

/-- What an issue is when no operation runs. -/
theorem whenIdle_next {s t : State} {k : Host.Outcome State Fault Refusal} (h : whenIdle s k = .next t) :
    s.seq = none ∧ k = .next t := by
  unfold whenIdle at h
  split at h
  · cases h
  · rename_i e; exact ⟨e, h⟩

@[simp] theorem whenIdle_idle {s : State} (k : Host.Outcome State Fault Refusal) (h : s.seq = none) :
    whenIdle s k = k := by simp [whenIdle, h]

@[simp] theorem whenIdle_running {s : State} {r : Running} (k : Host.Outcome State Fault Refusal)
    (h : s.seq = some r) : whenIdle s k = .refused .operationInProgress := by simp [whenIdle, h]

theorem rawWrite_keeps {r : Reg} {v : Byte} {s t : State} (hs : s.Steady) (h : rawWrite r v s = .next t) :
    t.Inv ∧ t.cfg = s.cfg := by
  obtain ⟨-, h⟩ := whenIdle_next h
  cases e : writeRefusal s.cfg r v with
  | some x => rw [e] at h; cases h
  | none => rw [e] at h; cases h; exact ⟨inv_finish (steady_regWrite hs e) _, by simp⟩

theorem withReg_next {a : RegAddr} {s t : State} {k : Reg → Host.Outcome State Fault Refusal}
    (h : withReg a s k = .next t) : ∃ r, regOf s.cfg a = some r ∧ k r = .next t := by
  unfold withReg at h
  split at h
  · rename_i r e; exact ⟨r, e, h⟩
  · cases h

/-- A change of a read byte whose fields are the same for all bytes with the same bits outside the register's reserved
ones: what a compound makes of it does not depend on a drawn reserved bit (30_encoding.md R124). -/
def DropsReserved (c : Config) (r : Reg) (f : Byte → Byte) : Prop :=
  ∀ x y, dropReserved c r x = dropReserved c r y → f x = f y

theorem setIn_drops (c : Config) (r : Reg) (m : Byte) : DropsReserved c r (setIn c r m) := fun x y h => by
  unfold setIn; rw [h]

theorem clearIn_drops (c : Config) (r : Reg) (m : Byte) : DropsReserved c r (clearIn c r m) := fun x y h => by
  unfold clearIn; rw [h]

theorem dropReserved_read {c : Config} (h : c.Wf) (r : Reg) (x d : Byte) :
    dropReserved c r (c.regMap.byte r (withReserved r x d)) = dropReserved c r (c.regMap.byte r x) := by
  have inj : ∀ u v : Byte, c.regMap.fields r u = c.regMap.fields r v → u = v := fun u v e => by
    have := congrArg (c.regMap.byte r) e
    rwa [h.byte_fields, h.byte_fields] at this
  refine inj _ _ ?_
  rw [fields_dropReserved h]
  unfold dropReserved
  rw [RegMap.fields_and, RegMap.fields_not, h.fields_byte, h.fields_byte]

/-- What a compound makes of `CommandReg` and of `BitFramingReg` is what it makes of the held value. -/
theorem compound_held {s : State} (h : s.cfg.Wf) {r : Reg} (hr : r = .command ∨ r = .bitFraming) {f : Byte → Byte}
    (hf : DropsReserved s.cfg r f) : f (s.regRead r).1 = f (s.cfg.regMap.byte r (s.heldValue r)) := by
  rcases hr with rfl | rfl
  · obtain ⟨d, hd⟩ := regRead_command_val s
    rw [hd]
    exact hf _ _ (dropReserved_read h _ _ _)
  · obtain ⟨d, hd⟩ := regRead_bitFraming_val s
    rw [hd]
    exact hf _ _ (dropReserved_read h _ _ _)

/-- What a compound writes is what its check at issue let pass: only `CommandReg` and `BitFramingReg` refuse some values
and not others. -/
theorem writeRefusal_read {s : State} (hs : s.cfg.Wf) {r : Reg} {f : Byte → Byte} (hf : DropsReserved s.cfg r f)
    (h : writeRefusal s.cfg r (f (s.cfg.regMap.byte r (s.heldValue r))) = none) :
    writeRefusal s.cfg r (f (s.regRead r).1) = none := by
  cases r
  case command => rw [compound_held hs (.inl rfl) hf]; exact h
  case bitFraming => rw [compound_held hs (.inr rfl) hf]; exact h
  all_goals simp_all only [writeRefusal, fieldRefusal, reduceCtorEq]

/-- A compound that is not refused reads now and leaves its write for the next step (40_bus.md R146-R148). -/
theorem rawModify_next {r : Reg} {f : Byte → Byte} {s : State} (hs : s.seq = none)
    (h : writeRefusal s.cfg r (f (s.cfg.regMap.byte r (s.heldValue r))) = none) :
    rawModify r f s = .next ((s.regRead r).2.goOn (.writes [(r, f (s.regRead r).1)])) := by
  unfold rawModify
  rw [whenIdle_idle _ hs, h]

theorem rawModify_refused {r : Reg} {f : Byte → Byte} {s : State} {x : Refusal} (hs : s.seq = none)
    
    (h : writeRefusal s.cfg r (f (s.cfg.regMap.byte r (s.heldValue r))) = some x) : rawModify r f s = .refused x := by
  unfold rawModify
  rw [whenIdle_idle _ hs, h]

theorem rawModify_keeps {r : Reg} {f : Byte → Byte} {s t : State} (hs : s.Steady) (hf : DropsReserved s.cfg r f)
    (h : rawModify r f s = .next t) : t.Inv ∧ t.cfg = s.cfg := by
  have hq := (whenIdle_next h).1
  cases e : writeRefusal s.cfg r (f (s.cfg.regMap.byte r (s.heldValue r))) with
  | some x => rw [rawModify_refused hq e] at h; cases h
  | none =>
    rw [rawModify_next hq e] at h
    obtain rfl := Host.Outcome.next.inj h
    refine ⟨inv_goOn (steady_regRead hs r) ⟨List.cons_ne_nil _ _, fun w hw => ?_⟩, by simp⟩
    obtain rfl := List.mem_singleton.1 hw
    simpa using writeRefusal_read hs.cfg hf e

theorem emit_keeps {ws : List (Reg × Byte)} {s t : State} (hs : s.Steady)
    (hw : ∀ w ∈ ws, writeRefusal s.cfg w.1 w.2 = none) (h : emit ws s = .next t) : t.Inv ∧ t.cfg = s.cfg := by
  obtain ⟨-, h⟩ := whenIdle_next h
  cases h
  exact writesStep_keeps hs hw

theorem pushAll_ok (c : Config) (bytes : List Byte) : ∀ w ∈ pushAll bytes, writeRefusal c w.1 w.2 = none := by
  intro w hw
  obtain ⟨b, -, rfl⟩ := List.mem_map.1 hw
  rfl

theorem emitWithCrc_keeps {first : List Byte} {l h : Byte} {s t : State} (hs : s.Steady)
    (ht : emitWithCrc first l h s = .next t) : t.Inv ∧ t.cfg = s.cfg := by
  unfold emitWithCrc at ht
  split_ifs at ht
  · exact emit_keeps hs (pushAll_ok _ _) ht
  · cases (whenIdle_next ht).2

theorem framedPushAll_ok {c : Config} (hc : c.Wf) (f : Byte) (bytes : List Byte) (h : f.extractLsb' 3 4 = 0#4) :
    ∀ w ∈ framingWrite c f :: pushAll bytes, writeRefusal c w.1 w.2 = none := by
  intro w hw
  rcases List.mem_cons.1 hw with rfl | hw
  · exact (writeRefusal_byte hc _ _).trans (fieldRefusal_framing.2 h)
  · exact pushAll_ok c bytes w hw

theorem takeResponse_next {k : RespKind} {e : List Byte} {s : State} (h : s.seq = none) :
    takeResponse k e s = .next ((s.regRead .fifoLevel).2.goOn
      (.resp { kind := k, expected := e, n := levelOf s.cfg (s.regRead .fifoLevel).1 })) := by
  unfold takeResponse
  rw [whenIdle_idle _ h]

theorem execTransferByte_next {out : Byte} {s : State} (h : s.seq = none) :
    execTransferByte out s = .next ((s.shiftOut out).draw.2.finish { data := [(s.shiftOut out).draw.1] }) := by
  unfold execTransferByte
  rw [whenIdle_idle _ h]

theorem execRegRead_next {a : RegAddr} {r : Reg} {s : State} (h : s.seq = none) (hr : regOf s.cfg a = some r) :
    execRegRead a s = .next ((s.regRead r).2.finish { data := [(s.regRead r).1] }) := by
  unfold execRegRead withReg
  rw [whenIdle_idle _ h, hr]

theorem takeResponse_keeps {k : RespKind} {e : List Byte} {s t : State} (hs : s.Steady)
    (h : takeResponse k e s = .next t) : t.Inv ∧ t.cfg = s.cfg := by
  rw [takeResponse_next (whenIdle_next h).1] at h
  obtain rfl := Host.Outcome.next.inj h
  exact ⟨inv_goOn (steady_regRead hs _) trivial, by simp⟩

theorem issueOp_keeps {r : Running} {s t : State} (hs : s.Steady) (hr : r.Ok s) (h : issueOp r s = .next t) :
    t.Inv ∧ t.cfg = s.cfg := by
  obtain ⟨-, h⟩ := whenIdle_next h
  cases h
  exact ⟨inv_goOn hs hr, rfl⟩

/-- Every meaning keeps the invariant and the parameters. -/
theorem exec_keeps {i : Instr} {s t : State} (hs : s.Steady) (h : exec i s = .next t) : t.Inv ∧ t.cfg = s.cfg := by
  cases i <;> simp only [exec] at h
  case transferByte out =>
    rw [execTransferByte_next (whenIdle_next h).1] at h
    obtain rfl := Host.Outcome.next.inj h
    exact ⟨inv_finish (steady_draw (steady_shiftOut hs _)) _, by simp⟩
  case regWrite a v =>
    obtain ⟨-, h⟩ := whenIdle_next h
    obtain ⟨r, -, h⟩ := withReg_next h
    exact rawWrite_keeps hs h
  case regRead a =>
    have hq := (whenIdle_next h).1
    obtain ⟨r, hr, -⟩ := withReg_next (whenIdle_next h).2
    rw [execRegRead_next hq hr] at h
    obtain rfl := Host.Outcome.next.inj h
    exact ⟨inv_finish (steady_regRead hs _) _, by simp⟩
  case setBits a m =>
    obtain ⟨-, h⟩ := whenIdle_next h
    obtain ⟨r, -, h⟩ := withReg_next h
    exact rawModify_keeps hs (setIn_drops _ _ _) h
  case clearBits a m =>
    obtain ⟨-, h⟩ := whenIdle_next h
    obtain ⟨r, -, h⟩ := withReg_next h
    exact rawModify_keeps hs (clearIn_drops _ _ _) h
  case cmdIdle => exact rawWrite_keeps hs h
  case cmdCalcCrc => exact rawWrite_keeps hs h
  case cmdTransceive => exact rawWrite_keeps hs h
  case flush => exact rawWrite_keeps hs h
  case startSend => exact rawModify_keeps hs (setIn_drops _ _ _) h
  case stopSend => exact rawModify_keeps hs (clearIn_drops _ _ _) h
  case computeCrc src dst =>
    unfold execComputeCrc at h
    split_ifs at h
    · cases (whenIdle_next h).2
    · exact issueOp_keeps (r := .crc _) hs ⟨Nat.zero_le _, fun e => by cases e⟩ h
  case transceive inp out =>
    unfold execTransceive at h
    split_ifs at h
    · cases (whenIdle_next h).2
    · exact issueOp_keeps (r := .trx _) hs
        ⟨Nat.zero_le _, (fun e => by cases e), (fun e => by rcases e with e | e <;> cases e)⟩ h
  case frameReqa => exact emit_keeps hs (framedPushAll_ok hs.cfg _ _ (by decide)) h
  case frameWupa => exact emit_keeps hs (framedPushAll_ok hs.cfg _ _ (by decide)) h
  case frameAnticoll => exact emit_keeps hs (framedPushAll_ok hs.cfg _ _ (by decide)) h
  case frameSelect => exact emitWithCrc_keeps hs h
  case frameRead => exact emitWithCrc_keeps hs h
  case frameWrite => exact emitWithCrc_keeps hs h
  case frameHalt => exact emit_keeps hs (pushAll_ok _ _) h
  case respAtqa => exact takeResponse_keeps hs h
  case respUid => exact takeResponse_keeps hs h
  case respSak => exact takeResponse_keeps hs h
  case respRead => exact takeResponse_keeps hs h
  case respAck => exact takeResponse_keeps hs h
  all_goals exact issueOp_keeps (r := .card _) hs trivial h

theorem steady_issues {s : State} (h : s.Steady) (l : List Issue) : ({ s with issues := l }).Steady := by
  obtain ⟨h1, h2, h3, h4, h5, h6, h7, h8, h9, h10, h11⟩ := h
  exact ⟨h1, h2, h3, h4, h5, h6, h7, h8, h9, h10, h11⟩

theorem refuse_keeps {s : State} (h : s.Inv) (x : Refusal) : (s.refuse x).Inv := by
  obtain ⟨⟨h1, h2, h3, h4, h5, h6, h7, h8, h9, h10, h11⟩, hq⟩ := h
  exact ⟨⟨h1, h2, h3, h4, h5, h6, h7, h8, h9, h10, h11⟩, fun r e => by
    have := hq r e; cases r <;> exact this⟩

theorem refuseOverlaps_keeps {s : State} (h : s.Inv) : s.refuseOverlaps.Inv := by
  unfold State.refuseOverlaps
  split
  · exact h
  · obtain ⟨⟨h1, h2, h3, h4, h5, h6, h7, h8, h9, h10, h11⟩, hq⟩ := h
    exact ⟨⟨h1, h2, h3, h4, h5, h6, h7, h8, h9, h10, h11⟩, fun r e => by
      have := hq r e; cases r <;> exact this⟩

/-- Every move keeps the invariant and the parameters. -/
theorem move_keeps {s t : State} (h : s.Inv) (ht : move s = .next t) : t.Inv ∧ t.cfg = s.cfg := by
  unfold move at ht
  split at ht
  · rename_i r e
    have ho := refuseOverlaps_keeps h
    have ⟨hi, hc⟩ := seqStep_keeps ho.steady (ho.seq r (by simpa using e)) ht
    exact ⟨hi, by simpa using hc⟩
  · rename_i idle
    unfold hostMove at ht
    split at ht
    · cases ht; exact ⟨h, rfl⟩
    · rename_i rest _
      have hr : ({ s with issues := rest } : State).Inv :=
        ⟨steady_issues h.steady rest, fun r e => by cases idle.symm.trans e⟩
      obtain e | ⟨x, -, rfl⟩ := answer_next ht
      · split at e
        · exact exec_keeps (s := { s with issues := rest }) hr.steady e
        · cases e
      · exact ⟨refuse_keeps hr x, rfl⟩

/-! ### Operations that overrun nothing come to their end -/

theorem covers_scratch {c : Config} {o n : Nat} (h : o + n ≤ c.frameCap) : Covers c (scratchFrom c o) n := by
  intro i hi
  show o + i < c.frameCap
  omega

theorem covers_area {c : Config} {r : Region} {n : Nat} (h : Holds c r n) : Covers c (areaOf r) n := by
  intro i hi
  obtain ⟨h1, h2⟩ := h
  show i < r.len ∧ r.base + i < c.hostMemSize
  omega

theorem covers_area_from {c : Config} {r : Region} {o n : Nat} (h : Holds c r (o + n)) :
    Covers c ((areaOf r).from o) n := by
  intro i hi
  obtain ⟨h1, h2⟩ := h
  show i < r.len - o ∧ r.base + o + i < c.hostMemSize
  omega

theorem Holds.mono {c : Config} {r : Region} {m n : Nat} (h : Holds c r n) (hm : m ≤ n) : Holds c r m := by
  obtain ⟨h1, h2⟩ := h
  exact ⟨by omega, by omega⟩

theorem scratch_from (c : Config) (o n : Nat) (h : o + n ≤ c.frameCap) :
    Covers c ((scratchFrom c 0).from o) n := by
  intro i hi
  show 0 + o + i < c.frameCap
  omega

theorem crcFrame_fits {c : Config} {op : CardOp} (hc : 9 ≤ c.frameCap) (h : op.Fits c) : (op.crcFrame c).Fits c := by
  cases op with
  | request code buf =>
    exact ⟨Nat.zero_le _, covers_area (Holds.mono h (Nat.zero_le _)), covers_area_from (o := 0) (n := 2) (Holds.mono h (by omega)),
      fun e => by rcases e with e | e <;> cases e⟩
  | readUid cmd arg buf =>
    exact ⟨Nat.zero_le _, covers_area (Holds.mono h (Nat.zero_le _)), covers_area_from (o := 0) (n := 2) (Holds.mono h (by omega)),
      fun e => by rcases e with e | e <;> cases e⟩
  | select cmd arg serial =>
    exact ⟨(show 7 ≤ c.frameCap by omega), covers_scratch (o := 0) (n := 7) (by omega), scratch_from c 7 2 (by omega),
      fun e => by rcases e with e | e <;> cases e⟩
  | readPage page buf =>
    exact ⟨(show 2 ≤ c.frameCap by omega), covers_area (n := 2) (Holds.mono h (by omega)), covers_area_from (o := 2) (n := 2) (Holds.mono h (by omega)),
      fun e => by rcases e with e | e <;> cases e⟩
  | writePage page data =>
    exact ⟨(show 6 ≤ c.frameCap by omega), covers_scratch (o := 0) (n := 6) (by omega), scratch_from c 6 2 (by omega),
      fun e => by rcases e with e | e <;> cases e⟩
  | halt =>
    exact ⟨(show 2 ≤ c.frameCap by omega), covers_scratch (o := 0) (n := 2) (by omega), scratch_from c 2 2 (by omega),
      fun e => by rcases e with e | e <;> cases e⟩

theorem trxFrame_fits {c : Config} {op : CardOp} (hc : 9 ≤ c.frameCap) (h : op.Fits c) : (op.trxFrame c).Fits c := by
  cases op with
  | request code buf =>
    exact ⟨(show 1 ≤ 1 by decide), (show 1 ≤ c.frameCap by omega), covers_area (n := 1) (Holds.mono h (by omega)), covers_area h,
      fun e => by (rcases e with e | e <;> cases e), fun e => by (rcases e with e | e <;> cases e)⟩
  | readUid cmd arg buf =>
    exact ⟨(show 1 ≤ 2 by decide), (show 2 ≤ c.frameCap by omega), covers_area (n := 2) (Holds.mono h (by omega)), covers_area h,
      fun e => by (rcases e with e | e <;> cases e), fun e => by (rcases e with e | e <;> cases e)⟩
  | select cmd arg serial =>
    exact ⟨(show 1 ≤ 9 by decide), (show 9 ≤ c.frameCap by omega), covers_scratch (o := 0) (n := 9) (by omega), covers_area h,
      fun e => by (rcases e with e | e <;> cases e), fun e => by (rcases e with e | e <;> cases e)⟩
  | readPage page buf =>
    exact ⟨(show 1 ≤ 4 by decide), (show 4 ≤ c.frameCap by omega), covers_area (n := 4) (Holds.mono h (by omega)), covers_area h,
      fun e => by (rcases e with e | e <;> cases e), fun e => by (rcases e with e | e <;> cases e)⟩
  | writePage page data =>
    exact ⟨(show 1 ≤ 8 by decide), (show 8 ≤ c.frameCap by omega), covers_scratch (o := 0) (n := 8) (by omega), covers_scratch (o := 0) (n := c.frameCap) (by omega),
      fun e => by (rcases e with e | e <;> cases e), fun e => by (rcases e with e | e <;> cases e)⟩
  | halt =>
    exact ⟨(show 1 ≤ 4 by decide), (show 4 ≤ c.frameCap by omega), covers_scratch (o := 0) (n := 4) (by omega), covers_scratch (o := 0) (n := c.frameCap) (by omega),
      fun e => by (rcases e with e | e <;> cases e), fun e => by (rcases e with e | e <;> cases e)⟩

theorem crcFrame_left (c : Config) (op : CardOp) : (op.crcFrame c).stepsLeft ≤ crcPollBudget + 25 := by
  cases op <;> simp [CardOp.crcFrame, appendCrc, CrcFrame.stepsLeft] <;> omega

theorem trxFrame_left (c : Config) (op : CardOp) :
    (op.trxFrame c).stepsLeft c ≤ trxPollBudget + 2 * c.frameCap + 34 := by
  cases op <;> simp [CardOp.trxFrame, TrxFrame.stepsLeft] <;> omega

/-- Each call overruns nothing and ends within its count. -/
theorem callCrc_fits {c : CardFrame} {s : State} (hc : 9 ≤ s.cfg.frameCap) (h : c.op.Fits s.cfg) :
    (callCrc c s).Fits s.cfg ∧ (callCrc c s).stepsLeft s.cfg < callSteps s.cfg := by
  refine ⟨⟨h, crcFrame_fits hc h⟩, ?_⟩
  have := crcFrame_left s.cfg c.op
  show (c.op.crcFrame s.cfg).stepsLeft + trxCallSteps s.cfg < _
  unfold callSteps; omega

theorem callTrx_fits {c : CardFrame} {s : State} (hc : 9 ≤ s.cfg.frameCap) (h : c.op.Fits s.cfg) :
    (callTrx c s).Fits s.cfg ∧ (callTrx c s).stepsLeft s.cfg < trxCallSteps s.cfg := by
  refine ⟨⟨h, trxFrame_fits hc h⟩, ?_⟩
  have := trxFrame_left s.cfg c.op
  show (c.op.trxFrame s.cfg).stepsLeft s.cfg + 6 < _
  unfold trxCallSteps; omega

theorem trxCallSteps_le (c : Config) : trxCallSteps c ≤ callSteps c := by unfold callSteps; omega

/-- A card operation's own line that overruns nothing does not fault and leaves fewer steps. -/
theorem cardStep_fits {c : CardFrame} {s : State} (hs : s.Steady) (hf : c.op.Fits s.cfg) (hp : c.Placed) :
    ∃ t, cardStep c s = .next t ∧ 1 ≤ c.stepsLeft s.cfg ∧
      ∀ r, t.seq = some r → r.Fits s.cfg ∧ r.stepsLeft s.cfg < c.stepsLeft s.cfg := by
  have hc := hs.cfg.2.2.2.1
  have hle := trxCallSteps_le s.cfg
  obtain ⟨op, line, i, u, bl⟩ := c
  have crc : ∀ (t : State), t.cfg = s.cfg → ∀ (l : CardLine) (j : Nat) (w : List Byte) (b : Nat),
      (callCrc ⟨op, l, j, w, b⟩ t).Fits s.cfg ∧ (callCrc ⟨op, l, j, w, b⟩ t).stepsLeft s.cfg < callSteps s.cfg := by
    intro t ht l j w b
    have := callCrc_fits (c := ⟨op, l, j, w, b⟩) (s := t) (by rw [ht]; exact hc) (by rw [ht]; exact hf)
    rwa [ht] at this
  have trx : ∀ (t : State), t.cfg = s.cfg → ∀ (l : CardLine) (j : Nat) (w : List Byte) (b : Nat),
      (callTrx ⟨op, l, j, w, b⟩ t).Fits s.cfg ∧ (callTrx ⟨op, l, j, w, b⟩ t).stepsLeft s.cfg < callSteps s.cfg := by
    intro t ht l j w b
    have := callTrx_fits (c := ⟨op, l, j, w, b⟩) (s := t) (by rw [ht]; exact hc) (by rw [ht]; exact hf)
    rw [ht] at this
    exact ⟨this.1, Nat.lt_of_lt_of_le this.2 hle⟩
  have upd : ∀ (a : Area) (j : Nat) (v : Byte), s.reaches a j = true →
      ∃ t, s.areaWrite a j v = some t ∧ t.cfg = s.cfg := by
    intro a j v h
    obtain ⟨t, ht⟩ := areaWrite_reaches v h
    exact ⟨t, ht, areaWrite_cfg ht⟩
  cases op with
  | request code buf =>
    rcases hp with ⟨rfl, rfl⟩ | ⟨rfl, hi⟩
    · exact ⟨_, rfl, by simp [CardFrame.stepsLeft], fun r e => by
        cases e; exact ⟨⟨hf, .inr ⟨rfl, Nat.one_pos⟩⟩, by simp [Running.stepsLeft, CardFrame.stepsLeft]⟩⟩
    · obtain rfl : i = 0 := by simpa using hi
      obtain ⟨t, ht, hcfg⟩ := upd (areaOf buf) 0 code (reaches_of_covers (covers_area hf) (by omega))
      refine ⟨_, by simp only [cardStep, CardOp.buffer, putByte, ht]; rfl, by simp only [CardFrame.stepsLeft]; omega, fun r e => ?_⟩
      obtain rfl := Option.some.inj e
      have := trx t hcfg .put 0 u bl
      exact ⟨this.1, Nat.lt_of_lt_of_le this.2 (by simp [CardFrame.stepsLeft])⟩
  | readUid cmd arg buf =>
    rcases hp with ⟨rfl, rfl⟩ | ⟨rfl, hi⟩ | ⟨rfl, hi⟩
    · exact ⟨_, rfl, by simp [CardFrame.stepsLeft], fun r e => by
        cases e; exact ⟨⟨hf, .inr (.inl ⟨rfl, Nat.two_pos⟩)⟩, by simp [Running.stepsLeft, CardFrame.stepsLeft]⟩⟩
    · dsimp only at hi
      obtain ⟨t, ht, hcfg⟩ := upd (areaOf buf) i ([cmd, arg].getD i 0#8)
        (reaches_of_covers (covers_area hf) (Nat.lt_of_lt_of_le hi (by omega)))
      refine ⟨_, by simp only [cardStep, CardOp.buffer, putByte, ht]; rfl, by simp only [CardFrame.stepsLeft]; omega, fun r e => ?_⟩
      obtain rfl := Option.some.inj e
      simp only [afterPut, CardOp.putCount]
      by_cases h : i + 1 < 2 <;> simp only [h, if_true, if_false]
      · exact ⟨⟨hf, .inr (.inl ⟨rfl, h⟩)⟩, by simp only [Running.stepsLeft, CardFrame.stepsLeft]; omega⟩
      · have := trx t hcfg .put i u bl
        exact ⟨this.1, Nat.lt_of_lt_of_le this.2 (by simp [CardFrame.stepsLeft])⟩
    · dsimp only at hi
      have hr := areaRead_of_covers (s := s) (covers_area hf) (Nat.lt_of_lt_of_le hi (by omega))
      refine ⟨_, by simp only [cardStep, CardOp.buffer, hr]; rfl, by simp only [CardFrame.stepsLeft]; omega, fun r e => ?_⟩
      unfold afterCheck at e
      dsimp only at e
      split_ifs at e with h
      · obtain rfl := Option.some.inj e
        exact ⟨⟨hf, .inr (.inr ⟨rfl, h⟩)⟩, by simp only [Running.stepsLeft, CardFrame.stepsLeft]; omega⟩
      · cases e
      · cases e
  | select cmd arg serial =>
    rcases hp with ⟨rfl, rfl, hi⟩ | ⟨rfl, hi, hu⟩
    · dsimp only at hi
      have hr := areaRead_of_covers (s := s) (covers_area hf) (Nat.lt_of_lt_of_le hi (by omega : 4 ≤ s.cfg.frameCap))
      refine ⟨_, by simp only [cardStep, CardOp.buffer, hr]; rfl, by simp [CardFrame.stepsLeft], fun r e => ?_⟩
      obtain rfl := Option.some.inj e
      unfold afterLoad
      dsimp only
      split_ifs with h
      · refine ⟨⟨hf, .inl ⟨rfl, rfl, h⟩⟩, ?_⟩
        simp only [Running.stepsLeft, CardFrame.stepsLeft, List.length_append, List.length_singleton]
        omega
      · simp only [List.length_append, List.length_singleton] at h
        refine ⟨⟨hf, .inr ⟨rfl, (show 0 < 7 by decide), ?_⟩⟩, ?_⟩
        · simp only [List.length_append, List.length_singleton]; omega
        · simp only [Running.stepsLeft, CardFrame.stepsLeft, List.length_append, List.length_singleton]
          omega
    · dsimp only at hi hu
      obtain ⟨t, ht, hcfg⟩ := upd (scratchFrom s.cfg 0) i (buildByte s.cfg ⟨.select cmd arg serial, .build, i, u, bl⟩)
        (reaches_of_covers (covers_scratch (o := 0) (n := 7) (by omega)) hi)
      refine ⟨_, by simp only [cardStep, ht]; rfl, by simp only [CardFrame.stepsLeft]; omega, fun r e => ?_⟩
      obtain rfl := Option.some.inj e
      unfold afterBuild
      dsimp only
      split_ifs with h
      · exact ⟨⟨hf, .inr ⟨rfl, h, hu⟩⟩, by simp only [Running.stepsLeft, CardFrame.stepsLeft]; omega⟩
      · have := crc t hcfg .build (i + 1) u bl
        exact ⟨this.1, Nat.lt_of_lt_of_le this.2 (by simp only [CardFrame.stepsLeft]; omega)⟩
  | readPage page buf =>
    obtain ⟨rfl, hi⟩ := hp
    dsimp only at hi
    obtain ⟨t, ht, hcfg⟩ := upd (areaOf buf) i ([s.cfg.opRead, page].getD i 0#8)
      (reaches_of_covers (covers_area hf) (Nat.lt_of_lt_of_le hi (by omega)))
    refine ⟨_, by simp only [cardStep, CardOp.buffer, putByte, ht]; rfl, by simp only [CardFrame.stepsLeft]; omega, fun r e => ?_⟩
    obtain rfl := Option.some.inj e
    simp only [afterPut, CardOp.putCount]
    by_cases h : i + 1 < 2 <;> simp only [h, if_true, if_false]
    · exact ⟨⟨hf, ⟨rfl, h⟩⟩, by simp only [Running.stepsLeft, CardFrame.stepsLeft]; omega⟩
    · have := crc t hcfg .put i u bl
      exact ⟨this.1, Nat.lt_of_lt_of_le this.2 (by simp [CardFrame.stepsLeft])⟩
  | writePage page data =>
    have bld : ∀ (j : Nat) (w : List Byte), j < 6 →
        (j < 2 ∧ w = [] ∨ j + 1 = w.length + 2) →
        ∃ t, cardStep ⟨.writePage page data, .build, j, w, bl⟩ s = .next t ∧
          ∀ r, t.seq = some r → r.Fits s.cfg ∧
            r.stepsLeft s.cfg < callSteps s.cfg + 2 * (9 - j) + 2 * (4 - w.length) := by
      intro j w hj hw
      obtain ⟨t, ht, hcfg⟩ := upd (scratchFrom s.cfg 0) j
        (buildByte s.cfg ⟨.writePage page data, .build, j, w, bl⟩)
        (reaches_of_covers (covers_scratch (o := 0) (n := 6) (by omega)) hj)
      refine ⟨_, by simp only [cardStep, ht]; rfl, fun r e => ?_⟩
      obtain rfl := Option.some.inj e
      unfold afterBuild
      dsimp only
      split_ifs with h1 h2
      · have hw0 : w = [] := by
          rcases hw with hw | hw
          · exact hw.2
          · exact List.length_eq_zero_iff.1 (by omega)
        exact ⟨⟨hf, .inl ⟨rfl, h1, hw0⟩⟩, by simp only [Running.stepsLeft, CardFrame.stepsLeft]; omega⟩
      · refine ⟨⟨hf, .inr (.inl ⟨rfl, ?_, h2⟩)⟩, by simp only [Running.stepsLeft, CardFrame.stepsLeft]; omega⟩
        rcases hw with ⟨hw, rfl⟩ | hw
        · simp only [List.length_nil]; omega
        · dsimp only; omega
      · have := crc t hcfg .build (j + 1) w bl
        exact ⟨this.1, Nat.lt_of_lt_of_le this.2 (by omega)⟩
    rcases hp with ⟨rfl, hi, rfl⟩ | ⟨rfl, hi, hi2⟩ | ⟨rfl, hi, hi2⟩ | rfl
    · dsimp only at hi
      obtain ⟨t, ht, hr⟩ := bld i [] (by omega) (.inl ⟨hi, rfl⟩)
      exact ⟨t, ht, by simp only [CardFrame.stepsLeft]; omega, fun r e => hr r e⟩
    · dsimp only at hi hi2
      have hr := areaRead_of_covers (s := s) (covers_area hf) (show u.length < 4 by omega)
      refine ⟨_, by simp only [cardStep, CardOp.buffer, hr]; rfl, by simp only [CardFrame.stepsLeft]; omega, fun r e => ?_⟩
      obtain rfl := Option.some.inj e
      refine ⟨⟨hf, .inr (.inr (.inl ⟨rfl, ?_, hi2⟩))⟩, ?_⟩
      · simp only [List.length_append, List.length_singleton]; omega
      · simp only [afterLoad, Running.stepsLeft, CardFrame.stepsLeft, List.length_append, List.length_singleton]; omega
    · dsimp only at hi hi2
      obtain ⟨t, ht, hr⟩ := bld i u hi2 (.inr hi)
      exact ⟨t, ht, by simp only [CardFrame.stepsLeft]; omega, fun r e => hr r e⟩
    · have hr := areaRead_of_covers (s := s) (covers_scratch (o := 0) (n := 1) (by omega)) (Nat.one_pos)
      exact ⟨_, by simp only [cardStep, hr]; rfl, by simp [CardFrame.stepsLeft], fun r e => by cases e⟩
  | halt =>
    obtain ⟨rfl, hi⟩ := hp
    dsimp only at hi
    obtain ⟨t, ht, hcfg⟩ := upd (scratchFrom s.cfg 0) i (buildByte s.cfg ⟨.halt, .build, i, u, bl⟩)
      (reaches_of_covers (covers_scratch (o := 0) (n := 2) (by omega)) hi)
    refine ⟨_, by simp only [cardStep, ht]; rfl, by simp only [CardFrame.stepsLeft]; omega, fun r e => ?_⟩
    obtain rfl := Option.some.inj e
    unfold afterBuild
    dsimp only
    split_ifs with h
    · exact ⟨⟨hf, ⟨rfl, h⟩⟩, by simp only [Running.stepsLeft, CardFrame.stepsLeft]; omega⟩
    · have := crc t hcfg .build (i + 1) u bl
      exact ⟨this.1, Nat.lt_of_lt_of_le this.2 (by simp only [CardFrame.stepsLeft]; omega)⟩

/-- A card operation whose `TRANSCEIVE` ended is over, or reads at most five bytes more. -/
theorem afterTrx_fits {c : CardFrame} {s : State} (r : TrxResult) (hf : c.op.Fits s.cfg) :
    ∀ q, (afterTrx c r s).seq = some q → q.Fits s.cfg ∧ q.stepsLeft s.cfg < 6 := by
  intro q e
  unfold afterTrx at e
  cases hr : r.status <;> rw [hr] at e
  · unfold afterTrxOk at e
    obtain ⟨op, line, i, u, bl⟩ := c
    cases op <;> first
      | (obtain rfl := Option.some.inj e
         first
          | exact ⟨⟨hf, .inr (.inr ⟨rfl, (show 0 < 5 by decide)⟩)⟩, by simp [Running.stepsLeft, CardFrame.stepsLeft]⟩
          | exact ⟨⟨hf, .inr (.inr (.inr rfl))⟩, by simp [Running.stepsLeft, CardFrame.stepsLeft]⟩)
      | cases e
  · cases e

/-- The sequencer's step of an operation that overruns nothing does not fault and leaves fewer steps. -/
theorem seqStep_fits {r : Running} {s : State} (hs : s.Steady) (hr : r.Ok s) (hf : r.Fits s.cfg) :
    ∃ t, seqStep r s = .next t ∧ 1 ≤ r.stepsLeft s.cfg ∧
      ∀ q, t.seq = some q → q.Fits s.cfg ∧ q.stepsLeft s.cfg < r.stepsLeft s.cfg := by
  have hc := hs.cfg.2.2.2.1
  cases r with
  | writes ws =>
    refine ⟨_, rfl, by simp only [Running.stepsLeft]; omega, fun q e => ?_⟩
    match ws with
    | [] => cases e
    | [(r, v)] => cases e
    | (r, v) :: w :: rest =>
      obtain rfl := Option.some.inj e
      exact ⟨trivial, by simp only [Running.stepsLeft, List.length_cons]; omega⟩
  | resp f =>
    refine ⟨_, rfl, ?_⟩
    have hd := drainCount_le s.cfg f.n
    cases hl : f.line <;> simp only [respStep, hl, Running.stepsLeft]
    · refine ⟨by omega, fun q e => ?_⟩
      obtain rfl := Option.some.inj e
      exact ⟨trivial, by dsimp only; omega⟩
    · refine ⟨by omega, fun q e => ?_⟩
      split_ifs at e with h
      · obtain rfl := Option.some.inj e
        simp only [List.length_append, List.length_singleton] at h
        exact ⟨trivial, by simp only [List.length_append, List.length_singleton]; omega⟩
      · cases e
      · cases e
  | crc f =>
    obtain ⟨hx, h1, hk⟩ := crcStep_fits hr hf
    simp only [seqStep]
    cases e : crcStep f s with
    | go f' s' =>
      rw [e] at hk
      exact ⟨_, rfl, h1, fun q hq => by cases hq; exact ⟨hk.1, hk.2⟩⟩
    | done b s' => exact ⟨_, rfl, h1, fun q hq => by cases hq⟩
    | fault x => exact absurd e (hx x)
  | trx f =>
    obtain ⟨hx, h1, hk⟩ := trxStep_fits hs hr hf
    simp only [seqStep]
    cases e : trxStep f s with
    | go f' s' =>
      rw [e] at hk
      exact ⟨_, rfl, h1, fun q hq => by cases hq; exact ⟨hk.1, hk.2⟩⟩
    | done b s' => exact ⟨_, rfl, h1, fun q hq => by cases hq⟩
    | fault x => exact absurd e (hx x)
  | card c => exact cardStep_fits hs hf.1 hf.2
  | cardCrc c f =>
    obtain ⟨hx, h1, hk⟩ := crcStep_fits hr hf.2
    have hk' := crcStep_keeps hs hr
    simp only [seqStep]
    cases e : crcStep f s with
    | go f' s' =>
      rw [e] at hk
      exact ⟨_, rfl, Nat.le_add_right_of_le h1, fun q hq => by
        cases hq; exact ⟨⟨hf.1, hk.1⟩, Nat.add_lt_add_right hk.2 _⟩⟩
    | done b s' =>
      rw [e] at hk'
      refine ⟨_, rfl, Nat.le_add_right_of_le h1, fun q hq => ?_⟩
      obtain rfl := Option.some.inj hq
      have := callTrx_fits (c := c) (s := s') (by rw [hk'.2]; exact hc) (by rw [hk'.2]; exact hf.1)
      rw [hk'.2] at this
      exact ⟨this.1, Nat.lt_of_lt_of_le this.2 (Nat.le_add_left _ _)⟩
    | fault x => exact absurd e (hx x)
  | cardTrx c f =>
    obtain ⟨hx, h1, hk⟩ := trxStep_fits hs hr hf.2
    have hk' := trxStep_keeps hs hr
    simp only [seqStep]
    cases e : trxStep f s with
    | go f' s' =>
      rw [e] at hk
      exact ⟨_, rfl, Nat.le_add_right_of_le h1, fun q hq => by
        cases hq; exact ⟨⟨hf.1, hk.1⟩, Nat.add_lt_add_right hk.2 _⟩⟩
    | done b s' =>
      rw [e] at hk'
      refine ⟨_, rfl, Nat.le_add_right_of_le h1, fun q hq => ?_⟩
      have := afterTrx_fits b (s := s') (c := c) (by rw [hk'.2]; exact hf.1) q hq
      rw [hk'.2] at this
      exact ⟨this.1, by show _ < f.stepsLeft s.cfg + 6; omega⟩
    | fault x => exact absurd e (hx x)

end Sys2Proof.Machine
end

