-- ==== Sys2Proof/Laws/CrcTrace.lean ====
section
/-! SUPPORT. What holds along a `COMPUTE_CRC`, from its first line to its end (42_crc_unit.md R200-R205). -/

namespace Sys2Proof.Machine

open Sys2Proof

/-- The first `n` bytes of an area, as they stand. -/
def State.areaBytes (s : State) (a : Area) (n : Nat) : List Byte := (List.range n).map (s.peek a)

theorem peek_congr {s t : State} (hm : t.mem = s.mem) (hs : t.scratch = s.scratch) (a : Area) (i : Nat) :
    t.peek a i = s.peek a i := by
  unfold State.peek; rw [hm, hs]

@[simp] theorem areaBytes_length (s : State) (a : Area) (n : Nat) : (s.areaBytes a n).length = n := by
  simp [State.areaBytes]

theorem areaBytes_take_succ (s : State) (a : Area) {n i : Nat} (h : i < n) :
    (s.areaBytes a n).take (i + 1) = (s.areaBytes a n).take i ++ [s.peek a i] := by
  rw [List.take_add_one]
  simp [State.areaBytes, h]

/-- The first two lines are over: the chip is idle, or runs the operation's own command. -/
def CrcLine.started : CrcLine → Bool
  | .clearIrq => false
  | .idle => false
  | .flush => true
  | .readByte => true
  | .pushByte => true
  | .command => true
  | .poll => true
  | .readLow => true
  | .storeLow => true
  | .readHigh => true
  | .storeHigh => true

/-- The command is written. -/
def CrcLine.commanded : CrcLine → Bool
  | .clearIrq => false
  | .idle => false
  | .flush => false
  | .readByte => false
  | .pushByte => false
  | .command => false
  | .poll => true
  | .readLow => true
  | .storeLow => true
  | .readHigh => true
  | .storeHigh => true

/-- The first result byte is stored. -/
def CrcLine.stored : CrcLine → Bool
  | .clearIrq => false
  | .idle => false
  | .flush => false
  | .readByte => false
  | .pushByte => false
  | .command => false
  | .poll => false
  | .readLow => false
  | .storeLow => false
  | .readHigh => true
  | .storeHigh => true

/-- What a `COMPUTE_CRC` never touches, against the state `s0` it was issued in: `BitFramingReg`, the flags of `DivIrqReg`
other than `CRCIRq` where a write can clear one alone, and, unless a transceive was still running then, everything of the
transceive engine. -/
structure CrcFrameKept (s0 s : State) : Prop where
  cfg     : s.cfg = s0.cfg
  framing : s.bitFraming = s0.bitFraming
  trx     : s0.trxState = .off → s.trxState = .off ∧ s.comIrq = s0.comIrq ∧ s.rxLastBits = s0.rxLastBits ∧
    s.txEvents = s0.txEvents ∧ s.txLastBitsLatched = s0.txLastBitsLatched
  others  : s0.cfg.irqWriteMode = .setClear → ∀ i, i ≠ 2 → s.divIrq.getLsbD i = s0.divIrq.getLsbD i

/-- The chip while the command runs: the engine is busy with `data`, or has completed it (R203, R204). -/
structure CrcRunning (data : List Byte) (s : State) : Prop where
  command : s.commandReg = cmdByte s.cfg.cmdCalcCrc
  trx     : s.trxState = .off
  engine  : s.crcState = .busy data ∧ s.fifo = data ∨
    s.crcState = .done ∧ s.crcResult = crc16 s.cfg data ∧ s.fifo.length ≤ data.length

/-- What holds at a line of a `COMPUTE_CRC` whose bytes are `data`, issued with frame `f0` in `s0`. -/
structure CrcTrace (s0 : State) (f0 f : CrcFrame) (s : State) : Prop where
  kept   : CrcFrameKept s0 s
  ops    : f.src = f0.src ∧ f.len = f0.len ∧ f.dst = f0.dst
  memory : f.line.stored = false → s.mem = s0.mem ∧ s.scratch = s0.scratch
  stored : f.line.stored = true → ∃ t, s0.areaWrite f.dst 0 f.lo = some t ∧ s.mem = t.mem ∧ s.scratch = t.scratch
  idle   : f.line.started = true → f.line.commanded = false →
    s.commandReg = cmdByte s.cfg.cmdIdle ∧ s.crcState = .off ∧ s.trxState = .off
  start  : f.line.started = false ∨ f.line = .flush → f.i = 0
  index  : f.line = .readByte ∨ f.line = .pushByte → s.fifo = (s0.areaBytes f0.src f0.len).take f.i
  byte   : f.line = .pushByte → f.byte = s0.peek f0.src f.i
  input  : f.line = .command → s.fifo = s0.areaBytes f0.src f0.len
  run    : f.line.commanded = true → CrcRunning (s0.areaBytes f0.src f0.len) s
  calm   : (∀ d, s0.crcState ≠ .busy d) → f.line.started = false → ∀ d, s.crcState ≠ .busy d
  flag   : (∀ d, s0.crcState ≠ .busy d) → f.line ≠ .clearIrq → (s.divIrq.getLsbD 2 = true ↔ s.crcState = .done ∧ f.line.commanded = true)
  seen   : (∀ d, s0.crcState ≠ .busy d) → f.line.commanded = true → f.line ≠ .poll → f.pollCount < crcPollBudget →
    s.crcState = .done

/-! ### Engine steps along it -/

theorem transmit_off {s : State} (h : s.trxState = .off) : s.transmit = s := by
  simp [State.transmit, State.transmitEnabled, h]

theorem receive_off {s : State} (h : s.trxState = .off) (b : List Byte) (l : BitVec 3) (e : Byte) :
    s.receive b l e = s := by simp [State.receive, h]

theorem timerStep_off {s : State} (h : s.trxState = .off) : s.timerStep = s := by simp [State.timerStep, h]

theorem crcComplete_calm {s : State} (h : ∀ d, s.crcState ≠ .busy d) (l : List Byte) : s.crcComplete l = s := by
  unfold State.crcComplete
  split
  · rename_i d e; exact absurd e (h d)
  · rfl
  · rfl

/-- With both engines off or done with a CRC, no engine step is enabled (41_chip_commands.md R163, R168, R170, R173). -/
theorem engineStep_calm {s : State} (ht : s.trxState = .off) (hc : ∀ d, s.crcState ≠ .busy d) (e : EngineEvent) :
    s.engineStep e = s := by
  cases e with
  | crcComplete l => exact crcComplete_calm hc l
  | transmit => exact transmit_off ht
  | receive b l e => exact receive_off ht b l e
  | timer => exact timerStep_off ht

theorem crcComplete_busy {s : State} {data : List Byte} (h : s.crcState = .busy data) (l : List Byte) :
    s.crcComplete l = { s with
      crcResult := crc16 s.cfg data
      divIrq := s.divIrq ||| crcIrqBit
      fifo := l.take data.length
      crcState := .done } := by simp [State.crcComplete, h]

theorem or_crcIrqBit_other (x : BitVec 7) {i : Nat} (h : i ≠ 2) : (x ||| crcIrqBit).getLsbD i = x.getLsbD i := by
  have : crcIrqBit.getLsbD i = false := by
    by_cases hi : i < 7
    · interval_cases i <;> first | rfl | exact absurd rfl h
    · exact BitVec.getLsbD_of_ge _ _ (by omega)
  rw [BitVec.getLsbD_or, this, Bool.or_false]

theorem clearIrq_crc_other (x : BitVec 7) {i : Nat} (h : i ≠ 2) :
    (irqWrite .setClear divIrqFlags x (clearIrqByte .setClear 0x04#8)).getLsbD i = x.getLsbD i := by
  by_cases hi : i < 7
  · interval_cases i <;> first | exact absurd rfl h | (revert x; decide)
  · rw [BitVec.getLsbD_of_ge _ _ (by omega), BitVec.getLsbD_of_ge _ _ (by omega)]

theorem or_crcIrqBit (x : BitVec 7) : (x ||| crcIrqBit).getLsbD 2 = true := by revert x; decide

theorem crcRunning_engineStep {data : List Byte} {s : State} (h : CrcRunning data s) (e : EngineEvent) :
    CrcRunning data (s.engineStep e) := by
  obtain ⟨h1, h2, h3⟩ := h
  cases e with
  | crcComplete l =>
    rcases h3 with ⟨hb, hf⟩ | ⟨hd, hr⟩
    · simp only [State.engineStep, crcComplete_busy hb]
      exact ⟨h1, h2, .inr ⟨rfl, rfl, by simp [List.length_take]⟩⟩
    · simp only [State.engineStep, crcComplete_calm (s := s) (by simp [hd])]; exact ⟨h1, h2, .inr ⟨hd, hr⟩⟩
  | transmit => simp only [State.engineStep, transmit_off h2]; exact ⟨h1, h2, h3⟩
  | receive b l e => simp only [State.engineStep, receive_off h2]; exact ⟨h1, h2, h3⟩
  | timer => simp only [State.engineStep, timerStep_off h2]; exact ⟨h1, h2, h3⟩

/-- An engine step changes `CRCIRq` and the CRC engine's state only by completing a busy engine (R163). -/
theorem engineStep_crc (s : State) (e : EngineEvent) :
    ((s.engineStep e).divIrq = s.divIrq ∧ (s.engineStep e).crcState = s.crcState ∧
        (s.engineStep e).crcResult = s.crcResult) ∨
      ∃ d, s.crcState = .busy d ∧ (s.engineStep e).crcState = .done ∧
        (s.engineStep e).divIrq = s.divIrq ||| crcIrqBit ∧ (s.engineStep e).crcResult = crc16 s.cfg d := by
  cases e with
  | crcComplete l =>
    cases hs : s.crcState with
    | busy d => exact .inr ⟨d, rfl, by simp [State.engineStep, crcComplete_busy hs]⟩
    | off => exact .inl (by simp [State.engineStep, crcComplete_calm (s := s) (by simp [hs]), hs])
    | done => exact .inl (by simp [State.engineStep, crcComplete_calm (s := s) (by simp [hs]), hs])
  | transmit => exact .inl (by simp [State.engineStep])
  | receive b l e => exact .inl (by simp [State.engineStep])
  | timer => exact .inl (by simp [State.engineStep])

theorem crcFrameKept_engineStep {s0 s : State} (h : CrcFrameKept s0 s) (e : EngineEvent) :
    CrcFrameKept s0 (s.engineStep e) := by
  refine ⟨by simpa using h.cfg, by simpa using h.framing, fun h0 => ?_, fun hm i hi => ?_⟩
  swap
  · rcases engineStep_crc s e with ⟨hd, -⟩ | ⟨d, -, -, hd, -⟩
    · rw [hd]; exact h.others hm i hi
    · rw [hd, or_crcIrqBit_other _ hi]; exact h.others hm i hi
  obtain ⟨h1, h2, h3, h4, h5⟩ := h.trx h0
  cases e with
  | crcComplete l => simp only [State.engineStep, crcComplete_trxState, crcComplete_comIrq, crcComplete_rxLastBits,
      crcComplete_txEvents, crcComplete_txLastBitsLatched]; exact ⟨h1, h2, h3, h4, h5⟩
  | transmit => simp only [State.engineStep, transmit_off h1]; exact ⟨h1, h2, h3, h4, h5⟩
  | receive b l e => simp only [State.engineStep, receive_off h1]; exact ⟨h1, h2, h3, h4, h5⟩
  | timer => simp only [State.engineStep, timerStep_off h1]; exact ⟨h1, h2, h3, h4, h5⟩

theorem crcTrace_engineStep {s0 s : State} {f0 f : CrcFrame} (h : CrcTrace s0 f0 f s) (e : EngineEvent) :
    CrcTrace s0 f0 f (s.engineStep e) := by
  have idle : f.line.started = true → f.line.commanded = false → s.engineStep e = s := fun h1 h2 => by
    obtain ⟨-, hc, ht⟩ := h.idle h1 h2
    exact engineStep_calm ht (by simp [hc]) e
  refine ⟨crcFrameKept_engineStep h.kept e, h.ops, ?_, ?_, ?_, h.start, ?_, h.byte, ?_, ?_, ?_, ?_, ?_⟩
  · simpa using h.memory
  · simpa using h.stored
  · intro h1 h2; rw [idle h1 h2]; exact h.idle h1 h2
  · intro h1; rw [idle (by rcases h1 with h1 | h1 <;> rw [h1] <;> rfl) (by rcases h1 with h1 | h1 <;> rw [h1] <;> rfl)]
    exact h.index h1
  · intro h1; rw [idle (by rw [h1]; rfl) (by rw [h1]; rfl)]; exact h.input h1
  · intro h1; exact crcRunning_engineStep (h.run h1) e
  · intro h0 h1 d
    have hc := h.calm h0 h1
    rcases engineStep_crc s e with ⟨-, hd, -⟩ | ⟨d', hd, -⟩
    · rw [hd]; exact hc d
    · exact absurd hd (hc d')
  · intro h0 h1
    have hf := h.flag h0 h1
    rcases engineStep_crc s e with ⟨hd, hs, -⟩ | ⟨d', hb, hd, hi, -⟩
    · rw [hd, hs]; exact hf
    · rw [hi, hd, or_crcIrqBit]
      have hcm : f.line.commanded = true := by
        cases hst : f.line.started
        · exact absurd hb (h.calm h0 hst d')
        · cases hcm : f.line.commanded
          · exact absurd hb (by simp [(h.idle hst hcm).2.1])
          · rfl
      simp [hcm]
  · intro h0 h1 h2 h3
    have hd := h.seen h0 h1 h2 h3
    rcases engineStep_crc s e with ⟨-, hs, -⟩ | ⟨d', hb, hd', -⟩
    · rw [hs]; exact hd
    · exact hd'

theorem takeEvents_keep {P : State → Prop} {s : State}
    (h : P { s with events := s.takeEvents.2.events, drawCount := s.takeEvents.2.drawCount }) : P s.takeEvents.2 := by
  rw [takeEvents_eq]; exact h

theorem crcTrace_engines {s0 s : State} {f0 f : CrcFrame} (h : CrcTrace s0 f0 f s) : CrcTrace s0 f0 f s.engines := by
  refine engines_keep (P := CrcTrace s0 f0 f) (fun s h => ?_) (fun s e h => crcTrace_engineStep h e) h
  obtain ⟨⟨k1, k2, k3, k4⟩, h2, h3, h4, h5, h13, h6, h7, h8, h9, h10, h11, h12⟩ := h
  rw [takeEvents_eq]
  exact ⟨⟨k1, k2, k3, k4⟩, h2, h3, h4, h5, h13, h6, h7, h8, fun x => ⟨(h9 x).1, (h9 x).2, (h9 x).3⟩, h10, h11, h12⟩

/-! ### The operation's own steps along it -/

/-- How a `COMPUTE_CRC` ends (R204). -/
structure CrcEnd (s0 : State) (f0 : CrcFrame) (r : Byte × Byte) (s : State) : Prop where
  kept   : CrcFrameKept s0 s
  run    : CrcRunning (s0.areaBytes f0.src f0.len) s
  memory : ∃ t u, s0.areaWrite f0.dst 0 r.1 = some t ∧ t.areaWrite f0.dst 1 r.2 = some u ∧ s.mem = u.mem ∧
    s.scratch = u.scratch
  flag   : (∀ d, s0.crcState ≠ .busy d) → (s.divIrq.getLsbD 2 = true ↔ s.crcState = .done)

theorem reaches_congr {s t : State} (h : t.cfg = s.cfg) (a : Area) (i : Nat) : t.reaches a i = s.reaches a i := by
  unfold State.reaches; rw [h]

/-- A buffer write looks at the parameters and the memories only. -/
theorem areaWrite_congr {s t u : State} {a : Area} {i : Nat} {v : Byte} (h : s.areaWrite a i v = some u)
    (hc : t.cfg = s.cfg) (hm : t.mem = s.mem) (hk : t.scratch = s.scratch) :
    ∃ w, t.areaWrite a i v = some w ∧ w.mem = u.mem ∧ w.scratch = u.scratch := by
  obtain ⟨hr, hcase⟩ := areaWrite_cases h
  simp only [State.areaWrite, reaches_congr hc, hr, if_true]
  rcases hcase with ⟨ha, rfl⟩ | ⟨ha, rfl⟩
  · rw [ha]; exact ⟨_, rfl, by rw [hm], hk⟩
  · rw [ha]; exact ⟨_, rfl, hm, by rw [hk]⟩

theorem clearIrq_crc (mode : IrqWriteMode) (x : BitVec 7) :
    (irqWrite mode divIrqFlags x (clearIrqByte mode 0x04#8)).getLsbD 2 = false := by
  cases mode <;> (revert x; decide)

theorem crcFrameKept_setReg {s0 s : State} (hw : s.cfg.Wf) (h : CrcFrameKept s0 s) {r : Reg} (v : Byte)
    (h1 : r ≠ .bitFraming) (h2 : r ≠ .comIrq)
    (h3 : r = .command → commandOf v ≠ s.cfg.cmdTransceive ∨ commandOf v = s.cfg.cmdCalcCrc)
    (h4 : r = .divIrq → v = clearIrqByte s.cfg.irqWriteMode 0x04#8) :
    CrcFrameKept s0 (s.setReg r v) := by
  refine ⟨by simpa using h.cfg, by rw [setReg_bitFraming hw, if_neg h1]; exact h.framing, fun h0 => ?_, fun hm i hi => ?_⟩
  swap
  · rw [setReg_divIrq hw]
    split_ifs with e
    · rw [h4 e, h.cfg, hm, clearIrq_crc_other _ hi]; exact h.others hm i hi
    · exact h.others hm i hi
  obtain ⟨k1, k2, k3, k4, k5⟩ := h.trx h0
  refine ⟨?_, by rw [setReg_comIrq hw, if_neg h2]; exact k2, by simpa using k3, by simpa using k4, by simpa using k5⟩
  rw [setReg_trxState hw]
  split_ifs with e1 e2
  · rcases h3 e1 with h3 | h3
    · exact absurd e2.2 h3
    · exact absurd h3 e2.1
  · rfl
  · exact k1

/-- A push of a byte into the FIFO is a write of no fields but the byte itself. -/
theorem regWrite_fifoData (s : State) (v : Byte) : s.regWrite .fifoData v = s.setReg .fifoData v := by
  simp [State.setReg]

theorem crcFrameKept_regRead {s0 s : State} (h : CrcFrameKept s0 s) (r : Reg) : CrcFrameKept s0 (s.regRead r).2 := by
  refine ⟨by simpa using h.cfg, by simpa using h.framing, fun h0 => ?_, by simpa using h.others⟩
  simpa using h.trx h0

theorem crcFrameKept_areaWrite {s0 s t : State} (h : CrcFrameKept s0 s) {a : Area} {i : Nat} {v : Byte}
    (ht : s.areaWrite a i v = some t) : CrcFrameKept s0 t := by
  rw [areaWrite_eq ht]
  exact ⟨h.cfg, h.framing, h.trx, h.others⟩

theorem crcRunning_regRead {data : List Byte} {s : State} (h : CrcRunning data s) {r : Reg} (hr : r ≠ .fifoData) :
    CrcRunning data (s.regRead r).2 := by
  obtain ⟨h1, h2, h3⟩ := h
  refine ⟨by simpa using h1, by simpa using h2, ?_⟩
  simpa [regRead_fifo, hr] using h3

theorem crcRunning_areaWrite {data : List Byte} {s t : State} (h : CrcRunning data s) {a : Area} {i : Nat} {v : Byte}
    (ht : s.areaWrite a i v = some t) : CrcRunning data t := by
  rw [areaWrite_eq ht]
  exact ⟨h.command, h.trx, h.engine⟩

/-- The next input line, when `f.i` bytes are in the FIFO. -/
theorem crcNextInput_trace {s0 s : State} {f0 f : CrcFrame} (kept : CrcFrameKept s0 s)
    (ops : f.src = f0.src ∧ f.len = f0.len ∧ f.dst = f0.dst) (mem : s.mem = s0.mem ∧ s.scratch = s0.scratch)
    (idle : s.commandReg = cmdByte s.cfg.cmdIdle ∧ s.crcState = .off ∧ s.trxState = .off) (hi : f.i ≤ f.len)
    (fifo : s.fifo = (s0.areaBytes f0.src f0.len).take f.i)
    (flag : (∀ d, s0.crcState ≠ .busy d) → s.divIrq.getLsbD 2 = false) : CrcTrace s0 f0 (crcNextInput f) s := by
  unfold crcNextInput
  by_cases h : f.i < f.len <;> simp only [h, if_true, if_false]
  · exact ⟨kept, ops, fun _ => mem, nofun, fun _ _ => idle, (fun e => by rcases e with e | e <;> cases e),
      fun _ => fifo, nofun, nofun, nofun, fun _ e => (by cases e),
      fun h0 _ => by simp only [flag h0, CrcLine.commanded]; simp, fun _ e => (by cases e)⟩
  · have hlen : f.i = f0.len := by have := ops.2.1; omega
    exact ⟨kept, ops, fun _ => mem, nofun, fun _ _ => idle, (fun e => by rcases e with e | e <;> cases e),
      (fun e => by rcases e with e | e <;> cases e), nofun,
      fun _ => by rw [fifo, hlen]; exact List.take_of_length_le (by simp), nofun, fun _ e => (by cases e),
      fun h0 _ => by simp only [flag h0, CrcLine.commanded]; simp, fun _ e => (by cases e)⟩

/-- A line after the command. -/
theorem crcCommanded_trace {s0 s : State} {f0 f : CrcFrame} (kept : CrcFrameKept s0 s)
    (ops : f.src = f0.src ∧ f.len = f0.len ∧ f.dst = f0.dst) (hc : f.line.commanded = true)
    (mem : f.line.stored = false → s.mem = s0.mem ∧ s.scratch = s0.scratch)
    (stored : f.line.stored = true → ∃ t, s0.areaWrite f.dst 0 f.lo = some t ∧ s.mem = t.mem ∧ s.scratch = t.scratch)
    (run : CrcRunning (s0.areaBytes f0.src f0.len) s)
    (flag : (∀ d, s0.crcState ≠ .busy d) → (s.divIrq.getLsbD 2 = true ↔ s.crcState = .done))
    (seen : (∀ d, s0.crcState ≠ .busy d) → f.line ≠ .poll → f.pollCount < crcPollBudget → s.crcState = .done) :
    CrcTrace s0 f0 f s := by
  have no : f.line.started = true ∧ f.line ≠ .flush ∧ f.line ≠ .readByte ∧ f.line ≠ .pushByte ∧ f.line ≠ .command := by
    revert hc; cases f.line <;> simp [CrcLine.commanded, CrcLine.started]
  obtain ⟨n0, n1, n2, n3, n4⟩ := no
  refine ⟨kept, ops, mem, stored, fun _ e => absurd (hc.symm.trans e) nofun,
    fun e => ?_, fun e => ?_, fun e => absurd e n3, fun e => absurd e n4, fun _ => run,
    fun _ e => absurd (n0.symm.trans e) nofun, fun h0 _ => ?_, fun h0 _ => seen h0⟩
  · rcases e with e | e
    · exact absurd (n0.symm.trans e) nofun
    · exact absurd e n1
  · rcases e with e | e
    · exact absurd e n2
    · exact absurd e n3
  · rw [hc]; simpa using flag h0

/-- One line of a `COMPUTE_CRC`. -/
theorem crcStep_trace {s0 s : State} {f0 f : CrcFrame} (hs : s.Steady) (hf : f.Fits s.cfg)
    (h : CrcTrace s0 f0 f s) : (crcStep f s).Keeps (CrcTrace s0 f0) (CrcEnd s0 f0) := by
  obtain ⟨hcap1, hcap2, hdst, hidx⟩ := hf
  have hdepth := hs.cfg.2.2.2.2.1
  have hne := hs.cfg.codes_ne
  obtain ⟨kept, ops, mem, stored, idle, start, index, byte, input, run, calm, flag, seen⟩ := h
  cases hl : f.line <;> simp only [crcStep, hl] <;>
    simp only [hl, CrcLine.stored, CrcLine.started, CrcLine.commanded, true_imp_iff, false_imp_iff, ne_eq, not_true_eq_false,
      reduceCtorEq, not_false_eq_true, or_true, or_false, or_self, and_true, and_false, iff_false] at mem stored idle start index byte input run calm flag seen
  case clearIrq =>
    refine ⟨crcFrameKept_setReg hs.cfg kept _ nofun nofun nofun (fun _ => rfl), ops, fun _ => by simpa using mem, nofun, nofun,
      fun _ => start, (fun e => by rcases e with e | e <;> cases e), nofun,
      nofun, nofun, fun h0 _ d => ?_, fun _ _ => ?_, fun _ h => (by cases h)⟩
    · simpa [State.clearIrq, setReg_crcState hs.cfg] using calm h0 d
    · simp only [State.clearIrq, setReg_divIrq hs.cfg, if_true, clearIrq_crc]; simp [CrcLine.commanded]
  case idle =>
    have hk := crcFrameKept_setReg hs.cfg kept (r := .command) (cmdByte s.cfg.cmdIdle) nofun nofun
      (fun _ => .inl (by simpa using hne.2.1)) nofun
    refine ⟨hk, ops, fun _ => by simpa using mem, nofun, fun _ _ => ?_, fun _ => start,
      (fun e => by rcases e with e | e <;> cases e), nofun,
      nofun, nofun, fun _ h => (by cases h), fun h0 _ => ?_, fun _ h => (by cases h)⟩
    · simp [setReg_commandReg hs.cfg, setReg_crcState hs.cfg, setReg_trxState hs.cfg, hne]
    · simpa [setReg_divIrq hs.cfg, CrcLine.commanded] using flag h0
  case flush =>
    refine crcNextInput_trace (crcFrameKept_setReg hs.cfg kept _ nofun nofun nofun nofun) ops (by simpa using mem)
      (by simpa [setReg_commandReg hs.cfg, setReg_crcState hs.cfg, setReg_trxState hs.cfg] using idle) (by rw [start]; exact Nat.zero_le _)
      ?_ (by simpa [setReg_divIrq hs.cfg] using flag)
    rw [setReg_fifo hs.cfg, start]; simp [show isFlush flushByte = true by decide]
  case readByte =>
    rw [areaRead_of_covers hcap2 (hidx (.inl hl))]
    exact ⟨kept, ops, fun _ => mem, nofun, fun _ _ => idle, (fun e => by rcases e with e | e <;> cases e),
      fun _ => index, fun _ => by rw [peek_congr mem.1 mem.2, ops.1], nofun, nofun, fun _ e => (by cases e),
      fun h0 _ => by simpa [CrcLine.commanded] using flag h0, fun _ e => (by cases e)⟩
  case pushByte =>
    rw [regWrite_fifoData]
    have hi := hidx (.inr hl)
    refine crcNextInput_trace (crcFrameKept_setReg hs.cfg kept _ nofun nofun nofun nofun) ops (by simpa using mem)
      (by simpa [setReg_commandReg hs.cfg, setReg_crcState hs.cfg, setReg_trxState hs.cfg] using idle) hi
      ?_ (by simpa [setReg_divIrq hs.cfg] using flag)
    have hlen : s.fifo.length < s.cfg.fifoDepth := by
      rw [index, List.length_take, areaBytes_length]; omega
    rw [setReg_fifo hs.cfg]
    simp only [hlen, and_self, if_true]
    rw [areaBytes_take_succ _ _ (by rw [← ops.2.1]; exact hi), index, byte]
  case command =>
    refine crcCommanded_trace (crcFrameKept_setReg hs.cfg kept (r := .command) _ nofun nofun (fun _ => .inr (by simp)) nofun) ops rfl
      (fun _ => by simpa using mem) nofun ⟨?_, ?_, .inl ⟨?_, ?_⟩⟩ (fun h0 => ?_) (fun _ e => absurd rfl e)
    · simp [setReg_commandReg hs.cfg]
    · simp [setReg_trxState hs.cfg]
    · simp [setReg_crcState hs.cfg, input]
    · simp [setReg_fifo hs.cfg, input]
    · have := flag h0
      simp only [setReg_divIrq hs.cfg, setReg_crcState hs.cfg, commandOf_cmdByte, if_true, reduceCtorEq, if_false]
      simpa using this
  case poll =>
    obtain ⟨d, hd⟩ := regRead_divIrq_val s
    have hcm : (crcAfterPoll s.cfg f (s.regRead .divIrq).1).line.commanded = true ∧
        (crcAfterPoll s.cfg f (s.regRead .divIrq).1).line.stored = false := by
      unfold crcAfterPoll; dsimp only; split_ifs <;> exact ⟨rfl, rfl⟩
    refine crcCommanded_trace (crcFrameKept_regRead kept _) ops hcm.1 (fun _ => by simpa using mem)
      (fun e => absurd (hcm.2.symm.trans e) nofun) (crcRunning_regRead run nofun) (fun h0 => by simpa using flag h0)
      (fun h0 e1 e2 => ?_)
    have hf := flag h0
    simp only [crcAfterPoll] at e1 e2
    rw [hd, crcSeen_divIrqValue hs.cfg] at e1
    have : s.divIrq.getLsbD 2 = true := by
      by_contra hn
      simp only [hn, false_or, if_neg (Nat.not_le.2 e2)] at e1
      exact e1 rfl
    simpa using hf.1 this
  case readLow =>
    exact crcCommanded_trace (crcFrameKept_regRead kept _) ops rfl (fun _ => by simpa using mem) nofun
      (crcRunning_regRead run nofun) (fun h0 => by simpa using flag h0) (fun h0 _ e => by simpa using seen h0 e)
  case storeLow =>
    obtain ⟨t, ht⟩ := areaWrite_of_covers (s := s) f.lo hdst (by decide : 0 < 2)
    rw [ht]
    refine crcCommanded_trace (crcFrameKept_areaWrite kept ht) ops rfl nofun (fun _ => ?_) (crcRunning_areaWrite run ht)
      (fun h0 => by rw [areaWrite_eq ht]; exact flag h0) (fun h0 _ e => by rw [areaWrite_eq ht]; exact seen h0 e)
    obtain ⟨w, hw, h1, h2⟩ := areaWrite_congr ht kept.cfg.symm mem.1.symm mem.2.symm
    exact ⟨w, hw, h1.symm, h2.symm⟩
  case readHigh =>
    exact crcCommanded_trace (crcFrameKept_regRead kept _) ops rfl nofun (fun _ => by simpa using stored)
      (crcRunning_regRead run nofun) (fun h0 => by simpa using flag h0) (fun h0 _ e => by simpa using seen h0 e)
  case storeHigh =>
    obtain ⟨u, hu⟩ := areaWrite_of_covers (s := s) f.hi hdst (by decide : 1 < 2)
    rw [hu]
    obtain ⟨t, ht, h1, h2⟩ := stored
    obtain ⟨w, hw, h3, h4⟩ := areaWrite_congr hu ((areaWrite_cfg ht).trans kept.cfg.symm) h1.symm h2.symm
    exact ⟨crcFrameKept_areaWrite kept hu, crcRunning_areaWrite run hu,
      ⟨t, w, by rw [← ops.2.2]; exact ht, by rw [← ops.2.2]; exact hw, h3.symm, h4.symm⟩,
      fun h0 => by rw [areaWrite_eq hu]; exact flag h0⟩

/-- A `COMPUTE_CRC` that begins is on its trace. -/
theorem crcTrace_start {s : State} {f : CrcFrame} (hl : f.line = .clearIrq) (hi : f.i = 0) : CrcTrace s f f s := by
  refine ⟨⟨rfl, rfl, fun h => ⟨h, rfl, rfl, rfl, rfl⟩, fun _ _ _ => rfl⟩, ⟨rfl, rfl, rfl⟩, fun _ => ⟨rfl, rfl⟩, ?_, ?_,
    fun _ => hi, ?_, ?_, ?_, ?_, fun h _ => h, fun _ h => absurd hl h, ?_⟩ <;>
    simp [hl, CrcLine.stored, CrcLine.started, CrcLine.commanded]

/-! ### `ErrorReg` along it -/

/-- The flush of step 3 is over. -/
def CrcLine.flushed (l : CrcLine) : Bool := l.started && l != .flush

/-- With the transceive engine off no engine step touches `ErrorReg` (41_chip_commands.md R163, R169, R170). -/
theorem engineStep_errorReg {s : State} (h : s.trxState = .off) (e : EngineEvent) :
    (s.engineStep e).errorReg = s.errorReg := by
  cases e with
  | crcComplete l => simp [State.engineStep]
  | transmit => simp [State.engineStep, transmit_off h]
  | receive b l e => simp [State.engineStep, receive_off h]
  | timer => simp [State.engineStep, timerStep_off h]

/-- What `ErrorReg` holds at a line of a `COMPUTE_CRC` issued with `e` in it, no transceive running: only the flush clears a
bit of it (42_crc_unit.md R200 step 3, 41_chip_commands.md R175). -/
def CrcLine.errorReg (l : CrcLine) (e : Byte) : Byte := if l.flushed then e &&& ~~~bufferOvfl else e

/-- One line of a `COMPUTE_CRC` keeps `ErrorReg` to that. -/
theorem crcStep_errorReg {s0 s : State} {f0 f : CrcFrame} (hs : s.Steady) (hf : f.Fits s.cfg) (h : CrcTrace s0 f0 f s)
    (he : s.errorReg = f.line.errorReg s0.errorReg) :
    (crcStep f s).Keeps (fun f' s' => s'.errorReg = f'.line.errorReg s0.errorReg)
      (fun _ s' => s'.errorReg = s0.errorReg &&& ~~~bufferOvfl) := by
  obtain ⟨hcap1, hcap2, hdst, hidx⟩ := hf
  have hdepth := hs.cfg.2.2.2.2.1
  have hne := hs.cfg.codes_ne
  have hi := h.index
  have hops := h.ops.2.1
  have next : ∀ g : CrcFrame, (crcNextInput g).line.flushed = true := by
    intro g; unfold crcNextInput; dsimp only; split_ifs <;> rfl
  have pre : ∀ (l : CrcLine) (x : Byte), l.flushed = false → l.errorReg x = x := fun l x h => by simp [CrcLine.errorReg, h]
  have post : ∀ (l : CrcLine) (x : Byte), l.flushed = true → l.errorReg x = x &&& ~~~bufferOvfl := fun l x h => by
    simp [CrcLine.errorReg, h]
  cases hl : f.line <;> simp only [crcStep, hl, Move.Keeps] <;> rw [hl] at he
  case clearIrq =>
    rw [pre _ _ rfl] at he ⊢
    simpa [State.clearIrq, setReg_errorReg hs.cfg] using he
  case idle =>
    rw [pre _ _ rfl] at he ⊢
    simpa [setReg_errorReg hs.cfg, hne] using he
  case flush =>
    rw [pre _ _ rfl] at he
    rw [post _ _ (next _), setReg_errorReg hs.cfg]
    simp [show isFlush flushByte = true by decide, he]
  case readByte =>
    rw [areaRead_of_covers hcap2 (hidx (.inl hl))]
    show s.errorReg = _
    rw [post _ _ rfl] at he ⊢
    exact he
  case pushByte =>
    rw [regWrite_fifoData]
    have hlen : s.fifo.length < s.cfg.fifoDepth := by
      rw [hi (.inr hl), List.length_take, areaBytes_length]
      have := hidx (.inr hl)
      omega
    rw [post _ _ rfl] at he
    rw [post _ _ (next _), setReg_errorReg hs.cfg]
    simpa [hlen] using he
  case command =>
    rw [post _ _ rfl] at he ⊢
    simpa [setReg_errorReg hs.cfg] using he
  case poll =>
    have : (crcAfterPoll s.cfg f (s.regRead .divIrq).1).line.flushed = true := by
      unfold crcAfterPoll; dsimp only; split_ifs <;> rfl
    rw [post _ _ rfl] at he
    rw [post _ _ this]
    simpa using he
  case readLow => rw [post _ _ rfl] at he ⊢; simpa using he
  case readHigh => rw [post _ _ rfl] at he ⊢; simpa using he
  case storeLow =>
    obtain ⟨t, ht⟩ := areaWrite_of_covers (s := s) f.lo hdst (by decide : 0 < 2)
    rw [post _ _ rfl] at he
    rw [ht]; show t.errorReg = _
    rw [post _ _ rfl, areaWrite_eq ht]; exact he
  case storeHigh =>
    obtain ⟨t, ht⟩ := areaWrite_of_covers (s := s) f.hi hdst (by decide : 1 < 2)
    rw [post _ _ rfl] at he
    rw [ht]; show t.errorReg = _
    rw [areaWrite_eq ht]; exact he

end Sys2Proof.Machine
end

