-- ==== Sys2Proof/Laws/PerInstr.lean ====
section
/-! SUPPORT. What holds of each instruction: decoding its words gives it back. -/

namespace Sys2Proof.Laws

/-- Decoding the words of a well-formed instruction gives it back, under any parameters that make sense. -/
def RoundTrip.Statement (i : Instr) : Prop :=
  ∀ c : Config, c.Wf → i.wellFormed c = true → decode c (encode c i) = .ok i

/-- The bytes of a read response decode to it: they are 18, so no shorter form takes them. -/
theorem decodeRxFrame_read (d : List Byte) (l h : Byte) (hd : d.length = 16) :
    decodeRxFrame (d ++ [l, h]) = some (.respRead d l h) := by
  match d, hd with
  | [_, _, _, _, _, _, _, _, _, _, _, _, _, _, _, _], _ => rfl

theorem RoundTrip.transferByte (out : Byte) : RoundTrip.Statement (.transferByte out) := fun _ _ _ => rfl

theorem RoundTrip.regWrite (a : RegAddr) (v : Byte) : RoundTrip.Statement (.regWrite a v) := by
  intro c _ h
  simp only [Instr.wellFormed, Bool.not_eq_true'] at h
  simp [encode, decode, decodeBus_write, nameWrite_regWrite h]

theorem RoundTrip.regRead (a : RegAddr) : RoundTrip.Statement (.regRead a) := fun c _ _ => decodeBus_read c a _

theorem RoundTrip.setBits (a : RegAddr) (m : Byte) : RoundTrip.Statement (.setBits a m) := fun _ _ _ => rfl

theorem RoundTrip.clearBits (a : RegAddr) (m : Byte) : RoundTrip.Statement (.clearBits a m) := fun _ _ _ => rfl

theorem RoundTrip.cmdIdle : RoundTrip.Statement (.cmdIdle) := by
  intro c _ _
  simp [encode, decode, decodeBus_write, nameWrite]

theorem RoundTrip.cmdCalcCrc : RoundTrip.Statement (.cmdCalcCrc) := by
  intro c hc _
  have h := hc.codes_ne
  have : c.cmdBus c.cmdCalcCrc ≠ c.cmdBus c.cmdIdle := fun e => h.1 (hc.cmdBus_inj e).symm
  simp [encode, decode, decodeBus_write, nameWrite, this]

theorem RoundTrip.cmdTransceive : RoundTrip.Statement (.cmdTransceive) := by
  intro c hc _
  have h := hc.codes_ne
  have h1 : c.cmdBus c.cmdTransceive ≠ c.cmdBus c.cmdIdle := fun e => h.2.1 (hc.cmdBus_inj e).symm
  have h2 : c.cmdBus c.cmdTransceive ≠ c.cmdBus c.cmdCalcCrc := fun e => h.2.2 (hc.cmdBus_inj e).symm
  simp [encode, decode, decodeBus_write, nameWrite, h1, h2]

theorem RoundTrip.flush : RoundTrip.Statement (.flush) := by
  intro c hc _
  have h := hc.command_ne_fifoLevel.symm
  simp [encode, decode, decodeBus_write, nameWrite, h]

theorem RoundTrip.startSend : RoundTrip.Statement (.startSend) := fun _ _ _ => rfl

theorem RoundTrip.stopSend : RoundTrip.Statement (.stopSend) := fun _ _ _ => rfl

theorem RoundTrip.computeCrc (src dst : Region) : RoundTrip.Statement (.computeCrc src dst) := fun _ _ _ => rfl

theorem RoundTrip.transceive (inp out : Region) : RoundTrip.Statement (.transceive inp out) := fun _ _ _ => rfl

theorem RoundTrip.request (code : Byte) (buf : Region) : RoundTrip.Statement (.request code buf) := fun _ _ _ => rfl

theorem RoundTrip.readUid (cmd arg : Byte) (buf : Region) : RoundTrip.Statement (.readUid cmd arg buf) := fun _ _ _ => rfl

theorem RoundTrip.select (cmd arg : Byte) (serial : Region) : RoundTrip.Statement (.select cmd arg serial) := fun _ _ _ => rfl

theorem RoundTrip.readPage (page : Byte) (buf : Region) : RoundTrip.Statement (.readPage page buf) := fun _ _ _ => rfl

theorem RoundTrip.writePage (page : Byte) (data : Region) : RoundTrip.Statement (.writePage page data) := fun _ _ _ => rfl

theorem RoundTrip.halt : RoundTrip.Statement (.halt) := fun _ _ _ => rfl

theorem RoundTrip.frameReqa : RoundTrip.Statement (.frameReqa) := fun _ _ _ => rfl

theorem RoundTrip.frameWupa : RoundTrip.Statement (.frameWupa) := fun _ _ _ => rfl

theorem RoundTrip.frameAnticoll (c a : Byte) : RoundTrip.Statement (.frameAnticoll c a) := fun _ _ _ => rfl

theorem RoundTrip.frameSelect (c a u0 u1 u2 u3 l h : Byte) : RoundTrip.Statement (.frameSelect c a u0 u1 u2 u3 l h) := by
  intro c _ _
  simp [encode, decode, listed, decodeTxFrame]

theorem RoundTrip.frameRead (p l h : Byte) : RoundTrip.Statement (.frameRead p l h) := by
  intro c _ _
  simp [encode, decode, listed, decodeTxFrame]

theorem RoundTrip.frameWrite (p d0 d1 d2 d3 l h : Byte) : RoundTrip.Statement (.frameWrite p d0 d1 d2 d3 l h) := by
  intro c _ _
  simp [encode, decode, listed, decodeTxFrame]

theorem RoundTrip.frameHalt : RoundTrip.Statement (.frameHalt) := by
  intro c hc _
  have h : c.opHalt ≠ c.opRead := fun e => hc.2.2.1 e.symm
  simp [encode, decode, listed, decodeTxFrame, haltFrame_eq, h]

theorem RoundTrip.respAtqa (q0 q1 : Byte) : RoundTrip.Statement (.respAtqa q0 q1) := fun _ _ _ => rfl

theorem RoundTrip.respUid (u0 u1 u2 u3 b : Byte) : RoundTrip.Statement (.respUid u0 u1 u2 u3 b) := fun _ _ _ => rfl

theorem RoundTrip.respSak (s l h : Byte) : RoundTrip.Statement (.respSak s l h) := fun _ _ _ => rfl

theorem RoundTrip.respRead (d : List Byte) (l h' : Byte) : RoundTrip.Statement (.respRead d l h') := by
  intro c _ h
  simp only [Instr.wellFormed, beq_iff_eq] at h
  rw [encode, decode, decodeRxFrame_read d l h' h, listed]

theorem RoundTrip.respAck (hi : BitVec 4) : RoundTrip.Statement (.respAck hi) := by
  intro c _ _
  simp [encode, decode, listed, decodeRxFrame, ack_append_low, ack_append_high]

end Sys2Proof.Laws
end

