-- ==== Sys2Proof/Laws/TrxTrace.lean ====
section
/-! SUPPORT. What holds along a `TRANSCEIVE`, from its first line to its end (43_command_engine.md R215-R229). -/

namespace Sys2Proof.Machine

open Sys2Proof

/-- The first two lines after the flag clear are over. -/
def TrxLine.started : TrxLine → Bool
  | .clearIrq => false
  | .idle => false
  | .flush => true
  | .readByte => true
  | .pushByte => true
  | .command => true
  | .startRead => true
  | .startWrite => true
  | .poll => true
  | .stopRead => true
  | .stopWrite => true
  | .readError => true
  | .readLevel => true
  | .readLast => true
  | .drainRead => true
  | .drainStore => true
  | .finalIdle => true

/-- The command is written. -/
def TrxLine.commanded : TrxLine → Bool
  | .clearIrq => false
  | .idle => false
  | .flush => false
  | .readByte => false
  | .pushByte => false
  | .command => false
  | .startRead => true
  | .startWrite => true
  | .poll => true
  | .stopRead => true
  | .stopWrite => true
  | .readError => true
  | .readLevel => true
  | .readLast => true
  | .drainRead => true
  | .drainStore => true
  | .finalIdle => true

/-- `StartSend` is cleared. -/
def TrxLine.stopped : TrxLine → Bool
  | .clearIrq => false
  | .idle => false
  | .flush => false
  | .readByte => false
  | .pushByte => false
  | .command => false
  | .startRead => false
  | .startWrite => false
  | .poll => false
  | .stopRead => false
  | .stopWrite => false
  | .readError => true
  | .readLevel => true
  | .readLast => true
  | .drainRead => true
  | .drainStore => true
  | .finalIdle => true

/-- What a `TRANSCEIVE` never touches, against the state `s0` it was issued in: `BitFramingReg` but for `StartSend`, and,
unless a CRC was still running then, everything of the CRC engine. -/
structure TrxFrameKept (s0 s : State) : Prop where
  cfg     : s.cfg = s0.cfg
  framing : s.bitFraming.extractLsb' 0 7 = s0.bitFraming.extractLsb' 0 7
  crc     : (∀ d, s0.crcState ≠ .busy d) → (∀ d, s.crcState ≠ .busy d) ∧ s.divIrq = s0.divIrq ∧ s.crcResult = s0.crcResult

/-- Both memories as in `s0`, but for the first `n` bytes of an area. -/
structure KeptBut (s0 s : State) (a : Area) (n : Nat) : Prop where
  mem     : ∀ x, (a.space = .host → ∀ i, i < n → x ≠ a.addr i) → Memory.read s.mem x = Memory.read s0.mem x
  scratch : ∀ k, (a.space = .scratch → ∀ i, i < n → k ≠ a.addr i) → s.scratch.getD k 0#8 = s0.scratch.getD k 0#8

/-- The engine while the command runs with `data` to send: armed with the whole frame, or the frame is sent. `base` is the
list of transmissions before. -/
def TrxRunning (data : List Byte) (lastBits : BitVec 3) (base : List TxEvent) (s : State) : Prop :=
  (s.trxState = .armed ∧ s.fifo = data ∧ s.txEvents = base ∧ s.comIrq = 0#7 ∧ s.errorReg = 0#8) ∨
    (s.trxState = .receiving ∧ s.fifo = [] ∧ s.txEvents = ⟨data, lastBits⟩ :: base ∧ s.errorReg = 0#8) ∨
    (s.trxState = .done ∧ s.txEvents = ⟨data, lastBits⟩ :: base)

/-- What holds at a line of a `TRANSCEIVE` issued with frame `f0` in `s0`. -/
structure TrxTrace (s0 : State) (f0 f : TrxFrame) (s : State) : Prop where
  kept   : TrxFrameKept s0 s
  ops    : f.inp = f0.inp ∧ f.len = f0.len ∧ f.out = f0.out
  memory : f.line ≠ .drainRead → f.line ≠ .drainStore → (f.line = .finalIdle → f.status = .err) →
    s.mem = s0.mem ∧ s.scratch = s0.scratch
  started : f.line.started = true → s.crcState = .off
  idle   : f.line.started = true → f.line.commanded = false → s.commandReg = cmdByte s.cfg.cmdIdle ∧ s.trxState = .off
  start  : f.line.started = false ∨ f.line = .flush → f.i = 0
  index  : f.line = .readByte ∨ f.line = .pushByte → s.fifo = (s0.areaBytes f0.inp f0.len).take f.i
  byte   : f.line = .pushByte → f.byte = s0.peek f0.inp f.i
  input  : f.line = .command → s.fifo = s0.areaBytes f0.inp f0.len
  early  : s0.trxState = .off → f.line.commanded = false →
    s.trxState = .off ∧ s.txEvents = s0.txEvents ∧ s.rxLastBits = s0.rxLastBits
  quiet  : s0.trxState = .off → f.line ≠ .clearIrq → f.line.commanded = false → s.comIrq = 0#7
  sent   : f.line.commanded = true → s.commandReg = cmdByte s.cfg.cmdTransceive
  run    : s0.trxState = .off → f.line.commanded = true → f.line.stopped = false →
    TrxRunning (s0.areaBytes f0.inp f0.len) (txLastBitsOf s0.bitFraming) s0.txEvents s
  events : s0.trxState = .off → f.line.stopped = true →
    s.txEvents = s0.txEvents ∨ s.txEvents = ⟨s0.areaBytes f0.inp f0.len, txLastBitsOf s0.bitFraming⟩ :: s0.txEvents
  stopped : f.line.stopped = true → s.bitFraming.getLsbD 7 = false
  drain  : f.line = .drainRead ∨ f.line = .drainStore →
    KeptBut s0 s f0.out f.i ∧ f.i < f.cnt ∧ f.cnt ≤ s0.cfg.frameCap ∧ f.bitLen = bitLength s0.cfg f.n f.lastBits
  final  : f.line = .finalIdle →
    (f.status = .err → f.cause = some .timeout ∨ f.cause = some .hwErr) ∧
      (f.status = .ok → f.cause = none ∧ KeptBut s0 s f0.out s0.cfg.frameCap ∧ f.bitLen = bitLength s0.cfg f.n f.lastBits)

/-! ### Engine steps along it -/

theorem trxFrameKept_engineStep {s0 s : State} (h : TrxFrameKept s0 s) (e : EngineEvent) :
    TrxFrameKept s0 (s.engineStep e) := by
  refine ⟨by simpa using h.cfg, by simpa using h.framing, fun h0 => ?_⟩
  obtain ⟨h1, h2, h3⟩ := h.crc h0
  rcases engineStep_crc s e with ⟨e1, e2, e3⟩ | ⟨d, hd, -⟩
  · rw [e1, e2, e3]; exact ⟨h1, h2, h3⟩
  · exact absurd hd (h1 d)

theorem lastBits_of_framing {x y : Byte} (h : x.extractLsb' 0 7 = y.extractLsb' 0 7) : txLastBitsOf x = txLastBitsOf y := by
  have : ∀ z : Byte, txLastBitsOf z = (z.extractLsb' 0 7).extractLsb' 0 3 := by decide
  rw [this x, this y, h]

theorem trxRunning_engineStep {data : List Byte} {lb : BitVec 3} {base : List TxEvent} {s : State}
    (h : TrxRunning data lb base s) (hc : s.crcState = .off) (hlb : txLastBitsOf s.bitFraming = lb) (e : EngineEvent) :
    TrxRunning data lb base (s.engineStep e) := by
  cases e with
  | crcComplete l => rw [State.engineStep, crcComplete_calm (by simp [hc])]; exact h
  | transmit =>
    rw [State.engineStep]
    unfold State.transmit
    split_ifs with he
    · have ha := (transmitEnabled_iff.1 he).2.1
      rcases h with ⟨-, h2, h3, -, h5⟩ | ⟨h1, -⟩ | ⟨h1, -⟩
      · exact .inr (.inl ⟨rfl, rfl, by simp only [h2, h3, hlb], h5⟩)
      · rw [h1] at ha; cases ha
      · rw [h1] at ha; cases ha
    · exact h
  | receive b l e =>
    rw [State.engineStep]
    unfold State.receive
    rcases h with ⟨h1, h2⟩ | ⟨h1, h2, h3, h4⟩ | ⟨h1, h2⟩
    · simp only [h1]; exact .inl ⟨h1, h2⟩
    · simp only [h1]; exact .inr (.inr ⟨rfl, h3⟩)
    · simp only [h1]; exact .inr (.inr ⟨h1, h2⟩)
  | timer =>
    rw [State.engineStep]
    unfold State.timerStep
    rcases h with ⟨h1, h2⟩ | ⟨h1, h2⟩ | ⟨h1, h2⟩
    · simp only [h1]; exact .inl ⟨h1, h2⟩
    · simp only [h1]; exact .inr (.inl ⟨rfl, h2⟩)
    · simp only [h1]; exact .inr (.inr ⟨rfl, h2⟩)

/-- Without `StartSend` nothing is transmitted (41_chip_commands.md R168). -/
theorem engineStep_txEvents {s : State} (h : s.bitFraming.getLsbD 7 = false) (e : EngineEvent) :
    (s.engineStep e).txEvents = s.txEvents := by
  cases e with
  | transmit =>
    rw [State.engineStep, State.transmit, if_neg]
    intro he
    rw [(transmitEnabled_iff.1 he).2.2.1] at h
    cases h
  | crcComplete l => simp [State.engineStep]
  | receive b l e => simp [State.engineStep]
  | timer => simp [State.engineStep]

theorem engineStep_crcOff {s : State} (h : s.crcState = .off) (e : EngineEvent) : (s.engineStep e).crcState = .off := by
  rcases engineStep_crc s e with ⟨-, e2, -⟩ | ⟨d, hd, -⟩
  · rw [e2]; exact h
  · rw [h] at hd; cases hd

/-- With the transceive engine off, an engine step touches none of its registers. -/
theorem engineStep_trxOff {s : State} (h : s.trxState = .off) (e : EngineEvent) :
    (s.engineStep e).trxState = .off ∧ (s.engineStep e).txEvents = s.txEvents ∧
      (s.engineStep e).rxLastBits = s.rxLastBits ∧ (s.engineStep e).comIrq = s.comIrq := by
  cases e with
  | crcComplete l => simp [State.engineStep, h]
  | transmit => simp [State.engineStep, transmit_off h, h]
  | receive b l e => simp [State.engineStep, receive_off h, h]
  | timer => simp [State.engineStep, timerStep_off h, h]

theorem keptBut_congr {s0 s t : State} {a : Area} {n : Nat} (h : KeptBut s0 s a n) (hm : t.mem = s.mem)
    (hk : t.scratch = s.scratch) : KeptBut s0 t a n := ⟨by rw [hm]; exact h.mem, by rw [hk]; exact h.scratch⟩

theorem trxTrace_engineStep {s0 s : State} {f0 f : TrxFrame} (h : TrxTrace s0 f0 f s) (e : EngineEvent) :
    TrxTrace s0 f0 f (s.engineStep e) := by
  have calm : f.line.started = true → f.line.commanded = false → s.engineStep e = s := fun h1 h2 =>
    engineStep_calm (h.idle h1 h2).2 (by simp [h.started h1]) e
  have hm : (s.engineStep e).mem = s.mem := by simp
  have hk : (s.engineStep e).scratch = s.scratch := by simp
  refine ⟨trxFrameKept_engineStep h.kept e, h.ops, ?_, ?_, ?_, h.start, ?_, h.byte, ?_, ?_, ?_, ?_, ?_, ?_, ?_, ?_, ?_⟩
  · simpa using h.memory
  · exact fun h1 => engineStep_crcOff (h.started h1) e
  · intro h1 h2; rw [calm h1 h2]; exact h.idle h1 h2
  · intro h1; rw [calm (by rcases h1 with h1 | h1 <;> rw [h1] <;> rfl) (by rcases h1 with h1 | h1 <;> rw [h1] <;> rfl)]
    exact h.index h1
  · intro h1; rw [calm (by rw [h1]; rfl) (by rw [h1]; rfl)]; exact h.input h1
  · intro h0 h1
    obtain ⟨e1, e2, e3⟩ := h.early h0 h1
    obtain ⟨k1, k2, k3, -⟩ := engineStep_trxOff e1 e
    exact ⟨k1, k2.trans e2, k3.trans e3⟩
  · intro h0 h1 h2
    rw [(engineStep_trxOff (h.early h0 h2).1 e).2.2.2]; exact h.quiet h0 h1 h2
  · intro h1; simpa using h.sent h1
  · intro h0 h1 h2
    exact trxRunning_engineStep (h.run h0 h1 h2)
      (h.started (by revert h1; cases f.line <;> simp [TrxLine.commanded, TrxLine.started]))
      (lastBits_of_framing h.kept.framing) e
  · intro h0 h1; rw [engineStep_txEvents (h.stopped h1)]; exact h.events h0 h1
  · intro h1; simpa using h.stopped h1
  · intro h1
    obtain ⟨d1, d2⟩ := h.drain h1
    exact ⟨keptBut_congr d1 hm hk, d2⟩
  · intro h1
    obtain ⟨f1, f2⟩ := h.final h1
    exact ⟨f1, fun hs => ⟨(f2 hs).1, keptBut_congr (f2 hs).2.1 hm hk, (f2 hs).2.2⟩⟩

theorem trxTrace_engines {s0 s : State} {f0 f : TrxFrame} (h : TrxTrace s0 f0 f s) : TrxTrace s0 f0 f s.engines := by
  refine engines_keep (P := TrxTrace s0 f0 f) (fun s h => ?_) (fun s e h => trxTrace_engineStep h e) h
  obtain ⟨⟨k1, k2, k3⟩, h1, h2, h3, h4, h5, h6, h7, h8, h9, h10, h11, h12, h13, h14, h15, h16⟩ := h
  rw [takeEvents_eq]
  exact ⟨⟨k1, k2, k3⟩, h1, h2, h3, h4, h5, h6, h7, h8, h9, h10, h11, h12, h13, h14,
    fun x => ⟨⟨(h15 x).1.1, (h15 x).1.2⟩, (h15 x).2⟩,
    fun x => ⟨(h16 x).1, fun y => ⟨((h16 x).2 y).1, ⟨((h16 x).2 y).2.1.1, ((h16 x).2 y).2.1.2⟩, ((h16 x).2 y).2.2⟩⟩⟩

/-! ### The operation's own steps along it -/

/-- How a `TRANSCEIVE` ends (R218, R219, R222, R227, R229). -/
structure TrxEnd (s0 : State) (f0 : TrxFrame) (r : TrxResult) (s : State) : Prop where
  kept    : TrxFrameKept s0 s
  idle    : s.commandReg = cmdByte s.cfg.cmdIdle ∧ s.crcState = .off ∧ s.trxState = .off
  stopped : s.bitFraming.getLsbD 7 = false
  events  : s0.trxState = .off →
    s.txEvents = s0.txEvents ∨ s.txEvents = ⟨s0.areaBytes f0.inp f0.len, txLastBitsOf s0.bitFraming⟩ :: s0.txEvents
  err     : r.status = .err →
    (r.cause = some .timeout ∨ r.cause = some .hwErr) ∧ s.mem = s0.mem ∧ s.scratch = s0.scratch
  ok      : r.status = .ok → r.cause = none ∧ KeptBut s0 s f0.out s0.cfg.frameCap ∧
    ∃ n lb, r.bitLen = bitLength s0.cfg n lb

theorem trxFrameKept_setReg {s0 s : State} (hw : s.cfg.Wf) (h : TrxFrameKept s0 s) {r : Reg} {v : Byte}
    (h1 : r = .bitFraming → v.extractLsb' 0 7 = s.bitFraming.extractLsb' 0 7) (h2 : r ≠ .divIrq)
    (h3 : r = .command → commandOf v ≠ s.cfg.cmdCalcCrc) : TrxFrameKept s0 (s.setReg r v) := by
  refine ⟨by simpa using h.cfg, ?_, fun h0 => ?_⟩
  · rw [setReg_bitFraming hw]
    split_ifs with e
    · rw [h1 e]; exact h.framing
    · exact h.framing
  · obtain ⟨k1, k2, k3⟩ := h.crc h0
    refine ⟨fun d => ?_, by rw [setReg_divIrq hw, if_neg h2]; exact k2, by rw [State.setReg, regWrite_crcResult _ _ fun _ => k1]; exact k3⟩
    rw [setReg_crcState hw]
    split_ifs with e1 e2
    · exact absurd e2 (h3 e1)
    · nofun
    · exact k1 d

theorem trxFrameKept_regRead {s0 s : State} (h : TrxFrameKept s0 s) (r : Reg) : TrxFrameKept s0 (s.regRead r).2 := by
  refine ⟨by simpa using h.cfg, by simpa using h.framing, fun h0 => ?_⟩
  simpa using h.crc h0

theorem trxFrameKept_areaWrite {s0 s t : State} (h : TrxFrameKept s0 s) {a : Area} {i : Nat} {v : Byte}
    (ht : s.areaWrite a i v = some t) : TrxFrameKept s0 t := by
  rw [areaWrite_eq ht]
  exact ⟨h.cfg, h.framing, h.crc⟩

theorem clearIrq_com (mode : IrqWriteMode) (x : BitVec 7) :
    irqWrite mode comIrqFlags x (clearIrqByte mode 0x7F#8) = 0#7 := by
  cases mode <;> (revert x; decide)

theorem framing_set_low (v : Byte) : (v ||| startSendMask).extractLsb' 0 7 = v.extractLsb' 0 7 := by
  revert v; decide

theorem framing_clear_low (v : Byte) : (v &&& ~~~startSendMask).extractLsb' 0 7 = v.extractLsb' 0 7 := by
  revert v; decide

theorem framing_clear_bit (v : Byte) : (v &&& ~~~startSendMask).getLsbD 7 = false := by
  revert v; decide

/-- One more byte of an area written. -/
theorem keptBut_areaWrite {s0 s t : State} {a : Area} {i : Nat} {v : Byte} (h : KeptBut s0 s a i)
    (ht : s.areaWrite a i v = some t) : KeptBut s0 t a (i + 1) := by
  rcases (areaWrite_cases ht).2 with ⟨ha, rfl⟩ | ⟨ha, rfl⟩
  · refine ⟨fun x hx => ?_, fun k hk => h.scratch k (fun e => absurd (ha.symm.trans e) nofun)⟩
    have hx := hx ha
    exact (Memory.read_write_ne v (hx i (by omega))).trans (h.mem x fun _ j hj => hx j (by omega))
  · refine ⟨fun x hx => h.mem x (fun e => absurd (ha.symm.trans e) nofun), fun k hk => ?_⟩
    have hk := hk ha
    have h1 := h.scratch k fun _ j hj => hk j (by omega)
    show (s.scratch.set (a.addr i) v).getD k 0#8 = _
    rw [← h1]
    simp only [List.getD_eq_getElem?_getD, List.getElem?_set_ne (Ne.symm (hk i (by omega)))]

theorem keptBut_mono {s0 s : State} {a : Area} {m n : Nat} (h : KeptBut s0 s a m) (hm : m ≤ n) : KeptBut s0 s a n :=
  ⟨fun x hx => h.mem x fun e i hi => hx e i (by omega), fun k hk => h.scratch k fun e i hi => hk e i (by omega)⟩

theorem keptBut_zero {s0 s : State} {a : Area} (hm : s.mem = s0.mem) (hk : s.scratch = s0.scratch) : KeptBut s0 s a 0 :=
  ⟨fun x _ => by rw [hm], fun k _ => by rw [hk]⟩

/-- The next input line, when `f.i` bytes are in the FIFO. -/
theorem trxNextInput_trace {s0 s : State} {f0 f : TrxFrame} (kept : TrxFrameKept s0 s)
    (ops : f.inp = f0.inp ∧ f.len = f0.len ∧ f.out = f0.out) (mem : s.mem = s0.mem ∧ s.scratch = s0.scratch)
    (idle : s.commandReg = cmdByte s.cfg.cmdIdle ∧ s.crcState = .off ∧ s.trxState = .off) (hi : f.i ≤ f.len)
    (fifo : s.fifo = (s0.areaBytes f0.inp f0.len).take f.i)
    (early : s0.trxState = .off → s.txEvents = s0.txEvents ∧ s.rxLastBits = s0.rxLastBits ∧ s.comIrq = 0#7) :
    TrxTrace s0 f0 (trxNextInput f) s := by
  unfold trxNextInput
  by_cases h : f.i < f.len <;> simp only [h, if_true, if_false]
  · exact ⟨kept, ops, fun _ _ _ => mem, fun _ => idle.2.1, fun _ _ => ⟨idle.1, idle.2.2⟩,
      (fun e => by rcases e with e | e <;> cases e), fun _ => fifo, nofun, nofun,
      fun h0 _ => ⟨idle.2.2, (early h0).1, (early h0).2.1⟩, fun h0 _ _ => (early h0).2.2, nofun,
      fun _ e => (by cases e), fun _ e => (by cases e), nofun, (fun e => by rcases e with e | e <;> cases e), nofun⟩
  · have hlen : f.i = f0.len := by have := ops.2.1; omega
    exact ⟨kept, ops, fun _ _ _ => mem, fun _ => idle.2.1, fun _ _ => ⟨idle.1, idle.2.2⟩,
      (fun e => by rcases e with e | e <;> cases e), (fun e => by rcases e with e | e <;> cases e), nofun,
      fun _ => by rw [fifo, hlen]; exact List.take_of_length_le (by simp),
      fun h0 _ => ⟨idle.2.2, (early h0).1, (early h0).2.1⟩, fun h0 _ _ => (early h0).2.2, nofun,
      fun _ e => (by cases e), fun _ e => (by cases e), nofun, (fun e => by rcases e with e | e <;> cases e), nofun⟩

/-- A line between the command and the end of the `StartSend` clear. -/
theorem trxSending_trace {s0 s : State} {f0 f : TrxFrame} (kept : TrxFrameKept s0 s)
    (ops : f.inp = f0.inp ∧ f.len = f0.len ∧ f.out = f0.out) (hc : f.line.commanded = true) (hst : f.line.stopped = false)
    (mem : s.mem = s0.mem ∧ s.scratch = s0.scratch) (crc : s.crcState = .off)
    (sent : s.commandReg = cmdByte s.cfg.cmdTransceive)
    (run : s0.trxState = .off →
      TrxRunning (s0.areaBytes f0.inp f0.len) (txLastBitsOf s0.bitFraming) s0.txEvents s) : TrxTrace s0 f0 f s := by
  have no : f.line.started = true ∧ f.line ≠ .flush ∧ f.line ≠ .readByte ∧ f.line ≠ .pushByte ∧ f.line ≠ .command ∧
      f.line ≠ .drainRead ∧ f.line ≠ .drainStore ∧ f.line ≠ .finalIdle := by
    revert hc hst; cases f.line <;> simp [TrxLine.commanded, TrxLine.started, TrxLine.stopped]
  obtain ⟨n0, n1, n2, n3, n4, n5, n6, n7⟩ := no
  refine ⟨kept, ops, fun _ _ _ => mem, fun _ => crc, fun _ e => absurd (hc.symm.trans e) nofun, fun e => ?_, fun e => ?_,
    fun e => absurd e n3, fun e => absurd e n4, fun _ e => absurd (hc.symm.trans e) nofun,
    fun _ _ e => absurd (hc.symm.trans e) nofun, fun _ => sent, fun h0 _ _ => run h0,
    fun _ e => absurd (hst.symm.trans e) nofun, fun e => absurd (hst.symm.trans e) nofun, fun e => ?_,
    fun e => absurd e n7⟩
  · rcases e with e | e
    · exact absurd (n0.symm.trans e) nofun
    · exact absurd e n1
  · rcases e with e | e
    · exact absurd e n2
    · exact absurd e n3
  · rcases e with e | e
    · exact absurd e n5
    · exact absurd e n6

/-- A line after the `StartSend` clear. -/
theorem trxStopped_trace {s0 s : State} {f0 f : TrxFrame} (kept : TrxFrameKept s0 s)
    (ops : f.inp = f0.inp ∧ f.len = f0.len ∧ f.out = f0.out) (hst : f.line.stopped = true)
    (mem : f.line ≠ .drainRead → f.line ≠ .drainStore → (f.line = .finalIdle → f.status = .err) →
      s.mem = s0.mem ∧ s.scratch = s0.scratch)
    (crc : s.crcState = .off) (sent : s.commandReg = cmdByte s.cfg.cmdTransceive)
    (events : s0.trxState = .off →
      s.txEvents = s0.txEvents ∨ s.txEvents = ⟨s0.areaBytes f0.inp f0.len, txLastBitsOf s0.bitFraming⟩ :: s0.txEvents)
    (stopped : s.bitFraming.getLsbD 7 = false)
    (drain : f.line = .drainRead ∨ f.line = .drainStore →
      KeptBut s0 s f0.out f.i ∧ f.i < f.cnt ∧ f.cnt ≤ s0.cfg.frameCap ∧ f.bitLen = bitLength s0.cfg f.n f.lastBits)
    (final : f.line = .finalIdle →
      (f.status = .err → f.cause = some .timeout ∨ f.cause = some .hwErr) ∧
        (f.status = .ok → f.cause = none ∧ KeptBut s0 s f0.out s0.cfg.frameCap ∧
          f.bitLen = bitLength s0.cfg f.n f.lastBits)) : TrxTrace s0 f0 f s := by
  have no : f.line.started = true ∧ f.line.commanded = true ∧ f.line ≠ .flush ∧ f.line ≠ .readByte ∧
      f.line ≠ .pushByte ∧ f.line ≠ .command := by
    revert hst; cases f.line <;> simp [TrxLine.commanded, TrxLine.started, TrxLine.stopped]
  obtain ⟨n0, hc, n1, n2, n3, n4⟩ := no
  refine ⟨kept, ops, mem, fun _ => crc, fun _ e => absurd (hc.symm.trans e) nofun, fun e => ?_, fun e => ?_,
    fun e => absurd e n3, fun e => absurd e n4, fun _ e => absurd (hc.symm.trans e) nofun,
    fun _ _ e => absurd (hc.symm.trans e) nofun, fun _ => sent, fun _ _ e => absurd (hst.symm.trans e) nofun,
    fun h0 _ => events h0, fun _ => stopped, drain, final⟩
  · rcases e with e | e
    · exact absurd (n0.symm.trans e) nofun
    · exact absurd e n1
  · rcases e with e | e
    · exact absurd e n2
    · exact absurd e n3

theorem TrxRunning.events {data : List Byte} {lb : BitVec 3} {base : List TxEvent} {s : State}
    (h : TrxRunning data lb base s) : s.txEvents = base ∨ s.txEvents = ⟨data, lb⟩ :: base := by
  rcases h with ⟨-, -, h, -⟩ | ⟨-, -, h, -⟩ | ⟨-, h⟩
  · exact .inl h
  · exact .inr h
  · exact .inr h

theorem trxRunning_regRead {data : List Byte} {lb : BitVec 3} {base : List TxEvent} {s : State}
    (h : TrxRunning data lb base s) {r : Reg} (hr : r ≠ .fifoData) : TrxRunning data lb base (s.regRead r).2 := by
  simpa [TrxRunning, regRead_fifo, hr] using h

theorem trxRunning_framing {data : List Byte} {lb : BitVec 3} {base : List TxEvent} {s : State}
    (h : TrxRunning data lb base s) (v : Byte) : TrxRunning data lb base (s.setReg .bitFraming v) := by
  simpa [TrxRunning, State.setReg, regWrite_fifo, regWrite_trxState, regWrite_comIrq, regWrite_errorReg] using h

/-- A write of `BitFramingReg` is that of its fields. -/
theorem regWrite_framing {s : State} (h : s.cfg.Wf) {v f : Byte} (e : s.cfg.regMap.fields .bitFraming v = f) :
    s.regWrite .bitFraming v = s.setReg .bitFraming f := by
  unfold State.setReg
  rw [← e, h.byte_fields]

/-- One line of a `TRANSCEIVE`. -/
theorem trxStep_trace {s0 s : State} {f0 f : TrxFrame} (hs : s.Steady) (hok : f.Ok s) (hf : f.Fits s.cfg)
    (h : TrxTrace s0 f0 f s) : (trxStep f s).Keeps (TrxTrace s0 f0) (TrxEnd s0 f0) := by
  obtain ⟨-, hcap1, hcap2, hout, hidx, hdr⟩ := hf
  have hdepth := hs.cfg.2.2.2.2.1
  have hcap := hs.cfg.2.2.2.1
  have hne := hs.cfg.codes_ne
  obtain ⟨kept, ops, mem, started, idle, start, index, byte, input, early, quiet, sent, run, events, stopped, drain, final⟩ := h
  have hcfg := kept.cfg
  cases hl : f.line <;> simp only [trxStep, hl] <;>
    simp only [hl, TrxLine.stopped, TrxLine.started, TrxLine.commanded, true_imp_iff, false_imp_iff, ne_eq, not_true_eq_false,
      reduceCtorEq, not_false_eq_true, or_true, or_false, or_self] at mem started idle start index byte input early quiet sent run events stopped drain final
  case clearIrq =>
    refine ⟨trxFrameKept_setReg hs.cfg kept nofun nofun nofun, ops, fun _ _ _ => by simpa using mem, nofun, nofun,
      fun _ => start, (fun e => by rcases e with e | e <;> cases e), nofun, nofun,
      fun h0 _ => by simpa [State.clearIrq, setReg_trxState hs.cfg] using early h0, fun h0 _ _ => ?_, nofun,
      fun _ e => (by cases e), fun _ e => (by cases e), nofun, (fun e => by rcases e with e | e <;> cases e), nofun⟩
    simp only [State.clearIrq, setReg_comIrq hs.cfg, if_true, clearIrq_com]
  case idle =>
    refine ⟨trxFrameKept_setReg hs.cfg kept nofun nofun (fun _ => by simpa using hne.1), ops, fun _ _ _ => by simpa using mem,
      fun _ => ?_, fun _ _ => ?_, fun _ => start, (fun e => by rcases e with e | e <;> cases e), nofun, nofun,
      fun h0 _ => ?_, fun h0 _ _ => ?_, nofun,
      fun _ e => (by cases e), fun _ e => (by cases e), nofun, (fun e => by rcases e with e | e <;> cases e), nofun⟩
    · simp [setReg_crcState hs.cfg, hne]
    · simp [setReg_commandReg hs.cfg, setReg_trxState hs.cfg, hne]
    · have := early h0
      simpa [setReg_trxState hs.cfg, hne] using this.2
    · simpa [setReg_comIrq hs.cfg] using quiet h0
  case flush =>
    refine trxNextInput_trace (trxFrameKept_setReg hs.cfg kept nofun nofun nofun) ops (by simpa using mem)
      ?_ (by rw [start]; exact Nat.zero_le _) ?_ (fun h0 => ?_)
    · simp [setReg_commandReg hs.cfg, setReg_crcState hs.cfg, setReg_trxState hs.cfg, idle, started]
    · rw [setReg_fifo hs.cfg, start]; simp [show isFlush flushByte = true by decide]
    · simpa [setReg_comIrq hs.cfg] using ⟨(early h0).2.1, (early h0).2.2, quiet h0⟩
  case readByte =>
    rw [areaRead_of_covers hcap2 (hidx (.inl hl))]
    exact ⟨kept, ops, fun _ _ _ => mem, fun _ => started, fun _ _ => idle, (fun e => by rcases e with e | e <;> cases e),
      fun _ => index, fun _ => by rw [peek_congr mem.1 mem.2, ops.1], nofun, fun h0 _ => early h0, fun h0 _ _ => quiet h0,
      nofun, fun _ e => (by cases e), fun _ e => (by cases e), nofun, (fun e => by rcases e with e | e <;> cases e), nofun⟩
  case pushByte =>
    rw [regWrite_fifoData]
    have hi := hidx (.inr hl)
    refine trxNextInput_trace (trxFrameKept_setReg hs.cfg kept nofun nofun nofun) ops (by simpa using mem)
      ?_ hi ?_ (fun h0 => ?_)
    · simp [setReg_commandReg hs.cfg, setReg_crcState hs.cfg, setReg_trxState hs.cfg, idle, started]
    · have hlen : s.fifo.length < s.cfg.fifoDepth := by
        rw [index, List.length_take, areaBytes_length]; omega
      rw [setReg_fifo hs.cfg]
      simp only [hlen, and_self, if_true]
      rw [areaBytes_take_succ _ _ (by rw [← ops.2.1]; exact hi), index, byte]
    · simpa [setReg_comIrq hs.cfg] using ⟨(early h0).2.1, (early h0).2.2, quiet h0⟩
  case command =>
    refine trxSending_trace (trxFrameKept_setReg hs.cfg kept nofun nofun (fun _ => by simpa using hne.2.2.symm)) ops rfl rfl
      (by simpa using mem) ?_ ?_ (fun h0 => .inl ?_)
    · simp [setReg_crcState hs.cfg, hne.2.2.symm]
    · simp [setReg_commandReg hs.cfg]
    · simp [setReg_trxState hs.cfg, setReg_fifo hs.cfg, setReg_comIrq hs.cfg, setReg_errorReg hs.cfg, hne.2.2.symm, input, (early h0).2.1, quiet h0]
  case startRead =>
    exact trxSending_trace (trxFrameKept_regRead kept _) ops rfl rfl (by simpa using mem) (by simpa using started)
      (by simpa using sent) (fun h0 => trxRunning_regRead (run h0) nofun)
  case startWrite =>
    rw [regWrite_framing hs.cfg (framing_startWrite hs (hok.2.2 (.inl hl)))]
    exact trxSending_trace (trxFrameKept_setReg hs.cfg kept (fun _ => framing_set_low _) nofun nofun)
      ops rfl rfl (by simpa using mem) (by simpa [setReg_crcState hs.cfg] using started)
      (by simpa [setReg_commandReg hs.cfg] using sent) (fun h0 => trxRunning_framing (run h0) _)
  case poll =>
    have hcm : (trxAfterPoll s.cfg f (s.regRead .comIrq).1).line.commanded = true ∧
        (trxAfterPoll s.cfg f (s.regRead .comIrq).1).line.stopped = false := by
      unfold trxAfterPoll; dsimp only; split_ifs <;> exact ⟨rfl, rfl⟩
    exact trxSending_trace (trxFrameKept_regRead kept _) ops hcm.1 hcm.2 (by simpa using mem) (by simpa using started)
      (by simpa using sent) (fun h0 => trxRunning_regRead (run h0) nofun)
  case stopRead =>
    exact trxSending_trace (trxFrameKept_regRead kept _) ops rfl rfl (by simpa using mem) (by simpa using started)
      (by simpa using sent) (fun h0 => trxRunning_regRead (run h0) nofun)
  case stopWrite =>
    rw [regWrite_framing hs.cfg (framing_stopWrite hs (hok.2.2 (.inr hl)))]
    have hk : TrxFrameKept s0 (s.setReg .bitFraming (s.bitFraming &&& ~~~startSendMask)) :=
      trxFrameKept_setReg hs.cfg kept (fun _ => framing_clear_low _) nofun nofun
    have hb : (s.setReg .bitFraming (s.bitFraming &&& ~~~startSendMask)).bitFraming.getLsbD 7 = false := by
      rw [setReg_bitFraming hs.cfg, if_pos rfl, framing_clear_bit]
    have he : s0.trxState = .off → (s.setReg .bitFraming (s.bitFraming &&& ~~~startSendMask)).txEvents = s0.txEvents ∨
        (s.setReg .bitFraming (s.bitFraming &&& ~~~startSendMask)).txEvents =
          ⟨s0.areaBytes f0.inp f0.len, txLastBitsOf s0.bitFraming⟩ :: s0.txEvents := fun h0 => by
      simpa using (run h0).events
    unfold trxAfterStop
    by_cases hseen : f.seen <;> simp only [hseen, if_true, if_false, Bool.false_eq_true]
    · exact trxStopped_trace hk ops rfl (fun _ _ _ => by simpa using mem) (by simpa [setReg_crcState hs.cfg] using started)
        (by simpa [setReg_commandReg hs.cfg] using sent) he hb (fun e => by rcases e with e | e <;> cases e) nofun
    · exact trxStopped_trace hk ops rfl (fun _ _ _ => by simpa using mem) (by simpa [setReg_crcState hs.cfg] using started)
        (by simpa [setReg_commandReg hs.cfg] using sent) he hb (fun e => by rcases e with e | e <;> cases e)
        (fun _ => ⟨fun _ => .inl rfl, nofun⟩)
  case readError =>
    unfold trxAfterError
    by_cases hse : errorSeen (s.regRead .error).1 = true <;> simp only [hse, if_true, if_false, Bool.false_eq_true]
    · exact trxStopped_trace (trxFrameKept_regRead kept _) ops rfl (fun _ _ _ => by simpa using mem) (by simpa using started)
        (by simpa using sent) (by simpa using events) (by simpa using stopped)
        (fun e => by rcases e with e | e <;> cases e) (fun _ => ⟨fun _ => .inr rfl, nofun⟩)
    · exact trxStopped_trace (trxFrameKept_regRead kept _) ops rfl (fun _ _ _ => by simpa using mem) (by simpa using started)
        (by simpa using sent) (by simpa using events) (by simpa using stopped)
        (fun e => by rcases e with e | e <;> cases e) nofun
  case readLevel =>
    exact trxStopped_trace (trxFrameKept_regRead kept _) ops rfl (fun _ _ _ => by simpa using mem) (by simpa using started)
      (by simpa using sent) (by simpa using events) (by simpa using stopped)
      (fun e => by rcases e with e | e <;> cases e) nofun
  case readLast =>
    refine trxStopped_trace (trxFrameKept_regRead kept _) ops rfl (fun e => absurd rfl e) (by simpa using started)
      (by simpa using sent) (by simpa using events) (by simpa using stopped) (fun _ => ?_) nofun
    refine ⟨keptBut_zero (by simpa using mem.1) (by simpa using mem.2), drainCount_pos _ hcap, ?_, ?_⟩
    · rw [← hcfg]; exact drainCount_le _ _
    · rw [← hcfg]; rfl
  case drainRead =>
    exact trxStopped_trace (trxFrameKept_regRead kept _) ops rfl (fun _ e => absurd rfl e) (by simpa using started)
      (by simpa using sent) (by simpa using events) (by simpa using stopped)
      (fun _ => ⟨keptBut_congr drain.1 (by simp) (by simp), drain.2⟩) nofun
  case drainStore =>
    have hi := hdr (.inr hl)
    obtain ⟨t, ht⟩ := areaWrite_of_covers (s := s) f.byte hout (Nat.lt_of_lt_of_le hi.1 hi.2)
    rw [ht]
    have hk : KeptBut s0 t f0.out (f.i + 1) := keptBut_areaWrite drain.1 (by rw [← ops.2.2]; exact ht)
    have e1 : t.crcState = .off := by rw [areaWrite_eq ht]; exact started
    have e2 : t.commandReg = cmdByte t.cfg.cmdTransceive := by rw [areaWrite_eq ht]; exact sent
    have e3 : t.txEvents = s.txEvents := by rw [areaWrite_eq ht]
    have e4 : t.bitFraming.getLsbD 7 = false := by rw [areaWrite_eq ht]; exact stopped
    unfold trxAfterStore
    by_cases hn : f.i + 1 < f.cnt <;> simp only [hn, if_true, if_false]
    · exact trxStopped_trace (trxFrameKept_areaWrite kept ht) ops rfl (fun e => absurd rfl e) e1 e2
        (fun h0 => by rw [e3]; exact events h0) e4 (fun _ => ⟨hk, hn, drain.2.2⟩) nofun
    · refine trxStopped_trace (trxFrameKept_areaWrite kept ht) ops rfl (fun _ _ e => absurd (e rfl) nofun) e1 e2
        (fun h0 => by rw [e3]; exact events h0) e4 (fun e => by rcases e with e | e <;> cases e)
        (fun _ => ⟨nofun, fun _ => ⟨rfl, keptBut_mono hk (by omega), drain.2.2.2⟩⟩)
  case finalIdle =>
    refine ⟨trxFrameKept_setReg hs.cfg kept nofun nofun (fun _ => by simpa using hne.1), ?_, ?_, ?_, fun he => ?_, fun he => ?_⟩
    · simp [setReg_commandReg hs.cfg, setReg_crcState hs.cfg, setReg_trxState hs.cfg, hne]
    · simpa [setReg_bitFraming hs.cfg] using stopped
    · simpa using events
    · exact ⟨final.1 he, by simpa using mem he⟩
    · exact ⟨(final.2 he).1, keptBut_congr (final.2 he).2.1 (by simp) (by simp), f.n, f.lastBits, (final.2 he).2.2⟩

/-- A `TRANSCEIVE` that begins is on its trace. -/
theorem trxTrace_start {s : State} {f : TrxFrame} (hl : f.line = .clearIrq) (hi : f.i = 0) : TrxTrace s f f s := by
  refine ⟨⟨rfl, rfl, fun h => ⟨h, rfl, rfl⟩⟩, ⟨rfl, rfl, rfl⟩, fun _ _ _ => ⟨rfl, rfl⟩, ?_, ?_, fun _ => hi, ?_, ?_, ?_,
    fun h _ => ⟨h, rfl, rfl⟩, fun _ h => absurd hl h, ?_, ?_, ?_, ?_, ?_, ?_⟩ <;>
    simp [hl, TrxLine.started, TrxLine.commanded, TrxLine.stopped]

end Sys2Proof.Machine
end

