-- ==== Sys2Proof/Tests/Slice0.lean ====
section
/-! SUPPORT. Tests: expected values from spec/95_test_vectors.md and the encodings of spec/30_encoding.md, and for each
statement with hypotheses a witness that meets them. -/

namespace Sys2Proof.Tests

open Sys2Proof Sys2Proof.Machine

/-! ### Well-formedness -/

/-- A write of `CommandReg` with a command code has a row of its own. -/
theorem test_wf_refuses_named_command : Instr.wellFormed Config.default (.regWrite 0x01#6 0x0C#8) = false := by decide

/-- So has a write of `FIFOLevelReg` with 0x80. -/
theorem test_wf_refuses_named_flush : Instr.wellFormed Config.default (.regWrite 0x0A#6 0x80#8) = false := by decide

/-- CC-6: 19 bytes. -/
theorem test_wf_refuses_long_crc : Instr.wellFormed Config.default (.computeCrc ⟨0, 19⟩ ⟨0, 2⟩) = false := by decide

/-- TRX-25: no byte. -/
theorem test_wf_refuses_empty_transceive : Instr.wellFormed Config.default (.transceive ⟨0, 0⟩ ⟨0, 18⟩) = false := by decide

theorem test_wf_refuses_long_transceive : Instr.wellFormed Config.default (.transceive ⟨0, 19⟩ ⟨0, 18⟩) = false := by decide

/-- R119: sixteen data bytes. -/
theorem test_wf_refuses_short_read : Instr.wellFormed Config.default (.respRead (List.replicate 15 0#8) 0#8 0#8) = false := by
  decide

/-- R115: RP-1's frame with its CRC bytes in the other order. -/
theorem test_wf_refuses_read_crc : Instr.wellFormed Config.default (.frameRead 0x04#8 0xEE#8 0x26#8) = false := by
  decide +kernel

/-- WP-1's frame with no CRC. -/
theorem test_wf_refuses_write_crc :
    Instr.wellFormed Config.default (.frameWrite 0x02#8 0xDE#8 0xAD#8 0xBE#8 0xEF#8 0x00#8 0x00#8) = false := by
  decide +kernel

/-- SEL-1's frame with SEL-3's CRC. -/
theorem test_wf_refuses_select_crc :
    Instr.wellFormed Config.default (.frameSelect 0x93#8 0x70#8 0x11#8 0x22#8 0x33#8 0x44#8 0x9C#8 0xC4#8) = false := by
  decide +kernel

/-! ### Decoding: words written out from the encodings of 30_encoding.md and the table -/

/-- R101: `0aaaaaa0dddddddd` with a = 001001, d = 01010000. -/
theorem test_decode_reg_write : decodeTableWord 16 0b0001001001010000 = some (.regWrite 0x09#6 0x50#8) := by decide

/-- R102: `1aaaaaa000000000` with a = 100010. -/
theorem test_decode_reg_read : decodeTableWord 16 0b1100010000000000 = some (.regRead 0x22#6) := by decide

/-- R107. -/
theorem test_decode_commands :
    decodeTableWord 16 0b0000001000000000 = some .cmdIdle ∧ decodeTableWord 16 0b0000001000000011 = some .cmdCalcCrc ∧
    decodeTableWord 16 0b0000001000001100 = some .cmdTransceive := by decide

/-- R127. -/
theorem test_decode_flush : decodeTableWord 16 0b0001010010000000 = some .flush := by decide

/-- BUS-1. -/
theorem test_decode_transfer : decodeTableWord 8 0b10000010 = some (.transferByte 0x82#8) := by decide

/-- R109, R110. -/
theorem test_decode_short_frames :
    decodeTableWord 8 0b00100110 = some .frameReqa ∧ decodeTableWord 8 0b01010010 = some .frameWupa ∧
    decode Config.default (.txFrame [0x93#8, 0x20#8]) = .ok (.frameAnticoll 0x93#8 0x20#8) := by decide

/-- R111, CRC-8. -/
theorem test_decode_frame_select :
    decodeTableWord 72 0x93701122334444519C =
      some (.frameSelect 0x93#8 0x70#8 0x11#8 0x22#8 0x33#8 0x44#8 0x51#8 0x9C#8) := by decide

/-- R111: a wrong BCC is no such frame. -/
theorem test_decode_rejects_bcc : decodeTableWord 72 0x93701122334466519C = none := by decide

/-- R112, CRC-7. -/
theorem test_decode_frame_read : decodeTableWord 32 0x300426EE = some (.frameRead 0x04#8 0x26#8 0xEE#8) := by decide

/-- R113, CRC-11. -/
theorem test_decode_frame_write :
    decodeTableWord 64 0xA202DEADBEEFBAB0 =
      some (.frameWrite 0x02#8 0xDE#8 0xAD#8 0xBE#8 0xEF#8 0xBA#8 0xB0#8) := by decide

/-- R114, CRC-4. -/
theorem test_decode_frame_halt : decodeTableWord 32 0x500057CD = some .frameHalt := by decide +kernel

/-- R116-R120. -/
theorem test_decode_responses :
    decode Config.default (.rxFrame [0x04#8, 0x00#8]) = .ok (.respAtqa 0x04#8 0x00#8) ∧
    decodeTableWord 40 0x1122334444 = some (.respUid 0x11#8 0x22#8 0x33#8 0x44#8 0x44#8) ∧
    decodeTableWord 24 0x08B6DD = some (.respSak 0x08#8 0xB6#8 0xDD#8) ∧
    decodeTableWord 4 0b1010 = some (.respAck 0x0#4) := by decide

/-- R119. -/
theorem test_decode_resp_read :
    decodeTableWord 144 0x000102030405060708090A0B0C0D0E0F77F5 =
      some (.respRead [0x00#8, 0x01#8, 0x02#8, 0x03#8, 0x04#8, 0x05#8, 0x06#8, 0x07#8, 0x08#8, 0x09#8, 0x0A#8, 0x0B#8,
        0x0C#8, 0x0D#8, 0x0E#8, 0x0F#8] 0x77#8 0xF5#8) := by decide

/-- R125, G16: a read, whatever its second byte. -/
theorem test_decode_read_any_dummy : decode Config.default (.bus 0x94#8 0xFF#8) = .ok (.regRead 0x0A#6) := by decide

/-- R123: no form. -/
theorem test_decode_rejects_frames :
    decode Config.default (.txFrame [0x30#8, 0x04#8]) = .ok (.frameAnticoll 0x30#8 0x04#8) ∧
    decode Config.default (.txFrame [0x31#8, 0x04#8, 0x26#8, 0xEE#8]) = .error .unlistedFrame ∧
    decode Config.default (.rxFrame [0x0B#8]) = .error .unlistedFrame := by decide

/-- BUS-15. -/
theorem test_decode_rejects_bit0 : decode Config.default (.bus 0x03#8 0x00#8) = .error .reservedBusBit := by decide

/-! ### Instructions, one step each -/

/-- The state after a meaning, where there is one. -/
def after (o : Host.Outcome State Fault Refusal) : Option State :=
  match o with
  | .next s => some s
  | .fault _ => none
  | .refused _ => none

/-- The refusal of a meaning, where it refuses. -/
def refusal (o : Host.Outcome State Fault Refusal) : Option Refusal :=
  match o with
  | .next _ => none
  | .fault _ => none
  | .refused x => some x

/-- The launch state with two draws and two pauses of the engines on the tapes. -/
def s0 : State := { State.reset with draws := [0xA5#8, 0x5A#8], events := [[], []] }

/-- The data a read hands over. -/
def dataOf (s : State) : List Byte := (s.result.getD {}).data

/-- BUS-1: the last bit stays on MOSI; the sampled byte is the draw. -/
theorem test_transfer : (after (exec (.transferByte 0x82#8) s0)).map (fun s => (s.mosi, s.sck, s.nss, dataOf s)) =
    some (false, false, true, [0xA5#8]) := by decide

/-- BUS-1: the order of the bits. -/
theorem test_transfer_order : bitsMsbFirst 0x82#8 = [true, false, false, false, false, false, true, false] := by decide

/-- CMD-4. -/
theorem test_write_fifo_full :
    (after (exec (.regWrite 0x09#6 0xAA#8) { s0 with fifo := List.replicate 64 0x01#8 })).map
      (fun s => (s.fifo.length, s.errorReg)) = some (64, 0x10#8) := by decide

/-- IRQ-4. -/
theorem test_write_com_irq :
    (after (exec (.regWrite 0x04#6 0x01#8) { s0 with comIrq := 0x21#7 })).map (·.comIrq) = some 0x20#7 := by decide

/-- BUS-5, BUS-7. -/
theorem test_read_held :
    (after (exec (.regRead 0x0A#6) { s0 with fifo := [1#8, 2#8, 3#8] })).map dataOf = some [0x03#8] ∧
    (after (exec (.regRead 0x21#6) { s0 with crcState := .done, crcResult := 0xCD57#16 })).map dataOf = some [0xCD#8] := by
  decide

/-- BUS-10 to BUS-14, BUS-16, in that order. -/
theorem test_refused_writes :
    refusal (exec (.regWrite 0x06#6 0x00#8) s0) = some .readOnlyRegister ∧
    refusal (exec (.regWrite 0x02#6 0x80#8) s0) = some .unmodelledRegister ∧
    refusal (exec (.regWrite 0x01#6 0x0F#8) s0) = some .unmodelledCommand ∧
    refusal (exec (.regWrite 0x01#6 0x10#8) s0) = some .unmodelledCommandBits ∧
    refusal (exec (.regWrite 0x0D#6 0x17#8) s0) = some .unmodelledFraming ∧
    refusal (exec (.regWrite 0x0C#6 0x00#8) s0) = some .unmodelledRegisterWrite := by decide

/-- R51, R124: the reserved bits of `CommandReg` and `BitFramingReg` are the draw's, the others what is held. -/
theorem test_read_reserved :
    (after (exec (.regRead 0x01#6) { s0 with commandReg := 0x0C#8, draws := [0xFF#8] })).map dataOf = some [0xCC#8] ∧
    (after (exec (.regRead 0x0D#6) { s0 with bitFraming := 0x07#8, draws := [0xFF#8] })).map dataOf = some [0x0F#8] := by
  decide

/-- A layout with `StartSend` at bit 0 of the bus byte and `TxLastBits` at bits 3:1 (U22: "a parameter"). -/
def moved : Config :=
  { Config.default with
    regMap := { bitFramingBits := { b0 := 1, b1 := 2, b2 := 3, b3 := 4, b4 := 5, b5 := 6, b6 := 7, b7 := 0 } } }

/-- Under that layout `STARTSEND` reads 0E where `TxLastBits` is 7, whatever the reserved bit (bit 4) shows, and is to write 0F. -/
theorem test_moved_layout :
    moved.Wf ∧
    (after (exec .startSend { s0 with cfg := moved, bitFraming := 0x07#8, draws := [0xFF#8] })).map (·.seq) =
      some (some (.writes [(.bitFraming, 0x0F#8)])) := by decide

/-- BUS-10, BUS-3: a refused write, no state change, and the run goes on with the next issue. -/
theorem test_run_goes_on :
    (after (run 2 { s0 with fifo := [1#8], issues := [.bus 0x0C#8 0x00#8, .bus 0x14#8 0x80#8] })).map
      (fun s => (s.refusals, s.errorReg, s.fifo, s.issues)) = some ([.readOnlyRegister], 0x00#8, [], []) := by decide

/-- BUS-8, its write to come: `1A87`. -/
theorem test_set_bits :
    (after (exec (.setBits 0x0D#6 0x80#8) { s0 with bitFraming := 0x07#8 })).map (·.seq) =
      some (some (.writes [(.bitFraming, 0x87#8)])) := by decide

/-- IRQ-5: reads 0x21, is to write 0x20. -/
theorem test_clear_bits :
    (after (exec (.clearBits 0x04#6 0x01#8) { s0 with comIrq := 0x21#7, draws := [0x00#8] })).map (·.seq) =
      some (some (.writes [(.comIrq, 0x20#8)])) := by decide

/-- CMD-2. -/
theorem test_idle :
    (after (exec .cmdIdle { s0 with commandReg := 0x03#8, crcState := .busy [0x50#8] })).map
      (fun s => (s.commandReg, s.crcState, s.crcResult)) = some (0x00#8, .off, 0xA55A#16) := by decide

/-- CMD-1, its write. -/
theorem test_calc_crc :
    (after (exec .cmdCalcCrc { s0 with fifo := [0x50#8, 0x00#8] })).map (fun s => (s.commandReg, s.crcState)) =
      some (0x03#8, .busy [0x50#8, 0x00#8]) := by decide

/-- CMD-1, its completion step. -/
theorem test_crc_complete :
    ({ s0 with crcState := .busy [0x50#8, 0x00#8] }.engineStep (.crcComplete [])).crcResult = 0xCD57#16 := by
  decide +kernel

/-- CMD-11. -/
theorem test_transceive_command :
    (after (exec .cmdTransceive { s0 with errorReg := 0x1B#8 })).map (fun s => (s.errorReg, s.trxState)) =
      some (0x00#8, .armed) := by decide

/-- CMD-6. -/
theorem test_transmit :
    (fun s : State => (s.txEvents, s.fifo, s.comIrq, s.trxState))
      ({ s0 with commandReg := 0x0C#8, trxState := .armed, bitFraming := 0x87#8, fifo := [0x26#8], comIrq := 0x00#7 }.engineStep
        .transmit) = ([⟨[0x26#8], 7#3⟩], [], 0x40#7, .receiving) := by decide

/-- R108, R109: of the REQA byte bit 7 is not transmitted; `TxLastBits` = 0 sends the last byte whole. -/
theorem test_sent :
    (⟨[0x26#8], 7#3⟩ : TxEvent).sent = [[false, true, true, false, false, true, false]] ∧
    (⟨[0x93#8, 0x20#8], 0#3⟩ : TxEvent).sent =
      [[true, true, false, false, true, false, false, true], [false, false, false, false, false, true, false, false]] := by
  decide

/-- CMD-9. -/
theorem test_receive_overflow :
    (fun s : State => (s.fifo.length, s.errorReg, s.comIrq))
      ({ s0 with commandReg := 0x0C#8, trxState := .receiving, comIrq := 0x00#7 }.engineStep
        (.receive (List.replicate 66 0x01#8) 0#3 0x00#8)) = (64, 0x10#8, 0x20#7) := by decide

/-- BUS-3. -/
theorem test_flush :
    (after (exec .flush { s0 with fifo := [1#8], errorReg := 0x1B#8 })).map (fun s => (s.fifo, s.errorReg)) =
      some ([], 0x0B#8) := by decide

/-- P-series: `STARTSEND` reads 07, is to write 87. -/
theorem test_start_send :
    (after (exec .startSend { s0 with bitFraming := 0x07#8 })).map (·.seq) =
      some (some (.writes [(.bitFraming, 0x87#8)])) := by decide

/-- BUS-9. -/
theorem test_stop_send :
    (after (exec .stopSend { s0 with bitFraming := 0x87#8 })).map (·.seq) =
      some (some (.writes [(.bitFraming, 0x07#8)])) := by decide

/-- CC-6. -/
theorem test_compute_crc_length : refusal (exec (.computeCrc ⟨0, 19⟩ ⟨0, 2⟩) s0) = some .lengthOutOfRange := by decide

/-- CC-8, its last step. -/
theorem test_compute_crc_overrun :
    seqStep (.crc { line := .storeHigh, src := areaOf ⟨0, 2⟩, len := 2, dst := areaOf ⟨4, 1⟩, lo := 0x57#8, hi := 0xCD#8 }) s0 =
      .fault .bufferOverrun := by rfl

/-- TRX-25. -/
theorem test_transceive_length : refusal (exec (.transceive ⟨0, 0⟩ ⟨0, 18⟩) s0) = some .lengthOutOfRange := by decide

/-- TRX-2, TRX-8, TRX-9: bit length and drain count. -/
theorem test_transceive_counts :
    bitLength Config.default 0 3#3 = 0xFFFFFFFB ∧ bitLength Config.default 18 7#3 = 143 ∧
    bitLength Config.default 19 1#3 = 145 ∧ drainCount Config.default 0 = 1 ∧ drainCount Config.default 19 = 18 := by decide

/-- A `TRANSCEIVE` about to end with `OK` and a bit length. -/
def okTrx (bitLen : Nat) : TrxFrame :=
  { line := .finalIdle, inp := areaOf ⟨0, 18⟩, len := 1, out := areaOf ⟨0, 18⟩, bitLen := bitLen, status := .ok }

/-- The result of the last step of a card operation's `TRANSCEIVE`, memory holding 04 00 11. -/
def cardResult (op : CardOp) (bitLen : Nat) : Option (Option Result) :=
  (after (seqStep (.cardTrx { op := op, line := .callTrx } (okTrx bitLen))
    { s0 with mem := [(0, 0x04#8), (2, 0x11#8)] })).map (·.result)

/-- RQ-1, RQ-3. -/
theorem test_request :
    cardResult (.request 0x26#8 ⟨0, 18⟩) 16 = some (some { status := some .ok, data := [0x04#8, 0x00#8] }) ∧
    cardResult (.request 0x26#8 ⟨0, 18⟩) 8 = some (some { status := some .err, cause := some .proto }) := by decide

/-- The last byte of `READ_UID`'s check. -/
def uidResult (b : Byte) : Option (Option Status) :=
  (after (seqStep (.card { op := .readUid 0x93#8 0x20#8 ⟨0, 18⟩, line := .check, i := 4, u := [0x11#8, 0x22#8, 0x33#8, 0x44#8] })
    { s0 with mem := [(4, b)] })).map fun s => (s.result.getD {}).status

/-- UID-1, UID-3. -/
theorem test_read_uid : uidResult 0x44#8 = some (some .ok) ∧ uidResult 0x66#8 = some (some .err) := by decide

/-- EX-4: 24 bits and no other length. -/
theorem test_select :
    cardResult (.select 0x93#8 0x70#8 ⟨0, 18⟩) 24 = some (some { status := some .ok, data := [0x04#8] }) ∧
    cardResult (.select 0x93#8 0x70#8 ⟨0, 18⟩) 16 = some (some { status := some .err, cause := some .proto }) := by decide

/-- EX-6: 143 and 145 bits. -/
theorem test_read_page :
    cardResult (.readPage 0x04#8 ⟨0, 18⟩) 143 = some (some { status := some .err, cause := some .proto }) ∧
    cardResult (.readPage 0x04#8 ⟨0, 18⟩) 145 = some (some { status := some .err, cause := some .proto }) := by decide

/-- The last step of `WRITE_PAGE` with an answer in the scratch buffer. -/
def ackResult (b : Byte) (bitLen : Nat) : Option (Option Status) :=
  (after (seqStep (.card { op := .writePage 0x02#8 ⟨0, 4⟩, line := .ackByte, bitLen := bitLen })
    { s0 with scratch := b :: List.replicate 17 0x00#8 })).map fun s => (s.result.getD {}).status

/-- WP-1 to WP-5. -/
theorem test_write_page :
    ackResult 0x0A#8 4 = some (some .ok) ∧ ackResult 0x00#8 4 = some (some .err) ∧ ackResult 0x1A#8 4 = some (some .ok) ∧
    ackResult 0x0A#8 8 = some (some .err) ∧ ackResult 0x05#8 4 = some (some .err) := by decide

/-- HLT-1: `HALT` checks no length. -/
theorem test_halt : cardResult .halt 0 = some (some { status := some .ok }) := by decide

/-- R109: seven bits, then the code. -/
theorem test_frame_reqa :
    (after (exec .frameReqa s0)).map (fun s => (s.bitFraming, s.seq)) =
      some (0x07#8, some (.writes [(.fifoData, 0x26#8)])) := by decide

theorem test_frame_wupa :
    (after (exec .frameWupa s0)).map (·.seq) = some (some (.writes [(.fifoData, 0x52#8)])) := by decide

/-- R110: whole bytes. -/
theorem test_frame_anticoll :
    (after (exec (.frameAnticoll 0x93#8 0x20#8) { s0 with bitFraming := 0x07#8 })).map (fun s => (s.bitFraming, s.seq)) =
      some (0x00#8, some (.writes [(.fifoData, 0x93#8), (.fifoData, 0x20#8)])) := by decide

/-- SEL-1, after the first byte. -/
theorem test_frame_select :
    (after (exec (.frameSelect 0x93#8 0x70#8 0x11#8 0x22#8 0x33#8 0x44#8 0x51#8 0x9C#8) s0)).map (fun s => (s.fifo, s.seq)) =
      some ([0x93#8], some (.writes ([0x70#8, 0x11#8, 0x22#8, 0x33#8, 0x44#8, 0x44#8, 0x51#8, 0x9C#8].map
        fun b => (.fifoData, b)))) := by decide +kernel

/-- R115: SEL-1's frame with the CRC bytes in the other order is no frame. -/
theorem test_frame_select_crc :
    refusal (exec (.frameSelect 0x93#8 0x70#8 0x11#8 0x22#8 0x33#8 0x44#8 0x9C#8 0x51#8) s0) = some .unlistedFrame := by
  decide +kernel

/-- RP-1, after the first byte. -/
theorem test_frame_read :
    (after (exec (.frameRead 0x04#8 0x26#8 0xEE#8) s0)).map (fun s => (s.fifo, s.seq)) =
      some ([0x30#8], some (.writes [(.fifoData, 0x04#8), (.fifoData, 0x26#8), (.fifoData, 0xEE#8)])) := by
  decide +kernel

/-- WP-6, the first byte. -/
theorem test_frame_write :
    (after (exec (.frameWrite 0x04#8 0x01#8 0x02#8 0x03#8 0x04#8 0x78#8 0x57#8) s0)).map (·.fifo) = some [0xA2#8] := by
  decide +kernel

/-- CRC-4: `50 00 57 CD`. -/
theorem test_frame_halt : haltFrame Config.default = [0x50#8, 0x00#8, 0x57#8, 0xCD#8] := by decide +kernel

/-- The last drain of a response whose other bytes are read. -/
def respResult (k : RespKind) (expected got : List Byte) (n : Nat) (b : Byte) : Option (Option Result) :=
  (after (seqStep (.resp { kind := k, expected := expected, line := .drain, bitLen := n, cnt := got.length + 1, got := got })
    { s0 with fifo := [b] })).map (·.result)

/-- R116: 16 bits. -/
theorem test_resp_atqa :
    respResult .atqa [0x04#8, 0x00#8] [0x04#8] 16 0x00#8 = some (some { status := some .ok, data := [0x04#8, 0x00#8] }) ∧
    respResult .atqa [0x04#8, 0x00#8] [0x04#8] 12 0x00#8 = some (some { status := some .err, cause := some .proto }) := by decide

/-- EX-2c, EX-2. -/
theorem test_resp_uid :
    respResult .uid [0x11#8, 0x22#8, 0x33#8, 0x44#8, 0x44#8] [0x11#8, 0x22#8, 0x33#8, 0x44#8] 40 0x44#8 =
      some (some { status := some .ok, data := [0x11#8, 0x22#8, 0x33#8, 0x44#8, 0x44#8] }) ∧
    respResult .uid [0x11#8, 0x22#8, 0x33#8, 0x44#8, 0x66#8] [0x11#8, 0x22#8, 0x33#8, 0x44#8] 40 0x66#8 =
      some (some { status := some .err, cause := some .proto }) := by decide

/-- R118: the SAK is the first byte. -/
theorem test_resp_sak :
    respResult .sak [0x08#8, 0xB6#8, 0xDD#8] [0x08#8, 0xB6#8] 24 0xDD#8 =
      some (some { status := some .ok, data := [0x08#8] }) := by decide

/-- EX-6: 143 bits. -/
theorem test_resp_read :
    respResult .read (List.replicate 18 0x00#8) (List.replicate 17 0x00#8) 143 0x00#8 =
      some (some { status := some .err, cause := some .proto }) := by decide

/-- WP-3, WP-5. -/
theorem test_resp_ack :
    respResult .ack [0x1A#8] [] 4 0x1A#8 = some (some { status := some .ok }) ∧
    respResult .ack [0x1A#8] [] 4 0x05#8 = some (some { status := some .err, cause := some .proto }) := by decide

/-! ### Witnesses: states and operands that meet a statement's hypotheses -/

/-- A state that runs `r` meets the invariant where the launch state does and `r` is in order. -/
def running (r : Running) : State := { s0 with seq := some r }

theorem s0_steady : s0.Steady :=
  ⟨default_wf, rfl, nofun, by decide, by decide, ⟨rfl, rfl, rfl, rfl⟩, by decide, by decide, by decide, by decide, nofun⟩

theorem idle_inv {s : State} (h : s.Steady) (hs : s.seq = none) : s.Inv :=
  ⟨h, fun r e => by rw [hs] at e; cases e⟩

theorem s0_inv : s0.Inv := idle_inv s0_steady rfl

theorem running_inv {r : Running} (h : r.Ok (running r)) : (running r).Inv := by
  obtain ⟨h1, h2, h3, h4, h5, h6, h7, h8, h9, h10, h11⟩ := s0_steady
  exact ⟨⟨h1, h2, h3, h4, h5, h6, h7, h8, h9, h10, h11⟩, fun q e => by cases e; exact h⟩

theorem witness_DecodeInvertsEncode :
    Config.default.Wf ∧ Instr.wellFormed Config.default (.computeCrc ⟨0, 18⟩ ⟨0, 2⟩) = true ∧
    Instr.wellFormed Config.default (.transceive ⟨0, 1⟩ ⟨0, 18⟩) = true ∧
    Instr.wellFormed Config.default (.regWrite 0x01#6 0x0F#8) = true ∧
    Instr.wellFormed Config.default (.respRead (List.replicate 16 0#8) 0#8 0#8) = true ∧
    Instr.wellFormed Config.default (.frameSelect 0x93#8 0x70#8 0x11#8 0x22#8 0x33#8 0x44#8 0x51#8 0x9C#8) = true ∧
    Instr.wellFormed Config.default (.frameRead 0x04#8 0x26#8 0xEE#8) = true ∧
    Instr.wellFormed Config.default (.frameWrite 0x02#8 0xDE#8 0xAD#8 0xBE#8 0xEF#8 0xBA#8 0xB0#8) = true :=
  ⟨default_wf, by decide +kernel⟩

/-- A frame with its CRC, one with another value there, and a read transaction with another second byte. -/
theorem witness_EncodeInvertsDecode :
    ((∀ j, Issue.txFrame [0x30#8, 0x04#8, 0x26#8, 0xEE#8] ≠ .term j) ∧
      (∀ a d, Issue.txFrame [0x30#8, 0x04#8, 0x26#8, 0xEE#8] ≠ .bus (readAddrByte a) d) ∧
      decode Config.default (.txFrame [0x30#8, 0x04#8, 0x26#8, 0xEE#8]) = .ok (.frameRead 0x04#8 0x26#8 0xEE#8)) ∧
    ((∀ j, Issue.txFrame [0x30#8, 0x04#8, 0xEE#8, 0x26#8] ≠ .term j) ∧
      decode Config.default (.txFrame [0x30#8, 0x04#8, 0xEE#8, 0x26#8]) = .ok (.frameRead 0x04#8 0xEE#8 0x26#8) ∧
      Instr.wellFormed Config.default (.frameRead 0x04#8 0xEE#8 0x26#8) = false ∧
      s0.cfg = Config.default ∧ s0.seq = none) ∧
    (∀ j, Issue.bus 0x94#8 0xFF#8 ≠ .term j) ∧ Issue.bus 0x94#8 0xFF#8 = .bus (readAddrByte 0x0A#6) 0xFF#8 ∧
    decode Config.default (.bus 0x94#8 0xFF#8) = .ok (.regRead 0x0A#6) :=
  ⟨⟨nofun, nofun, by decide⟩, ⟨nofun, by decide, by decide +kernel, rfl, rfl⟩, nofun, by decide, by decide⟩

theorem witness_ReservedBusBitRefused :
    let s : State := { s0 with issues := [.bus 0x03#8 0x00#8] }
    s.seq = none ∧ s.issues = .bus 0x03#8 0x00#8 :: [] ∧ (0x03#8).getLsbD 0 = true := by decide

/-- An issue that runs, one that `exec` refuses, and one that decodes to nothing. -/
theorem witness_StepRunsIssuedInstruction :
    let s : State := { s0 with issues := [.bus 0x1A#8 0x07#8] }
    s.seq = none ∧ s.issues = .bus 0x1A#8 0x07#8 :: [] ∧
      decode s.cfg (.bus 0x1A#8 0x07#8) = .ok (.regWrite 0x0D#6 0x07#8) ∧
      decode s.cfg (.bus 0x1A#8 0x17#8) = .ok (.regWrite 0x0D#6 0x17#8) ∧
      decode s.cfg (.txFrame [0x27#8]) = .error .unlistedFrame := by decide

theorem witness_StepWithoutIssue :
    let s : State := running (.writes [(.fifoData, 0x26#8)])
    let v : State := { s with overlaps := [[.bus 0x02#8 0x00#8]] }
    (s.seq = some (.writes [(.fifoData, 0x26#8)]) ∧ s.overlaps = []) ∧
    (v.seq = some (.writes [(.fifoData, 0x26#8)]) ∧ v.overlaps = [.bus 0x02#8 0x00#8] :: []) ∧
    (s0.seq = none ∧ s0.issues = []) ∧ s0.events = [] :: [[]] := by decide

/-- R298, R297: an issue made during an operation is refused, the operation's line is taken, and one that waits stays. -/
theorem test_issue_during_operation :
    (after (step { running (.writes [(.fifoData, 0x26#8)]) with
      overlaps := [[.bus 0x02#8 0x00#8]], issues := [.bus 0x14#8 0x80#8] })).map
      (fun s => (s.refusals, s.fifo, s.issues.length, s.seq.isSome)) =
      some ([.operationInProgress], [0x26#8], 1, false) := by decide

theorem witness_IssueDuringOperationRefused :
    let s : State := { running (.writes [(.fifoData, 0x26#8)]) with overlaps := [[.bus 0x03#8 0x00#8]] }
    s.seq = some (.writes [(.fifoData, 0x26#8)]) ∧ s.overlaps = [.bus 0x03#8 0x00#8] :: [] := by decide

theorem witness_TransferByteShifts : s0.seq = none ∧ s0.draws = 0xA5#8 :: [0x5A#8] := by decide

theorem witness_RegisterMapNames : Config.default.Wf ∧ ∀ r : Reg, Config.default.regMap.addr r ≠ 0x02#6 :=
  ⟨default_wf, fun r => by cases r <;> decide⟩

theorem witness_UnmodelledRegisterRefused : s0.seq = none ∧ ∀ r : Reg, s0.cfg.regMap.addr r ≠ 0x3F#6 :=
  ⟨rfl, fun r => by cases r <;> decide⟩

/-- 0x17 is both a wrong code and a set reserved bit; the smallest values of each clause. -/
theorem witness_IllegalWriteRefused :
    s0.seq = none ∧ (∀ r ∈ Reg.all, ∀ v ∈ [0x01#8, 0x08#8, 0x10#8, 0x17#8], s0.cfg.regMap.fields r v = v) ∧
    (regOf s0.cfg 0x01#6 = some .command ∧ (0x10#8).extractLsb' 4 4 ≠ 0#4 ∧
      commandOf 0x10#8 ∈ [s0.cfg.cmdIdle, s0.cfg.cmdCalcCrc, s0.cfg.cmdTransceive]) ∧
    ((0x01#8).extractLsb' 4 4 = 0#4 ∧ commandOf 0x01#8 ∉ [s0.cfg.cmdIdle, s0.cfg.cmdCalcCrc, s0.cfg.cmdTransceive]) ∧
    ((0x17#8).extractLsb' 4 4 ≠ 0#4 ∧ commandOf 0x17#8 ∉ [s0.cfg.cmdIdle, s0.cfg.cmdCalcCrc, s0.cfg.cmdTransceive]) ∧
    (regOf s0.cfg 0x0D#6 = some .bitFraming ∧ (0x08#8).extractLsb' 3 4 ≠ 0#4) ∧
    regOf s0.cfg 0x06#6 = some .error ∧ regOf s0.cfg 0x21#6 = some .crcResultM ∧ regOf s0.cfg 0x22#6 = some .crcResultL ∧
    regOf s0.cfg 0x0C#6 = some .control := by decide

theorem witness_IrqFlagWrite :
    s0.seq = none ∧ regOf s0.cfg 0x04#6 = some .comIrq ∧ regOf s0.cfg 0x05#6 = some .divIrq := by decide

theorem witness_FifoPush :
    s0.seq = none ∧ regOf s0.cfg 0x09#6 = some .fifoData ∧
    (List.replicate 63 0x00#8).length < s0.cfg.fifoDepth ∧ s0.cfg.fifoDepth ≤ (List.replicate 64 0x00#8).length := by decide

theorem witness_FifoFlush :
    s0.seq = none ∧ regOf s0.cfg 0x0A#6 = some .fifoLevel ∧ (s0.cfg.regMap.fields .fifoLevel 0x80#8).getLsbD 7 = true ∧
    (s0.cfg.regMap.fields .fifoLevel 0x7F#8).getLsbD 7 = false ∧ s0.cfg.Wf := by decide

theorem witness_BitFramingReadsBack :
    s0.cfg.Wf ∧ s0.seq = none ∧ regOf s0.cfg 0x0D#6 = some .bitFraming ∧ s0.cfg.regMap.fields .bitFraming 0x87#8 = 0x87#8 ∧
    (0x87#8).extractLsb' 3 4 = 0#4 := by decide

theorem witness_CommandIssues :
    s0.cfg.Wf ∧ s0.seq = none ∧ (∀ d, s0.crcState ≠ .busy d) ∧
    ∃ s : State, s.cfg.Wf ∧ s.seq = none ∧ s.crcState = .busy [0x50#8] ∧ s.draws = 0xA5#8 :: 0x5A#8 :: [] :=
  ⟨default_wf, rfl, nofun, { s0 with crcState := .busy [0x50#8] }, default_wf, rfl, rfl, rfl⟩

theorem witness_HeldRegisterReads :
    s0.seq = none ∧ regOf s0.cfg 0x01#6 = some .command ∧ regOf s0.cfg 0x0D#6 = some .bitFraming ∧
    regOf s0.cfg 0x0A#6 = some .fifoLevel ∧ s0.fifo.length ≤ 127 ∧ s0.cfg.Wf ∧ s0.draws = 0xA5#8 :: [0x5A#8] := by decide

theorem witness_FifoPop :
    s0.seq = none ∧ regOf s0.cfg 0x09#6 = some .fifoData ∧ s0.fifo = [] ∧ s0.draws = 0xA5#8 :: [0x5A#8] ∧
    ({ s0 with fifo := [0x04#8, 0x00#8] } : State).fifo = 0x04#8 :: [0x00#8] := by decide

theorem witness_DrawnBitReads :
    s0.cfg.Wf ∧ s0.seq = none ∧ regOf s0.cfg 0x04#6 = some .comIrq ∧ regOf s0.cfg 0x05#6 = some .divIrq ∧
    regOf s0.cfg 0x06#6 = some .error ∧ regOf s0.cfg 0x0C#6 = some .control ∧ s0.draws = 0xA5#8 :: [0x5A#8] := by decide

theorem witness_CrcResultReads :
    s0.seq = none ∧ regOf s0.cfg 0x21#6 = some .crcResultM ∧ regOf s0.cfg 0x22#6 = some .crcResultL ∧
    (∀ d, s0.crcState ≠ .busy d) ∧
    ({ s0 with crcState := .busy [] } : State).crcState = .busy [] ∧ s0.draws = 0xA5#8 :: [0x5A#8] :=
  ⟨rfl, by decide, by decide, nofun, rfl, rfl⟩

theorem witness_CompoundIsReadThenWrite :
    s0.seq = none ∧ regOf s0.cfg 0x0D#6 = some .bitFraming ∧
    writeRefusal s0.cfg .bitFraming (setIn s0.cfg .bitFraming 0x87#8 (s0.cfg.regMap.byte .bitFraming (s0.heldValue .bitFraming))) =
      none ∧
    writeRefusal s0.cfg .bitFraming (clearIn s0.cfg .bitFraming 0xFF#8 (s0.cfg.regMap.byte .bitFraming (s0.heldValue .bitFraming))) =
      none ∧
    let z : State := { running (.writes [(.bitFraming, 0x87#8)]) with overlaps := [[.bus 0x02#8 0x00#8]] }
    z.seq = some (.writes [(.bitFraming, 0x87#8)]) ∧ z.cfg = s0.cfg ∧ writeRefusal s0.cfg .bitFraming 0x87#8 = none := by decide

theorem witness_BitFramingCompoundExact :
    s0.cfg.Wf ∧ s0.seq = none ∧ regOf s0.cfg 0x0D#6 = some .bitFraming ∧
    fieldRefusal s0.cfg .bitFraming s0.bitFraming = none ∧ s0.cfg.regMap.fields .bitFraming 0x87#8 = 0x87#8 ∧
    (s0.bitFraming ||| 0x87#8).extractLsb' 3 4 = 0#4 ∧ s0.Calm :=
  ⟨default_wf, rfl, by decide, by decide, by decide, by decide, nofun, rfl⟩

theorem witness_CompoundRefusedAtIssue :
    s0.Inv ∧ s0.seq = none ∧ regOf s0.cfg 0x01#6 = some .command ∧ regOf s0.cfg 0x0D#6 = some .bitFraming ∧
    regOf s0.cfg 0x06#6 = some .error ∧ regOf s0.cfg 0x21#6 = some .crcResultM ∧ regOf s0.cfg 0x22#6 = some .crcResultL ∧
    regOf s0.cfg 0x0C#6 = some .control := ⟨s0_inv, by decide⟩

theorem witness_CrcCompletionStep :
    ({ s0 with crcState := .busy [0x50#8] } : State).crcState = .busy [0x50#8] ∧ [0xA5#8].length ≤ [0x50#8].length ∧
    ∀ d, s0.crcState ≠ .busy d := ⟨rfl, by decide, nofun⟩

/-- A transmission that is enabled and one that is not; bytes of a frame that go whole, the cut last byte, and past them. -/
theorem witness_TransmitStep :
    let s : State := { s0 with commandReg := 0x0C#8, trxState := .armed, bitFraming := 0x80#8, fifo := [0x26#8] }
    (commandOf s.commandReg = s.cfg.cmdTransceive ∧ s.trxState = .armed ∧ s.bitFraming.getLsbD 7 = true ∧ s.fifo ≠ []) ∧
    ¬ (commandOf s0.commandReg = s0.cfg.cmdTransceive ∧ s0.trxState = .armed ∧ s0.bitFraming.getLsbD 7 = true ∧ s0.fifo ≠ []) ∧
    (fun e : TxEvent => fun i j => e.sent[i]?.bind fun bits => bits[j]?) ⟨[0x80#8, 0xC0#8], 7#3⟩ 0 7 = some true ∧
    (fun e : TxEvent => fun i j => e.sent[i]?.bind fun bits => bits[j]?) ⟨[0x80#8, 0xC0#8], 7#3⟩ 1 6 = some true ∧
    (fun e : TxEvent => fun i j => e.sent[i]?.bind fun bits => bits[j]?) ⟨[0x80#8, 0xC0#8], 7#3⟩ 1 7 = none ∧
    (fun e : TxEvent => fun i j => e.sent[i]?.bind fun bits => bits[j]?) ⟨[0x80#8, 0xC0#8], 0#3⟩ 1 7 = some true ∧
    (fun e : TxEvent => fun i j => e.sent[i]?.bind fun bits => bits[j]?) ⟨[0x80#8, 0xC0#8], 0#3⟩ 2 0 = none := by
  decide

/-- A FIFO that the answer fills to the last byte, and one it does not fit. -/
theorem witness_ReceiveStep :
    let s : State := { s0 with trxState := .receiving, fifo := List.replicate 63 0x00#8 }
    s.fifo.length ≤ s.cfg.fifoDepth ∧ s.trxState = .receiving ∧
    ¬ s.cfg.fifoDepth < s.fifo.length + [0x04#8].length ∧ s.cfg.fifoDepth < s.fifo.length + [0x04#8, 0x00#8].length ∧
    s0.trxState ≠ .receiving := by decide

theorem witness_TimerStep :
    ({ s0 with trxState := .receiving } : State).trxState = .receiving ∧ ({ s0 with trxState := .done } : State).trxState = .done ∧
    s0.trxState = .off ∧ ({ s0 with trxState := .armed } : State).trxState = .armed := by decide

theorem witness_FlagsStayPending :
    ({ s0 with comIrq := 0x40#7 } : State).comIrq.getLsbD 6 = true ∧ ({ s0 with divIrq := 0x04#7 } : State).divIrq.getLsbD 2 = true ∧
    (∃ t, exec (.regRead 0x04#6) s0 = .next t) ∧
    (∃ t, exec (.regWrite 0x05#6 0x04#8) s0 = .next t) ∧ regOf s0.cfg 0x05#6 ≠ some .comIrq ∧
    (∃ t, exec (.regWrite 0x04#6 0x7F#8) s0 = .next t) ∧ regOf s0.cfg 0x04#6 ≠ some .divIrq :=
  ⟨by decide, by decide, ⟨_, rfl⟩, ⟨_, rfl⟩, by decide, ⟨_, rfl⟩, by decide⟩

theorem witness_BitLengthAndDrainCount : Config.default.bitLenWidth = 32 ∧ 0 ≤ 64 ∧ 64 ≤ 64 := by decide

/-- A `TRANSCEIVE` and a `COMPUTE_CRC` at a line. -/
def trxAt (l : TrxLine) (polls : Nat) : TrxFrame :=
  { line := l, inp := areaOf ⟨0, 18⟩, len := 1, out := areaOf ⟨0, 18⟩, pollCount := polls }

def crcAt (l : CrcLine) (polls : Nat) : CrcFrame :=
  { line := l, src := areaOf ⟨0, 0⟩, len := 0, dst := areaOf ⟨0, 2⟩, pollCount := polls }

theorem witness_PollLoops :
    ((trxAt .clearIrq 0).line = .clearIrq ∧ (crcAt .clearIrq 0).line = .clearIrq) ∧
    s0.cfg.Wf ∧ s0.cfg.waitMask = s0.cfg.regMap.byte .comIrq 0x21#8 ∧ (trxAt .poll 999).line = .poll ∧ (trxAt .poll 999).pollCount < 1000 ∧
    (crcAt .poll 254).line = .poll ∧ (crcAt .poll 254).pollCount < 255 := by decide

theorem witness_TransceiveErrorExits :
    ((running (.trx (trxAt .stopWrite 1000))).Inv ∧ (trxAt .stopWrite 1000).line = .stopWrite ∧ (trxAt .stopWrite 1000).seen = false) ∧
    (running (.trx (trxAt .readError 1))).Inv ∧ (trxAt .readError 1).line = .readError ∧
    s0.cfg.regMap.errorBits = {} ∧ s0.cfg.regMap.byte .error (running (.trx (trxAt .readError 1))).errorReg &&& 0x1B#8 = 0#8 ∧
    ∃ s : State, s.Inv ∧ s.seq = some (.trx (trxAt .readError 1)) ∧ s.cfg.regMap.byte .error s.errorReg &&& 0x1B#8 ≠ 0#8 := by
  refine ⟨⟨running_inv ⟨by decide, nofun, fun _ => rfl⟩, rfl, rfl⟩, running_inv ⟨by decide, nofun, fun _ => rfl⟩, rfl, rfl, by decide,
    { s0 with seq := some (.trx (trxAt .readError 1)), errorReg := 0x08#8 }, ⟨?_, fun q e => ?_⟩, rfl, by decide⟩
  · exact ⟨default_wf, rfl, nofun, by decide, by decide, ⟨rfl, rfl, rfl, rfl⟩, by decide, by decide, by decide, by decide, nofun⟩
  · cases e; exact ⟨by decide, nofun, fun _ => rfl⟩

/-- The last byte of a region that ends where host memory ends, one past it, and the last byte of the scratch buffer. -/
theorem witness_BufferAccess :
    Memory.wf s0.mem = true ∧ s0.scratch.length = s0.cfg.frameCap ∧
    (3 < (⟨65532, 4⟩ : Region).len ∧ (⟨65532, 4⟩ : Region).base + 3 < s0.cfg.hostMemSize) ∧
    ¬ (4 < (⟨65532, 4⟩ : Region).len ∧ (⟨65532, 4⟩ : Region).base + 4 < s0.cfg.hostMemSize) ∧
    0 + 17 < s0.cfg.frameCap ∧ s0.cfg.frameCap ≤ 0 + 18 := by decide

/-- For each kind of line the last byte that may be reached and the first that may not, by region and by memory. -/
theorem witness_OverrunFaults :
    (s0.seq = none ∧ (running (.writes [])).seq = some (.writes []) ∧
      (running (.resp { kind := .ack, expected := [] })).seq = some (.resp { kind := .ack, expected := [] }) ∧
      (crcAt .poll 0).line ∉ [.readByte, .storeLow, .storeHigh] ∧ (trxAt .poll 0).line ∉ [.readByte, .drainStore] ∧
      ({ op := .halt, line := .callTrx } : CardFrame).line ∈ [.framing, .callCrc, .callTrx]) ∧
    (¬ Overruns s0.cfg (areaOf ⟨0, 1⟩) 0 ∧ Overruns s0.cfg (areaOf ⟨0, 0⟩) 0 ∧ ¬ Overruns s0.cfg (areaOf ⟨0, 2⟩) 1 ∧
      Overruns s0.cfg (areaOf ⟨0, 1⟩) 1 ∧ ¬ Overruns s0.cfg (areaOf ⟨65535, 4⟩) 0 ∧ Overruns s0.cfg (areaOf ⟨65536, 4⟩) 0 ∧
      ¬ Overruns s0.cfg (scratchFrom s0.cfg 0) 17 ∧ Overruns s0.cfg (scratchFrom s0.cfg 0) 18) ∧
    (running (.cardCrc { op := .halt, line := .callCrc } (crcAt .storeLow 0))).seq =
      some (.cardCrc { op := .halt, line := .callCrc } (crcAt .storeLow 0)) ∧
    (running (.cardTrx { op := .halt, line := .callTrx } (trxAt .drainStore 0))).seq =
      some (.cardTrx { op := .halt, line := .callTrx } (trxAt .drainStore 0)) ∧
    (∀ op ∈ [CardOp.request 0x26#8 ⟨65535, 1⟩, .readPage 0x04#8 ⟨65535, 1⟩, .readUid 0x93#8 0x20#8 ⟨65535, 1⟩],
      (running (.card { op := op, line := .put })).seq = some (.card { op := op, line := .put }) ∧
      (0 < (⟨65535, 1⟩ : Region).len ∧ (⟨65535, 1⟩ : Region).base + 0 < s0.cfg.hostMemSize) ∧
      ¬ (1 < (⟨65535, 1⟩ : Region).len ∧ (⟨65535, 1⟩ : Region).base + 1 < s0.cfg.hostMemSize)) ∧
    ({ op := .writePage 0x02#8 ⟨0, 4⟩, line := .load, u := [0#8, 0#8, 0#8] } : CardFrame).u.length < (⟨0, 4⟩ : Region).len ∧
    ¬ s0.cfg.frameCap ≤ 17 ∧ s0.cfg.frameCap ≤ 18 ∧ ({ Config.default with frameCap := 0 } : Config).frameCap = 0 := by
  refine ⟨⟨rfl, rfl, rfl, by decide⟩, ?_, rfl, rfl, ?_⟩
  · simp only [Overruns, areaOf, scratchFrom]; decide
  · decide

theorem witness_LaunchMeetsInvariant : Launch s0 :=
  ⟨default_wf, rfl, rfl, rfl, by decide, by decide, by decide, rfl, by decide, rfl, nofun⟩

theorem witness_StepKeepsInvariant : s0.Inv ∧ ∃ t, step s0 = .next t := ⟨s0_inv, _, rfl⟩

theorem covers_18 : Covers s0.cfg (areaOf ⟨0, 18⟩) 18 := fun i h => ⟨h, by show 0 + i < 65536; omega⟩

theorem witness_OperationEndsInBoundedSteps :
    (running (.trx (trxAt .clearIrq 0))).Inv ∧ (running (.trx (trxAt .clearIrq 0))).seq = some (.trx (trxAt .clearIrq 0)) ∧
    (Running.trx (trxAt .clearIrq 0)).Fits s0.cfg :=
  ⟨running_inv ⟨by decide, nofun, nofun⟩, rfl, by decide, by decide,
    fun i h => covers_18 i (Nat.lt_trans h (by decide)), covers_18, nofun, nofun⟩

/-- 18 and 19, 1 and 0 bytes. -/
theorem witness_IssueBeginsOperation :
    s0.seq = none ∧ (⟨0, 18⟩ : Region).len ≤ s0.cfg.frameCap ∧ s0.cfg.frameCap < (⟨0, 19⟩ : Region).len ∧
    1 ≤ (⟨0, 1⟩ : Region).len ∧ (⟨0, 1⟩ : Region).len ≤ s0.cfg.frameCap ∧ (⟨0, 0⟩ : Region).len < 1 := by decide

/-- The shortest and the longest input, a destination over the source, and regions that end where host memory ends. -/
theorem witness_ComputeCrcCompletes :
    s0.Inv ∧ s0.seq = none ∧
    ((⟨0, 0⟩ : Region).len ≤ s0.cfg.frameCap ∧ Holds s0.cfg ⟨0, 0⟩ 0) ∧
    ((⟨65518, 18⟩ : Region).len ≤ s0.cfg.frameCap ∧ Holds s0.cfg ⟨65518, 18⟩ 18) ∧
    Holds s0.cfg ⟨65518, 2⟩ 2 ∧ (∀ d, s0.crcState ≠ .busy d) ∧ s0.trxState = .off ∧ s0.cfg.irqWriteMode = .setClear :=
  ⟨s0_inv, rfl, ⟨by decide, by decide, by decide⟩, ⟨by decide, by decide, by decide⟩, ⟨by decide, by decide⟩, nofun, rfl, rfl⟩

/-- Whether the run from `s` has an operation running at each of its first `k` states and reaches one that has `p`. -/
def runsTo (k : Nat) (s : State) (p : State → Bool) : Bool :=
  (List.range k).all (fun j => ((after (run j s)).map fun w => w.seq.isSome) == some true) &&
    (after (run k s)).map p == some true

theorem reaches_of_runsTo {k : Nat} {s : State} {p : State → Bool} (h : runsTo k s p = true) :
    ∃ v, Reaches k s v ∧ p v = true := by
  have look : ∀ {j : Nat} {q : State → Bool}, (after (run j s)).map q = some true → ∃ w, run j s = .next w ∧ q w = true := by
    intro j q e
    cases hr : run j s with
    | next w => rw [hr] at e; exact ⟨w, rfl, Option.some.inj e⟩
    | fault x => rw [hr] at e; cases e
    | refused x => rw [hr] at e; cases e
  obtain ⟨hall, hlast⟩ := (Bool.and_eq_true _ _).mp h
  obtain ⟨v, hv, hp⟩ := look (eq_of_beq hlast)
  refine ⟨v, ⟨hv, fun j hj => ?_⟩, hp⟩
  obtain ⟨w, hw, hs⟩ := look (eq_of_beq (List.all_eq_true.mp hall j (List.mem_range.mpr hj)))
  exact ⟨w, hw, fun e => by rw [e] at hs; cases hs⟩

/-- A run in which the engine completes before the first poll read (CC-2). -/
def crcRun : State := { s0 with events := [[], [], [], [], [.crcComplete []], [], [], [], [], []] }

theorem witness_ComputeCrcResult :
    crcRun.Inv ∧ crcRun.seq = none ∧ (⟨0, 0⟩ : Region).len ≤ crcRun.cfg.frameCap ∧ Holds crcRun.cfg ⟨0, 0⟩ 0 ∧
    Holds crcRun.cfg ⟨0, 2⟩ 2 ∧ (∀ d, crcRun.crcState ≠ .busy d) ∧
    ∃ t v, exec (.computeCrc ⟨0, 0⟩ ⟨0, 2⟩) crcRun = .next t ∧ Reaches 5 t.engines v ∧
      v.seq = some (.crc (crcAt .readLow 1)) ∧ v.crcState = .done := by
  have steady : crcRun.Steady :=
    ⟨default_wf, rfl, nofun, by decide, by decide, ⟨rfl, rfl, rfl, rfl⟩, by decide, by decide, by decide, by decide, nofun⟩
  obtain ⟨v, hv, hp⟩ := reaches_of_runsTo
    (k := 5) (s := { crcRun with seq := some (.crc (crcAt .clearIrq 0)), events := crcRun.events.tail })
    (p := fun v => v.seq == some (.crc (crcAt .readLow 1)) && v.crcState == .done) (by decide +kernel)
  obtain ⟨h1, h2⟩ := (Bool.and_eq_true _ _).mp hp
  exact ⟨idle_inv steady rfl, rfl, by decide, ⟨by decide, by decide⟩, ⟨by decide, by decide⟩, nofun, _, v, rfl, hv,
    eq_of_beq h1, eq_of_beq h2⟩

theorem witness_TransceiveCompletes :
    s0.Inv ∧ s0.seq = none ∧ (1 ≤ (⟨0, 1⟩ : Region).len ∧ (⟨0, 1⟩ : Region).len ≤ s0.cfg.frameCap ∧ Holds s0.cfg ⟨0, 1⟩ 1) ∧
    ((⟨0, 18⟩ : Region).len ≤ s0.cfg.frameCap ∧ Holds s0.cfg ⟨0, 18⟩ 18) ∧ Holds s0.cfg ⟨65518, 18⟩ s0.cfg.frameCap ∧
    (∀ d, s0.crcState ≠ .busy d) ∧ s0.trxState = .off ∧ s0.cfg.waitMask = s0.cfg.regMap.byte .comIrq 0x21#8 :=
  ⟨s0_inv, rfl, ⟨by decide, by decide, by decide, by decide⟩, ⟨by decide, by decide, by decide⟩, ⟨by decide, by decide⟩, nofun, rfl,
    by decide⟩

/-- A reception of 19 bytes, one more than the drain takes, when the level is read and when the last bits are. -/
theorem witness_TransceiveDelivers :
    ∀ l ∈ [TrxLine.readLevel, .readLast], ∃ v : State, v.Inv ∧ v.seq = some (.trx (trxAt l 1)) ∧
      (trxAt l 1).Fits v.cfg ∧ (trxAt l 1).out.space = .host ∧ v.trxState = .done ∧ v.trxState ≠ .off ∧
      v.bitFraming.getLsbD 7 = false ∧ v.fifo.length = 19 := by
  intro l hl
  have hl : l = .readLevel ∨ l = .readLast := by simpa using hl
  have steady : { s0 with commandReg := 0x0C#8, trxState := .done, fifo := List.replicate 19 0x00#8 }.Steady :=
    ⟨default_wf, rfl, nofun, by decide, by decide, ⟨rfl, rfl, rfl, rfl⟩, by decide, by decide, by decide, by decide, nofun⟩
  obtain ⟨h1, h2, h3, h4, h5, h6, h7, h8, h9, h10, h11⟩ := steady
  refine ⟨{ s0 with
      commandReg := 0x0C#8, trxState := .done, fifo := List.replicate 19 0x00#8, seq := some (.trx (trxAt l 1)) },
    ⟨⟨h1, h2, h3, h4, h5, h6, h7, h8, h9, h10, h11⟩, fun q e => ?_⟩, rfl, ?_, rfl, rfl, nofun,
    show (0x00#8).getLsbD 7 = false by decide, show (List.replicate 19 0x00#8).length = 19 by decide⟩
  · cases e; rcases hl with rfl | rfl <;> exact ⟨by decide, nofun, nofun⟩
  · rcases hl with rfl | rfl <;>
      exact ⟨by decide, by decide, fun i h => covers_18 i (Nat.lt_trans h (by decide)), covers_18, nofun, nofun⟩

/-- The regions of the card operations, ending where host memory ends. -/
theorem witness_CardOperations :
    s0.Inv ∧ s0.seq = none ∧ Holds s0.cfg ⟨65518, 18⟩ s0.cfg.frameCap ∧ Holds s0.cfg ⟨65532, 4⟩ 4 ∧ 16 ≤ s0.cfg.frameCap ∧
    s0.trxState = .off ∧ ∀ d, s0.crcState ≠ .busy d :=
  ⟨s0_inv, rfl, ⟨by decide, by decide⟩, ⟨by decide, by decide⟩, by decide, rfl, nofun⟩

/-- A line of each call and the last of `COMPUTE_CRC`; the first, the last but one and the last byte of `READ_UID`'s check. -/
theorem witness_CardLengthChecks :
    ((∃ t, seqStep (.crc (crcAt .flush 0)) s0 = .next t ∧ t.seq = some (.crc (crcAt .command 0))) ∧
      (∃ t, seqStep (.crc (crcAt .storeHigh 1)) s0 = .next t ∧ t.seq = none) ∧
      ∃ t, seqStep (.trx (trxAt .clearIrq 0)) s0 = .next t ∧ t.seq = some (.trx (trxAt .idle 0))) ∧
    (okTrx 16).line = .finalIdle ∧ (okTrx 16).status = .ok ∧ ({ okTrx 16 with status := .err } : TrxFrame).status = .err ∧
    (∀ i ∈ [0, 3, 4], i < (⟨65531, 5⟩ : Region).len ∧ (⟨65531, 5⟩ : Region).base + i < s0.cfg.hostMemSize) ∧
    (0 + 1 < 5 ∧ 3 + 1 < 5 ∧ 5 ≤ 4 + 1) ∧
    ({ op := .readUid 0x93#8 0x20#8 ⟨65531, 5⟩, line := .check } : CardFrame).line = .check ∧
    s0.Inv ∧ ({ op := .writePage 0x02#8 ⟨0, 4⟩, line := .ackByte } : CardFrame).line = .ackByte :=
  ⟨⟨⟨_, rfl, rfl⟩, ⟨_, rfl, rfl⟩, _, rfl, rfl⟩, rfl, rfl, rfl, by decide, by decide, rfl, s0_inv, rfl⟩

/-- A frame of each kind with its CRC, and one with another value there. -/
theorem witness_FrameRowsQueue :
    s0.cfg.Wf ∧ s0.seq = none ∧ s0.Calm ∧ s0.fifo.length + 9 ≤ s0.cfg.fifoDepth ∧
    (0x51#8 = (crc16 s0.cfg [0x93#8, 0x70#8, 0x11#8, 0x22#8, 0x33#8, 0x44#8, 0x44#8]).extractLsb' 0 8 ∧
      0x9C#8 = (crc16 s0.cfg [0x93#8, 0x70#8, 0x11#8, 0x22#8, 0x33#8, 0x44#8, 0x44#8]).extractLsb' 8 8) ∧
    (0x26#8 = (crc16 s0.cfg [s0.cfg.opRead, 0x04#8]).extractLsb' 0 8 ∧
      0xEE#8 = (crc16 s0.cfg [s0.cfg.opRead, 0x04#8]).extractLsb' 8 8) ∧
    (0x78#8 = (crc16 s0.cfg [s0.cfg.opWrite, 0x04#8, 0x01#8, 0x02#8, 0x03#8, 0x04#8]).extractLsb' 0 8 ∧
      0x57#8 = (crc16 s0.cfg [s0.cfg.opWrite, 0x04#8, 0x01#8, 0x02#8, 0x03#8, 0x04#8]).extractLsb' 8 8) ∧
    ¬ (0xEE#8 = (crc16 s0.cfg [s0.cfg.opRead, 0x04#8]).extractLsb' 0 8 ∧
      0x26#8 = (crc16 s0.cfg [s0.cfg.opRead, 0x04#8]).extractLsb' 8 8) :=
  ⟨default_wf, rfl, ⟨nofun, rfl⟩, by decide, by decide +kernel⟩

theorem witness_ResponseRowsAnswer :
    ∃ s : State, s.seq = none ∧ s.cfg.Wf ∧ s.fifo.length ≤ s.cfg.fifoDepth ∧ s.Calm ∧ s.fifo ≠ [] :=
  ⟨{ s0 with fifo := [0x04#8, 0x00#8] }, rfl, default_wf, by decide, ⟨nofun, rfl⟩, by decide⟩

/-- A `HALT` whose CRC engine completes before the first poll read; the regions end where host memory ends. -/
def haltRun : State := { s0 with events := List.replicate 12 [.crcComplete []] }

theorem witness_FrameCarriesItsCrc :
    haltRun.Inv ∧ haltRun.seq = none ∧ haltRun.trxState = .off ∧ (∀ d, haltRun.crcState ≠ .busy d) ∧
    (Holds haltRun.cfg ⟨65518, 18⟩ haltRun.cfg.frameCap ∧ Holds haltRun.cfg ⟨65532, 4⟩ 4 ∧
      [0x00#8, 0x00#8, 0x00#8, 0x00#8] = haltRun.hostBytes 65518 4) ∧
    ∃ t v c f, exec .halt haltRun = .next t ∧ Reaches 11 t.engines v ∧ v.seq = some (.cardCrc c f) ∧ f.line = .readLow ∧
      v.crcState = .done ∧ f.pollCount < 255 := by
  have steady : haltRun.Steady :=
    ⟨default_wf, rfl, nofun, by decide, by decide, ⟨rfl, rfl, rfl, rfl⟩, by decide, by decide, by decide, by decide, nofun⟩
  obtain ⟨v, hv, hp⟩ := reaches_of_runsTo
    (k := 11) (s := { haltRun with seq := some (.card { op := .halt, line := .build }), events := haltRun.events.tail })
    (p := fun v => v.seq == some (.cardCrc { op := .halt, line := .callCrc, i := 2 }
      { appendCrc (scratchFrom Config.default 0) 2 with line := .readLow, i := 2, pollCount := 1 }) && v.crcState == .done)
    (by decide +kernel)
  obtain ⟨h1, h2⟩ := (Bool.and_eq_true _ _).mp hp
  exact ⟨idle_inv steady rfl, rfl, rfl, nofun, ⟨⟨by decide, by decide⟩, ⟨by decide, by decide⟩, by decide⟩, _, v, _, _, rfl, hv,
    eq_of_beq h1, rfl, eq_of_beq h2, by decide⟩

/-- An answer of four and one of eight bits, about to be delivered. -/
theorem witness_AcknowledgementDecides :
    ∀ b ∈ [4, 8], ∃ (s : State) (k : CardFrame) (f : TrxFrame), s.Inv ∧ s.seq = some (.cardTrx k f) ∧
      k.op = .writePage 0x02#8 ⟨0, 4⟩ ∧ f.line = .finalIdle ∧ f.status = .ok ∧ f.bitLen = b ∧
      (s.scratch.getD 0 0#8).extractLsb' 0 4 = 0x0#4 := by
  intro b _
  exact ⟨running (.cardTrx { op := .writePage 0x02#8 ⟨0, 4⟩, line := .callTrx } (okTrx b)), _, _,
    running_inv ⟨Nat.zero_le _, nofun, nofun⟩, rfl, rfl, rfl, rfl, rfl,
    show ((List.replicate 18 0x00#8).getD 0 0#8).extractLsb' 0 4 = 0x0#4 by decide⟩

end Sys2Proof.Tests
end

/-! The statements of 10_state.md: what a step is and keeps, what the engines leave unchanged, the registers by address,
the flag registers and `BitFramingReg`, and the issue of an operation. -/

namespace Sys2Proof.Machine

open Sys2Proof

/-! ### Steps -/

/-- Every step keeps the invariant and the parameters: its move does, and the engine steps after it do. -/
theorem step_keeps {s t : State} (h : s.Inv) (ht : step s = .next t) : t.Inv ∧ t.cfg = s.cfg := by
  obtain ⟨u, hu, rfl⟩ := thenEngines_next ht
  obtain ⟨hi, hc⟩ := move_keeps h hu
  exact ⟨inv_engines hi, by rw [engines_cfg, hc]⟩

/-- The engine steps between two moves are the tape's next list where it has one (20_memory.md R93, log 3). -/
theorem engines_of_tape {s : State} {evs : List EngineEvent} {rest : List (List EngineEvent)}
    (h : s.events = evs :: rest) : s.engines = evs.foldl State.engineStep { s with events := rest } := by
  simp [State.engines, State.takeEvents, h]

/-- Settles O43: `step_keeps`, a move's invariant lemma followed by that of the engine steps. -/
theorem stepKeepsInvariant : Obligations.StepKeepsInvariant := fun _ _ => step_keeps

/-- Settles O6: `step_issue` and `step_undecoded`, by what the instruction's meaning answers. -/
theorem stepRunsIssuedInstruction : Obligations.StepRunsIssuedInstruction := by
  intro s w rest hq hw
  refine ⟨fun i hd => ?_, fun e hd => step_undecoded hq hw hd⟩
  rw [step_issue hq hw hd]
  cases exec i { s with issues := rest } <;> rfl

/-- Settles O7: the three kinds of step without an issue to run, and the tape of engine steps. -/
theorem stepWithoutIssue : Obligations.StepWithoutIssue := by
  refine ⟨fun s v r hq hv => ?_, fun s => step_wait, fun s evs rest => engines_of_tape⟩
  have hs : s.refuseOverlaps = v := by
    rcases hv with ⟨ho, rfl⟩ | ⟨ws, rest, ho, rfl⟩
    · exact refuseOverlaps_nil ho
    · exact refuseOverlaps_cons ho
  rw [step_running hq, hs]
  cases seqStep r v <;> rfl

/-! ### What the engines leave unchanged -/

/-- `u` is `s` but for what the chip's own agents change: flags, errors, FIFO, engines and their results, the record of
transmissions, and the tape of engine steps. -/
def State.OnlyChipChanged (s u : State) : Prop :=
  u = { s with
    comIrq := u.comIrq, divIrq := u.divIrq, errorReg := u.errorReg, fifo := u.fifo, crcResult := u.crcResult,
    crcState := u.crcState, trxState := u.trxState, txLastBitsLatched := u.txLastBitsLatched,
    rxLastBits := u.rxLastBits, txEvents := u.txEvents, events := u.events, drawCount := u.drawCount }

theorem State.OnlyChipChanged.refl (s : State) : s.OnlyChipChanged s := rfl

theorem State.OnlyChipChanged.trans {s t u : State} (h : s.OnlyChipChanged t) (h' : t.OnlyChipChanged u) :
    s.OnlyChipChanged u := by
  unfold State.OnlyChipChanged at h h' ⊢
  rw [h] at h'
  exact h'

theorem engineStep_onlyChipChanged (s : State) (e : EngineEvent) : s.OnlyChipChanged (s.engineStep e) := by
  cases e with
  | crcComplete left => simp only [State.engineStep, State.crcComplete]; split <;> rfl
  | transmit => simp only [State.engineStep, State.transmit]; split <;> rfl
  | receive bytes lastBits err => simp only [State.engineStep, State.receive]; split <;> rfl
  | timer => simp only [State.engineStep, State.timerStep]; split <;> rfl

theorem takeEvents_onlyChipChanged (s : State) : s.OnlyChipChanged s.takeEvents.2 := by
  rw [takeEvents_eq]; rfl

/-- However many engine steps fall between two moves, they change only the chip. -/
theorem engines_onlyChipChanged (s : State) : s.OnlyChipChanged s.engines :=
  engines_keep (P := s.OnlyChipChanged) (fun u h => h.trans (takeEvents_onlyChipChanged u))
    (fun u e h => h.trans (engineStep_onlyChipChanged u e)) (.refl s)

/-- Settles O32: every engine step changes only the chip, and so does every list of them. -/
theorem enginesChangeOnlyChip : Obligations.EnginesChangeOnlyChip := fun s => ⟨_, rfl, engines_onlyChipChanged s⟩

/-! ### Registers by address -/

/-- An address that is none of the ten names no register (10_state.md R37). -/
theorem regOf_eq_none {c : Config} {a : RegAddr} (h : ∀ r : Reg, c.regMap.addr r ≠ a) : regOf c a = none :=
  List.find?_eq_none.2 fun r _ => by simpa using h r

theorem withReg_none {a : RegAddr} {s : State} (k : Reg → Host.Outcome State Fault Refusal)
    (h : regOf s.cfg a = none) : withReg a s k = .refused .unmodelledRegister := by simp only [withReg, h]

theorem withReg_some {a : RegAddr} {s : State} {r : Reg} (k : Reg → Host.Outcome State Fault Refusal)
    (h : regOf s.cfg a = some r) : withReg a s k = k r := by simp only [withReg, h]

/-- Settles O10: the ten addresses differ, so each finds its own register, and no other address finds one. -/
theorem registerMapNames : Obligations.RegisterMapNames :=
  ⟨fun _ hc => ⟨regOf_addr hc, fun _ => regOf_eq_none⟩, by decide⟩

/-- Settles O11: each of the four raw forms looks its register up first, and finds none. -/
theorem unmodelledRegisterRefused : Obligations.UnmodelledRegisterRefused := by
  intro s a v hq ha
  have refused : ∀ k, whenIdle s (withReg a s k) = .refused .unmodelledRegister := fun k => by
    rw [whenIdle_idle _ hq, withReg_none k (regOf_eq_none ha)]
  exact ⟨refused _, refused _, refused _, refused _⟩

/-! ### Raw writes -/

/-- Where no operation runs, an end only hands over its result. -/
theorem finish_idle {s : State} (x : Result) (h : s.seq = none) : s.finish x = { s with result := some x } := by
  rw [State.finish, ← h]

/-- A raw write that is not refused is the transaction, and ends (40_bus.md R142). -/
theorem exec_regWrite_next {a : RegAddr} {v : Byte} {r : Reg} {s : State} (hq : s.seq = none)
    (ha : regOf s.cfg a = some r) (hv : writeRefusal s.cfg r v = none) :
    exec (.regWrite a v) s = .next { s.regWrite r v with result := some {} } := by
  rw [← finish_idle _ (by rw [regWrite_seq, hq])]
  simp only [exec, execRegWrite, rawWrite, whenIdle_idle _ hq, withReg_some _ ha, hv]

/-- A raw read is the transaction, and ends with the byte read (R144). -/
theorem exec_regRead_next {a : RegAddr} {r : Reg} {s : State} (hq : s.seq = none) (ha : regOf s.cfg a = some r) :
    exec (.regRead a) s = .next { (s.regRead r).2 with result := some { data := [(s.regRead r).1] } } := by
  rw [← finish_idle _ (by rw [regRead_seq, hq])]
  exact execRegRead_next hq ha

/-- In set/clear mode the marked flags that the register has take bit 7 (10_state.md R41). -/
theorem irqWrite_setClear_getLsbD (mask flags : BitVec 7) (v : Byte) {i : Nat} (hi : i < 7) :
    (irqWrite .setClear mask flags v).getLsbD i =
      if mask.getLsbD i = true ∧ v.getLsbD i = true then v.getLsbD 7 else flags.getLsbD i := by
  have marked : (v.setWidth 7 &&& mask).getLsbD i = (mask.getLsbD i && v.getLsbD i) := by
    simp only [BitVec.getLsbD_and, BitVec.getLsbD_setWidth, hi, decide_true, Bool.true_and, Bool.and_comm]
  simp only [irqWrite, ← Bool.and_eq_true, ← marked]
  cases v.getLsbD 7
  · rw [if_neg Bool.false_ne_true, BitVec.getLsbD_and, BitVec.getLsbD_not]
    cases (v.setWidth 7 &&& mask).getLsbD i <;> simp [hi]
  · rw [if_pos rfl, BitVec.getLsbD_or]
    cases (v.setWidth 7 &&& mask).getLsbD i <;> simp

/-- In plain mode the flags that the register has take the written bits (R41). -/
theorem irqWrite_plain_getLsbD (mask flags : BitVec 7) (v : Byte) {i : Nat} (hi : i < 7) :
    (irqWrite .plain mask flags v).getLsbD i = if mask.getLsbD i = true then v.getLsbD i else flags.getLsbD i := by
  simp only [irqWrite, BitVec.getLsbD_or, BitVec.getLsbD_and, BitVec.getLsbD_not, BitVec.getLsbD_setWidth, hi]
  cases mask.getLsbD i <;> simp

theorem comIrqFlags_getLsbD {i : Nat} (hi : i < 7) : comIrqFlags.getLsbD i = true := by
  interval_cases i <;> rfl

theorem divIrqFlags_getLsbD {i : Nat} (hi : i < 7) : divIrqFlags.getLsbD i = true ↔ i = 4 ∨ i = 2 := by
  interval_cases i <;> decide

theorem regWrite_comIrq_eq (s : State) (v : Byte) :
    s.regWrite .comIrq v = { s.bus (writeAddrByte (s.cfg.regMap.addr .comIrq)) v with
      comIrq := irqWrite s.cfg.irqWriteMode comIrqFlags s.comIrq (s.cfg.regMap.fields .comIrq v) } := by
  rw [State.regWrite, transact_bus]; rfl

theorem regWrite_divIrq_eq (s : State) (v : Byte) :
    s.regWrite .divIrq v = { s.bus (writeAddrByte (s.cfg.regMap.addr .divIrq)) v with
      divIrq := irqWrite s.cfg.irqWriteMode divIrqFlags s.divIrq (s.cfg.regMap.fields .divIrq v) } := by
  rw [State.regWrite, transact_bus]; rfl

theorem regWrite_bitFraming_eq (s : State) (v : Byte) :
    s.regWrite .bitFraming v = { s.bus (writeAddrByte (s.cfg.regMap.addr .bitFraming)) v with
      bitFraming := s.cfg.regMap.fields .bitFraming v } := by
  rw [State.regWrite, transact_bus]; rfl

/-- Settles O13: the write stores what `irqWrite` gives, bit by bit in each mode. -/
theorem irqFlagWrite : Obligations.IrqFlagWrite := by
  intro s a v hq
  refine ⟨fun ha => ?_, fun ha => ?_⟩
  · refine ⟨irqWrite s.cfg.irqWriteMode comIrqFlags s.comIrq (s.cfg.regMap.fields .comIrq v), ?_, fun i hi => ?_⟩
    · rw [exec_regWrite_next hq ha rfl, regWrite_comIrq_eq]
    · cases s.cfg.irqWriteMode with
      | setClear => simp [irqWrite_setClear_getLsbD _ _ _ hi, comIrqFlags_getLsbD hi]
      | plain => simp [irqWrite_plain_getLsbD _ _ _ hi, comIrqFlags_getLsbD hi]
  · refine ⟨irqWrite s.cfg.irqWriteMode divIrqFlags s.divIrq (s.cfg.regMap.fields .divIrq v), ?_, fun i hi => ?_⟩
    · rw [exec_regWrite_next hq ha rfl, regWrite_divIrq_eq]
    · cases s.cfg.irqWriteMode with
      | setClear => simp [irqWrite_setClear_getLsbD _ _ _ hi, divIrqFlags_getLsbD hi, ite_and]
      | plain => simp [irqWrite_plain_getLsbD _ _ _ hi, divIrqFlags_getLsbD hi]

/-! ### `BitFramingReg` read back -/

theorem draw_eq (s : State) : s.draw.2 = { s with draws := s.draw.2.draws, drawCount := s.draw.2.drawCount } := by
  unfold State.draw; split <;> rfl

/-- A read with reserved bits shows the held bits outside them and the drawn ones at them (10_state.md R51). -/
theorem withReserved_getLsbD (r : Reg) (held d : Byte) {i : Nat} (hi : i < 8) :
    (withReserved r held d).getLsbD i = if (reservedBits r).getLsbD i = true then d.getLsbD i else held.getLsbD i := by
  simp only [withReserved, BitVec.getLsbD_or, BitVec.getLsbD_and, BitVec.getLsbD_not, hi]
  cases (reservedBits r).getLsbD i <;> simp

theorem reservedBits_bitFraming_getLsbD {i : Nat} (hi : i < 8) :
    (reservedBits .bitFraming).getLsbD i = true ↔ i = 3 := by
  interval_cases i <;> decide

/-- A read of `BitFramingReg` changes the lines and the draws, and shows the held fields but for the drawn bit 3. -/
theorem regRead_bitFraming_eq (s : State) :
    ∃ d u, s.regRead .bitFraming = (s.cfg.regMap.byte .bitFraming (withReserved .bitFraming s.bitFraming d), u) ∧
      u = { s.bus (readAddrByte (s.cfg.regMap.addr .bitFraming)) s.cfg.dummy with
        draws := u.draws, drawCount := u.drawCount } := by
  let t := s.bus (readAddrByte (s.cfg.regMap.addr .bitFraming)) s.cfg.dummy
  refine ⟨t.draw.1, t.draw.2, ?_, draw_eq t⟩
  rw [State.regRead, transact_bus]; rfl

/-- What a read of `BitFramingReg` gives the host is what the register holds, outside the reserved bit. -/
theorem exec_regRead_bitFraming {a : RegAddr} {s : State} (hc : s.cfg.Wf) (hq : s.seq = none)
    (ha : regOf s.cfg a = some .bitFraming) :
    ∃ w u, exec (.regRead a) s = .next u ∧
      u = { s.bus (readAddrByte (s.cfg.regMap.addr .bitFraming)) s.cfg.dummy with
        draws := u.draws, drawCount := u.drawCount, result := some { data := [w] } } ∧
      ∀ i, i < 8 → i ≠ 3 → (s.cfg.regMap.fields .bitFraming w).getLsbD i = s.bitFraming.getLsbD i := by
  obtain ⟨d, u, hr, hu⟩ := regRead_bitFraming_eq s
  have hread := exec_regRead_next hq ha
  rw [hr] at hread
  refine ⟨_, _, hread, by rw [hu], fun i hi h3 => ?_⟩
  rw [hc.fields_byte, withReserved_getLsbD _ _ _ hi, if_neg (mt (reservedBits_bitFraming_getLsbD hi).1 h3)]

/-- Settles O16: the write stores the fields, and the read shows them outside the reserved bit. -/
theorem bitFramingReadsBack : Obligations.BitFramingReadsBack := by
  rintro s a v _ hc hq ha rfl hf
  have hw := exec_regWrite_next hq ha (fieldRefusal_framing.2 hf)
  rw [regWrite_bitFraming_eq] at hw
  exact ⟨_, hw, rfl, exec_regRead_bitFraming hc hq ha⟩

/-! ### The issue of an operation -/

theorem issueOp_idle {s : State} (r : Running) (h : s.seq = none) : issueOp r s = .next { s with seq := some r } :=
  whenIdle_idle _ h

theorem exec_computeCrc_next {src dst : Region} {s : State} (hq : s.seq = none) (h : src.len ≤ s.cfg.frameCap) :
    exec (.computeCrc src dst) s =
      .next { s with seq := some (.crc { src := areaOf src, len := src.len, dst := areaOf dst }) } := by
  simp only [exec, execComputeCrc, if_neg (Nat.not_lt.2 h), issueOp_idle _ hq]

theorem exec_transceive_next {inp out : Region} {s : State} (hq : s.seq = none) (h1 : 1 ≤ inp.len)
    (h : inp.len ≤ s.cfg.frameCap) :
    exec (.transceive inp out) s =
      .next { s with seq := some (.trx { inp := areaOf inp, len := inp.len, out := areaOf out }) } := by
  have inRange : ¬ (inp.len < 1 ∨ s.cfg.frameCap < inp.len) := by omega
  simp only [exec, execTransceive, if_neg inRange, issueOp_idle _ hq]

/-- Settles O45: the length check where the operation has one, then `issueOp`. -/
theorem issueBeginsOperation : Obligations.IssueBeginsOperation := by
  intro s x y a b hq
  refine ⟨fun h => ⟨_, exec_computeCrc_next hq h⟩, fun h => ?_, fun h1 h => ⟨_, exec_transceive_next hq h1 h⟩,
    fun h => ?_, fun i hi => ?_⟩
  · simp only [exec, execComputeCrc, if_pos h, whenIdle_idle _ hq]
  · simp only [exec, execTransceive, if_pos h, whenIdle_idle _ hq]
  · simp only [List.mem_cons, List.not_mem_nil, or_false] at hi
    rcases hi with rfl | rfl | rfl | rfl | rfl | rfl <;> exact ⟨_, issueOp_idle _ hq⟩

end Sys2Proof.Machine

/-! The statements of 20_memory.md: buffer and scratch accesses. -/

namespace Sys2Proof.Machine

open Sys2Proof

/-- A byte of a caller's region is reached inside the region and below `HOST_MEM_SIZE` (20_memory.md R84). -/
theorem reaches_areaOf {s : State} {r : Region} {i : Nat} :
    s.reaches (areaOf r) i = true ↔ i < r.len ∧ r.base + i < s.cfg.hostMemSize :=
  Bool.and_eq_true_iff.trans (and_congr decide_eq_true_iff decide_eq_true_iff)

/-- A scratch byte is reached below `FRAME_CAP` (44_card_frames.md R253). -/
theorem reaches_scratchFrom {s : State} {o i : Nat} :
    s.reaches (scratchFrom s.cfg o) i = true ↔ o + i < s.cfg.frameCap :=
  decide_eq_true_iff

/-- An access that overruns has no outcome. -/
theorem area_overrun {s : State} {a : Area} {i : Nat} (v : Byte) (h : ¬ s.reaches a i = true) :
    s.areaRead a i = none ∧ s.areaWrite a i v = none :=
  ⟨if_neg h, if_neg h⟩

theorem areaWrite_areaOf {s : State} {r : Region} {i : Nat} (v : Byte) (h : s.reaches (areaOf r) i = true) :
    s.areaWrite (areaOf r) i v = some { s with mem := Memory.write s.mem (r.base + i) v } :=
  if_pos h

theorem areaWrite_scratchFrom {s : State} {o i : Nat} (v : Byte) (h : s.reaches (scratchFrom s.cfg o) i = true) :
    s.areaWrite (scratchFrom s.cfg o) i v = some { s with scratch := s.scratch.set (o + i) v } :=
  if_pos h

/-- The scratch buffer holds `FRAME_CAP` bytes, so a byte below it is listed and the read gives it. -/
theorem areaRead_scratchFrom {s : State} {o i : Nat} (hlen : s.scratch.length = s.cfg.frameCap)
    (h : s.reaches (scratchFrom s.cfg o) i = true) : s.areaRead (scratchFrom s.cfg o) i = s.scratch[o + i]? := by
  have listed : o + i < s.scratch.length := hlen ▸ reaches_scratchFrom.1 h
  rw [areaRead_eq_some.2 ⟨h, rfl⟩, List.getElem?_eq_getElem listed]
  exact congrArg some (List.getElem_eq_getD _).symm

/-- Settles O39: within the bounds the accesses are `Memory.read` and `Memory.write` at `base + i`, or the scratch list's,
and outside them they overrun. -/
theorem bufferAccess : Obligations.BufferAccess := by
  intro s r o i v hmem hlen
  refine ⟨fun h => ?_, fun h => area_overrun v (mt reaches_areaOf.1 h), fun h => ?_,
    fun h => area_overrun v (mt reaches_scratchFrom.1 (Nat.not_lt.2 h))⟩
  · have hr := reaches_areaOf.2 h
    exact ⟨areaRead_eq_some.2 ⟨hr, rfl⟩, _, areaWrite_areaOf v hr, rfl, Memory.write_wf _ v hmem,
      Memory.read_write_same _ v hmem, fun _ => Memory.read_write_ne v⟩
  · have hr := reaches_scratchFrom.2 h
    exact ⟨areaRead_scratchFrom hlen hr, areaWrite_scratchFrom v hr⟩

end Sys2Proof.Machine

/-! The statements of 30_encoding.md, first part: the decoder, the encoder, and raw writes with a row of their own. -/

namespace Sys2Proof.Machine

open Sys2Proof

/-! ### Decoding inverts encoding -/

/-- Settles O3: the round trip of each instruction (`Laws.RoundTrip`), by its constructor. -/
theorem decodeInvertsEncode : Obligations.DecodeInvertsEncode := by
  intro c i hc hi
  cases i with
  | transferByte out => exact Laws.RoundTrip.transferByte out c hc hi
  | regWrite a v => exact Laws.RoundTrip.regWrite a v c hc hi
  | regRead a => exact Laws.RoundTrip.regRead a c hc hi
  | setBits a m => exact Laws.RoundTrip.setBits a m c hc hi
  | clearBits a m => exact Laws.RoundTrip.clearBits a m c hc hi
  | cmdIdle => exact Laws.RoundTrip.cmdIdle c hc hi
  | cmdCalcCrc => exact Laws.RoundTrip.cmdCalcCrc c hc hi
  | cmdTransceive => exact Laws.RoundTrip.cmdTransceive c hc hi
  | flush => exact Laws.RoundTrip.flush c hc hi
  | startSend => exact Laws.RoundTrip.startSend c hc hi
  | stopSend => exact Laws.RoundTrip.stopSend c hc hi
  | computeCrc src dst => exact Laws.RoundTrip.computeCrc src dst c hc hi
  | transceive inp out => exact Laws.RoundTrip.transceive inp out c hc hi
  | request code buf => exact Laws.RoundTrip.request code buf c hc hi
  | readUid cmd arg buf => exact Laws.RoundTrip.readUid cmd arg buf c hc hi
  | select cmd arg serial => exact Laws.RoundTrip.select cmd arg serial c hc hi
  | readPage page buf => exact Laws.RoundTrip.readPage page buf c hc hi
  | writePage page data => exact Laws.RoundTrip.writePage page data c hc hi
  | halt => exact Laws.RoundTrip.halt c hc hi
  | frameReqa => exact Laws.RoundTrip.frameReqa c hc hi
  | frameWupa => exact Laws.RoundTrip.frameWupa c hc hi
  | frameAnticoll b a => exact Laws.RoundTrip.frameAnticoll b a c hc hi
  | frameSelect b a u0 u1 u2 u3 l h => exact Laws.RoundTrip.frameSelect b a u0 u1 u2 u3 l h c hc hi
  | frameRead p l h => exact Laws.RoundTrip.frameRead p l h c hc hi
  | frameWrite p d0 d1 d2 d3 l h => exact Laws.RoundTrip.frameWrite p d0 d1 d2 d3 l h c hc hi
  | frameHalt => exact Laws.RoundTrip.frameHalt c hc hi
  | respAtqa q0 q1 => exact Laws.RoundTrip.respAtqa q0 q1 c hc hi
  | respUid u0 u1 u2 u3 b => exact Laws.RoundTrip.respUid u0 u1 u2 u3 b c hc hi
  | respSak s l h => exact Laws.RoundTrip.respSak s l h c hc hi
  | respRead d l h => exact Laws.RoundTrip.respRead d l h c hc hi
  | respAck k => exact Laws.RoundTrip.respAck k c hc hi

/-- Settles O1: each word, by evaluation of the decoder; only the `HALT` frame needs a CRC computed. -/
theorem specWordsDecode : Obligations.SpecWordsDecode :=
  ⟨rfl, rfl, rfl, rfl, rfl, rfl, rfl, rfl, rfl, rfl, rfl, by decide +kernel, rfl, rfl, rfl⟩

/-- Settles O2: the fields of the two address bytes are the laws of the decoder; the ten registers' bytes are evaluated. -/
theorem registerAddressBytes : Obligations.RegisterAddressBytes :=
  ⟨fun _ a _ => ⟨rfl, rfl, writeAddrByte_bit7 a, writeAddrByte_addr a, writeAddrByte_bit0 a,
    readAddrByte_bit7 a, readAddrByte_addr a, readAddrByte_bit0 a⟩, by decide⟩

/-- Settles O5: such a transaction decodes to no instruction, and an undecoded issue is refused in its step. -/
theorem reservedBusBitRefused : Obligations.ReservedBusBitRefused := by
  intro s b0 b1 rest hq hw hb
  exact step_undecoded hq hw (if_pos hb)

/-! ### Encoding inverts decoding -/

/-- An address byte with bits 7 and 0 clear is a write's (30_encoding.md R101). -/
theorem writeAddrByte_extract {b : Byte} (h0 : b.getLsbD 0 = false) (h7 : b.getLsbD 7 = false) :
    writeAddrByte (b.extractLsb' 1 6) = b := by
  revert b; decide

/-- An address byte with bit 7 set and bit 0 clear is a read's (R102). -/
theorem readAddrByte_extract {b : Byte} (h0 : b.getLsbD 0 = false) (h7 : b.getLsbD 7 = true) :
    readAddrByte (b.extractLsb' 1 6) = b := by
  revert b; decide

/-- The instruction a write transaction is named as has that transaction as its words, and is well formed. -/
theorem encode_nameWrite (c : Config) (a : RegAddr) (v : Byte) :
    encode c (nameWrite c a v) = .bus (writeAddrByte a) v ∧ (nameWrite c a v).wellFormed c = true := by
  unfold nameWrite
  split_ifs with h1 h2 h3 h4
  · exact ⟨by rw [h1.1, h1.2]; rfl, rfl⟩
  · exact ⟨by rw [h2.1, h2.2]; rfl, rfl⟩
  · exact ⟨by rw [h3.1, h3.2]; rfl, rfl⟩
  · exact ⟨by rw [h4.1, h4.2]; rfl, rfl⟩
  · refine ⟨rfl, ?_⟩
    simp only [Instr.wellFormed, namedWrite, Bool.not_eq_true', Bool.or_eq_false_iff, Bool.and_eq_false_iff,
      beq_eq_false_iff_ne]
    tauto

/-- `EncodedAs c w i`: under the parameters `c` the words of `i` are `w`, and `i` is well formed or its meaning refuses it
as a frame of no listed form. -/
def EncodedAs (c : Config) (w : Issue) (i : Instr) : Prop :=
  encode c i = w ∧ (i.wellFormed c = true ∨
    (∃ bytes, w = .txFrame bytes) ∧ ∀ s : State, s.cfg = c → s.seq = none → exec i s = .refused .unlistedFrame)

theorem emitWithCrc_refused {first : List Byte} {l h : Byte} {s : State} (hq : s.seq = none)
    (hm : ¬ crcMatches s.cfg first l h = true) : emitWithCrc first l h s = .refused .unlistedFrame := by
  rw [emitWithCrc, if_neg hm, whenIdle_idle _ hq]

/-- A frame with a CRC is well formed where the CRC matches, and refused where it does not. -/
theorem EncodedAs.ofCrc {c : Config} {bytes first : List Byte} {i : Instr} {l h : Byte} (he : encode c i = .txFrame bytes)
    (hw : i.wellFormed c = crcMatches c first l h)
    (hx : ∀ s : State, s.cfg = c → exec i s = emitWithCrc first l h s) : EncodedAs c (.txFrame bytes) i := by
  refine ⟨he, ?_⟩
  by_cases hm : crcMatches c first l h = true
  · exact .inl (hw.trans hm)
  · exact .inr ⟨⟨bytes, rfl⟩, fun s hc hq => by rw [hx s hc, emitWithCrc_refused hq (hc ▸ hm)]⟩

theorem decodeTxFrame_encodedAs {c : Config} {bytes : List Byte} {i : Instr} (h : decodeTxFrame c bytes = some i) :
    EncodedAs c (.txFrame bytes) i := by
  unfold decodeTxFrame at h
  split at h
  case h_1 b =>
    split_ifs at h with h1 h2 <;> cases h
    · exact ⟨by rw [h1]; rfl, .inl rfl⟩
    · exact ⟨by rw [h2]; rfl, .inl rfl⟩
  case h_2 b a => cases h; exact ⟨rfl, .inl rfl⟩
  case h_3 o p l k =>
    split_ifs at h with h1 h2 <;> cases h
    · exact .ofCrc (first := readBytes c p) (by rw [h1]; rfl) rfl (fun s hc => by rw [← hc]; rfl)
    · exact ⟨by rw [h2]; rfl, .inl rfl⟩
  case h_4 o p d0 d1 d2 d3 l k =>
    split_ifs at h with h1
    cases h
    exact .ofCrc (first := writeBytes c p d0 d1 d2 d3) (by rw [h1]; rfl) rfl (fun s hc => by rw [← hc]; rfl)
  case h_5 b a u0 u1 u2 u3 x l k =>
    split_ifs at h with h1
    cases h
    exact .ofCrc (first := selectBytes b a u0 u1 u2 u3) (by rw [h1]; rfl) rfl (fun _ _ => rfl)
  case h_6 => cases h

theorem decodeRxFrame_encodedAs {c : Config} {bytes : List Byte} {i : Instr} (h : decodeRxFrame bytes = some i) :
    EncodedAs c (.rxFrame bytes) i := by
  unfold decodeRxFrame at h
  split at h
  case h_1 k =>
    split_ifs at h with h1
    cases h
    exact ⟨by rw [encode, ← h1, high_append_low], .inl rfl⟩
  case h_2 q0 q1 => cases h; exact ⟨rfl, .inl rfl⟩
  case h_3 s l k => cases h; exact ⟨rfl, .inl rfl⟩
  case h_4 u0 u1 u2 u3 b => cases h; exact ⟨rfl, .inl rfl⟩
  case h_5 =>
    split at h
    · rename_i l k e
      cases h
      have hlen := congrArg List.length e
      rw [List.length_drop] at hlen
      refine ⟨by rw [encode, ← e, List.take_append_drop], .inl ?_⟩
      simp only [List.length_cons, List.length_nil] at hlen
      simp only [Instr.wellFormed, List.length_take, beq_iff_eq]
      omega
    · cases h

/-- A frame or response that decodes is one of the listed forms. -/
theorem listed_eq_ok {o : Option Instr} {i : Instr} (h : listed o = .ok i) : o = some i := by
  cases o <;> cases h; rfl

theorem readAddrByte_ne_writeAddrByte (a b : RegAddr) : readAddrByte a ≠ writeAddrByte b := fun e => by
  have := congrArg (fun x : Byte => x.getLsbD 7) e
  simp only [readAddrByte_bit7, writeAddrByte_bit7, Bool.true_eq_false] at this

/-- Settles O4: by the form of the words; the frames and responses by the list their number of bytes selects. -/
theorem encodeInvertsDecode : Obligations.EncodeInvertsDecode := by
  intro c w i hterm h
  have settled : EncodedAs c w i → (∀ a d, w ≠ .bus (readAddrByte a) d) →
      (i.wellFormed c = true ∨ ((∃ bytes, w = .txFrame bytes) ∧
        ∀ s : State, s.cfg = c → s.seq = none → exec i s = .refused .unlistedFrame)) ∧
      ((∀ a d, w ≠ .bus (readAddrByte a) d) → encode c i = w) ∧
      ∀ a d, w = .bus (readAddrByte a) d → i = .regRead a ∧ encode c i = .bus (readAddrByte a) c.dummy :=
    fun hi hw => ⟨hi.2, fun _ => hi.1, fun a d e => absurd e (hw a d)⟩
  cases w with
  | bitTransfer b => cases h; exact settled ⟨rfl, .inl rfl⟩ nofun
  | bus b0 b1 =>
    simp only [decode, decodeBus] at h
    split_ifs at h with h0 h7
    · cases h
      have hb := readAddrByte_extract (Bool.eq_false_iff.2 h0) h7
      refine ⟨.inl rfl, fun hw => absurd (by rw [hb]) (hw (b0.extractLsb' 1 6) b1), fun a d e => ?_⟩
      obtain ⟨rfl, -⟩ := Issue.bus.inj e
      rw [readAddrByte_addr]
      exact ⟨rfl, rfl⟩
    · cases h
      have hb := writeAddrByte_extract (Bool.eq_false_iff.2 h0) (Bool.eq_false_iff.2 h7)
      obtain ⟨he, hwf⟩ := encode_nameWrite c (b0.extractLsb' 1 6) b1
      rw [hb] at he
      exact settled ⟨he, .inl hwf⟩ fun a d e =>
        readAddrByte_ne_writeAddrByte a _ ((Issue.bus.inj e).1.symm.trans hb.symm)
  | txFrame bytes => exact settled (decodeTxFrame_encodedAs (listed_eq_ok h)) nofun
  | rxFrame bytes => exact settled (decodeRxFrame_encodedAs (listed_eq_ok h)) nofun
  | term j => exact absurd rfl (hterm j)

/-! ### Writes with a row of their own -/

/-- A raw write names its register by address, and is otherwise the write of the register (40_bus.md R142). -/
theorem exec_regWrite_addr {s : State} (hc : s.cfg.Wf) (r : Reg) (v : Byte) :
    exec (.regWrite (s.cfg.regMap.addr r) v) s = rawWrite r v s := by
  cases hq : s.seq with
  | some q => simp only [exec, execRegWrite, rawWrite, whenIdle_running _ hq]
  | none => simp only [exec, execRegWrite, whenIdle_idle _ hq, withReg_some _ (regOf_addr hc r)]

/-- Settles O20: each of the four rows is the raw write of its register and byte. -/
theorem commandWriteIsCommand : Obligations.CommandWriteIsCommand := fun _ hc =>
  ⟨exec_regWrite_addr hc .command _, exec_regWrite_addr hc .command _, exec_regWrite_addr hc .command _,
    exec_regWrite_addr hc .fifoLevel _⟩

end Sys2Proof.Machine

/-! The statements of 30_encoding.md: the bits of a frame that go out, and the write acknowledgement. -/

namespace Sys2Proof.Machine

open Sys2Proof

/-! ### The transmit step and the bits that go out -/

theorem lowBits_getElem? (n j : Nat) (b : Byte) : (lowBits n b)[j]? = if j < n then some (b.getLsbD j) else none := by
  split_ifs with h <;> simp [lowBits, h]

/-- The bytes of a frame go out as the low bits of each: all eight, but of the last one those that `TxLastBits` counts. -/
theorem sent_getElem? (e : TxEvent) (i : Nat) :
    e.sent[i]? = if i < e.frame.length then
      some (lowBits (if i + 1 = e.frame.length then sentBits e.lastBits else 8) (e.frame.getD i 0#8)) else none := by
  obtain ⟨frame, lb⟩ := e
  rcases List.eq_nil_or_concat' frame with rfl | ⟨front, b, rfl⟩
  · rfl
  · simp only [TxEvent.sent, List.dropLast_concat, List.getLast?_concat, Option.map_some, Option.toList_some,
      List.length_append, List.length_singleton, Nat.add_right_cancel_iff, List.getD_eq_getElem?_getD]
    rcases Nat.lt_trichotomy i front.length with h | rfl | h
    · rw [List.getElem?_append_left (by simpa using h), List.getElem?_append_left h, if_pos (by omega), if_neg (by omega)]
      simp [h]
    · simp
    · rw [if_neg (by omega), List.getElem?_eq_none (by simp; omega)]

theorem transmit_eq {s : State} (h : s.transmitEnabled = true) :
    s.transmit = { s with
      txEvents := ⟨s.fifo, txLastBitsOf s.bitFraming⟩ :: s.txEvents
      txLastBitsLatched := txLastBitsOf s.bitFraming
      fifo := []
      comIrq := s.comIrq ||| txIrqBit
      trxState := .receiving } := if_pos h

/-- Settles O29: the enabling condition is `transmitEnabled_iff`; the bits are read off byte by byte. -/
theorem transmitStep : Obligations.TransmitStep := by
  refine ⟨fun s => ⟨fun h => transmit_eq (transmitEnabled_iff.2 h), fun h => if_neg (mt transmitEnabled_iff.1 h)⟩,
    fun e i j => ?_⟩
  have bits : (if i + 1 = e.frame.length then sentBits e.lastBits else 8) =
      if i + 1 = e.frame.length ∧ e.lastBits ≠ 0#3 then e.lastBits.toNat else 8 := by
    by_cases hlast : i + 1 = e.frame.length <;> by_cases hlb : e.lastBits = 0#3 <;> simp [sentBits, hlast, hlb]
  rw [sent_getElem?, bits]
  by_cases hi : i < e.frame.length
  · simp [hi, lowBits_getElem?]
  · simp [hi]

/-! ### Runs of a running operation -/

/-- An operation that has ended ends in no further step. -/
theorem endsWithin_ended {n : Nat} {s : State} (h : s.seq = none) : EndsWithin n s s :=
  ⟨0, Nat.zero_le _, ⟨rfl, fun _ hj => absurd hj (Nat.not_lt_zero _)⟩, h⟩

/-- One step of a running operation, and then its end. -/
theorem endsWithin_step {n : Nat} {s t u : State} (hs : s.seq ≠ none) (ht : step s = .next t) (h : EndsWithin n t u) :
    EndsWithin (n + 1) s u := by
  obtain ⟨k, hk, ⟨hrun, halong⟩, hu⟩ := h
  refine ⟨k + 1, Nat.succ_le_succ hk, ⟨by rw [run_succ, ht]; exact hrun, fun j hj => ?_⟩, hu⟩
  cases j with
  | zero => exact ⟨s, rfl, hs⟩
  | succ j =>
    obtain ⟨w, hw, hne⟩ := halong j (Nat.lt_of_succ_lt_succ hj)
    exact ⟨w, by rw [run_succ, ht]; exact hw, hne⟩

/-- The state at a line of an operation that goes on: after the engine steps, and the refused issues, of the pause. -/
def State.atLine (s : State) (r : Running) : State := (s.goOn r).engines.refuseOverlaps

/-- A line of a running operation, and then its end. -/
theorem endsWithin_line {n : Nat} {s t u : State} {r : Running} (hs : s.seq = some r)
    (ht : seqStep r s.refuseOverlaps = .next t) (h : EndsWithin n t.engines u) : EndsWithin (n + 1) s u :=
  endsWithin_step (by simp [hs]) (by rw [step_running hs, ht]; rfl) h

theorem endsWithin_goOn {n : Nat} {s t u : State} {r : Running} (ht : seqStep r (s.atLine r) = .next t)
    (h : EndsWithin n t.engines u) : EndsWithin (n + 1) (s.goOn r).engines u :=
  endsWithin_line (by simp) ht h

/-! ### The write acknowledgement -/

/-- The last line of the `TRANSCEIVE` of a `WRITE_PAGE` that found no error goes on to the acknowledgement, and writes
no memory (44_card_frames.md R245). -/
theorem seqStep_finalIdle_writePage {s : State} {k : CardFrame} {f : TrxFrame} {page : Byte} {data : Region}
    (hop : k.op = .writePage page data) (hl : f.line = .finalIdle) (hok : f.status = .ok) :
    seqStep (.cardTrx k f) s = .next ((s.setReg .command (cmdByte s.cfg.cmdIdle)).goOn
      (.card { k with line := .ackByte, bitLen := f.bitLen })) := by
  simp only [seqStep, trxStep, hl, afterTrx, hok, afterTrxOk, hop]

/-- The acknowledgement line looks at the first scratch byte and ends (30_encoding.md R120). -/
theorem seqStep_ackByte {s : State} {k : CardFrame} (hl : k.line = .ackByte) (hcap : 0 < s.cfg.frameCap) :
    seqStep (.card k) s = .next (afterAck k (s.scratch.getD 0 0#8) s) := by
  have hr : s.areaRead (scratchFrom s.cfg 0) 0 = some (s.scratch.getD 0 0#8) :=
    areaRead_eq_some.2 ⟨reaches_scratchFrom.2 hcap, rfl⟩
  simp only [seqStep, cardStep, hl, hr]

/-- Settles O60: the idle write, and then the acknowledgement's own line, each without a change of either memory. -/
theorem acknowledgementDecides : Obligations.AcknowledgementDecides := by
  intro s k f page data hinv hs hop hl hok
  have hcap : 0 < s.cfg.frameCap := Nat.lt_of_lt_of_le (by decide) hinv.steady.cfg.2.2.2.1
  let idle := s.refuseOverlaps.setReg .command (cmdByte s.refuseOverlaps.cfg.cmdIdle)
  let t := idle.atLine (.card { k with line := .ackByte, bitLen := f.bitLen })
  have htm : t.mem = s.mem ∧ t.scratch = s.scratch := by simp [t, idle, State.atLine]
  have hack := seqStep_ackByte (s := t) (k := { k with line := .ackByte, bitLen := f.bitLen }) rfl
    (by simpa [t, idle, State.atLine] using hcap)
  refine ⟨_, endsWithin_line hs (seqStep_finalIdle_writePage hop hl hok)
    (endsWithin_goOn hack (endsWithin_ended ?_)), ?_, ?_, ?_⟩
  · simp [afterAck]
  · simp [afterAck, htm]
  · simp [afterAck, htm]
  · simp [afterAck, htm, ack, okResult, protoErr, errResult]

end Sys2Proof.Machine

/-! The statements of 30_encoding.md, second part: the frame rows and the response rows. -/

namespace Sys2Proof.Machine

open Sys2Proof

/-! ### What a FIFO access and the pauses between lines leave unchanged -/

theorem State.ChipKept.trans {s t u : State} (h : s.ChipKept t) (h' : t.ChipKept u) : s.ChipKept u := by
  obtain ⟨a1, a2, a3, a4, a5, a6, a7, a8, a9⟩ := h
  obtain ⟨b1, b2, b3, b4, b5, b6, b7, b8, b9⟩ := h'
  exact ⟨b1.trans a1, b2.trans a2, b3.trans a3, b4.trans a4, b5.trans a5, b6.trans a6, b7.trans a7, b8.trans a8,
    b9.trans a9⟩

/-- Engines that are calm stay so while the chip is kept. -/
theorem State.ChipKept.calm {s t : State} (h : s.ChipKept t) (hs : s.Calm) : t.Calm := by
  obtain ⟨-, -, -, hc, -, ht, -⟩ := h
  exact ⟨fun d => by rw [hc]; exact hs.1 d, ht.trans hs.2⟩

/-- From `s` to `u` no command, parameter, memory or framing changes; and where the engines are calm and `room` holds,
the FIFO comes to be `fifo` and the rest of the chip is kept. -/
structure State.FifoTo (s u : State) (room : Prop) (fifo : List Byte) : Prop where
  cfg     : u.cfg = s.cfg
  command : u.commandReg = s.commandReg
  mem     : u.mem = s.mem
  scratch : u.scratch = s.scratch
  framing : u.bitFraming = s.bitFraming
  chip    : s.Calm → room → u.fifo = fifo ∧ s.ChipKept u

theorem State.FifoTo.trans {s t u : State} {p q r : Prop} {x y z : List Byte} (h : s.FifoTo t p x)
    (h' : t.FifoTo u q y) (hr : r → p ∧ (t.fifo = x → q ∧ y = z)) : s.FifoTo u r z := by
  refine ⟨h'.cfg.trans h.cfg, h'.command.trans h.command, h'.mem.trans h.mem, h'.scratch.trans h.scratch,
    h'.framing.trans h.framing, fun hc room => ?_⟩
  obtain ⟨hp, hq⟩ := hr room
  obtain ⟨hx, hk⟩ := h.chip hc hp
  obtain ⟨hy, hk'⟩ := h'.chip (hk.calm hc) (hq hx).1
  exact ⟨hy.trans (hq hx).2, hk.trans hk'⟩

/-- Calm engines take no step between two moves (41_chip_commands.md R163, R168, R170, R173). -/
theorem engines_calm {s : State} (h : s.Calm) : s.engines = s.takeEvents.2 := by
  have quiet : ∀ (es : List EngineEvent) (t : State), t.Calm → es.foldl State.engineStep t = t := by
    intro es
    induction es with
    | nil => exact fun _ _ => rfl
    | cons e es ih => exact fun t ht => by rw [List.foldl_cons, engineStep_calm ht.2 ht.1 e, ih t ht]
  exact quiet _ s.takeEvents.2 (takeEvents_keep (P := State.Calm) h)

theorem fifoTo_engines (s : State) : s.FifoTo s.engines True s.fifo := by
  refine ⟨by simp, by simp, by simp, by simp, by simp, fun hc _ => ?_⟩
  rw [engines_calm hc]
  simp [State.ChipKept]

theorem fifoTo_refuseOverlaps (s : State) : s.FifoTo s.refuseOverlaps True s.fifo :=
  ⟨by simp, by simp, by simp, by simp, by simp, fun _ _ => by simp [State.ChipKept]⟩

/-- The pause before a line changes nothing: the engine steps, and then the issues that are refused. -/
theorem State.FifoTo.pause {s t : State} {p : Prop} {x : List Byte} (h : s.FifoTo t p x) (r : Running) :
    s.FifoTo (t.atLine r) p x := by
  have hgo : s.FifoTo (t.goOn r) p x := ⟨h.cfg, h.command, h.mem, h.scratch, h.framing, h.chip⟩
  have heng : s.FifoTo (t.goOn r).engines p x := hgo.trans (fifoTo_engines _) fun hp => ⟨hp, fun e => ⟨trivial, e⟩⟩
  exact heng.trans (fifoTo_refuseOverlaps _) fun hp => ⟨hp, fun e => ⟨trivial, e⟩⟩

/-- So does the pause after the last line. -/
theorem State.FifoTo.ended {s t : State} {p : Prop} {x : List Byte} (h : s.FifoTo t p x) (y : Result) :
    s.FifoTo (t.finish y).engines p x := by
  have hfin : s.FifoTo (t.finish y) p x := ⟨h.cfg, h.command, h.mem, h.scratch, h.framing, h.chip⟩
  exact hfin.trans (fifoTo_engines _) fun hp => ⟨hp, fun e => ⟨trivial, e⟩⟩

/-- A push into a FIFO with room (41_chip_commands.md R177). -/
theorem fifoTo_push (s : State) (b : Byte) :
    s.FifoTo (s.regWrite .fifoData b) (s.fifo.length < s.cfg.fifoDepth) (s.fifo ++ [b]) := by
  refine ⟨by simp, by simp [regWrite_commandReg], by simp, by simp, by simp [regWrite_bitFraming], fun _ hroom => ?_⟩
  have hres := regWrite_crcResult (s := s) .fifoData b nofun
  simp [State.ChipKept, regWrite_fifo, regWrite_comIrq, regWrite_divIrq, regWrite_errorReg, regWrite_crcState,
    regWrite_trxState, hres, hroom]

/-- A register read takes the FIFO's head where it reads `FIFODataReg`, and changes nothing else (R178). -/
theorem fifoTo_regRead (s : State) (r : Reg) :
    s.FifoTo (s.regRead r).2 True (if r = .fifoData then s.fifo.tail else s.fifo) :=
  ⟨by simp, by simp, by simp, by simp, by simp, fun _ _ => ⟨regRead_fifo s r, by simp [State.ChipKept]⟩⟩

/-! ### The frame rows -/

/-- The encoder's pushes, made one a step, queue the bytes of a frame (20_memory.md R83, 30_encoding.md R108). -/
theorem pushAll_ends (b : Byte) (bytes : List Byte) (s : State) :
    ∃ u, EndsWithin bytes.length (writesStep (pushAll (b :: bytes)) s).engines u ∧ u.result = some {} ∧
      s.FifoTo u (s.fifo.length + (b :: bytes).length ≤ s.cfg.fifoDepth) (s.fifo ++ b :: bytes) := by
  induction bytes generalizing b s with
  | nil =>
    have hlast : writesStep (pushAll [b]) s = (s.regWrite .fifoData b).finish {} := rfl
    rw [hlast]
    exact ⟨_, endsWithin_ended (by simp), by simp, (fifoTo_push s b).ended {}⟩
  | cons c rest ih =>
    have hpush := (fifoTo_push s b).pause (.writes (pushAll (c :: rest)))
    obtain ⟨u, hend, hres, hto⟩ := ih c ((s.regWrite .fifoData b).atLine (.writes (pushAll (c :: rest))))
    refine ⟨u, endsWithin_goOn rfl hend, hres, hpush.trans hto fun room => ?_⟩
    simp only [List.length_cons] at room
    refine ⟨by omega, fun e => ⟨?_, by rw [e, List.append_assoc]; rfl⟩⟩
    simp only [e, hpush.cfg, List.length_append, List.length_cons, List.length_nil]
    omega

/-- A row whose frame goes out with the framing as it stands. -/
theorem queues_plain {i : Instr} {s : State} {b : Byte} {bytes : List Byte} (hq : s.seq = none)
    (hx : exec i s = emit (pushAll (b :: bytes)) s) : Queues i none (b :: bytes) s := by
  obtain ⟨u, ⟨k, hk, hend⟩, hres, hto⟩ := pushAll_ends b bytes s
  exact ⟨_, hx.trans (whenIdle_idle _ hq), u, ⟨k, hk.trans (Nat.le_succ _), hend⟩, hto.command, hto.mem, hto.scratch,
    hto.framing, hres, hto.chip⟩

/-- A row that writes its framing first. -/
theorem queues_framed {i : Instr} {s : State} {f b : Byte} {bytes : List Byte} (hc : s.cfg.Wf) (hq : s.seq = none)
    (hx : exec i s = emit (framingWrite s.cfg f :: pushAll (b :: bytes)) s) : Queues i (some f) (b :: bytes) s := by
  have hframe : State.FifoTo { s with bitFraming := f } (s.regWrite .bitFraming (s.cfg.regMap.byte .bitFraming f)) True
      s.fifo := by
    rw [regWrite_bitFraming_eq, hc.fields_byte]
    exact ⟨rfl, rfl, rfl, rfl, rfl, fun _ _ => ⟨rfl, rfl, rfl, rfl, rfl, rfl, rfl, rfl, rfl, rfl⟩⟩
  have hpause := hframe.pause (.writes (pushAll (b :: bytes)))
  obtain ⟨u, hend, hres, hto⟩ := pushAll_ends b bytes (State.atLine _ (.writes (pushAll (b :: bytes))))
  have h := hpause.trans hto (r := s.fifo.length + (b :: bytes).length ≤ s.cfg.fifoDepth) (z := s.fifo ++ b :: bytes)
    fun room => ⟨trivial, fun e => by rw [e, hpause.cfg]; exact ⟨room, rfl⟩⟩
  exact ⟨_, hx.trans (whenIdle_idle _ hq), u, endsWithin_goOn rfl hend, h.command, h.mem, h.scratch, h.framing, hres,
    h.chip⟩

theorem crcMatches_iff {c : Config} {first : List Byte} {l h : Byte} :
    crcMatches c first l h = true ↔
      l = (crc16 c first).extractLsb' 0 8 ∧ h = (crc16 c first).extractLsb' 8 8 := by
  simp [crcMatches, crcBytes, crcLow, crcHigh]

/-- A row with a CRC: queued where the CRC matches, refused where it does not (30_encoding.md R115, R123). -/
theorem emitWithCrc_row {i : Byte → Byte → Instr} {s : State} {b : Byte} {bytes : List Byte} {l h : Byte}
    (hq : s.seq = none) (hx : exec (i l h) s = emitWithCrc (b :: bytes) l h s) :
    (l = (crc16 s.cfg (b :: bytes)).extractLsb' 0 8 ∧ h = (crc16 s.cfg (b :: bytes)).extractLsb' 8 8 →
      Queues (i l h) none (b :: bytes ++ [l, h]) s) ∧
    (¬ (l = (crc16 s.cfg (b :: bytes)).extractLsb' 0 8 ∧ h = (crc16 s.cfg (b :: bytes)).extractLsb' 8 8) →
      exec (i l h) s = .refused .unlistedFrame) :=
  ⟨fun hm => queues_plain hq (hx.trans (if_pos (crcMatches_iff.2 hm))),
    fun hm => hx.trans (emitWithCrc_refused hq (mt crcMatches_iff.1 hm))⟩

theorem bcc_eq (u0 u1 u2 u3 : Byte) : bcc u0 u1 u2 u3 = u0 ^^^ u1 ^^^ u2 ^^^ u3 := by
  simp [bcc, xorBytes]

/-- Settles O57: the framed rows, the rows with a CRC as operand, and `FRAME_HALT` with its own. -/
theorem frameRowsQueue : Obligations.FrameRowsQueue := by
  intro s c a p u0 u1 u2 u3 hc hq
  refine ⟨queues_framed hc hq rfl, queues_framed hc hq rfl, queues_framed hc hq rfl, ?_, queues_plain hq rfl⟩
  rintro i first l h (⟨rfl, rfl⟩ | ⟨rfl, rfl⟩ | ⟨rfl, rfl⟩)
  · exact emitWithCrc_row hq (by rw [← bcc_eq]; rfl)
  · exact emitWithCrc_row hq rfl
  · exact emitWithCrc_row hq rfl

/-! ### The response rows -/

/-- What a response that received `got` is answered. -/
def RespFrame.answer (f : RespFrame) (got : List Byte) : Result :=
  if f.kind.accepts f.expected got f.bitLen then okResult (f.kind.payload got) else protoErr

/-- A response with one more byte received. -/
def RespFrame.receive (f : RespFrame) (v : Byte) : RespFrame := { f with line := .drain, got := f.got ++ [v] }

theorem RespFrame.receive_answer (f : RespFrame) (v : Byte) (got : List Byte) : (f.receive v).answer got = f.answer got := rfl

theorem respStep_drain {f : RespFrame} (hl : f.line = .drain) (s : State) :
    respStep f s = if f.got.length + 1 < f.cnt
      then (s.regRead .fifoData).2.goOn (.resp (f.receive (s.regRead .fifoData).1))
      else (s.regRead .fifoData).2.finish (f.answer (f.got ++ [(s.regRead .fifoData).1])) := by
  simp only [respStep, hl, List.length_append, List.length_singleton, RespFrame.answer, RespFrame.receive]

/-- A drain of `m + 1` more bytes ends with the answer to what was received; with calm engines these are the FIFO's
first bytes (30_encoding.md R116, 43_command_engine.md R221). -/
theorem drain_ends (m : Nat) {f : RespFrame} (s : State) (hl : f.line = .drain) (hcnt : f.cnt = f.got.length + m + 1) :
    ∃ u, EndsWithin m (respStep f s).engines u ∧ s.FifoTo u (m < s.fifo.length) (s.fifo.drop (m + 1)) ∧
      (s.Calm → m < s.fifo.length → u.result = some (f.answer (f.got ++ s.fifo.take (m + 1)))) := by
  have hpop := fifoTo_regRead s .fifoData
  rw [if_pos rfl] at hpop
  induction m generalizing f s with
  | zero =>
    rw [respStep_drain hl, if_neg (by omega)]
    refine ⟨_, endsWithin_ended (by simp), ?_, fun _ h => ?_⟩
    · have hend := hpop.ended (f.answer (f.got ++ [(s.regRead .fifoData).1]))
      exact { hend with chip := fun hc _ => by simpa using hend.chip hc trivial }
    · obtain ⟨b, bs, e⟩ := List.exists_cons_of_length_pos h
      simp [regRead_fifoData_val e, e]
  | succ m ih =>
    rw [respStep_drain hl, if_pos (by omega)]
    have hpause := hpop.pause (.resp (f.receive (s.regRead .fifoData).1))
    obtain ⟨u, hend, hto, hres⟩ := ih (f := f.receive (s.regRead .fifoData).1) ((s.regRead .fifoData).2.atLine _) rfl
      (by simp only [RespFrame.receive, List.length_append, List.length_singleton]; omega) (by
        simpa using fifoTo_regRead _ .fifoData)
    refine ⟨u, endsWithin_goOn rfl hend, hpause.trans hto fun room => ⟨trivial, fun e => ?_⟩, fun hc room => ?_⟩
    · rw [e, List.length_tail, List.drop_tail]
      exact ⟨by omega, rfl⟩
    · obtain ⟨hf, hk⟩ := hpause.chip hc trivial
      obtain ⟨b, bs, e⟩ := List.exists_cons_of_length_pos (Nat.zero_lt_of_lt room)
      rw [hres (hk.calm hc) (by rw [hf, List.length_tail]; omega), hf, regRead_fifoData_val e, e, RespFrame.receive_answer]
      simp [RespFrame.receive]

/-- The drain of a FIFO that is not empty takes its first `FRAME_CAP` bytes. -/
theorem drainCount_length {c : Config} {l : List Byte} (h : l ≠ []) :
    drainCount c l.length ≤ l.length ∧ l.take (drainCount c l.length) = l.take c.frameCap ∧
      l.drop (drainCount c l.length) = l.drop c.frameCap := by
  have hmin : drainCount c l.length = min l.length c.frameCap := by
    rw [drainCount, if_neg (mt List.length_eq_zero_iff.1 h)]
  rw [hmin]
  rcases Nat.le_total l.length c.frameCap with hle | hle
  · rw [Nat.min_eq_left hle]
    exact ⟨Nat.le_refl _, by simp [List.take_of_length_le hle], by simp [List.drop_of_length_le hle]⟩
  · rw [Nat.min_eq_right hle]
    exact ⟨hle, rfl, rfl⟩

/-- The frame of a response whose last bits are read as `lb`. -/
def RespFrame.afterLast (c : Config) (f : RespFrame) (lb : BitVec 3) : RespFrame :=
  { f with line := .drain, bitLen := bitLength c f.n lb, cnt := drainCount c f.n }

theorem respStep_readLast {f : RespFrame} (hl : f.line = .readLast) {s : State} (hc : s.cfg.Wf) :
    respStep f s = (s.regRead .control).2.goOn (.resp (f.afterLast s.cfg s.rxLastBits)) := by
  obtain ⟨d, hd⟩ := regRead_control_val s
  simp only [respStep, hl, hd, rxLastBitsOf_controlValue hc]
  rfl

/-- A response whose level is read ends with its answer: the last bits are read, and what the FIFO holds. -/
theorem resp_ends {f : RespFrame} {s : State} (hc : s.cfg.Wf) (hl : f.line = .readLast) (hgot : f.got = []) :
    ∃ u, EndsWithin s.cfg.frameCap (respStep f s).engines u ∧
      s.FifoTo u (s.fifo ≠ [] ∧ f.n = s.fifo.length) (s.fifo.drop s.cfg.frameCap) ∧
      (s.Calm → s.fifo ≠ [] → f.n = s.fifo.length →
        u.result = some ((f.afterLast s.cfg s.rxLastBits).answer (s.fifo.take s.cfg.frameCap))) := by
  let g := f.afterLast s.cfg s.rxLastBits
  have hpause := (fifoTo_regRead s .control).pause (.resp g)
  obtain ⟨m, hm⟩ := Nat.exists_eq_add_one_of_ne_zero (Nat.ne_of_gt (drainCount_pos f.n hc.2.2.2.1))
  have hle := drainCount_le s.cfg f.n
  obtain ⟨u, hend, hto, hres⟩ := drain_ends m ((s.regRead .control).2.atLine (.resp g)) (f := g) rfl
    (by rw [show g.cnt = m + 1 from hm, show g.got = [] from hgot, List.length_nil, Nat.zero_add])
  rw [respStep_readLast hl hc]
  obtain ⟨k, hk, hreach⟩ := endsWithin_goOn (s := (s.regRead .control).2) (r := .resp g) rfl hend
  refine ⟨u, ⟨k, by omega, hreach⟩, hpause.trans hto ?_, fun hcalm hne hn => ?_⟩
  · rintro ⟨hne, hn⟩
    obtain ⟨hlen, -, hdrop⟩ := drainCount_length (c := s.cfg) hne
    rw [← hn, hm] at hlen hdrop
    exact ⟨trivial, fun e => by rw [e, if_neg nofun, ← hn]; exact ⟨hlen, hdrop⟩⟩
  · obtain ⟨hlen, htake, -⟩ := drainCount_length (c := s.cfg) hne
    rw [← hn, hm] at hlen htake
    obtain ⟨hf, hkept⟩ := hpause.chip hcalm trivial
    rw [if_neg nofun] at hf
    rw [hres (hkept.calm hcalm) (by rw [hf, ← hn]; exact hlen), hf, htake, show g.got = [] from hgot, List.nil_append]

/-- A response row whose acceptance and payload are those of its kind. -/
theorem takeResponse_answers {i : Instr} {k : RespKind} {expected : List Byte} {accepts : List Byte → Nat → Bool}
    {payload : List Byte → List Byte} {s : State} (hq : s.seq = none) (hc : s.cfg.Wf)
    (hfifo : s.fifo.length ≤ s.cfg.fifoDepth) (hx : exec i s = takeResponse k expected s)
    (haccepts : k.accepts expected = accepts) (hpayload : k.payload = payload) : Answers i accepts payload s := by
  subst haccepts hpayload
  have hn : levelOf s.cfg (s.regRead .fifoLevel).1 = s.fifo.length := by
    rw [regRead_fifoLevel_val, levelOf_length hc (hfifo.trans hc.2.2.2.2.2.1)]
  let f : RespFrame := { kind := k, expected := expected, n := s.fifo.length }
  let v := (s.regRead .fifoLevel).2.atLine (.resp f)
  have hv : s.FifoTo v True s.fifo := (fifoTo_regRead s .fifoLevel).pause _
  obtain ⟨u, hend, hto, hres⟩ := resp_ends (f := f) (s := v) (hv.cfg ▸ hc) rfl rfl
  obtain ⟨j, hj, hreach⟩ := endsWithin_goOn (s := (s.regRead .fifoLevel).2) (r := .resp f) rfl hend
  rw [hv.cfg] at hj hto hres
  have h := hv.trans hto (r := s.fifo ≠ []) (z := s.fifo.drop s.cfg.frameCap)
    fun hne => ⟨trivial, fun e => by rw [e]; exact ⟨⟨hne, rfl⟩, rfl⟩⟩
  refine ⟨_, by rw [hx, takeResponse_next hq, hn], u, ⟨j, Nat.le_succ_of_le hj, hreach⟩, h.command, h.mem, h.scratch,
    h.framing, fun hcalm hne => ?_⟩
  obtain ⟨hf, hkept⟩ := h.chip hcalm hne
  obtain ⟨hvf, hvk⟩ := hv.chip hcalm trivial
  obtain ⟨-, -, -, -, -, -, hlast, -⟩ := id hvk
  refine ⟨hf, hkept, ?_⟩
  rw [hres (hvk.calm hcalm) (by rw [hvf]; exact hne) (by rw [hvf]), hvf, hlast]
  rfl

/-- Settles O58: each row's kind accepts what the row's statement says. -/
theorem responseRowsAnswer : Obligations.ResponseRowsAnswer := by
  intro s b0 b1 b2 b3 b4 d hi hq hc hfifo
  have uid : RespKind.accepts .uid [b0, b1, b2, b3, b4] =
      fun got _ => got.take 5 == [b0, b1, b2, b3, b4] && b0 ^^^ b1 ^^^ b2 ^^^ b3 ^^^ b4 == 0#8 := by
    funext got n
    by_cases h : got.take 5 = [b0, b1, b2, b3, b4]
    · simp [RespKind.accepts, h, xorBytes]
    · simp [RespKind.accepts, beq_eq_false_iff_ne.2 h]
  exact ⟨takeResponse_answers hq hc hfifo rfl rfl rfl, takeResponse_answers hq hc hfifo rfl uid rfl,
    takeResponse_answers hq hc hfifo rfl rfl rfl, takeResponse_answers hq hc hfifo rfl rfl rfl,
    takeResponse_answers hq hc hfifo rfl rfl rfl⟩

end Sys2Proof.Machine

/-! The statements of 30_encoding.md, third part: what is kept along the run of an operation that overruns
nothing, and the bytes of a buffer written one after the other. -/

namespace Sys2Proof.Machine

open Sys2Proof

/-! ### Operations that overrun nothing, step by step -/

/-- The invariant, and a running operation that overruns nothing. -/
structure State.Sound (s : State) : Prop where
  inv  : s.Inv
  fits : ∀ r, s.seq = some r → r.Fits s.cfg

theorem sound_refuseOverlaps {s : State} (h : s.Sound) : s.refuseOverlaps.Sound :=
  ⟨refuseOverlaps_keeps h.inv, by simpa using h.fits⟩

/-- The next line of a sound operation is taken, leaves it sound, and leaves fewer steps. -/
theorem sound_line {s : State} {r : Running} (h : s.Sound) (hr : s.seq = some r) :
    ∃ t, seqStep r s.refuseOverlaps = .next t ∧ step s = .next t.engines ∧ t.engines.Sound ∧ t.cfg = s.cfg ∧
      1 ≤ r.stepsLeft s.cfg ∧ ∀ q, t.seq = some q → q.stepsLeft s.cfg < r.stepsLeft s.cfg := by
  have hv := sound_refuseOverlaps h
  have hr' : s.refuseOverlaps.seq = some r := by simpa using hr
  obtain ⟨t, ht, hpos, hq⟩ := seqStep_fits hv.inv.steady (hv.inv.seq r hr') (hv.fits r hr')
  obtain ⟨hi, hc⟩ := seqStep_keeps hv.inv.steady (hv.inv.seq r hr') ht
  simp only [refuseOverlaps_cfg] at hc hpos hq
  refine ⟨t, ht, by rw [step_running hr, ht]; rfl, ⟨inv_engines hi, fun q e => ?_⟩, hc, hpos, fun q e => (hq q e).2⟩
  rw [engines_cfg, hc]
  exact (hq q (by simpa using e)).1

/-- What every line of a sound operation keeps, the refused issues before it and the engine steps after it. -/
structure KeptAlong (Q : State → Prop) : Prop where
  overlaps : ∀ s : State, Q s → Q s.refuseOverlaps
  engines  : ∀ s : State, Q s → Q s.engines
  line     : ∀ (s t : State) (r : Running), s.Sound → Q s → s.seq = some r → seqStep r s = .next t → Q t

theorem KeptAlong.step {Q : State → Prop} (hQ : KeptAlong Q) {s t : State} {r : Running} (h : s.Sound) (hs : Q s)
    (hr : s.seq = some r) (ht : seqStep r s.refuseOverlaps = .next t) : Q t.engines :=
  hQ.engines _ (hQ.line _ _ r (sound_refuseOverlaps h) (hQ.overlaps _ hs) (by simpa using hr) ht)

/-- It holds at every state of the operation's run. -/
theorem KeptAlong.reaches {Q : State → Prop} (hQ : KeptAlong Q) {k : Nat} {s u : State} (h : s.Sound) (hs : Q s)
    (hu : Reaches k s u) : u.Sound ∧ u.cfg = s.cfg ∧ Q u := by
  refine reaches_keeps (P := fun u => u.Sound ∧ u.cfg = s.cfg ∧ Q u) ?_ hu ⟨h, rfl, hs⟩
  rintro v v' ⟨hv, hc, hQv⟩ hne hv'
  obtain ⟨r, hr⟩ := Option.ne_none_iff_exists'.1 hne
  obtain ⟨t, ht, hstep, hsound, hcfg, -, -⟩ := sound_line hv hr
  obtain rfl : t.engines = v' := by rw [hstep] at hv'; exact Host.Outcome.next.inj hv'
  exact ⟨hsound, by rw [engines_cfg, hcfg, hc], hQ.step hv hQv hr ht⟩

/-- The steps that the running operation, if one runs, has left at most. -/
def State.stepsLeft (s : State) : Nat :=
  match s.seq with
  | some r => r.stepsLeft s.cfg
  | none => 0

theorem stepsLeft_running {s : State} {r : Running} (h : s.seq = some r) : s.stepsLeft = r.stepsLeft s.cfg := by
  simp only [State.stepsLeft, h]

/-- A sound operation comes to its end within its count of steps (60_exceptions.md R301), where it holds too. -/
theorem KeptAlong.ends {Q : State → Prop} (hQ : KeptAlong Q) {s : State} {r : Running} (h : s.Sound) (hs : Q s)
    (hr : s.seq = some r) : ∃ u, EndsWithin (r.stepsLeft s.cfg) s u ∧ u.Sound ∧ u.cfg = s.cfg ∧ Q u := by
  rw [← stepsLeft_running hr]
  refine ends_of_stepsLeft (P := fun u => u.Sound ∧ u.cfg = s.cfg ∧ Q u) (left := State.stepsLeft) ?_ ⟨h, rfl, hs⟩
    (by simp [hr])
  rintro v ⟨hv, hc, hQv⟩ hne
  obtain ⟨r, hr⟩ := Option.ne_none_iff_exists'.1 hne
  obtain ⟨t, ht, hstep, hsound, hcfg, hpos, hlt⟩ := sound_line hv hr
  rw [stepsLeft_running hr]
  refine ⟨_, hstep, ⟨hsound, by rw [engines_cfg, hcfg, hc], hQ.step hv hQv hr ht⟩, fun hne' => ?_, hpos⟩
  obtain ⟨q, hq⟩ := Option.ne_none_iff_exists'.1 hne'
  rw [stepsLeft_running hq, engines_cfg, hcfg]
  exact hlt q (by simpa using hq)

/-! ### States that differ in the sequencer's position and the host's records only -/

/-- `t` is `s` but for the sequencer's position, the result, and the host's issues and refusals. -/
def State.SameBlock (s t : State) : Prop :=
  t = { s with seq := t.seq, result := t.result, overlaps := t.overlaps, refusals := t.refusals }

theorem sameBlock_goOn (s : State) (r : Running) : s.SameBlock (s.goOn r) := rfl

theorem sameBlock_finish (s : State) (x : Result) : s.SameBlock (s.finish x) := rfl

theorem sameBlock_refuseOverlaps (s : State) : s.SameBlock s.refuseOverlaps := by
  unfold State.refuseOverlaps
  split <;> rfl

theorem State.SameBlock.crcTrace {s0 s t : State} {f0 f : CrcFrame} (e : s.SameBlock t) (h : CrcTrace s0 f0 f s) :
    CrcTrace s0 f0 f t := by
  obtain ⟨⟨k1, k2, k3, k4⟩, h2, h3, h4, h5, h6, h7, h8, h9, run, h11, h12, h13⟩ := h
  rw [e]
  exact ⟨⟨k1, k2, k3, k4⟩, h2, h3, h4, h5, h6, h7, h8, h9, fun x => ⟨(run x).command, (run x).trx, (run x).engine⟩,
    h11, h12, h13⟩

theorem keptBut_sameBlock {s0 s t : State} {a : Area} {n : Nat} (h : KeptBut s0 s a n) (e : s.SameBlock t) :
    KeptBut s0 t a n := by
  rw [e]; exact ⟨h.mem, h.scratch⟩

theorem State.SameBlock.trxTrace {s0 s t : State} {f0 f : TrxFrame} (e : s.SameBlock t) (h : TrxTrace s0 f0 f s) :
    TrxTrace s0 f0 f t := by
  obtain ⟨⟨k1, k2, k3⟩, h1, h2, h3, h4, h5, h6, h7, h8, h9, h10, h11, h12, h13, h14, drain, final⟩ := h
  have hdrain : f.line = .drainRead ∨ f.line = .drainStore → KeptBut s0 t f0.out f.i :=
    fun x => keptBut_sameBlock (drain x).1 e
  have hfinal : f.line = .finalIdle → f.status = .ok → KeptBut s0 t f0.out s0.cfg.frameCap :=
    fun x y => keptBut_sameBlock ((final x).2 y).2.1 e
  rw [e] at hdrain hfinal ⊢
  exact ⟨⟨k1, k2, k3⟩, h1, h2, h3, h4, h5, h6, h7, h8, h9, h10, h11, h12, h13, h14, fun x => ⟨hdrain x, (drain x).2⟩,
    fun x => ⟨(final x).1, fun y => ⟨((final x).2 y).1, hfinal x y, ((final x).2 y).2.2⟩⟩⟩

/-! ### Bytes written in a row -/

/-- The bytes of a buffer after one of it is written. -/
theorem peek_areaWrite {s t : State} {a b : Area} {i : Nat} {v : Byte} (hs : s.Steady) (ht : s.areaWrite a i v = some t)
    (hb : b.space = a.space) (j : Nat) : t.peek b j = if b.addr j = a.addr i then v else s.peek b j := by
  obtain ⟨hreach, ⟨ha, rfl⟩ | ⟨ha, rfl⟩⟩ := areaWrite_cases ht
  · simp only [State.peek, hb, ha]
    split_ifs with h
    · rw [h, Memory.read_write_same _ _ hs.memWf]
    · rw [Memory.read_write_ne _ h]
  · have hlen : a.addr i < s.scratch.length := by
      rw [hs.scratch]
      simpa [State.reaches, ha] using hreach
    simp only [State.peek, hb, ha, List.getD_eq_getElem?_getD]
    split_ifs with h
    · rw [h, List.getElem?_set_self hlen]; rfl
    · rw [List.getElem?_set_ne (Ne.symm h)]

theorem areaBytes_succ (s : State) (a : Area) (n : Nat) : s.areaBytes a (n + 1) = s.areaBytes a n ++ [s.peek a n] := by
  simp [State.areaBytes, List.range_succ]

/-- A write of the next byte of a buffer lengthens what is there (the bytes before it are elsewhere). -/
theorem areaBytes_write_next {s t : State} {a b : Area} {i j : Nat} {v : Byte} (hs : s.Steady)
    (ht : s.areaWrite b j v = some t) (hspace : a.space = b.space) (haddr : a.addr i = b.addr j) :
    t.areaBytes a (i + 1) = s.areaBytes a i ++ [v] := by
  have hbefore : t.areaBytes a i = s.areaBytes a i := by
    refine List.map_congr_left fun k hk => ?_
    rw [peek_areaWrite hs ht hspace, if_neg]
    rw [← haddr]
    have := List.mem_range.1 hk
    simp only [Area.addr]
    omega
  rw [areaBytes_succ, hbefore, peek_areaWrite hs ht hspace, if_pos haddr]

theorem areaBytes_congr {s t : State} (hm : t.mem = s.mem) (hk : t.scratch = s.scratch) (a : Area) (n : Nat) :
    t.areaBytes a n = s.areaBytes a n := List.map_congr_left fun i _ => peek_congr hm hk a i

end Sys2Proof.Machine

/-! The statements of 30_encoding.md, fourth part: a card operation up to the end of its `COMPUTE_CRC`, which is given the
frame's first bytes. -/

namespace Sys2Proof.Machine

open Sys2Proof

/-! ### The frame of a card operation and the bytes it begins with -/

/-- The operations whose frame carries a CRC (44_card_frames.md R243-R246). -/
def CardOp.HasCrc : CardOp → Prop
  | .request _ _ => False
  | .readUid _ _ _ => False
  | .select _ _ _ => True
  | .readPage _ _ => True
  | .writePage _ _ => True
  | .halt => True

/-- The bytes of the frame before its CRC, where the caller's buffer gives `data` (30_encoding.md R111-R114). -/
def CardOp.start (c : Config) (data : List Byte) : CardOp → List Byte
  | .request _ _ => []
  | .readUid _ _ _ => []
  | .select cmd arg _ => [cmd, arg] ++ data ++ [xorBytes data]
  | .readPage page _ => [c.opRead, page]
  | .writePage page _ => [c.opWrite, page] ++ data
  | .halt => [c.opHalt, 0x00#8]

/-- The same, with the caller's bytes as they stand in `s`. -/
def State.frameStart (s : State) (op : CardOp) : List Byte := op.start s.cfg (s.areaBytes op.buffer 4)

/-- The buffer in which an operation builds its frame. -/
def CardOp.frameArea (c : Config) (op : CardOp) : Area := (op.crcFrame c).src

theorem frameStart_length {op : CardOp} (hop : op.HasCrc) (s : State) : (s.frameStart op).length = (op.crcFrame s.cfg).len := by
  cases op with
  | request code buf => exact hop.elim
  | readUid cmd arg buf => exact hop.elim
  | select cmd arg serial => simp [State.frameStart, CardOp.start, CardOp.crcFrame, appendCrc]
  | readPage page buf => rfl
  | writePage page data => simp [State.frameStart, CardOp.start, CardOp.crcFrame, appendCrc]
  | halt => rfl

/-- What a card operation leaves alone before its `TRANSCEIVE`, no transceive running at its issue in `s`. -/
structure SendKept (s v : State) : Prop where
  cfg     : v.cfg = s.cfg
  framing : v.bitFraming = s.bitFraming
  trx     : v.trxState = .off
  events  : v.txEvents = s.txEvents
  calm    : (∀ d, s.crcState ≠ .busy d) → ∀ d, v.crcState ≠ .busy d

/-- A card operation on a line before its `COMPUTE_CRC`: `c.i` bytes of the frame are built, and of the caller's buffer
the bytes in `c.u` are read. -/
structure CardBuilding (s : State) (op : CardOp) (c : CardFrame) (v : State) : Prop where
  isOp   : c.op = op
  kept   : SendKept s v
  built  : v.areaBytes (op.frameArea s.cfg) c.i = (s.frameStart op).take c.i
  loaded : c.u = (s.areaBytes op.buffer 4).take c.u.length
  memory : op.putCount = 0 → v.mem = s.mem

/-- The `COMPUTE_CRC` of a card operation is on its trace, over the bytes the frame begins with. -/
def CrcCalled (s : State) (op : CardOp) (f : CrcFrame) (v : State) : Prop :=
  ∃ s1 : State, CrcTrace s1 (op.crcFrame s.cfg) f v ∧ s1.Steady ∧ SendKept s s1 ∧
    s1.areaBytes (op.frameArea s.cfg) (op.crcFrame s.cfg).len = s.frameStart op

/-- What holds of a card operation up to the end of its `COMPUTE_CRC`; of its lines after that only which operation it is. -/
def Running.Prepares (s : State) (op : CardOp) (v : State) : Running → Prop
  | .card c => c.line = .ackByte ∨ CardBuilding s op c v
  | .cardCrc c f => c.op = op ∧ CrcCalled s op f v
  | .cardTrx c _ => c.op = op
  | .writes _ => False
  | .resp _ => False
  | .crc _ => False
  | .trx _ => False

def Preparing (s : State) (op : CardOp) (v : State) : Prop := ∀ r, v.seq = some r → r.Prepares s op v

/-! ### Up to the end of `COMPUTE_CRC` -/

theorem SendKept.sameBlock {s v w : State} (h : SendKept s v) (e : v.SameBlock w) : SendKept s w := by
  obtain ⟨h1, h2, h3, h4, h5⟩ := h
  rw [e]; exact ⟨h1, h2, h3, h4, h5⟩

theorem SendKept.areaWrite {s v w : State} {a : Area} {i : Nat} {b : Byte} (h : SendKept s v)
    (hw : v.areaWrite a i b = some w) : SendKept s w := by
  obtain ⟨h1, h2, h3, h4, h5⟩ := h
  rw [areaWrite_eq hw]; exact ⟨h1, h2, h3, h4, h5⟩

theorem sendKept_engines {s v : State} (h : SendKept s v) : SendKept s v.engines := by
  refine engines_keep (P := SendKept s) (fun v h => ?_) (fun v e h => ?_) h
  · obtain ⟨h1, h2, h3, h4, h5⟩ := h
    rw [takeEvents_eq]; exact ⟨h1, h2, h3, h4, h5⟩
  · obtain ⟨hoff, hev, -, -⟩ := engineStep_trxOff h.trx e
    refine ⟨by simpa using h.cfg, by simpa using h.framing, hoff, hev.trans h.events, fun h0 d => ?_⟩
    rcases engineStep_crc v e with ⟨-, hs, -⟩ | ⟨d', hb, -⟩
    · rw [hs]; exact h.calm h0 d
    · exact absurd hb (h.calm h0 d')

theorem CardBuilding.congr {s v w : State} {op : CardOp} {c : CardFrame} (h : CardBuilding s op c v) (hk : SendKept s w)
    (hm : w.mem = v.mem) (hs : w.scratch = v.scratch) : CardBuilding s op c w :=
  ⟨h.isOp, hk, (areaBytes_congr hm hs _ _).trans h.built, h.loaded, fun h0 => hm.trans (h.memory h0)⟩

theorem preparing_sameBlock {s v w : State} {op : CardOp} (h : Preparing s op v) (e : v.SameBlock w) (hq : w.seq = v.seq) :
    Preparing s op w := by
  intro r hr
  have hp := h r (hq ▸ hr)
  cases r with
  | card c =>
    have hm : w.mem = v.mem := by rw [e]
    have hk : w.scratch = v.scratch := by rw [e]
    exact hp.imp_right fun hb => hb.congr (hb.kept.sameBlock e) hm hk
  | cardCrc c f => exact ⟨hp.1, hp.2.imp fun s1 ⟨htr, hrest⟩ => ⟨e.crcTrace htr, hrest⟩⟩
  | cardTrx c f => exact hp
  | writes ws => exact hp.elim
  | resp f => exact hp.elim
  | crc f => exact hp.elim
  | trx f => exact hp.elim

theorem preparing_engines {s v : State} {op : CardOp} (h : Preparing s op v) : Preparing s op v.engines := by
  intro r hr
  have hp := h r (by simpa using hr)
  cases r with
  | card c => exact hp.imp_right fun hb => hb.congr (sendKept_engines hb.kept) (by simp) (by simp)
  | cardCrc c f => exact ⟨hp.1, hp.2.imp fun s1 ⟨htr, hrest⟩ => ⟨crcTrace_engines htr, hrest⟩⟩
  | cardTrx c f => exact hp
  | writes ws => exact hp.elim
  | resp f => exact hp.elim
  | crc f => exact hp.elim
  | trx f => exact hp.elim

/-- The `COMPUTE_CRC` that a card operation calls once its frame is built. -/
theorem crcCalled_start {s v : State} {op : CardOp} (hv : v.Steady) (hk : SendKept s v)
    (hbuilt : v.areaBytes (op.frameArea s.cfg) (op.crcFrame s.cfg).len = s.frameStart op) :
    CrcCalled s op (op.crcFrame s.cfg) v :=
  ⟨v, crcTrace_start (by cases op <;> rfl) (by cases op <;> rfl), hv, hk, hbuilt⟩

theorem take_succ_getD {l : List Byte} {i : Nat} (h : i < l.length) : l.take (i + 1) = l.take i ++ [l.getD i 0#8] := by
  rw [List.take_add_one, List.getElem?_eq_getElem h, List.getD_eq_getElem _ _ h]; rfl

/-- A byte built from the part of the caller's buffer that is read is the frame's, as far as that part goes. -/
theorem getD_append_take {l data : List Byte} {i n : Nat} (h : i < l.length + n) :
    (l ++ data.take n).getD i 0#8 = (l ++ data).getD i 0#8 := by
  rw [← List.take_length_add_append, List.getD_eq_getElem?_getD, List.getElem?_take_of_lt h, List.getD_eq_getElem?_getD]

/-- The byte that goes to the scratch buffer is the frame's next one. -/
theorem buildByte_eq {s v : State} {op : CardOp} {c : CardFrame} (hop : op.HasCrc) (h : CardBuilding s op c v)
    (hp : c.Placed) (hl : c.line = .build) : buildByte s.cfg c = (s.frameStart op).getD c.i 0#8 := by
  obtain ⟨rfl, -, -, hu, -⟩ := h
  obtain ⟨op, line, i, u, bl⟩ := c
  subst hl
  cases op with
  | request code buf => exact hop.elim
  | readUid cmd arg buf => exact hop.elim
  | select cmd arg serial =>
    obtain ⟨hl, -⟩ | ⟨-, -, hlen⟩ := hp
    · cases hl
    · dsimp only at hu hlen
      have hall : u = s.areaBytes (areaOf serial) 4 := by
        rw [hu, hlen]
        exact List.take_of_length_le (by simp)
      rw [hall]; rfl
  | readPage page buf => cases hp.1
  | writePage page data =>
    have hi : i < 2 + u.length := by
      obtain ⟨-, hi, -⟩ | ⟨hl, -⟩ | ⟨-, hi, -⟩ | hl := hp
      · exact Nat.lt_of_lt_of_le hi (Nat.le_add_right _ _)
      · cases hl
      · dsimp only at hi; omega
      · cases hl
    show ([s.cfg.opWrite, page] ++ u).getD i 0#8 = _
    dsimp only at hu
    rw [hu]
    exact getD_append_take hi
  | halt => rfl

/-- One more byte of the frame is written. -/
theorem CardBuilding.write {s v w : State} {op : CardOp} {c : CardFrame} {a : Area} {b : Byte} (h : CardBuilding s op c v)
    (hv : v.Steady) (hw : v.areaWrite a c.i b = some w) (ha : op.frameArea s.cfg = a) (hi : c.i < (s.frameStart op).length)
    (hb : b = (s.frameStart op).getD c.i 0#8) :
    w.areaBytes (op.frameArea s.cfg) (c.i + 1) = (s.frameStart op).take (c.i + 1) := by
  subst ha
  rw [areaBytes_write_next hv hw rfl rfl, h.built, take_succ_getD hi, hb]

theorem preparing_card {s v : State} {op : CardOp} {c : CardFrame} (h : CardBuilding s op c v) :
    Preparing s op (v.goOn (.card c)) := by
  intro r hr
  obtain rfl := Option.some.inj hr
  exact .inr (h.congr (h.kept.sameBlock (sameBlock_goOn _ _)) rfl rfl)

theorem preparing_callCrc {s v : State} {op : CardOp} {c : CardFrame} (hc : c.op = op) (hv : v.Steady) (hk : SendKept s v)
    (hbuilt : v.areaBytes (op.frameArea s.cfg) (op.crcFrame s.cfg).len = s.frameStart op) :
    Preparing s op (v.goOn (callCrc c v)) := by
  intro r hr
  obtain rfl := Option.some.inj hr
  rw [callCrc, hc, hk.cfg]
  exact ⟨rfl, crcCalled_start (steady_goOn hv _) (hk.sameBlock (sameBlock_goOn _ _)) hbuilt⟩

theorem peek_host {s t : State} {a : Area} (ha : a.space = .host) (hm : t.mem = s.mem) (i : Nat) : t.peek a i = s.peek a i := by
  simp only [State.peek, ha, hm]

/-- A frame with a CRC is built in the scratch buffer, but for `READ_PAGE`'s, up to its CRC. -/
theorem build_placed {c : CardFrame} (hop : c.op.HasCrc) (hp : c.Placed) (hl : c.line = .build) (cfg : Config) :
    c.op.frameArea cfg = scratchFrom cfg 0 ∧ c.i < (c.op.crcFrame cfg).len := by
  obtain ⟨op, line, i, u, bl⟩ := c
  subst hl
  cases op with
  | request code buf => exact hop.elim
  | readUid cmd arg buf => exact hop.elim
  | select cmd arg serial =>
    obtain ⟨hl, -⟩ | ⟨-, hi, -⟩ := hp
    · cases hl
    · exact ⟨rfl, hi⟩
  | readPage page buf => cases hp.1
  | writePage page data =>
    obtain ⟨-, hi, -⟩ | ⟨hl, -⟩ | ⟨-, -, hi⟩ | hl := hp
    · exact ⟨rfl, Nat.lt_of_lt_of_le hi (show 2 ≤ 6 by decide)⟩
    · cases hl
    · exact ⟨rfl, hi⟩
    · cases hl
  | halt => exact ⟨rfl, hp.2⟩

/-- After a byte is built the frame goes on, or it is complete and `COMPUTE_CRC` is called. -/
theorem afterBuild_cases {c : CardFrame} (hop : c.op.HasCrc) (hp : c.Placed) (hl : c.line = .build) (w : State) :
    (∃ l, afterBuild c w = .card { c with line := l, i := c.i + 1 }) ∨
      c.i + 1 = (c.op.crcFrame w.cfg).len ∧ afterBuild c w = callCrc { c with i := c.i + 1 } w := by
  have hi := (build_placed hop hp hl w.cfg).2
  obtain ⟨op, line, i, u, bl⟩ := c
  cases op with
  | request code buf => exact hop.elim
  | readUid cmd arg buf => exact hop.elim
  | readPage page buf => rw [hp.1] at hl; cases hl
  | select cmd arg serial =>
    unfold afterBuild
    dsimp only
    split_ifs with h
    · exact .inl ⟨_, rfl⟩
    · exact .inr ⟨Nat.le_antisymm hi (Nat.not_lt.1 h), rfl⟩
  | writePage page data =>
    unfold afterBuild
    dsimp only
    split_ifs with h1 h2
    · exact .inl ⟨_, rfl⟩
    · exact .inl ⟨_, rfl⟩
    · exact .inr ⟨Nat.le_antisymm hi (Nat.not_lt.1 h2), rfl⟩
  | halt =>
    unfold afterBuild
    dsimp only
    split_ifs with h
    · exact .inl ⟨_, rfl⟩
    · exact .inr ⟨Nat.le_antisymm hi (Nat.not_lt.1 h), rfl⟩

theorem preparing_build {s v w : State} {op : CardOp} {c : CardFrame} (hop : op.HasCrc) (h : CardBuilding s op c v)
    (hv : v.Steady) (hp : c.Placed) (hl : c.line = .build)
    (hw : v.areaWrite (scratchFrom v.cfg 0) c.i (buildByte v.cfg c) = some w) : Preparing s op (w.goOn (afterBuild c w)) := by
  have hk := h.kept.areaWrite hw
  have hop' : c.op.HasCrc := by rw [h.isOp]; exact hop
  obtain ⟨harea, hi⟩ := build_placed hop' hp hl s.cfg
  rw [h.isOp] at harea hi
  have hlen := frameStart_length hop s
  rw [h.kept.cfg] at hw
  have hbuilt := h.write hv hw harea (hlen ▸ hi) (buildByte_eq hop h hp hl)
  have hmem : w.mem = v.mem := by
    obtain ⟨-, ⟨ha, -⟩ | ⟨-, rfl⟩⟩ := areaWrite_cases hw
    · cases ha
    · rfl
  obtain ⟨l, hnext⟩ | ⟨hfull, hcall⟩ := afterBuild_cases hop' hp hl w
  · rw [hnext]
    exact preparing_card ⟨h.isOp, hk, hbuilt, h.loaded, fun h0 => hmem.trans (h.memory h0)⟩
  · rw [h.isOp, hk.cfg] at hfull
    rw [hcall]
    refine preparing_callCrc h.isOp (steady_areaWrite hv hw) hk ?_
    rw [← hfull, hbuilt]
    exact List.take_of_length_le (by omega)

/-- `READ_PAGE` builds its frame's first two bytes in the caller's buffer (44_card_frames.md R244). -/
theorem preparing_put {s v w : State} {op : CardOp} {c : CardFrame} (hop : op.HasCrc) (h : CardBuilding s op c v)
    (hv : v.Steady) (hp : c.Placed) (hl : c.line = .put)
    (hw : v.areaWrite c.op.buffer c.i (putByte v.cfg c) = some w) : Preparing s op (w.goOn (afterPut c w)) := by
  have hk := h.kept.areaWrite hw
  rw [h.kept.cfg] at hw
  obtain ⟨op', line, i, u, bl⟩ := c
  obtain rfl : op' = op := h.isOp
  subst hl
  cases op' with
  | request code buf => exact hop.elim
  | readUid cmd arg buf => exact hop.elim
  | select cmd arg serial => obtain ⟨hl, -⟩ | ⟨hl, -⟩ := hp <;> cases hl
  | writePage page data => obtain ⟨hl, -⟩ | ⟨hl, -⟩ | ⟨hl, -⟩ | hl := hp <;> cases hl
  | halt => cases hp.1
  | readPage page buf =>
    have hi : i < 2 := hp.2
    have hbuilt := h.write hv hw rfl hi rfl
    unfold afterPut
    split_ifs with hmore
    · exact preparing_card ⟨rfl, hk, hbuilt, h.loaded, nofun⟩
    · have hfull : i + 1 = 2 := Nat.le_antisymm hi (Nat.not_lt.1 hmore)
      refine preparing_callCrc rfl (steady_areaWrite hv hw) hk ?_
      show w.areaBytes (areaOf buf) 2 = _
      dsimp only at hbuilt
      rw [hfull] at hbuilt
      exact hbuilt

/-- A byte of the caller's buffer is read, as it stood at the issue. -/
theorem preparing_load {s v : State} {op : CardOp} {c : CardFrame} {b : Byte} (hop : op.HasCrc) (h : CardBuilding s op c v)
    (hp : c.Placed) (hl : c.line = .load) (hb : v.areaRead c.op.buffer c.u.length = some b) :
    Preparing s op (v.goOn (afterLoad c b)) := by
  obtain ⟨-, hb⟩ := areaRead_eq_some.1 hb
  have hread : c.op.putCount = 0 → c.u.length < 4 → c.u ++ [b] = (s.areaBytes op.buffer 4).take (c.u ++ [b]).length :=
    fun h0 hi => by
      rw [h.isOp] at h0 hb
      rw [List.length_append, List.length_singleton, areaBytes_take_succ _ _ hi, ← h.loaded, ← hb,
        peek_host (by cases op <;> rfl) (h.memory h0)]
  obtain ⟨op', line, i, u, bl⟩ := c
  obtain rfl : op' = op := h.isOp
  subst hl
  cases op' with
  | request code buf => exact hop.elim
  | readUid cmd arg buf => exact hop.elim
  | readPage page buf => cases hp.1
  | halt => cases hp.1
  | select cmd arg serial =>
    obtain ⟨-, -, hi⟩ | ⟨hl, -⟩ := hp
    · unfold afterLoad
      dsimp only
      split_ifs
      · exact preparing_card ⟨rfl, h.kept, h.built, hread rfl hi, h.memory⟩
      · exact preparing_card ⟨rfl, h.kept, rfl, hread rfl hi, h.memory⟩
    · cases hl
  | writePage page data =>
    obtain ⟨hl, -⟩ | ⟨-, hi, hi6⟩ | ⟨hl, -⟩ | hl := hp
    · cases hl
    · exact preparing_card ⟨rfl, h.kept, h.built, hread rfl (by dsimp only at hi hi6 ⊢; omega), h.memory⟩
    · cases hl
    · cases hl

theorem preparing_finish (s w : State) (op : CardOp) (x : Result) : Preparing s op (w.finish x) := by
  intro r hr
  cases hr

theorem preparing_goOn {s w : State} {op : CardOp} {r : Running} (h : r.Prepares s op (w.goOn r)) :
    Preparing s op (w.goOn r) := by
  rintro q hq
  obtain rfl := Option.some.inj hq
  exact h

/-- The lines that a card operation with a CRC has of its own. -/
theorem placed_line {c : CardFrame} (hop : c.op.HasCrc) (hp : c.Placed) :
    c.line = .put ∨ c.line = .load ∨ c.line = .build ∨ c.line = .ackByte := by
  obtain ⟨op, line, i, u, bl⟩ := c
  cases op with
  | request code buf => exact hop.elim
  | readUid cmd arg buf => exact hop.elim
  | select cmd arg serial =>
    obtain ⟨hl, -⟩ | ⟨hl, -⟩ := hp
    · exact .inr (.inl hl)
    · exact .inr (.inr (.inl hl))
  | readPage page buf => exact .inl hp.1
  | writePage page data =>
    obtain ⟨hl, -⟩ | ⟨hl, -⟩ | ⟨hl, -⟩ | hl := hp
    · exact .inr (.inr (.inl hl))
    · exact .inr (.inl hl)
    · exact .inr (.inr (.inl hl))
    · exact .inr (.inr (.inr hl))
  | halt => exact .inr (.inr (.inl hp.1))

/-- The acknowledgement's line is the operation's last. -/
theorem cardStep_ackByte {c : CardFrame} {v t : State} (hl : c.line = .ackByte) (ht : cardStep c v = .next t) :
    ∃ x, t = v.finish x := by
  simp only [cardStep, hl] at ht
  cases hr : v.areaRead (scratchFrom v.cfg 0) 0 with
  | none => rw [hr] at ht; cases ht
  | some b => rw [hr] at ht; cases ht; exact ⟨_, rfl⟩

/-- A line of a card operation's own. -/
theorem preparing_cardStep {s v t : State} {op : CardOp} {c : CardFrame} (hop : op.HasCrc) (hv : v.Sound)
    (hc : v.seq = some (.card c)) (h : Preparing s op v) (ht : cardStep c v = .next t) : Preparing s op t := by
  have hp : c.Placed := (hv.fits _ hc).2
  have hs := hv.inv.steady
  obtain hl | hb := h _ hc
  · obtain ⟨x, rfl⟩ := cardStep_ackByte hl ht
    exact preparing_finish s v op x
  · obtain hl | hl | hl | hl := placed_line (by rw [hb.isOp]; exact hop) hp
    · simp only [cardStep, hl] at ht
      cases hw : v.areaWrite c.op.buffer c.i (putByte v.cfg c) with
      | none => rw [hw] at ht; cases ht
      | some w => rw [hw] at ht; cases ht; exact preparing_put hop hb hs hp hl hw
    · simp only [cardStep, hl] at ht
      cases hw : v.areaRead c.op.buffer c.u.length with
      | none => rw [hw] at ht; cases ht
      | some b => rw [hw] at ht; cases ht; exact preparing_load hop hb hp hl hw
    · simp only [cardStep, hl] at ht
      cases hw : v.areaWrite (scratchFrom v.cfg 0) c.i (buildByte v.cfg c) with
      | none => rw [hw] at ht; cases ht
      | some w => rw [hw] at ht; cases ht; exact preparing_build hop hb hs hp hl hw
    · obtain ⟨x, rfl⟩ := cardStep_ackByte hl ht
      exact preparing_finish s v op x

/-- A line of the `COMPUTE_CRC` of a card operation goes on in it, or calls `TRANSCEIVE`. -/
theorem seqStep_cardCrc_cases {c : CardFrame} {f : CrcFrame} {v t : State} (ht : seqStep (.cardCrc c f) v = .next t) :
    (∃ f' w, crcStep f v = .go f' w ∧ t = w.goOn (.cardCrc c f')) ∨
      ∃ b w, crcStep f v = .done b w ∧ t = w.goOn (callTrx c w) := by
  simp only [seqStep] at ht
  cases e : crcStep f v with
  | go f' w => rw [e] at ht; cases ht; exact .inl ⟨f', w, rfl, rfl⟩
  | done b w => rw [e] at ht; cases ht; exact .inr ⟨b, w, rfl, rfl⟩
  | fault x => rw [e] at ht; cases ht

/-- A line of the `TRANSCEIVE` of a card operation goes on in it, or ends it. -/
theorem seqStep_cardTrx_cases {c : CardFrame} {f : TrxFrame} {v t : State} (ht : seqStep (.cardTrx c f) v = .next t) :
    (∃ f' w, trxStep f v = .go f' w ∧ t = w.goOn (.cardTrx c f')) ∨
      ∃ b w, trxStep f v = .done b w ∧ t = afterTrx c b w := by
  simp only [seqStep] at ht
  cases e : trxStep f v with
  | go f' w => rw [e] at ht; cases ht; exact .inl ⟨f', w, rfl, rfl⟩
  | done b w => rw [e] at ht; cases ht; exact .inr ⟨b, w, rfl, rfl⟩
  | fault x => rw [e] at ht; cases ht

/-- After its `TRANSCEIVE` an operation with a CRC is over, or looks at the acknowledgement. -/
theorem afterTrx_cases {c : CardFrame} (hop : c.op.HasCrc) (b : TrxResult) (w : State) :
    (∃ x, afterTrx c b w = w.finish x) ∨ ∃ c', c'.line = .ackByte ∧ afterTrx c b w = w.goOn (.card c') := by
  obtain ⟨op, line, i, u, bl⟩ := c
  obtain ⟨status, bitLen, cause⟩ := b
  cases status with
  | err => exact .inl ⟨_, rfl⟩
  | ok =>
    cases op with
    | request code buf => exact hop.elim
    | readUid cmd arg buf => exact hop.elim
    | select cmd arg serial => exact .inl ⟨_, rfl⟩
    | readPage page buf => exact .inl ⟨_, rfl⟩
    | writePage page data => exact .inr ⟨_, rfl, rfl⟩
    | halt => exact .inl ⟨_, rfl⟩

theorem preparing_keptAlong {op : CardOp} (hop : op.HasCrc) (s : State) : KeptAlong (Preparing s op) where
  overlaps v h := preparing_sameBlock h (sameBlock_refuseOverlaps v) (by simp)
  engines v h := preparing_engines h
  line v t r hv h hr ht := by
    have hp := h r hr
    cases r with
    | card c => exact preparing_cardStep hop hv hr h ht
    | cardCrc c f =>
      obtain ⟨hc, s1, htrace, hrest⟩ := hp
      have hk := crcStep_trace hv.inv.steady (hv.fits _ hr).2 htrace
      obtain ⟨f', w, e, rfl⟩ | ⟨b, w, -, rfl⟩ := seqStep_cardCrc_cases ht
      · rw [e] at hk
        exact preparing_goOn ⟨hc, s1, (sameBlock_goOn _ _).crcTrace hk, hrest⟩
      · exact preparing_goOn (r := callTrx c w) hc
    | cardTrx c f =>
      obtain ⟨f', w, -, rfl⟩ | ⟨b, w, -, rfl⟩ := seqStep_cardTrx_cases ht
      · exact preparing_goOn (r := .cardTrx c f') hp
      · obtain ⟨x, e⟩ | ⟨c', hl, e⟩ := afterTrx_cases (c := c) (hp ▸ hop) b w <;> rw [e]
        · exact preparing_finish s w op x
        · exact preparing_goOn (.inl hl)
    | writes ws => exact hp.elim
    | resp f => exact hp.elim
    | crc f => exact hp.elim
    | trx f => exact hp.elim

end Sys2Proof.Machine

/-! The statements of 30_encoding.md, fifth part: the CRC that a card operation reads is in the frame it sends. -/

namespace Sys2Proof.Machine

open Sys2Proof

/-! ### From the reads of the CRC to the end of the operation -/

/-- The last four lines of a `COMPUTE_CRC` whose engine has completed with `data`: what is read is the CRC of it (R203). -/
structure CrcReads (data : List Byte) (f : CrcFrame) (v : State) : Prop where
  line   : f.line = .readLow ∨ f.line = .storeLow ∨ f.line = .readHigh ∨ f.line = .storeHigh
  done   : v.crcState = .done
  result : v.crcResult = crc16 v.cfg data
  low    : f.line ≠ .readLow → f.lo = crcLow (crc16 v.cfg data)
  high   : f.line = .storeHigh → f.hi = crcHigh (crc16 v.cfg data)

theorem State.SameBlock.crcReads {data : List Byte} {f : CrcFrame} {v w : State} (e : v.SameBlock w)
    (h : CrcReads data f v) : CrcReads data f w := by
  obtain ⟨h1, h2, h3, h4, h5⟩ := h
  rw [e]; exact ⟨h1, h2, h3, h4, h5⟩

theorem crcReads_engines {data : List Byte} {f : CrcFrame} {v : State} (h : CrcReads data f v) :
    CrcReads data f v.engines := by
  refine engines_keep (P := CrcReads data f) (fun v h => ?_) (fun v e h => ?_) h
  · obtain ⟨h1, h2, h3, h4, h5⟩ := h
    rw [takeEvents_eq]; exact ⟨h1, h2, h3, h4, h5⟩
  · obtain ⟨hline, hdone, hresult, hlow, hhigh⟩ := h
    obtain ⟨-, hs, hr⟩ | ⟨d, hb, -⟩ := engineStep_crc v e
    · exact ⟨hline, hs.trans hdone, by simpa [hr] using hresult, by simpa using hlow, by simpa using hhigh⟩
    · rw [hdone] at hb; cases hb

/-- The two bytes that end a `COMPUTE_CRC` whose engine has completed are the CRC, low byte first (R203, R115). -/
theorem crcStep_reads {data : List Byte} {f : CrcFrame} {v : State} (h : CrcReads data f v) :
    (crcStep f v).Keeps (CrcReads data) fun r _ => [r.1, r.2] = crcBytes v.cfg data := by
  obtain ⟨hline, hdone, hresult, hlow, hhigh⟩ := h
  have calm : ∀ d, v.crcState ≠ .busy d := by simp [hdone]
  obtain hl | hl | hl | hl := hline <;> simp only [crcStep, hl] <;> simp only [hl, ne_eq, reduceCtorEq, not_false_eq_true,
    true_imp_iff] at hlow hhigh
  · refine ⟨.inr (.inl rfl), by simpa using hdone, by simpa using hresult, fun _ => ?_, nofun⟩
    simp [regRead_crcLow_val calm, hresult]
  · cases hw : v.areaWrite f.dst 0 f.lo with
    | none => trivial
    | some w =>
      rw [areaWrite_eq hw]
      exact ⟨.inr (.inr (.inl rfl)), hdone, hresult, fun _ => hlow, nofun⟩
  · refine ⟨.inr (.inr (.inr rfl)), by simpa using hdone, by simpa using hresult, fun _ => by simpa using hlow,
      fun _ => ?_⟩
    simp [regRead_crcHigh_val calm, hresult]
  · cases hw : v.areaWrite f.dst 1 f.hi with
    | none => trivial
    | some w =>
      show [f.lo, f.hi] = crcBytes v.cfg data
      rw [hlow, hhigh]; rfl

/-- The frame of a card operation with its CRC (30_encoding.md R111-R115). -/
def State.wholeFrame (s : State) (op : CardOp) : List Byte := s.frameStart op ++ crcBytes s.cfg (s.frameStart op)

/-- The `TRANSCEIVE` of a card operation is on its trace, with the whole frame to send. -/
def TrxCalled (s : State) (op : CardOp) (g : TrxFrame) (v : State) : Prop :=
  ∃ s2 : State, TrxTrace s2 (op.trxFrame s.cfg) g v ∧ s2.trxState = .off ∧ s2.txEvents = s.txEvents ∧
    s2.bitFraming = s.bitFraming ∧ s2.areaBytes (op.trxFrame s.cfg).inp (op.trxFrame s.cfg).len = s.wholeFrame op

/-- The whole frame has gone out, or nothing has. -/
def Delivered (s : State) (op : CardOp) (v : State) : Prop :=
  v.trxState = .off ∧
    (v.txEvents = s.txEvents ∨ v.txEvents = ⟨s.wholeFrame op, txLastBitsOf s.bitFraming⟩ :: s.txEvents)

/-- What holds of a card operation from the reads of its CRC on. -/
def Running.Delivers (s : State) (op : CardOp) (v : State) : Running → Prop
  | .card c => c.line = .ackByte ∧ Delivered s op v
  | .cardCrc c f => c.op = op ∧ CrcCalled s op f v ∧ CrcReads (s.frameStart op) f v
  | .cardTrx c g => c.op = op ∧ TrxCalled s op g v
  | .writes _ => False
  | .resp _ => False
  | .crc _ => False
  | .trx _ => False

def Delivering (s : State) (op : CardOp) (v : State) : Prop :=
  match v.seq with
  | some r => r.Delivers s op v
  | none => Delivered s op v

theorem delivering_running {s v : State} {op : CardOp} {r : Running} (hr : v.seq = some r) :
    Delivering s op v ↔ r.Delivers s op v := by simp only [Delivering, hr]

theorem delivering_idle {s v : State} {op : CardOp} (hv : v.seq = none) : Delivering s op v ↔ Delivered s op v := by
  simp only [Delivering, hv]

/-- What is kept of each of the parts is kept of `Delivering`, where the sequencer stands still. -/
theorem delivering_of_parts {s v w : State} {op : CardOp} (h : Delivering s op v) (hq : w.seq = v.seq)
    (delivered : Delivered s op v → Delivered s op w) (called : ∀ f, CrcCalled s op f v → CrcCalled s op f w)
    (reads : ∀ f, CrcReads (s.frameStart op) f v → CrcReads (s.frameStart op) f w)
    (trx : ∀ g, TrxCalled s op g v → TrxCalled s op g w) : Delivering s op w := by
  cases hv : v.seq with
  | none => exact (delivering_idle (hq.trans hv)).2 (delivered ((delivering_idle hv).1 h))
  | some r =>
    rw [delivering_running hv] at h
    rw [delivering_running (hq.trans hv)]
    cases r with
    | card c => exact ⟨h.1, delivered h.2⟩
    | cardCrc c f => exact ⟨h.1, called f h.2.1, reads f h.2.2⟩
    | cardTrx c g => exact ⟨h.1, trx g h.2⟩
    | writes ws => exact h.elim
    | resp f => exact h.elim
    | crc f => exact h.elim
    | trx f => exact h.elim

theorem State.SameBlock.delivered {s v w : State} {op : CardOp} (e : v.SameBlock w) (h : Delivered s op v) :
    Delivered s op w := by
  rw [e]; exact h

theorem State.SameBlock.crcCalled {s v w : State} {op : CardOp} {f : CrcFrame} (e : v.SameBlock w)
    (h : CrcCalled s op f v) : CrcCalled s op f w := h.imp fun _ h1 => ⟨e.crcTrace h1.1, h1.2⟩

theorem State.SameBlock.trxCalled {s v w : State} {op : CardOp} {g : TrxFrame} (e : v.SameBlock w)
    (h : TrxCalled s op g v) : TrxCalled s op g w := h.imp fun _ h2 => ⟨e.trxTrace h2.1, h2.2⟩

theorem delivered_engines {s v : State} {op : CardOp} (h : Delivered s op v) : Delivered s op v.engines := by
  refine engines_keep (P := Delivered s op) (fun v h => ?_) (fun v e h => ?_) h
  · rw [takeEvents_eq]; exact h
  · obtain ⟨hoff, hev, -⟩ := engineStep_trxOff h.1 e
    exact ⟨hoff, hev ▸ h.2⟩

theorem delivering_sameBlock {s v w : State} {op : CardOp} (h : Delivering s op v) (e : v.SameBlock w)
    (hq : w.seq = v.seq) : Delivering s op w :=
  delivering_of_parts h hq e.delivered (fun _ => e.crcCalled) (fun _ => e.crcReads) fun _ => e.trxCalled

theorem delivering_engines {s v : State} {op : CardOp} (h : Delivering s op v) : Delivering s op v.engines :=
  delivering_of_parts h (engines_seq v) delivered_engines (fun _ h => h.imp fun _ h1 => ⟨crcTrace_engines h1.1, h1.2⟩)
    (fun _ => crcReads_engines) fun _ h => h.imp fun _ h2 => ⟨trxTrace_engines h2.1, h2.2⟩

/-- A `TRANSCEIVE` sends what `COMPUTE_CRC` was given and the two bytes it appended. -/
theorem trxFrame_input {op : CardOp} (hop : op.HasCrc) (c : Config) :
    (op.trxFrame c).inp = op.frameArea c ∧ (op.trxFrame c).len = (op.crcFrame c).len + 2 ∧
      (op.crcFrame c).dst = (op.frameArea c).from (op.crcFrame c).len := by
  cases op with
  | request code buf => exact hop.elim
  | readUid cmd arg buf => exact hop.elim
  | select cmd arg serial => exact ⟨rfl, rfl, rfl⟩
  | readPage page buf => exact ⟨rfl, rfl, rfl⟩
  | writePage page data => exact ⟨rfl, rfl, rfl⟩
  | halt => exact ⟨rfl, rfl, rfl⟩

/-- The `TRANSCEIVE` that begins where the `COMPUTE_CRC` of a card operation ends. -/
theorem trxCalled_start {s s1 w : State} {op : CardOp} {r : Byte × Byte} (hop : op.HasCrc)
    (h : CrcEnd s1 (op.crcFrame s.cfg) r w) (hs : s1.Steady) (hk : SendKept s s1)
    (hbuilt : s1.areaBytes (op.frameArea s.cfg) (op.crcFrame s.cfg).len = s.frameStart op)
    (hr : [r.1, r.2] = crcBytes s.cfg (s.frameStart op)) : TrxCalled s op (op.trxFrame s.cfg) w := by
  obtain ⟨kept, run, ⟨t, u, ht, hu, hmem, hscratch⟩, -⟩ := h
  obtain ⟨hinp, hlen, hdst⟩ := trxFrame_input hop s.cfg
  rw [hdst] at ht hu
  have low := areaBytes_write_next (a := op.frameArea s.cfg) (i := (op.crcFrame s.cfg).len) hs ht rfl rfl
  have high := areaBytes_write_next (a := op.frameArea s.cfg) (i := (op.crcFrame s.cfg).len + 1) (steady_areaWrite hs ht) hu rfl
    (Nat.add_assoc _ _ _).symm
  refine ⟨w, trxTrace_start (by cases op <;> rfl) (by cases op <;> rfl), run.trx,
    (kept.trx hk.trx).2.2.2.1.trans hk.events, kept.framing.trans hk.framing, ?_⟩
  rw [hinp, hlen, areaBytes_congr hmem hscratch, high, low, hbuilt, List.append_assoc, List.singleton_append, hr]
  rfl

theorem delivered_trxEnd {s s2 w : State} {op : CardOp} {b : TrxResult} (h : TrxEnd s2 (op.trxFrame s.cfg) b w)
    (htrx : s2.trxState = .off) (hev : s2.txEvents = s.txEvents) (hfr : s2.bitFraming = s.bitFraming)
    (hdata : s2.areaBytes (op.trxFrame s.cfg).inp (op.trxFrame s.cfg).len = s.wholeFrame op) : Delivered s op w := by
  have hsent := h.events htrx
  rw [hev, hfr, hdata] at hsent
  exact ⟨h.idle.2.2, hsent⟩

theorem delivering_cardCrc {s v t : State} {op : CardOp} {c : CardFrame} {f : CrcFrame} (hop : op.HasCrc) (hv : v.Sound)
    (hr : v.seq = some (.cardCrc c f)) (hc : c.op = op) (hcall : CrcCalled s op f v) (hread : CrcReads (s.frameStart op) f v)
    (ht : seqStep (.cardCrc c f) v = .next t) : Delivering s op t := by
  obtain ⟨s1, htrace, hs1, hk1, hbuilt⟩ := hcall
  have htr := crcStep_trace hv.inv.steady (hv.fits _ hr).2 htrace
  have hrd := crcStep_reads hread
  have hcfg : v.cfg = s.cfg := htrace.kept.cfg.trans hk1.cfg
  obtain ⟨f', w, e, rfl⟩ | ⟨b, w, e, rfl⟩ := seqStep_cardCrc_cases ht <;> rw [e] at htr hrd
  · have hw := sameBlock_goOn w (.cardCrc c f')
    exact (delivering_running (goOn_seq _ _)).2 ⟨hc, ⟨s1, hw.crcTrace htr, hs1, hk1, hbuilt⟩, hw.crcReads hrd⟩
  · have hcfg' : w.cfg = s.cfg := htr.kept.cfg.trans hk1.cfg
    have hstart := trxCalled_start hop htr hs1 hk1 hbuilt (hcfg ▸ hrd)
    rw [delivering_running (goOn_seq _ _), callTrx, hcfg', hc]
    exact ⟨rfl, (sameBlock_goOn w _).trxCalled hstart⟩

theorem delivering_cardTrx {s v t : State} {op : CardOp} {c : CardFrame} {g : TrxFrame} (hop : op.HasCrc) (hv : v.Sound)
    (hr : v.seq = some (.cardTrx c g)) (hc : c.op = op) (hcall : TrxCalled s op g v)
    (ht : seqStep (.cardTrx c g) v = .next t) : Delivering s op t := by
  obtain ⟨s2, htrace, htrx, hev, hfr, hdata⟩ := hcall
  have htr := trxStep_trace hv.inv.steady (hv.inv.seq _ hr) (hv.fits _ hr).2 htrace
  obtain ⟨g', w, e, rfl⟩ | ⟨b, w, e, rfl⟩ := seqStep_cardTrx_cases ht <;> rw [e] at htr
  · exact (delivering_running (goOn_seq _ _)).2 ⟨hc, s2, (sameBlock_goOn w _).trxTrace htr, htrx, hev, hfr, hdata⟩
  · have hsent := delivered_trxEnd htr htrx hev hfr hdata
    obtain ⟨x, e⟩ | ⟨c', hl, e⟩ := afterTrx_cases (c := c) (hc ▸ hop) b w <;> rw [e]
    · exact (delivering_idle rfl).2 ((sameBlock_finish w x).delivered hsent)
    · exact (delivering_running (goOn_seq _ _)).2 ⟨hl, (sameBlock_goOn w _).delivered hsent⟩

theorem delivering_keptAlong {op : CardOp} (hop : op.HasCrc) (s : State) : KeptAlong (Delivering s op) where
  overlaps v h := delivering_sameBlock h (sameBlock_refuseOverlaps v) (by simp)
  engines v h := delivering_engines h
  line v t r hv h hr ht := by
    rw [delivering_running hr] at h
    cases r with
    | card c =>
      obtain ⟨x, rfl⟩ := cardStep_ackByte h.1 ht
      exact (delivering_idle rfl).2 ((sameBlock_finish v x).delivered h.2)
    | cardCrc c f => exact delivering_cardCrc hop hv hr h.1 h.2.1 h.2.2 ht
    | cardTrx c g => exact delivering_cardTrx hop hv hr h.1 h.2 ht
    | writes ws => exact h.elim
    | resp f => exact h.elim
    | crc f => exact h.elim
    | trx f => exact h.elim

/-! ### The frame carries its CRC -/

/-- At the read of the low byte the engine is done, by the hypothesis or because the poll ended early; what it holds then is
the CRC of the frame's first bytes. -/
theorem crcReads_of_called {s v : State} {op : CardOp} {f : CrcFrame} (h : CrcCalled s op f v) (hl : f.line = .readLow)
    (hd : v.crcState = .done ∨ (f.pollCount < 255 ∧ ∀ d, s.crcState ≠ .busy d)) : CrcReads (s.frameStart op) f v := by
  obtain ⟨s1, htrace, -, hk1, hbuilt⟩ := h
  have hdone : v.crcState = .done := hd.elim id fun ⟨hpoll, hcalm⟩ =>
    htrace.seen (hk1.calm hcalm) (by rw [hl]; rfl) (by rw [hl]; nofun) hpoll
  have hengine := (htrace.run (by rw [hl]; rfl)).engine
  rw [show s1.areaBytes (op.crcFrame s.cfg).src (op.crcFrame s.cfg).len = s.frameStart op from hbuilt] at hengine
  obtain ⟨hb, -⟩ | ⟨-, hresult, -⟩ := hengine
  · rw [hdone] at hb; cases hb
  · exact ⟨.inl hl, hdone, hresult, fun hne => absurd hl hne, fun e => by rw [hl] at e; cases e⟩

/-- The first line of a card operation: nothing is built or read. -/
theorem cardBuilding_start {s v : State} {op : CardOp} {c : CardFrame} (hop : c.op = op) (hi : c.i = 0) (hu : c.u = [])
    (hk : SendKept s v) (hm : v.mem = s.mem) : CardBuilding s op c v :=
  ⟨hop, hk, by rw [hi]; rfl, by rw [hu]; rfl, fun _ => hm⟩

/-- What goes out of a card operation with a CRC, seen from the read of the CRC's low byte. -/
theorem delivers_from_readLow {s v : State} {op : CardOp} {c0 c : CardFrame} {f : CrcFrame} {k : Nat} (hop : op.HasCrc)
    (hs : s.Inv) (htrx : s.trxState = .off) (hc0 : c0.op = op) (hi : c0.i = 0) (hu : c0.u = []) (hp : c0.Placed)
    (hfits : op.Fits s.cfg) (hv : Reaches k (s.goOn (.card c0)).engines v) (hq : v.seq = some (.cardCrc c f))
    (hl : f.line = .readLow) (hd : v.crcState = .done ∨ (f.pollCount < 255 ∧ ∀ d, s.crcState ≠ .busy d)) :
    ∃ u, EndsWithin (trxCallSteps s.cfg + 4) v u ∧ Delivered s op u := by
  have hsound : (s.goOn (.card c0)).engines.Sound := by
    refine ⟨inv_engines (inv_goOn hs.steady trivial), fun r hr => ?_⟩
    obtain rfl : Running.card c0 = r := Option.some.inj (by simpa using hr)
    rw [engines_cfg]
    exact ⟨hc0 ▸ hfits, hp⟩
  have hstart : Preparing s op (s.goOn (.card c0)).engines := by
    refine preparing_engines (preparing_card (cardBuilding_start hc0 hi hu ?_ rfl))
    exact ⟨rfl, rfl, htrx, rfl, id⟩
  obtain ⟨hsv, hcfg, hprep⟩ := (preparing_keptAlong hop s).reaches hsound hstart hv
  obtain ⟨hc, hcall⟩ := hprep _ hq
  have hat : Delivering s op v := (delivering_running hq).2 ⟨hc, hcall, crcReads_of_called hcall hl hd⟩
  obtain ⟨u, hu, -, -, hfin⟩ := (delivering_keptAlong hop s).ends hsv hat hq
  have hcount : (Running.cardCrc c f).stepsLeft v.cfg = trxCallSteps s.cfg + 4 := by
    simp only [Running.stepsLeft, CrcFrame.stepsLeft, hl, hcfg, engines_cfg, goOn_cfg, Nat.add_comm]
  have hidle : u.seq = none := by
    obtain ⟨-, -, -, h⟩ := hu
    exact h
  exact ⟨u, hcount ▸ hu, (delivering_idle hidle).1 hfin⟩

/-- The operations the statement speaks of, with their first bytes and their first lines. -/
theorem exec_card_start {s t : State} {i : Instr} {first : List Byte} (hq : s.seq = none) (ht : exec i s = .next t)
    (hi : (∃ cmd arg serial u0 u1 u2 u3, i = .select cmd arg serial ∧ Holds s.cfg serial s.cfg.frameCap ∧
        [u0, u1, u2, u3] = s.hostBytes serial.base 4 ∧ first = [cmd, arg, u0, u1, u2, u3, u0 ^^^ u1 ^^^ u2 ^^^ u3]) ∨
      (∃ page buf, i = .readPage page buf ∧ Holds s.cfg buf s.cfg.frameCap ∧ first = [s.cfg.opRead, page]) ∨
      (∃ page data, i = .writePage page data ∧ Holds s.cfg data 4 ∧
        first = [s.cfg.opWrite, page] ++ s.hostBytes data.base 4) ∨
      (i = .halt ∧ first = [s.cfg.opHalt, 0x00#8])) :
    ∃ c0 : CardFrame, t = s.goOn (.card c0) ∧ c0.op.HasCrc ∧ c0.op.Fits s.cfg ∧ c0.Placed ∧ c0.i = 0 ∧ c0.u = [] ∧
      s.frameStart c0.op = first := by
  obtain ⟨cmd, arg, serial, u0, u1, u2, u3, rfl, hfits, hbytes, rfl⟩ | ⟨page, buf, rfl, hfits, rfl⟩ |
    ⟨page, data, rfl, hfits, rfl⟩ | ⟨rfl, rfl⟩ := hi <;>
    obtain rfl := Host.Outcome.next.inj ((issueOp_idle _ hq).symm.trans ht)
  · refine ⟨_, rfl, trivial, hfits, .inl ⟨rfl, rfl, Nat.succ_pos 3⟩, rfl, rfl, ?_⟩
    show [cmd, arg] ++ s.hostBytes serial.base 4 ++ [xorBytes (s.hostBytes serial.base 4)] = _
    rw [← hbytes]
    simp [xorBytes]
  · exact ⟨_, rfl, trivial, hfits, ⟨rfl, Nat.succ_pos 1⟩, rfl, rfl, rfl⟩
  · exact ⟨_, rfl, trivial, hfits, .inl ⟨rfl, Nat.succ_pos 1, rfl⟩, rfl, rfl, rfl⟩
  · exact ⟨_, rfl, trivial, trivial, ⟨rfl, Nat.succ_pos 1⟩, rfl, rfl, rfl⟩

/-- Settles O59: the frame's first bytes are followed to the `COMPUTE_CRC` over them, and its result to the frame that the
`TRANSCEIVE` sends. -/
theorem frameCarriesItsCrc : Obligations.FrameCarriesItsCrc := by
  intro s t v i first k c f hs hq htrx hi ht hv hvq hl hd
  obtain ⟨c0, rfl, hop, hfits, hp, hi0, hu, rfl⟩ := exec_card_start hq ht hi
  obtain ⟨u, hu, -, hsent⟩ := delivers_from_readLow hop hs htrx rfl hi0 hu hp hfits hv hvq hl hd
  exact ⟨u, hu, hsent⟩

end Sys2Proof.Machine

/-! The statements of 40_bus.md: the byte transfer, the refused writes, the reads with drawn bits, and the compounds. -/

namespace Sys2Proof.Machine

open Sys2Proof

/-! ### Draws, and the byte transfer -/

/-- A draw is the head of the tape where there is one (00_scope.md R10, log 2). -/
theorem draw_of_tape {s : State} {x : Byte} {xs : List Byte} (h : s.draws = x :: xs) :
    s.draw.1 = x ∧ s.draw.2.draws = xs := by
  simp [State.draw, h]

/-- Settles O9: the bits leave by `shiftOut_eq`, and the sampled byte is a draw. -/
theorem transferByteShifts : Obligations.TransferByteShifts := by
  intro s out hq
  have hx : exec (.transferByte out) s = _ := execTransferByte_next hq
  rw [finish_idle _ (by simp [hq])] at hx
  exact ⟨rfl, (s.shiftOut out).draw.1, _, hx, by rw [draw_eq, shiftOut_eq],
    fun x xs htape => draw_of_tape (by rw [shiftOut_eq]; exact htape)⟩

/-! ### Raw writes that are refused -/

theorem exec_regWrite_refused {a : RegAddr} {v : Byte} {r : Reg} {x : Refusal} {s : State} (hq : s.seq = none)
    (ha : regOf s.cfg a = some r) (hv : writeRefusal s.cfg r v = some x) : exec (.regWrite a v) s = .refused x := by
  simp only [exec, execRegWrite, rawWrite, whenIdle_idle _ hq, withReg_some _ ha, hv]

/-- A `CommandReg` write is refused for its reserved bits, whatever its code (40_bus.md R143, log 14). -/
theorem fieldRefusal_commandBits {c : Config} {f : Byte} (h : f.extractLsb' 4 4 ≠ 0#4) :
    fieldRefusal c .command f = some .unmodelledCommandBits := if_pos h

/-- And otherwise for its code (41_chip_commands.md R167). -/
theorem fieldRefusal_commandCode {c : Config} {f : Byte} (h : f.extractLsb' 4 4 = 0#4)
    (hc : commandOf f ∉ [c.cmdIdle, c.cmdCalcCrc, c.cmdTransceive]) :
    fieldRefusal c .command f = some .unmodelledCommand := (if_neg (not_not.2 h)).trans (if_neg hc)

/-- Settles O12: `fieldRefusal` of the fields, register by register. -/
theorem illegalWriteRefused : Obligations.IllegalWriteRefused := by
  rintro s a v _ r hq ha rfl
  have refused {x} : fieldRefusal s.cfg r (s.cfg.regMap.fields r v) = some x → exec (.regWrite a v) s = .refused x :=
    exec_regWrite_refused hq ha
  refine ⟨?_, ?_, ?_, ?_, ?_, ?_⟩
  · rintro rfl hbits -
    exact refused (fieldRefusal_commandBits hbits)
  · rintro rfl hbits hcode
    exact refused (fieldRefusal_commandCode hbits hcode)
  · rintro rfl hbits -
    exact .inl (refused (fieldRefusal_commandBits hbits))
  · rintro rfl hbits
    exact refused (if_pos hbits)
  · rintro (rfl | rfl | rfl) <;> exact refused rfl
  · rintro rfl
    exact refused rfl

/-! ### Reads with drawn bits -/

/-- A raw read of a register that shows the fields `shows d`, where `d` is a draw: it changes the lines and the draws, and
gives the byte of those fields (40_bus.md R144, R145). -/
theorem exec_regRead_drawn {a : RegAddr} {r : Reg} {s : State} (shows : Byte → Byte) (hq : s.seq = none)
    (ha : regOf s.cfg a = some r)
    (hr : (s.bus (readAddrByte (s.cfg.regMap.addr r)) s.cfg.dummy).chipRead r =
      Prod.map shows id (s.bus (readAddrByte (s.cfg.regMap.addr r)) s.cfg.dummy).draw) :
    ∃ d t, exec (.regRead a) s = .next t ∧
      t = { s.bus (readAddrByte (s.cfg.regMap.addr r)) s.cfg.dummy with
        draws := t.draws, drawCount := t.drawCount, result := some { data := [s.cfg.regMap.byte r (shows d)] } } ∧
      ∀ x xs, s.draws = x :: xs → d = x ∧ t.draws = xs := by
  have hx := exec_regRead_next hq ha
  simp only [State.regRead, transact_bus, hr, Prod.map, id] at hx
  exact ⟨_, _, hx, by rw [draw_eq], fun _ _ htape => draw_of_tape (s := s.bus _ _) htape⟩

/-! The fields that a read shows, bit by bit (R145). -/

theorem comIrqValue_getLsbD (flags : BitVec 7) (d : Byte) {i : Nat} (hi : i < 8) :
    (comIrqValue flags d).getLsbD i =
      if i = 7 then false else if i = 6 ∨ i = 5 ∨ i = 0 then flags.getLsbD i else d.getLsbD i := by
  simp only [comIrqValue, BitVec.getLsbD_or, BitVec.getLsbD_and, BitVec.getLsbD_setWidth]
  interval_cases i <;> simp

theorem divIrqValue_getLsbD (flags : BitVec 7) (d : Byte) {i : Nat} (hi : i < 8) :
    (divIrqValue flags d).getLsbD i =
      if i = 7 then false else if i = 2 then flags.getLsbD i else d.getLsbD i := by
  simp only [divIrqValue, BitVec.getLsbD_or, BitVec.getLsbD_and, BitVec.getLsbD_setWidth]
  interval_cases i <;> simp

theorem controlValue_getLsbD (lb : BitVec 3) (d : Byte) {i : Nat} (hi : i < 8) :
    (controlValue lb d).getLsbD i = if i < 3 then lb.getLsbD i else d.getLsbD i := by
  simp only [controlValue, BitVec.getLsbD_or, BitVec.getLsbD_and, BitVec.getLsbD_setWidth]
  interval_cases i <;> simp

theorem reservedBits_error_getLsbD {i : Nat} (hi : i < 8) : (reservedBits .error).getLsbD i = true ↔ i = 5 := by
  interval_cases i <;> decide

theorem reservedBits_command_getLsbD {i : Nat} (hi : i < 8) :
    (reservedBits .command).getLsbD i = true ↔ i = 7 ∨ i = 6 := by
  interval_cases i <;> decide

/-- Settles O23: each of the four registers is read with a draw, and shows its fields as `ChipRead` has them. -/
theorem drawnBitReads : Obligations.DrawnBitReads := by
  rintro s a r hc hq ha (rfl | rfl | rfl | rfl)
  · obtain ⟨d, t, hx, ht, htape⟩ := exec_regRead_drawn (comIrqValue s.comIrq) hq ha rfl
    exact ⟨d, _, _, t, hx, hc.fields_byte _ _, ht, htape, fun _ _ => comIrqValue_getLsbD _ _, nofun, nofun, nofun⟩
  · obtain ⟨d, t, hx, ht, htape⟩ := exec_regRead_drawn (divIrqValue s.divIrq) hq ha rfl
    exact ⟨d, _, _, t, hx, hc.fields_byte _ _, ht, htape, nofun, fun _ _ => divIrqValue_getLsbD _ _, nofun, nofun⟩
  · obtain ⟨d, t, hx, ht, htape⟩ := exec_regRead_drawn (withReserved .error s.errorReg) hq ha rfl
    exact ⟨d, _, _, t, hx, hc.fields_byte _ _, ht, htape, nofun, nofun,
      fun _ i hi => by simp only [withReserved_getLsbD _ _ _ hi, reservedBits_error_getLsbD hi], nofun⟩
  · obtain ⟨d, t, hx, ht, htape⟩ := exec_regRead_drawn (controlValue s.rxLastBits) hq ha rfl
    exact ⟨d, _, _, t, hx, hc.fields_byte _ _, ht, htape, nofun, nofun, nofun, fun _ _ => controlValue_getLsbD _ _⟩

/-- The level in seven bits is the FIFO's length (10_state.md R46). -/
theorem level_setWidth {n : Nat} (h : n ≤ 127) : (BitVec.ofNat 7 n).setWidth 8 = BitVec.ofNat 8 n := by
  refine BitVec.eq_of_toNat_eq ?_
  simp only [BitVec.toNat_setWidth, BitVec.toNat_ofNat]
  omega

/-- A read of `FIFOLevelReg` draws nothing (40_bus.md R145). -/
theorem regRead_fifoLevel_eq {s : State} (h : s.fifo.length ≤ 127) :
    s.regRead .fifoLevel = (s.cfg.regMap.byte .fifoLevel (BitVec.ofNat 8 s.fifo.length),
      s.bus (readAddrByte (s.cfg.regMap.addr .fifoLevel)) s.cfg.dummy) := by
  rw [State.regRead, transact_bus, ← level_setWidth h]; rfl

/-- Settles O21: the level is read as it stands, and the other two with their reserved bits drawn. -/
theorem heldRegisterReads : Obligations.HeldRegisterReads := by
  intro s a r hq ha
  refine ⟨?_, ?_⟩
  · rintro rfl hlen
    rw [exec_regRead_next hq ha, regRead_fifoLevel_eq hlen]
  · rintro hc (rfl | rfl)
    · obtain ⟨d, t, hx, ht, htape⟩ := exec_regRead_drawn (withReserved .command s.commandReg) hq ha rfl
      refine ⟨d, _, t, hx, ht, htape, fun _ i hi => ?_, nofun⟩
      simp only [hc.fields_byte, withReserved_getLsbD _ _ _ hi, reservedBits_command_getLsbD hi]
    · obtain ⟨d, t, hx, ht, htape⟩ := exec_regRead_drawn (withReserved .bitFraming s.bitFraming) hq ha rfl
      refine ⟨d, _, t, hx, ht, htape, nofun, fun _ i hi => ?_⟩
      simp only [hc.fields_byte, withReserved_getLsbD _ _ _ hi, reservedBits_bitFraming_getLsbD hi]

/-! ### Compounds -/

theorem exec_setBits {a : RegAddr} {r : Reg} {s : State} (m : Byte) (hq : s.seq = none) (ha : regOf s.cfg a = some r) :
    exec (.setBits a m) s = rawModify r (setIn s.cfg r m) s := by
  simp only [exec, execSetBits, whenIdle_idle _ hq, withReg_some _ ha]

theorem exec_clearBits {a : RegAddr} {r : Reg} {s : State} (m : Byte) (hq : s.seq = none) (ha : regOf s.cfg a = some r) :
    exec (.clearBits a m) s = rawModify r (clearIn s.cfg r m) s := by
  simp only [exec, execClearBits, whenIdle_idle _ hq, withReg_some _ ha]

/-- A compound that is not refused is, but for its result, the raw read, and has its write still to make. -/
theorem rawModify_next_read {r : Reg} {f : Byte → Byte} {s : State} (x : Result) (hq : s.seq = none)
    (h : writeRefusal s.cfg r (f (s.cfg.regMap.byte r (s.heldValue r))) = none) :
    rawModify r f s = .next { ({ (s.regRead r).2 with result := some x } : State) with
      result := s.result, seq := some (.writes [(r, f (s.regRead r).1)]) } := by
  rw [rawModify_next hq h, ← regRead_result s r]; rfl

/-- The last write of a list ends the operation (40_bus.md R146, R147). -/
@[simp] theorem writesStep_last (r : Reg) (x : Byte) (s : State) : writesStep [(r, x)] s = (s.regWrite r x).finish {} := rfl

/-- The write of a compound is a step of its own: the raw write of the byte, after the refused issues (40_bus.md R148). -/
theorem move_write {z : State} {a : RegAddr} {r : Reg} {x : Byte} (hz : z.seq = some (.writes [(r, x)]))
    (ha : regOf z.cfg a = some r) (hx : writeRefusal z.cfg r x = none) :
    move z = exec (.regWrite a x) { z.refuseOverlaps with seq := none } := by
  rw [exec_regWrite_next rfl (by simpa using ha) (by simpa using hx), regWrite_seq_with]
  simp only [move, hz, seqStep, writesStep_last, State.finish]

/-- Settles O25: the read is `exec_regRead_next`, the compound `rawModify_next_read`, and its write `move_write`. -/
theorem compoundIsReadThenWrite : Obligations.CompoundIsReadThenWrite := by
  intro s a r hq ha
  refine ⟨_, (s.regRead r).1, _, exec_regRead_next hq ha, by simp [hq], rfl, rfl, fun m hm => ?_, fun m hm => ?_, ?_,
    fun z x hz hcfg hx => move_write hz (hcfg ▸ ha) (hcfg ▸ hx)⟩
  · rw [exec_setBits m hq ha, rawModify_next_read _ hq hm]; rfl
  · rw [exec_clearBits m hq ha, rawModify_next_read _ hq hm]; rfl
  · rintro rfl
    exact ⟨(exec_setBits _ hq ha).symm, (exec_clearBits _ hq ha).symm⟩

/-! ### Compounds on `BitFramingReg` -/

/-- A `BitFramingReg` write changes the framing, and otherwise only the lines. -/
theorem State.FifoTo.writeFraming {s t : State} {p : Prop} {y : List Byte} (h : s.FifoTo t p y) (x : Byte) :
    State.FifoTo { s with bitFraming := s.cfg.regMap.fields .bitFraming x } (t.regWrite .bitFraming x) p y := by
  rw [regWrite_bitFraming_eq, h.cfg]
  exact ⟨h.cfg, h.command, h.mem, h.scratch, rfl, h.chip⟩

/-- A compound whose change of the held value gives the legal fields `v` leaves them in `BitFramingReg`, whatever is drawn
and whatever the engines do between its steps: the byte to write follows from the held value alone, and no engine changes
the framing (40_bus.md R148). -/
theorem rawModify_bitFraming_exact {s : State} {i : Instr} {g : Byte → Byte} {v : Byte} (hc : s.cfg.Wf) (hq : s.seq = none)
    (hx : exec i s = rawModify .bitFraming g s) (hg : DropsReserved s.cfg .bitFraming g)
    (hv : s.cfg.regMap.fields .bitFraming (g (s.cfg.regMap.byte .bitFraming s.bitFraming)) = v)
    (hlegal : v.extractLsb' 3 4 = 0#4) :
    ∃ t, exec i s = .next t ∧ ∃ u, EndsWithin 1 t.engines u ∧ u.bitFraming = v ∧ u.result = some {} ∧
      u.commandReg = s.commandReg ∧ u.mem = s.mem ∧ u.scratch = s.scratch ∧
      (s.Calm → u.fifo = s.fifo ∧ s.ChipKept u) := by
  have hread : g (s.regRead .bitFraming).1 = g (s.cfg.regMap.byte .bitFraming s.bitFraming) :=
    compound_held hc (.inr rfl) hg
  have hok : writeRefusal s.cfg .bitFraming (g (s.cfg.regMap.byte .bitFraming s.bitFraming)) = none := by
    rw [writeRefusal, hv]
    exact fieldRefusal_framing.2 hlegal
  have hstart := hx.trans (rawModify_next hq hok)
  rw [hread] at hstart
  generalize g (s.cfg.regMap.byte .bitFraming s.bitFraming) = x at hv hstart
  have h := (((fifoTo_regRead s .bitFraming).pause (.writes [(.bitFraming, x)])).writeFraming x).ended {}
  exact ⟨_, hstart, _, endsWithin_goOn rfl (endsWithin_ended (by simp)), h.framing.trans hv, by simp, h.command, h.mem,
    h.scratch, fun hcalm => h.chip hcalm trivial⟩

/-- The fields that a compound keeps of a legal framing are all of them: its reserved bit is 0 (30_encoding.md R124). -/
theorem fields_dropReserved_framing {c : Config} (hc : c.Wf) {v : Byte} (h : v.extractLsb' 3 4 = 0#4) :
    c.regMap.fields .bitFraming (dropReserved c .bitFraming (c.regMap.byte .bitFraming v)) = v := by
  rw [← dropReserved_read hc .bitFraming v 0#8, fields_dropReserved hc, framing_reserved h]

/-- Settles O26: each of the four compounds changes the held value to legal fields, and is exact on it. -/
theorem bitFramingCompoundExact : Obligations.BitFramingCompoundExact := by
  rintro s a m _ hc hq ha hlegal rfl i v hi
  have hheld := fieldRefusal_framing.1 hlegal
  have hset (b : Byte) : s.cfg.regMap.fields .bitFraming
      (setIn s.cfg .bitFraming b (s.cfg.regMap.byte .bitFraming s.bitFraming)) =
        s.bitFraming ||| s.cfg.regMap.fields .bitFraming b := by
    rw [fields_setIn, fields_dropReserved_framing hc hheld]
  have hclear (b : Byte) : s.cfg.regMap.fields .bitFraming
      (clearIn s.cfg .bitFraming b (s.cfg.regMap.byte .bitFraming s.bitFraming)) =
        s.bitFraming &&& ~~~s.cfg.regMap.fields .bitFraming b := by
    rw [fields_clearIn, fields_dropReserved_framing hc hheld]
  obtain ⟨rfl, rfl, hv⟩ | ⟨rfl, rfl⟩ | ⟨rfl, rfl⟩ | ⟨rfl, rfl⟩ := hi
  · exact rawModify_bitFraming_exact hc hq (exec_setBits m hq ha) (setIn_drops _ _ _) (hset m) hv
  · exact rawModify_bitFraming_exact hc hq (exec_clearBits m hq ha) (clearIn_drops _ _ _) (hclear m)
      (by rw [BitVec.extractLsb'_and, hheld, BitVec.zero_and])
  · exact rawModify_bitFraming_exact hc hq rfl (setIn_drops _ _ _) ((hset _).trans (by rw [fields_startSendBus hc]; rfl))
      ((framing_set _).trans hheld)
  · exact rawModify_bitFraming_exact hc hq rfl (clearIn_drops _ _ _)
      ((hclear _).trans (by rw [fields_startSendBus hc]; rfl)) ((framing_clear _).trans hheld)

end Sys2Proof.Machine

/-! The statements of 41_chip_commands.md: the checksum of a block with its checksum, the FIFO, the three commands, the
reads of the CRC result, and the steps of the CRC engine, the receiver and the timer. -/

namespace Sys2Proof.Machine

open Sys2Proof

/-! ### The CRC of a block with its CRC -/

/-- Where no bit that leaves is set, the shifts never meet the polynomial (41_chip_commands.md R164). -/
theorem crcShift_iterate_eq_shiftRight (poly crc : Word16) (n : Nat) (h : ∀ i, i < n → crc.getLsbD i = false) :
    (crcShift poly)^[n] crc = crc >>> n := by
  induction n with
  | zero => simp
  | succ n ih =>
    have hbit : (crc >>> n).getLsbD 0 = false := by
      rw [BitVec.getLsbD_ushiftRight]
      exact h n n.lt_succ_self
    rw [Function.iterate_succ_apply', ih fun i hi => h i (Nat.lt_succ_of_lt hi), crcShift, hbit,
      if_neg Bool.false_ne_true, ← BitVec.shiftRight_add]

theorem crcLow_getLsbD (crc : Word16) {i : Nat} (h : i < 8) : (crcLow crc).getLsbD i = crc.getLsbD i := by
  simp [crcLow, h]

theorem crcHigh_eq_crcLow (crc : Word16) : crcHigh crc = crcLow (crc >>> 8) :=
  byte_ext fun i h => by rw [crcLow_getLsbD _ h]; simp [crcHigh, h]

/-- The register's own low byte, fed in, clears it: what is left is the high byte, eight places down. -/
theorem crcByte_crcLow (poly crc : Word16) : crcByte poly crc (crcLow crc) = crc >>> 8 := by
  have hlow {i : Nat} (h : i < 8) : (crc ^^^ (crcLow crc).setWidth 16).getLsbD i = false := by
    rw [BitVec.getLsbD_xor, BitVec.getLsbD_setWidth, crcLow_getLsbD _ h]
    simp [Nat.lt_trans h (by decide : 8 < 16)]
  have hhigh : (crc ^^^ (crcLow crc).setWidth 16) >>> 8 = crc >>> 8 :=
    BitVec.eq_of_getLsbD_eq fun i _ => by simp [BitVec.getLsbD_ushiftRight]
  rw [crcByte, crcShift_iterate_eq_shiftRight _ _ 8 fun _ => hlow, hhigh]

/-- Settles O35: each of the two bytes is the register's low byte when it goes in, so each only shifts the register down. -/
theorem crcOfBlockWithItsCrc : Obligations.CrcOfBlockWithItsCrc := by
  intro c data
  change crc16 c (data ++ [crcLow (crc16 c data), crcHigh (crc16 c data)]) = 0x0000#16
  generalize hcrc : crc16 c data = crc
  calc crc16 c (data ++ [crcLow crc, crcHigh crc])
      = crcByte c.crcPoly (crcByte c.crcPoly crc (crcLow crc)) (crcHigh crc) := by
        rw [← hcrc, crc16, List.foldl_append]; rfl
    _ = crc >>> 8 >>> 8 := by rw [crcByte_crcLow, crcHigh_eq_crcLow, crcByte_crcLow]
    _ = 0x0000#16 := by rw [← BitVec.shiftRight_add]; exact BitVec.ushiftRight_eq_zero (by decide)

/-- Settles O34: five closed evaluations of `crc16`. -/
theorem crcReferenceValues : Obligations.CrcReferenceValues := by
  unfold Obligations.CrcReferenceValues
  decide +kernel

/-! ### FIFO writes -/

theorem regWrite_fifoData_eq (s : State) (v : Byte) :
    s.regWrite .fifoData v = (s.bus (writeAddrByte (s.cfg.regMap.addr .fifoData)) v).fifoPush v := by
  rw [State.regWrite, transact_bus, RegMap.fields_fifoData]; rfl

theorem fifoPush_room {s : State} (v : Byte) (h : s.fifo.length < s.cfg.fifoDepth) :
    s.fifoPush v = { s with fifo := s.fifo ++ [v] } := if_pos h

theorem fifoPush_full {s : State} (v : Byte) (h : s.cfg.fifoDepth ≤ s.fifo.length) :
    s.fifoPush v = { s with errorReg := s.errorReg ||| bufferOvfl } := if_neg (Nat.not_lt.2 h)

/-- Settles O14: the write is the push of its byte, which has room or has not. -/
theorem fifoPush : Obligations.FifoPush := by
  intro s a v hq ha
  rw [exec_regWrite_next hq ha rfl, regWrite_fifoData_eq]
  exact ⟨fun h => by rw [fifoPush_room (s := s.bus _ _) v h]; rfl,
    fun h => by rw [fifoPush_full (s := s.bus _ _) v h]; rfl⟩

theorem regWrite_fifoLevel_eq (s : State) (v : Byte) :
    s.regWrite .fifoLevel v =
      if isFlush (s.cfg.regMap.fields .fifoLevel v) then
        { s.bus (writeAddrByte (s.cfg.regMap.addr .fifoLevel)) v with fifo := [], errorReg := s.errorReg &&& 0xEF#8 }
      else s.bus (writeAddrByte (s.cfg.regMap.addr .fifoLevel)) v := by
  rw [State.regWrite, transact_bus]; rfl

/-- A raw write of `FIFOLevelReg` with `FlushBuffer` set (R175). -/
theorem exec_regWrite_flush {a : RegAddr} {v : Byte} {s : State} (hq : s.seq = none)
    (ha : regOf s.cfg a = some .fifoLevel) (hv : (s.cfg.regMap.fields .fifoLevel v).getLsbD 7 = true) :
    exec (.regWrite a v) s = .next { s.bus (writeAddrByte (s.cfg.regMap.addr .fifoLevel)) v with
      fifo := [], errorReg := s.errorReg &&& 0xEF#8, result := some {} } := by
  rw [exec_regWrite_next hq ha rfl, regWrite_fifoLevel_eq, isFlush, if_pos hv]

/-- Settles O15: the write by its bit 7, and `FLUSH` as the write of its byte. -/
theorem fifoFlush : Obligations.FifoFlush := by
  refine fun s hq => ⟨fun a v => exec_regWrite_flush hq, fun a v ha hv => ?_, fun hc => ?_⟩
  · rw [exec_regWrite_next hq ha rfl, regWrite_fifoLevel_eq, isFlush, if_neg (Bool.eq_false_iff.1 hv)]
  · have hflush : exec (.regWrite (s.cfg.regMap.addr .fifoLevel) (s.cfg.regMap.byte .fifoLevel 0x80#8)) s = exec .flush s :=
      exec_regWrite_addr hc .fifoLevel _
    rw [← hflush]
    exact exec_regWrite_flush hq (regOf_addr hc .fifoLevel) (by rw [hc.fields_byte]; rfl)

/-! ### The three commands -/

/-- A CRC result that no busy engine works on is not drawn (R161). -/
theorem spoilCrc_notBusy {s : State} (h : ∀ d, s.crcState ≠ .busy d) : s.spoilCrc = s := by
  unfold State.spoilCrc
  split
  · rename_i d hd
    exact absurd hd (h d)
  · rfl
  · rfl

/-- A half-done CRC result becomes the next two draws, the high byte first (R160, log 25). -/
theorem spoilCrc_busy {s : State} {d : List Byte} {h l : Byte} {xs : List Byte} (hb : s.crcState = .busy d)
    (htape : s.draws = h :: l :: xs) : s.spoilCrc.crcResult = h ++ l := by
  simp [State.spoilCrc, hb, State.draw16, State.draw, htape]

theorem spoilCrc_eq (s : State) :
    s.spoilCrc = { s with
      crcResult := s.spoilCrc.crcResult, draws := s.spoilCrc.draws, drawCount := s.spoilCrc.drawCount } := by
  unfold State.spoilCrc
  split
  · simp only [State.draw16]
    rw [draw_eq s.draw.2, draw_eq s]
  · rfl
  · rfl

/-- The end of a command turns both engines off, and draws what `spoilCrc` draws. -/
theorem endCommand_eq (s : State) :
    s.endCommand = { s with
      crcState := .off, trxState := .off
      crcResult := s.spoilCrc.crcResult, draws := s.spoilCrc.draws, drawCount := s.spoilCrc.drawCount } := by
  rw [State.endCommand, spoilCrc_eq]

theorem startCommand_idle {s : State} {code : BitVec 4} (hc : s.cfg.Wf) (h : code = s.cfg.cmdIdle) :
    s.startCommand code = s.endCommand := by
  subst h
  obtain ⟨hcrc, htrx, -⟩ := hc.codes_ne
  rw [State.startCommand, if_neg hcrc, if_neg htrx]

theorem startCommand_calcCrc {s : State} {code : BitVec 4} (h : code = s.cfg.cmdCalcCrc) :
    s.startCommand code = { s.endCommand with crcState := .busy s.fifo } := if_pos h

theorem startCommand_transceive {s : State} {code : BitVec 4} (hc : s.cfg.Wf) (h : code = s.cfg.cmdTransceive) :
    s.startCommand code = { s.endCommand with errorReg := 0x00#8, trxState := .armed } := by
  subst h
  obtain ⟨-, -, hne⟩ := hc.codes_ne
  rw [State.startCommand, if_neg hne.symm, if_pos rfl]

/-- The lines and `CommandReg` after the write of a command code, before the chip starts the command. -/
def State.commandSent (s : State) (code : BitVec 4) : State :=
  { s.bus (writeAddrByte (s.cfg.regMap.addr .command)) (s.cfg.cmdBus code) with commandReg := cmdByte code }

/-- A command issued is its code written, and then started (R160). -/
theorem rawWrite_command {s : State} {code : BitVec 4} (hc : s.cfg.Wf) (hq : s.seq = none)
    (hcode : code ∈ [s.cfg.cmdIdle, s.cfg.cmdCalcCrc, s.cfg.cmdTransceive]) :
    rawWrite .command (s.cfg.cmdBus code) s =
      .next { (s.commandSent code).startCommand code with result := some {} } := by
  have hlegal : writeRefusal s.cfg .command (s.cfg.cmdBus code) = none := by
    rw [Config.cmdBus, writeRefusal_byte hc, fieldRefusal_cmd hcode]
  have hwrite : s.regWrite .command (s.cfg.cmdBus code) = (s.commandSent code).startCommand code := by
    rw [State.regWrite, transact_bus, Config.cmdBus, hc.fields_byte, State.chipWrite, commandOf_cmdByte]; rfl
  rw [← exec_regWrite_addr hc, exec_regWrite_next hq (regOf_addr hc _) hlegal, hwrite]

/-- What a command draws, it draws only where a CRC is half done. -/
theorem commandSent_keeps {s : State} (code : BitVec 4) (h : ∀ d, s.crcState ≠ .busy d) :
    (s.commandSent code).spoilCrc.crcResult = s.crcResult ∧ (s.commandSent code).spoilCrc.draws = s.draws ∧
      (s.commandSent code).spoilCrc.drawCount = s.drawCount := by
  rw [spoilCrc_notBusy (s := s.commandSent code) h]
  exact ⟨rfl, rfl, rfl⟩

/-- Settles O17: the command is the end of the one before. -/
theorem idleStopsEngines : Obligations.IdleStopsEngines := by
  intro s hc hq
  have hx : exec .cmdIdle s = _ := rawWrite_command hc hq (by simp)
  rw [startCommand_idle (s := s.commandSent _) (code := s.cfg.cmdIdle) hc rfl, endCommand_eq] at hx
  exact ⟨_, hx, rfl, commandSent_keeps _, fun _ _ _ _ => spoilCrc_busy (s := s.commandSent _)⟩

/-- Settles O18: the command ends the one before, and the engine takes the FIFO as it stands. -/
theorem calcCrcStartsOnFifo : Obligations.CalcCrcStartsOnFifo := by
  intro s hc hq
  have hx : exec .cmdCalcCrc s = _ := rawWrite_command hc hq (by simp)
  rw [startCommand_calcCrc (s := s.commandSent _) (code := s.cfg.cmdCalcCrc) rfl, endCommand_eq] at hx
  exact ⟨_, hx, rfl, commandSent_keeps _⟩

/-- Settles O19: the command ends the one before, clears `ErrorReg` and arms the engine. -/
theorem transceiveCommandArms : Obligations.TransceiveCommandArms := by
  intro s hc hq
  have hx : exec .cmdTransceive s = _ := rawWrite_command hc hq (by simp)
  rw [startCommand_transceive (s := s.commandSent _) (code := s.cfg.cmdTransceive) hc rfl, endCommand_eq] at hx
  exact ⟨_, hx, rfl, commandSent_keeps _⟩

/-! ### FIFO reads, and reads of the CRC result -/

theorem fifoPop_cons {s : State} {b : Byte} {bs : List Byte} (h : s.fifo = b :: bs) :
    s.fifoPop = (b, { s with fifo := bs }) := by simp [State.fifoPop, h]

theorem fifoPop_nil {s : State} (h : s.fifo = []) : s.fifoPop = s.draw := by simp [State.fifoPop, h]

theorem regRead_fifoData_eq (s : State) :
    s.regRead .fifoData = (s.bus (readAddrByte (s.cfg.regMap.addr .fifoData)) s.cfg.dummy).fifoPop := by
  simp only [State.regRead, transact_bus, RegMap.byte_fifoData, State.chipRead]

/-- Settles O22: the read is the pop, of the head where there is one and else a draw. -/
theorem fifoPop : Obligations.FifoPop := by
  intro s a hq ha
  refine ⟨fun b bs h => ?_, fun h => ?_⟩
  · rw [exec_regRead_next hq ha, regRead_fifoData_eq, fifoPop_cons (s := s.bus _ _) h]
  · obtain ⟨d, t, hx, ht, htape⟩ := exec_regRead_drawn id hq ha (fifoPop_nil (s := s.bus _ _) h)
    rw [RegMap.byte_fifoData] at ht
    exact ⟨d, t, hx, ht, htape⟩

theorem crcRead_busy {s : State} {d : List Byte} (p : Word16 → Byte) (h : s.crcState = .busy d) :
    s.crcRead p = s.draw := by simp [State.crcRead, h]

theorem crcRead_notBusy {s : State} (p : Word16 → Byte) (h : ∀ d, s.crcState ≠ .busy d) :
    s.crcRead p = (p s.crcResult, s) := by
  unfold State.crcRead
  split
  · rename_i d hd
    exact absurd hd (h d)
  · rfl
  · rfl

/-- A raw read of a register that shows the byte `p` of the CRC result whole: that byte, or a draw while the engine is busy
(R165). -/
theorem exec_regRead_crcResult {a : RegAddr} {r : Reg} {s : State} (p : Word16 → Byte) (hq : s.seq = none)
    (ha : regOf s.cfg a = some r) (hr : ∀ t : State, t.chipRead r = t.crcRead p)
    (hbyte : ∀ f, s.cfg.regMap.byte r f = f) :
    ∃ v t, exec (.regRead a) s = .next t ∧
      t = { s.bus (readAddrByte (s.cfg.regMap.addr r)) s.cfg.dummy with
        draws := t.draws, drawCount := t.drawCount, result := some { data := [v] } } ∧
      ((∀ d, s.crcState ≠ .busy d) → v = p s.crcResult ∧ t.draws = s.draws) ∧
      ∀ d x xs, s.crcState = .busy d → s.draws = x :: xs → v = x ∧ t.draws = xs := by
  by_cases h : ∃ d, s.crcState = .busy d
  · obtain ⟨d, hd⟩ := h
    obtain ⟨v, t, hx, ht, htape⟩ := exec_regRead_drawn id hq ha ((hr _).trans (crcRead_busy (s := s.bus _ _) p hd))
    rw [id, hbyte] at ht
    exact ⟨v, t, hx, ht, fun hn => absurd hd (hn d), fun _ x xs _ => htape x xs⟩
  · have hn := not_exists.1 h
    have hx := exec_regRead_next hq ha
    simp only [State.regRead, transact_bus, hr, crcRead_notBusy (s := s.bus _ _) p hn, hbyte] at hx
    exact ⟨_, _, hx, rfl, fun _ => ⟨rfl, rfl⟩, fun d _ _ hd => absurd hd (hn d)⟩

/-- Settles O24: `CRCResultRegM` shows the high byte and `CRCResultRegL` the low one. -/
theorem crcResultReads : Obligations.CrcResultReads := by
  rintro s a r hq ha (rfl | rfl)
  · exact exec_regRead_crcResult crcHigh hq ha (fun _ => rfl) (RegMap.byte_crcResultM _)
  · exact exec_regRead_crcResult crcLow hq ha (fun _ => rfl) (RegMap.byte_crcResultL _)

/-! ### Engine steps -/

/-- Settles O28: a busy engine completes, and the drawn list is taken whole; one that is not busy has no such step. -/
theorem crcCompletionStep : Obligations.CrcCompletionStep := by
  refine fun s left => ⟨fun data hb hlen => ?_, fun h => crcComplete_calm h left⟩
  rw [State.engineStep, crcComplete_busy hb, List.take_of_length_le hlen]; rfl

theorem receive_receiving {s : State} (h : s.trxState = .receiving) (bytes : List Byte) (lb : BitVec 3) (e : Byte) :
    s.receive bytes lb e = { s with
      fifo := s.fifo ++ bytes.take (s.cfg.fifoDepth - s.fifo.length)
      rxLastBits := lb
      errorReg := e ||| (if s.cfg.fifoDepth - s.fifo.length < bytes.length then bufferOvfl else 0x00#8) ||| s.errorReg
      comIrq := s.comIrq ||| rxIrqBit
      trxState := .done } := by
  simp only [State.receive, h]

theorem receive_notReceiving {s : State} (h : s.trxState ≠ .receiving) (bytes : List Byte) (lb : BitVec 3) (e : Byte) :
    s.receive bytes lb e = s := by
  unfold State.receive
  split
  · rename_i hr
    exact absurd hr h
  all_goals rfl

/-- Settles O30: what the room takes of the answer is the FIFO with the answer, cut at its depth. -/
theorem receiveStep : Obligations.ReceiveStep := by
  refine fun s bytes lb e hlen => ⟨fun h => ?_, fun h => receive_notReceiving h bytes lb e⟩
  have hfits : (s.fifo ++ bytes).take s.cfg.fifoDepth = s.fifo ++ bytes.take (s.cfg.fifoDepth - s.fifo.length) := by
    rw [List.take_append, List.take_of_length_le hlen]
  have hroom : s.cfg.fifoDepth - s.fifo.length < bytes.length ↔ s.cfg.fifoDepth < s.fifo.length + bytes.length := by omega
  rw [State.engineStep, receive_receiving h, hfits]
  simp only [hroom]; rfl

theorem timerStep_sent {s : State} (h : s.trxState = .receiving ∨ s.trxState = .done) :
    s.timerStep = { s with comIrq := s.comIrq ||| timerIrqBit } := by
  rcases h with h | h <;> simp only [State.timerStep, h]

theorem timerStep_armed {s : State} (h : s.trxState = .armed) : s.timerStep = s := by
  simp only [State.timerStep, h]

/-- Settles O31: the timer's flag waits for the end of a transmission, engine state by engine state. -/
theorem timerStep : Obligations.TimerStep :=
  fun _ => ⟨timerStep_sent, fun h => h.elim timerStep_off timerStep_armed⟩

end Sys2Proof.Machine

/-! The statements of 42_crc_unit.md: how a `COMPUTE_CRC` that the host issues ends, and what it returns. -/

namespace Sys2Proof.Machine

open Sys2Proof

/-! ### What a `COMPUTE_CRC` of the host keeps along its run -/

/-- `R` speaks of the block alone, and the engine steps between two moves keep it. -/
structure KeptBetweenMoves (R : State → Prop) : Prop where
  block   : ∀ v w : State, v.SameBlock w → R v → R w
  engines : ∀ v : State, R v → R v.engines

theorem KeptBetweenMoves.and {R R' : State → Prop} (h : KeptBetweenMoves R) (h' : KeptBetweenMoves R') :
    KeptBetweenMoves fun v => R v ∧ R' v :=
  ⟨fun v w e => And.imp (h.block v w e) (h'.block v w e), fun v => And.imp (h.engines v) (h'.engines v)⟩

theorem keptBetweenMoves_const (p : Prop) : KeptBetweenMoves fun _ => p := ⟨fun _ _ _ => id, fun _ => id⟩

theorem Move.Keeps.and {φ ρ : Type} {m : Move φ ρ} {P P' : φ → State → Prop} {Q Q' : ρ → State → Prop}
    (h : m.Keeps P Q) (h' : m.Keeps P' Q') : m.Keeps (fun f s => P f s ∧ P' f s) fun r s => Q r s ∧ Q' r s := by
  cases m with
  | go f s => exact ⟨h, h'⟩
  | done r s => exact ⟨h, h'⟩
  | fault x => trivial

/-- `P` at a line of a `COMPUTE_CRC` gives `P` at the next, or `Q` of the result bytes at the end. -/
structure CrcRule (P : CrcFrame → State → Prop) (Q : Byte × Byte → State → Prop) : Prop where
  atLine : ∀ f : CrcFrame, KeptBetweenMoves (P f)
  atEnd  : ∀ r : Byte × Byte, KeptBetweenMoves (Q r)
  line   : ∀ (f : CrcFrame) (v : State), v.Steady → f.Fits v.cfg → P f v → (crcStep f v).Keeps P Q

/-- A `COMPUTE_CRC` of the host stands at a line, where `P` holds, or has ended with a result, where `Q` holds. -/
def CrcStands (P : CrcFrame → State → Prop) (Q : Byte × Byte → State → Prop) (v : State) : Prop :=
  (∃ f, v.seq = some (.crc f) ∧ P f v) ∨ (v.seq = none ∧ ∃ r, v.result = some (crcResultOf r) ∧ Q r v)

/-- A line of a `COMPUTE_CRC` of the host goes on in it, or ends it. -/
theorem seqStep_crc_cases {f : CrcFrame} {v t : State} (ht : seqStep (.crc f) v = .next t) :
    (∃ f' w, crcStep f v = .go f' w ∧ t = w.goOn (.crc f')) ∨
      ∃ r w, crcStep f v = .done r w ∧ t = w.finish (crcResultOf r) := by
  simp only [seqStep] at ht
  cases e : crcStep f v with
  | go f' w => rw [e] at ht; cases ht; exact .inl ⟨f', w, rfl, rfl⟩
  | done r w => rw [e] at ht; cases ht; exact .inr ⟨r, w, rfl, rfl⟩
  | fault x => rw [e] at ht; cases ht

section
variable {P : CrcFrame → State → Prop} {Q : Byte × Byte → State → Prop}

/-- Where the sequencer and the result stand still, the operation stands where it stood. -/
theorem CrcStands.imp {v w : State} (h : CrcStands P Q v) (hseq : w.seq = v.seq) (hres : w.result = v.result)
    (hP : ∀ f, P f v → P f w) (hQ : ∀ r, Q r v → Q r w) : CrcStands P Q w := by
  rcases h with ⟨f, hf, h⟩ | ⟨hf, r, hr, h⟩
  · exact .inl ⟨f, hseq.trans hf, hP f h⟩
  · exact .inr ⟨hseq.trans hf, r, hres.trans hr, hQ r h⟩

theorem CrcRule.keptAlong (h : CrcRule P Q) : KeptAlong (CrcStands P Q) where
  overlaps v hv := hv.imp (by simp) (by simp) (fun f => (h.atLine f).block _ _ (sameBlock_refuseOverlaps v))
    fun r => (h.atEnd r).block _ _ (sameBlock_refuseOverlaps v)
  engines v hv := hv.imp (engines_seq v) (engines_result v) (fun f => (h.atLine f).engines v) fun r => (h.atEnd r).engines v
  line v t r hv hst hr ht := by
    obtain ⟨f, hf, hP⟩ | ⟨hf, -⟩ := hst
    · obtain rfl : Running.crc f = r := Option.some.inj (hf.symm.trans hr)
      have hk := h.line f v hv.inv.steady (hv.fits _ hr) hP
      obtain ⟨f', w, e, rfl⟩ | ⟨r, w, e, rfl⟩ := seqStep_crc_cases ht <;> rw [e] at hk
      · exact .inl ⟨f', rfl, (h.atLine f').block _ _ (sameBlock_goOn w _) hk⟩
      · exact .inr ⟨rfl, r, rfl, (h.atEnd r).block _ _ (sameBlock_finish w _) hk⟩
    · cases hf.symm.trans hr

/-- `P` goes from one line of the run of a `COMPUTE_CRC` of the host to every later one. -/
theorem CrcRule.reaches (h : CrcRule P Q) {k : Nat} {s v : State} {f f' : CrcFrame} (hs : s.Sound)
    (hf : s.seq = some (.crc f)) (hP : P f s) (hv : Reaches k s v) (hf' : v.seq = some (.crc f')) : v.Sound ∧ P f' v := by
  obtain ⟨hsound, -, ⟨g, hg, hPg⟩ | ⟨hn, -⟩⟩ := h.keptAlong.reaches hs (.inl ⟨f, hf, hP⟩) hv
  · obtain rfl : f' = g := by rw [hf'] at hg; cases hg; rfl
    exact ⟨hsound, hPg⟩
  · cases hn.symm.trans hf'

/-- A `COMPUTE_CRC` of the host ends within its count of steps, with result bytes of which `Q` holds. -/
theorem CrcRule.ends (h : CrcRule P Q) {s : State} {f : CrcFrame} (hs : s.Sound) (hf : s.seq = some (.crc f)) (hP : P f s) :
    ∃ u r, EndsWithin f.stepsLeft s u ∧ u.result = some (crcResultOf r) ∧ Q r u := by
  obtain ⟨u, hu, -, -, hst⟩ := h.keptAlong.ends hs (.inl ⟨f, hf, hP⟩) hf
  have hidle : u.seq = none := by
    obtain ⟨-, -, -, e⟩ := hu
    exact e
  obtain ⟨f', hf', -⟩ | ⟨-, r, hr, hQ⟩ := hst
  · cases hidle.symm.trans hf'
  · exact ⟨u, r, hu, hr, hQ⟩

end

/-! ### Its trace, its end, `ErrorReg` and the bytes it reads, between two moves -/

theorem crcTrace_keptBetweenMoves (s0 : State) (f0 f : CrcFrame) : KeptBetweenMoves (CrcTrace s0 f0 f) :=
  ⟨fun _ _ e => e.crcTrace, fun _ => crcTrace_engines⟩

theorem crcReads_keptBetweenMoves (data : List Byte) (f : CrcFrame) : KeptBetweenMoves (CrcReads data f) :=
  ⟨fun _ _ e => e.crcReads, fun _ => crcReads_engines⟩

theorem State.SameBlock.crcEnd {s0 v w : State} {f0 : CrcFrame} {r : Byte × Byte} (e : v.SameBlock w)
    (h : CrcEnd s0 f0 r v) : CrcEnd s0 f0 r w := by
  obtain ⟨⟨k1, k2, k3, k4⟩, ⟨r1, r2, r3⟩, hmem, hflag⟩ := h
  rw [e]; exact ⟨⟨k1, k2, k3, k4⟩, ⟨r1, r2, r3⟩, hmem, hflag⟩

theorem crcEnd_engineStep {s0 v : State} {f0 : CrcFrame} {r : Byte × Byte} (h : CrcEnd s0 f0 r v) (e : EngineEvent) :
    CrcEnd s0 f0 r (v.engineStep e) := by
  obtain ⟨hkept, hrun, hmem, hflag⟩ := h
  refine ⟨crcFrameKept_engineStep hkept e, crcRunning_engineStep hrun e, by simpa using hmem, fun h0 => ?_⟩
  rcases engineStep_crc v e with ⟨hd, hs, -⟩ | ⟨d, -, hs, hd, -⟩
  · rw [hd, hs]; exact hflag h0
  · rw [hd, hs, or_crcIrqBit]; simp

/-- The engine may complete after the last line too, and what R204 says of the end still holds. -/
theorem crcEnd_keptBetweenMoves (s0 : State) (f0 : CrcFrame) (r : Byte × Byte) : KeptBetweenMoves (CrcEnd s0 f0 r) := by
  refine ⟨fun _ _ e => e.crcEnd, fun v h =>
    engines_keep (P := CrcEnd s0 f0 r) (fun v h => ?_) (fun v e h => crcEnd_engineStep h e) h⟩
  obtain ⟨⟨k1, k2, k3, k4⟩, ⟨r1, r2, r3⟩, hmem, hflag⟩ := h
  rw [takeEvents_eq]; exact ⟨⟨k1, k2, k3, k4⟩, ⟨r1, r2, r3⟩, hmem, hflag⟩

/-- Unless a transceive was running in `s0`, none runs and `ErrorReg` is `e`. -/
def ErrorRegIs (s0 : State) (e : Byte) (v : State) : Prop := s0.trxState = .off → v.trxState = .off ∧ v.errorReg = e

theorem errorRegIs_keptBetweenMoves (s0 : State) (e : Byte) : KeptBetweenMoves (ErrorRegIs s0 e) := by
  refine ⟨fun v w hw h h0 => ?_, fun v h => engines_keep (P := ErrorRegIs s0 e) (fun v h h0 => ?_) (fun v ev h h0 => ?_) h⟩
  · rw [hw]; exact h h0
  · rw [takeEvents_eq]; exact h h0
  · obtain ⟨hoff, he⟩ := h h0
    exact ⟨(engineStep_trxOff hoff ev).1, (engineStep_errorReg hoff ev).trans he⟩

/-! ### The two rules -/

/-- The trace of the operation and what it does to `ErrorReg` (42_crc_unit.md R204). -/
theorem crcTrace_rule (s0 : State) (f0 : CrcFrame) :
    CrcRule (fun f v => CrcTrace s0 f0 f v ∧ ErrorRegIs s0 (f.line.errorReg s0.errorReg) v)
      fun r v => CrcEnd s0 f0 r v ∧ ErrorRegIs s0 (s0.errorReg &&& ~~~bufferOvfl) v where
  atLine f := (crcTrace_keptBetweenMoves s0 f0 f).and (errorRegIs_keptBetweenMoves s0 _)
  atEnd r := (crcEnd_keptBetweenMoves s0 f0 r).and (errorRegIs_keptBetweenMoves s0 _)
  line f v hv hf h := by
    obtain ⟨htrace, herr⟩ := h
    have hk := crcStep_trace hv hf htrace
    refine hk.and ?_
    have hstep := fun h0 => crcStep_errorReg hv hf htrace (herr h0).2
    cases e : crcStep f v with
    | go f' w => rw [e] at hk hstep; exact fun h0 => ⟨(hk.kept.trx h0).1, hstep h0⟩
    | done r w => rw [e] at hk hstep; exact fun h0 => ⟨(hk.kept.trx h0).1, hstep h0⟩
    | fault x => trivial

/-- The trace of the operation from the read of the low byte on, where the engine has completed with `data` (R203). -/
theorem crcReads_rule (s0 : State) (f0 : CrcFrame) (data : List Byte) :
    CrcRule (fun f v => CrcTrace s0 f0 f v ∧ CrcReads data f v)
      fun r v => CrcEnd s0 f0 r v ∧ [r.1, r.2] = crcBytes s0.cfg data where
  atLine f := (crcTrace_keptBetweenMoves s0 f0 f).and (crcReads_keptBetweenMoves data f)
  atEnd r := (crcEnd_keptBetweenMoves s0 f0 r).and (keptBetweenMoves_const _)
  line f v hv hf h := by
    obtain ⟨htrace, hreads⟩ := h
    have hbytes := crcStep_reads hreads
    rw [htrace.kept.cfg] at hbytes
    exact (crcStep_trace hv hf htrace).and hbytes

/-! ### From the host's issue on -/

/-- The frame in which the host's `COMPUTE_CRC` begins. -/
def crcStart (src dst : Region) : CrcFrame := { src := areaOf src, len := src.len, dst := areaOf dst }

section
variable {s : State} {src dst : Region}

theorem crcStart_fits {c : Config} (hlen : src.len ≤ c.frameCap) (hsrc : Holds c src src.len) (hdst : Holds c dst 2) :
    (crcStart src dst).Fits c :=
  ⟨hlen, covers_area hsrc, covers_area hdst, fun e => by rcases e with e | e <;> cases e⟩

/-- The host's `COMPUTE_CRC` overruns nothing where its regions hold what it reads and writes. -/
theorem sound_crcStart (hs : s.Inv) (hlen : src.len ≤ s.cfg.frameCap) (hsrc : Holds s.cfg src src.len)
    (hdst : Holds s.cfg dst 2) : (s.goOn (.crc (crcStart src dst))).engines.Sound := by
  refine ⟨inv_engines (inv_goOn hs.steady ⟨Nat.zero_le _, nofun⟩), fun r hr => ?_⟩
  obtain rfl : Running.crc (crcStart src dst) = r := Option.some.inj (by simpa using hr)
  rw [engines_cfg]
  exact crcStart_fits hlen hsrc hdst

/-- Its trace begins at its first line, whatever engine steps fall before it. -/
theorem crcStart_trace (s : State) (src dst : Region) :
    CrcTrace s (crcStart src dst) (crcStart src dst) (s.goOn (.crc (crcStart src dst))).engines :=
  crcTrace_engines ((sameBlock_goOn s _).crcTrace (crcTrace_start rfl rfl))

theorem crcStart_errorReg (s : State) (src dst : Region) :
    ErrorRegIs s ((crcStart src dst).line.errorReg s.errorReg) (s.goOn (.crc (crcStart src dst))).engines :=
  (errorRegIs_keptBetweenMoves s _).engines _ fun h0 => ⟨h0, rfl⟩

/-- The two bytes it stores in host memory, and that it stores no others. -/
theorem CrcEnd.hostMemory {v : State} {r : Byte × Byte} (h : CrcEnd s (crcStart src dst) r v) (hs : s.Steady) :
    v.scratch = s.scratch ∧ Memory.read v.mem dst.base = r.1 ∧ Memory.read v.mem (dst.base + 1) = r.2 ∧
      ∀ x, x ≠ dst.base → x ≠ dst.base + 1 → Memory.read v.mem x = Memory.read s.mem x := by
  obtain ⟨t, u, ht, hu, hmem, hscratch⟩ := h.memory
  obtain ⟨-, ⟨-, rfl⟩ | ⟨⟨⟩, -⟩⟩ := areaWrite_cases ht
  obtain ⟨-, ⟨-, rfl⟩ | ⟨⟨⟩, -⟩⟩ := areaWrite_cases hu
  have hwrites : v.mem = Memory.write (Memory.write s.mem dst.base r.1) (dst.base + 1) r.2 := hmem
  rw [hwrites]
  refine ⟨hscratch, ?_, Memory.read_write_same _ _ (Memory.write_wf _ _ hs.memWf), fun x h0 h1 => ?_⟩
  · rw [Memory.read_write_ne _ (Nat.ne_of_lt (Nat.lt_succ_self _)), Memory.read_write_same _ _ hs.memWf]
  · rw [Memory.read_write_ne _ h1, Memory.read_write_ne _ h0]

end

/-- At the read of the low byte a completed engine holds the CRC of the bytes read, and a poll that ended before its budget
shows a completed engine. -/
theorem CrcTrace.reads {s0 v : State} {f0 f : CrcFrame} (h : CrcTrace s0 f0 f v) (h0 : ∀ d, s0.crcState ≠ .busy d)
    (hl : f.line = .readLow) (hd : f.pollCount < 255 ∨ v.crcState = .done) :
    CrcReads (s0.areaBytes f0.src f0.len) f v := by
  have hcommanded : f.line.commanded = true := by rw [hl]; rfl
  have hdone : v.crcState = .done := hd.elim (h.seen h0 hcommanded (by rw [hl]; nofun)) id
  obtain ⟨hbusy, -⟩ | ⟨-, hresult, -⟩ := (h.run hcommanded).engine
  · cases hdone.symm.trans hbusy
  · exact ⟨.inl hl, hdone, hresult, fun hne => absurd hl hne, fun e => by cases hl.symm.trans e⟩

/-- Settles O46: the trace of the operation from its issue to its end, with `ErrorReg` beside it. -/
theorem computeCrcCompletes : Obligations.ComputeCrcCompletes := by
  intro s src dst hs hq hlen hsrc hdst
  refine ⟨_, exec_computeCrc_next hq hlen, ?_⟩
  obtain ⟨u, r, hu, hres, hend, herr⟩ := (crcTrace_rule s (crcStart src dst)).ends (sound_crcStart hs hlen hsrc hdst)
    (engines_seq _) ⟨crcStart_trace s src dst, crcStart_errorReg s src dst⟩
  obtain ⟨hscratch, hlow, hhigh, hother⟩ := hend.hostMemory hs.steady
  obtain ⟨⟨hcfg, hframing, htrx, hirq⟩, ⟨hcommand, hoff, hengine⟩, -, hflag⟩ := hend
  rw [hcfg] at hcommand hengine
  refine ⟨u, hu, hcommand, hoff, hframing, hscratch, ?_, ⟨r.1, r.2, hres, hlow, hhigh⟩, hother, hflag, hirq, fun h0 => ?_⟩
  · rw [areaBytes_length] at hengine
    exact hengine
  · obtain ⟨-, hcom, hlast, hevents, hlatched⟩ := htrx h0
    exact ⟨hcom, hlast, hevents, hlatched, (herr h0).2⟩

/-- Settles O47: the trace of the operation up to the read of the low byte, and from there the bytes it reads. -/
theorem computeCrcResult : Obligations.ComputeCrcResult := by
  intro s t v src dst k f hs hq hlen hsrc hdst hcalm ht hv hf hl hd
  obtain rfl := Host.Outcome.next.inj ((exec_computeCrc_next hq hlen).symm.trans ht)
  obtain ⟨hsound, htrace, -⟩ := (crcTrace_rule s (crcStart src dst)).reaches (sound_crcStart hs hlen hsrc hdst)
    (engines_seq _) ⟨crcStart_trace s src dst, crcStart_errorReg s src dst⟩ hv hf
  obtain ⟨u, r, hu, hres, hend, hbytes⟩ :=
    (crcReads_rule s (crcStart src dst) _).ends hsound hf ⟨htrace, htrace.reads hcalm hl hd⟩
  obtain ⟨-, hlow, hhigh, -⟩ := hend.hostMemory hs.steady
  obtain ⟨hr1, hr2⟩ : r.1 = _ ∧ r.2 = _ := by simpa [crcBytes] using hbytes
  rw [CrcFrame.stepsLeft, hl] at hu
  rw [crcResultOf, hr1, hr2] at hres
  exact ⟨u, hu, hres, hlow.trans hr1, hhigh.trans hr2⟩

end Sys2Proof.Machine

/-! The statements of 43_command_engine.md, first part: the bit length and the drain count, the poll loops, and the two
error exits of `TRANSCEIVE`. -/

namespace Sys2Proof.Machine

open Sys2Proof

/-! ### Bit length and drain count -/

theorem drainCount_eq (c : Config) (n : Nat) : drainCount c n = min (max n 1) c.frameCap := by
  rw [drainCount]
  congr 1
  split_ifs <;> omega

/-- The bit length in 32 bits, for a level that a FIFO can have: only an empty level with last bits wraps around (R220). -/
theorem bitLength_eq {c : Config} {n : Nat} (lb : BitVec 3) (hw : c.bitLenWidth = 32) (hn : n ≤ 64) :
    bitLength c n lb =
      if n = 0 then (if lb = 0#3 then 0 else 2 ^ 32 - 8 + lb.toNat)
      else if lb = 0#3 then 8 * n else 8 * (n - 1) + lb.toNat := by
  have hlt : lb.toNat < 8 := lb.isLt
  have hpos : lb ≠ 0#3 → 0 < lb.toNat := fun h =>
    Nat.pos_of_ne_zero fun e => h (BitVec.eq_of_toNat_eq (by simpa using e))
  simp only [bitLength, hw]
  by_cases h : lb = 0#3
  · simp only [h, if_true]
    split_ifs <;> omega
  · have := hpos h
    simp only [h, if_false]
    split_ifs <;> omega

/-- Settles O36: both by cases on an empty level. -/
theorem bitLengthAndDrainCount : Obligations.BitLengthAndDrainCount := fun c n lb =>
  ⟨bitLength_eq lb, drainCount_eq c n⟩

/-! ### The flag clears and the poll loops -/

/-- A line of a `TRANSCEIVE` of the host that goes on. -/
theorem seqStep_trx_go {f f' : TrxFrame} {s t : State} (h : trxStep f s = .go f' t) :
    seqStep (.trx f) s = .next (t.goOn (.trx f')) := by simp only [seqStep, h]

/-- A line of a `COMPUTE_CRC` of the host that goes on. -/
theorem seqStep_crc_go {f f' : CrcFrame} {s t : State} (h : crcStep f s = .go f' t) :
    seqStep (.crc f) s = .next (t.goOn (.crc f')) := by simp only [seqStep, h]

theorem byte_and {c : Config} (h : c.Wf) (r : Reg) (f g : Byte) :
    c.regMap.byte r (f &&& g) = c.regMap.byte r f &&& c.regMap.byte r g := by
  rw [← h.byte_fields r (c.regMap.byte r f &&& c.regMap.byte r g), RegMap.fields_and, h.fields_byte, h.fields_byte]

theorem comIrqValue_wait (flags : BitVec 7) (d : Byte) :
    (comIrqValue flags d &&& 0x21#8 != 0#8) = (flags.getLsbD 5 || flags.getLsbD 0) := by
  have hd : d &&& 0x1E#8 &&& 0x21#8 = 0#8 := by rw [BitVec.and_assoc]; exact BitVec.and_zero
  rw [comIrqValue, BitVec.and_or_distrib_right, hd, BitVec.or_zero]
  revert flags
  decide

/-- The poll of `TRANSCEIVE` sees `RxIRq` and `TimerIRq` whatever the draw (43_command_engine.md R215 step 4). -/
theorem waitSeen_comIrqValue {c : Config} (h : c.Wf) (hw : c.waitMask = c.regMap.byte .comIrq 0x21#8) (flags : BitVec 7)
    (d : Byte) : waitSeen c (c.regMap.byte .comIrq (comIrqValue flags d)) = (flags.getLsbD 5 || flags.getLsbD 0) := by
  have hzero : ∀ x : Byte, (c.regMap.byte .comIrq x != 0#8) = (x != 0#8) := fun x => by
    rw [Bool.eq_iff_iff, bne_iff_ne, bne_iff_ne, not_iff_not]
    exact ⟨fun e => h.byte_inj (r := .comIrq) (by rw [e, RegMap.byte_zero]), fun e => by rw [e, RegMap.byte_zero]⟩
  rw [waitSeen, hw, ← byte_and h, hzero, comIrqValue_wait]

/-- What a read of `ComIrqReg` lets the poll of `TRANSCEIVE` see. -/
theorem waitSeen_regRead {s : State} (h : s.cfg.Wf) (hw : s.cfg.waitMask = s.cfg.regMap.byte .comIrq 0x21#8) :
    waitSeen s.cfg (s.regRead .comIrq).1 = (s.comIrq.getLsbD 5 || s.comIrq.getLsbD 0) := by
  obtain ⟨d, hd⟩ := regRead_comIrq_val s
  rw [hd, waitSeen_comIrqValue h hw]

/-- A poll with budget `n` that has read `k` times ends after the next read, or not. -/
theorem poll_line {α : Type} {b : Bool} {k n : Nat} (hk : k < n) (x y : α) :
    (if b = true ∨ n ≤ k + 1 then x else y) = if b then x else if k + 1 = n then x else y := by
  cases b
  · simp only [Bool.false_eq_true, false_or, if_false]
    exact if_congr (by omega) rfl rfl
  · simp

/-- Settles O37: the two clears write `ClearIrq`'s byte, and each poll sees its flags whatever else is drawn. -/
theorem pollLoops : Obligations.PollLoops := by
  refine ⟨fun s f hc hl => ?_, fun s f hc hl => ?_, fun s f hc hw hl hk => ?_, fun s f hc hl hk => ?_⟩
  · refine ⟨_, seqStep_trx_go (by simp only [trxStep, hl]; rfl), rfl, ?_⟩
    simp only [goOn_comIrq, State.clearIrq, setReg_comIrq hc, if_true, clearIrq_com]
  · refine ⟨_, seqStep_crc_go (by simp only [crcStep, hl]; rfl), rfl, ?_⟩
    simp only [goOn_divIrq, State.clearIrq, setReg_divIrq hc, if_true, clearIrq_crc]
  · refine ⟨_, seqStep_trx_go (by simp only [trxStep, hl]; rfl), ?_⟩
    simp only [goOn_seq, trxAfterPoll, waitSeen_regRead hc hw, trxPollBudget, poll_line hk]
  · obtain ⟨d, hd⟩ := regRead_divIrq_val s
    refine ⟨_, seqStep_crc_go (by simp only [crcStep, hl]; rfl), ?_⟩
    simp only [goOn_seq, crcAfterPoll, hd, crcSeen_divIrqValue hc, crcPollBudget, poll_line hk]

/-! ### The end of a `TRANSCEIVE`, and the two error exits -/

/-- The last line of a `TRANSCEIVE` of the host. -/
theorem seqStep_trx_finalIdle {f : TrxFrame} (hl : f.line = .finalIdle) (s : State) :
    seqStep (.trx f) s = .next ((s.setReg .command (cmdByte s.cfg.cmdIdle)).finish
      (trxResultOf ⟨f.status, f.bitLen, f.cause⟩)) := by simp only [seqStep, trxStep, hl]

/-- The idle command leaves both engines off (41_chip_commands.md R161). -/
theorem setReg_idle_calm {s : State} (hc : s.cfg.Wf) : (s.setReg .command (cmdByte s.cfg.cmdIdle)).Calm := by
  have hne := hc.codes_ne
  exact ⟨by simp [setReg_crcState hc, hne], by simp [setReg_trxState hc, hne]⟩

/-- A `TRANSCEIVE` at its last line ends in one step with what its frame holds, the chip idle and nothing else touched. -/
theorem finalIdle_ends {s : State} {f : TrxFrame} (hc : s.cfg.Wf) (hl : f.line = .finalIdle) :
    ∃ u, EndsWithin 1 (s.goOn (.trx f)).engines u ∧ u.result = some (trxResultOf ⟨f.status, f.bitLen, f.cause⟩) ∧
      u.mem = s.mem ∧ u.scratch = s.scratch ∧ u.commandReg = cmdByte s.cfg.cmdIdle ∧ u.trxState = .off ∧
      u.bitFraming = s.bitFraming := by
  let v := s.atLine (.trx f)
  have hv : v.cfg = s.cfg ∧ v.mem = s.mem ∧ v.scratch = s.scratch ∧ v.bitFraming = s.bitFraming := by
    simp [v, State.atLine]
  obtain ⟨hcfg, hmem, hscratch, hframing⟩ := hv
  have hvc : v.cfg.Wf := hcfg ▸ hc
  have hcalm : ((v.setReg .command (cmdByte v.cfg.cmdIdle)).finish (trxResultOf ⟨f.status, f.bitLen, f.cause⟩)).Calm :=
    setReg_idle_calm hvc
  refine ⟨_, endsWithin_goOn (seqStep_trx_finalIdle hl v) (endsWithin_ended (by simp)), by simp, by simp [hmem],
    by simp [hscratch], ?_, ?_, by simp [setReg_bitFraming hvc, hframing]⟩
  · simp [setReg_commandReg hvc, hcfg]
  · rw [engines_calm hcalm, takeEvents_trxState]
    exact hcalm.2

/-- The error check of a `TRANSCEIVE`, on `ErrorReg` as it stands (R219). -/
theorem trxStep_readError {f : TrxFrame} (hl : f.line = .readError) {s : State} (hc : s.cfg.Wf) :
    trxStep f s = .go (if s.cfg.regMap.byte .error s.errorReg &&& 0x1B#8 = 0#8 then { f with line := .readLevel }
      else { f with line := .finalIdle, status := .err, cause := some .hwErr }) (s.regRead .error).2 := by
  obtain ⟨d, hd⟩ := regRead_error_val s
  simp only [trxStep, hl, trxAfterError, hd, errorSeen_read hc]
  by_cases h : s.cfg.regMap.byte .error s.errorReg &&& 0x1B#8 = 0#8 <;> simp [errorSeen, errMask, h]

/-- The `StartSend` clear of a `TRANSCEIVE` (R215 step 5). -/
theorem trxStep_stopWrite {f : TrxFrame} (hl : f.line = .stopWrite) {s : State} (hs : s.Steady) (hf : f.Ok s) :
    trxStep f s = .go (trxAfterStop f) (s.setReg .bitFraming (s.bitFraming &&& 0x7F#8)) := by
  simp only [trxStep, hl, regWrite_framing hs.cfg (framing_stopWrite hs (hf.2.2 (.inr hl)))]
  rfl

/-- Settles O38: the line that decides, and then the last line. -/
theorem transceiveErrorExits : Obligations.TransceiveErrorExits := by
  intro s f hinv hs
  have hv := refuseOverlaps_keeps hinv
  have hvc : s.refuseOverlaps.cfg.Wf := hv.steady.cfg
  have hok : f.Ok s.refuseOverlaps := hv.seq (.trx f) (by simpa using hs)
  refine ⟨fun hl hseen => ?_, fun he => ?_, fun hl he => ?_, fun hl he => ?_⟩
  · have hstep := trxStep_stopWrite hl hv.steady hok
    rw [trxAfterStop, if_neg (by simp [hseen])] at hstep
    obtain ⟨u, hu, hres, hmem, hscratch, hcommand, htrx, hframing⟩ := finalIdle_ends
      (s := s.refuseOverlaps.setReg .bitFraming (s.refuseOverlaps.bitFraming &&& 0x7F#8))
      (f := { f with line := .finalIdle, status := .err, cause := some .timeout }) (by simpa using hvc) rfl
    exact ⟨u, endsWithin_line hs (seqStep_trx_go hstep) hu, hres, by simpa using hmem, by simpa using hscratch,
      by simpa using hcommand, htrx, by simpa [setReg_bitFraming hvc] using hframing⟩
  · simp only [RegMap.byte, RegMap.layout, he, Layout.byte_default]
  · have hstep := trxStep_readError hl hvc
    rw [refuseOverlaps_cfg, refuseOverlaps_errorReg, if_neg he] at hstep
    obtain ⟨u, hu, hres, hmem, hscratch, hcommand, htrx, hframing⟩ := finalIdle_ends
      (s := (s.refuseOverlaps.regRead .error).2)
      (f := { f with line := .finalIdle, status := .err, cause := some .hwErr }) (by simpa using hvc) rfl
    exact ⟨u, endsWithin_line hs (seqStep_trx_go hstep) hu, hres, by simpa using hmem, by simpa using hscratch,
      by simpa using hcommand, htrx, by simpa using hframing⟩
  · have hstep := trxStep_readError hl hvc
    rw [refuseOverlaps_cfg, refuseOverlaps_errorReg, if_pos he] at hstep
    exact ⟨_, by rw [step_running hs, seqStep_trx_go hstep]; rfl, by simp, by simp, by simp⟩

end Sys2Proof.Machine

/-! The statements of 43_command_engine.md, second part: what a `TRANSCEIVE` that the host issues keeps along its run. -/

namespace Sys2Proof.Machine

open Sys2Proof

/-! ### Runs, one after the other -/

theorem reaches_step {k : Nat} {s t u : State} (hs : s.seq ≠ none) (ht : step s = .next t) (h : Reaches k t u) :
    Reaches (k + 1) s u := by
  obtain ⟨hrun, halong⟩ := h
  refine ⟨by rw [run_succ, ht]; exact hrun, fun j hj => ?_⟩
  cases j with
  | zero => exact ⟨s, rfl, hs⟩
  | succ j =>
    obtain ⟨w, hw, hne⟩ := halong j (Nat.lt_of_succ_lt_succ hj)
    exact ⟨w, by rw [run_succ, ht]; exact hw, hne⟩

/-- A run from a state of the run of the same operation goes on with that run. -/
theorem reaches_trans {j k : Nat} {s x u : State} (hx : Reaches j s x) (hu : Reaches k x u) : Reaches (j + k) s u := by
  induction j generalizing k x with
  | zero =>
    obtain ⟨hx, -⟩ := hx
    obtain rfl := Host.Outcome.next.inj hx
    rwa [Nat.zero_add]
  | succ j ih =>
    obtain ⟨w, hw, hne, hstep⟩ := reaches_succ_last hx
    have h := ih hw (reaches_step hne hstep hu)
    rwa [show j + 1 + k = j + (k + 1) by omega]

/-- An operation has one end. -/
theorem reaches_end_unique {j k : Nat} {s u w : State} (hu : Reaches j s u) (hu0 : u.seq = none) (hw : Reaches k s w)
    (hw0 : w.seq = none) : u = w := by
  obtain ⟨hru, hau⟩ := hu
  obtain ⟨hrw, haw⟩ := hw
  obtain h | rfl | h := Nat.lt_trichotomy j k
  · obtain ⟨v, hv, hne⟩ := haw j h
    obtain rfl := Host.Outcome.next.inj (hru.symm.trans hv)
    exact absurd hu0 hne
  · exact Host.Outcome.next.inj (hru.symm.trans hrw)
  · obtain ⟨v, hv, hne⟩ := hau k h
    obtain rfl := Host.Outcome.next.inj (hrw.symm.trans hv)
    exact absurd hw0 hne

/-! ### What holds between two moves -/

theorem KeptBetweenMoves.imp {R : State → Prop} (p : Prop) (h : KeptBetweenMoves R) : KeptBetweenMoves fun v => p → R v :=
  ⟨fun v w e hv hp => h.block v w e (hv hp), fun v hv hp => h.engines v (hv hp)⟩

/-- What speaks of the two memories alone. -/
theorem keptBetweenMoves_of_memory {R : State → Prop}
    (h : ∀ v w : State, w.mem = v.mem → w.scratch = v.scratch → R v → R w) : KeptBetweenMoves R :=
  ⟨fun v w e => h v w (by rw [e]) (by rw [e]), fun v => h v _ (by simp) (by simp)⟩

theorem keptBut_keptBetweenMoves (s0 : State) (a : Area) (n : Nat) : KeptBetweenMoves fun v => KeptBut s0 v a n :=
  keptBetweenMoves_of_memory fun _ _ hm hk h => keptBut_congr h hm hk

theorem trxTrace_keptBetweenMoves (s0 : State) (f0 f : TrxFrame) : KeptBetweenMoves (TrxTrace s0 f0 f) :=
  ⟨fun _ _ e => e.trxTrace, fun _ => trxTrace_engines⟩

theorem State.SameBlock.trxEnd {s0 v w : State} {f0 : TrxFrame} {r : TrxResult} (e : v.SameBlock w)
    (h : TrxEnd s0 f0 r v) : TrxEnd s0 f0 r w := by
  obtain ⟨⟨k1, k2, k3⟩, hidle, hstop, hevents, herr, hok⟩ := h
  have hkept : r.status = .ok → KeptBut s0 w f0.out s0.cfg.frameCap := fun h => keptBut_sameBlock (hok h).2.1 e
  rw [e] at hkept ⊢
  exact ⟨⟨k1, k2, k3⟩, hidle, hstop, hevents, herr, fun h => ⟨(hok h).1, hkept h, (hok h).2.2⟩⟩

/-- After the idle command nothing moves (R229). -/
theorem trxEnd_keptBetweenMoves (s0 : State) (f0 : TrxFrame) (r : TrxResult) : KeptBetweenMoves (TrxEnd s0 f0 r) := by
  refine ⟨fun _ _ e => e.trxEnd, fun v h => ?_⟩
  have hcalm : v.Calm := ⟨by simp [h.idle.2.1], h.idle.2.2⟩
  rw [engines_calm hcalm]
  refine takeEvents_keep (P := TrxEnd s0 f0 r) ?_
  obtain ⟨⟨k1, k2, k3⟩, hidle, hstop, hevents, herr, hok⟩ := h
  exact ⟨⟨k1, k2, k3⟩, hidle, hstop, hevents, herr,
    fun h => ⟨(hok h).1, keptBut_congr (hok h).2.1 rfl rfl, (hok h).2.2⟩⟩

/-! ### The lines of a `TRANSCEIVE` of the host -/

/-- `P` at a line of a `TRANSCEIVE` gives `P` at the next, or `Q` of what it returns at the end. -/
structure TrxRule (P : TrxFrame → State → Prop) (Q : TrxResult → State → Prop) : Prop where
  atLine : ∀ f : TrxFrame, KeptBetweenMoves (P f)
  atEnd  : ∀ r : TrxResult, KeptBetweenMoves (Q r)
  line   : ∀ (f : TrxFrame) (v : State), v.Steady → f.Ok v → f.Fits v.cfg → P f v → (trxStep f v).Keeps P Q

/-- A `TRANSCEIVE` of the host stands at a line, where `P` holds, or has ended with a result, where `Q` holds. -/
def TrxStands (P : TrxFrame → State → Prop) (Q : TrxResult → State → Prop) (v : State) : Prop :=
  (∃ f, v.seq = some (.trx f) ∧ P f v) ∨ (v.seq = none ∧ ∃ r, v.result = some (trxResultOf r) ∧ Q r v)

/-- A line of a `TRANSCEIVE` of the host goes on in it, or ends it. -/
theorem seqStep_trx_cases {f : TrxFrame} {v t : State} (ht : seqStep (.trx f) v = .next t) :
    (∃ f' w, trxStep f v = .go f' w ∧ t = w.goOn (.trx f')) ∨
      ∃ r w, trxStep f v = .done r w ∧ t = w.finish (trxResultOf r) := by
  simp only [seqStep] at ht
  cases e : trxStep f v with
  | go f' w => rw [e] at ht; cases ht; exact .inl ⟨f', w, rfl, rfl⟩
  | done r w => rw [e] at ht; cases ht; exact .inr ⟨r, w, rfl, rfl⟩
  | fault x => rw [e] at ht; cases ht

section
variable {P : TrxFrame → State → Prop} {Q : TrxResult → State → Prop}

/-- Where the sequencer and the result stand still, the operation stands where it stood. -/
theorem TrxStands.imp {v w : State} (h : TrxStands P Q v) (hseq : w.seq = v.seq) (hres : w.result = v.result)
    (hP : ∀ f, P f v → P f w) (hQ : ∀ r, Q r v → Q r w) : TrxStands P Q w := by
  obtain ⟨f, hf, h⟩ | ⟨hf, r, hr, h⟩ := h
  · exact .inl ⟨f, hseq.trans hf, hP f h⟩
  · exact .inr ⟨hseq.trans hf, r, hres.trans hr, hQ r h⟩

theorem TrxRule.keptAlong (h : TrxRule P Q) : KeptAlong (TrxStands P Q) where
  overlaps v hv := hv.imp (by simp) (by simp) (fun f => (h.atLine f).block _ _ (sameBlock_refuseOverlaps v))
    fun r => (h.atEnd r).block _ _ (sameBlock_refuseOverlaps v)
  engines v hv := hv.imp (engines_seq v) (engines_result v) (fun f => (h.atLine f).engines v) fun r => (h.atEnd r).engines v
  line v t r hv hst hr ht := by
    obtain ⟨f, hf, hP⟩ | ⟨hf, -⟩ := hst
    · obtain rfl : Running.trx f = r := Option.some.inj (hf.symm.trans hr)
      have hk := h.line f v hv.inv.steady (hv.inv.seq _ hr) (hv.fits _ hr) hP
      obtain ⟨f', w, e, rfl⟩ | ⟨r, w, e, rfl⟩ := seqStep_trx_cases ht <;> rw [e] at hk
      · exact .inl ⟨f', rfl, (h.atLine f').block _ _ (sameBlock_goOn w _) hk⟩
      · exact .inr ⟨rfl, r, rfl, (h.atEnd r).block _ _ (sameBlock_finish w _) hk⟩
    · cases hf.symm.trans hr

/-- `P` goes from one line of the run of a `TRANSCEIVE` of the host to every later one. -/
theorem TrxRule.reaches (h : TrxRule P Q) {k : Nat} {s v : State} {f f' : TrxFrame} (hs : s.Sound)
    (hf : s.seq = some (.trx f)) (hP : P f s) (hv : Reaches k s v) (hf' : v.seq = some (.trx f')) :
    v.Sound ∧ v.cfg = s.cfg ∧ P f' v := by
  obtain ⟨hsound, hcfg, ⟨g, hg, hPg⟩ | ⟨hn, -⟩⟩ := h.keptAlong.reaches hs (.inl ⟨f, hf, hP⟩) hv
  · obtain rfl : f' = g := by rw [hf'] at hg; cases hg; rfl
    exact ⟨hsound, hcfg, hPg⟩
  · cases hn.symm.trans hf'

/-- A `TRANSCEIVE` of the host ends within its count of steps, with a result of which `Q` holds. -/
theorem TrxRule.ends (h : TrxRule P Q) {s : State} {f : TrxFrame} (hs : s.Sound) (hf : s.seq = some (.trx f)) (hP : P f s) :
    ∃ u r, EndsWithin (f.stepsLeft s.cfg) s u ∧ u.Sound ∧ u.cfg = s.cfg ∧ u.result = some (trxResultOf r) ∧ Q r u := by
  obtain ⟨u, hu, hsound, hcfg, hst⟩ := h.keptAlong.ends hs (.inl ⟨f, hf, hP⟩) hf
  have hidle : u.seq = none := by
    obtain ⟨-, -, -, e⟩ := hu
    exact e
  obtain ⟨f', hf', -⟩ | ⟨-, r, hr, hQ⟩ := hst
  · cases hidle.symm.trans hf'
  · exact ⟨u, r, hu, hsound, hcfg, hr, hQ⟩

end

/-- The trace of the operation, from its first line to its end (43_command_engine.md R229). -/
theorem trxTrace_rule (s0 : State) (f0 : TrxFrame) : TrxRule (TrxTrace s0 f0) (TrxEnd s0 f0) where
  atLine f := trxTrace_keptBetweenMoves s0 f0 f
  atEnd r := trxEnd_keptBetweenMoves s0 f0 r
  line _ _ := trxStep_trace

end Sys2Proof.Machine

/-! The statements of 43_command_engine.md, third part: from the read of the level to the end of a `TRANSCEIVE`. -/

namespace Sys2Proof.Machine

open Sys2Proof

/-! ### The FIFO while it is drained -/

/-- The FIFO begins with `bytes`, and no engine step can take from it: no CRC runs, and no transmission can begin. Where
the reception is `complete` it holds nothing else. -/
structure ReplyStands (complete : Prop) (bytes : List Byte) (v : State) : Prop where
  crc   : v.crcState = .off
  quiet : v.trxState = .done ∨ v.bitFraming.getLsbD 7 = false
  fifo  : bytes <+: v.fifo
  whole : complete → v.trxState = .done ∧ v.fifo = bytes

theorem transmit_quiet {v : State} (h : v.trxState = .done ∨ v.bitFraming.getLsbD 7 = false) : v.transmit = v := by
  rw [State.transmit, if_neg]
  intro he
  obtain ⟨-, harmed, hstart, -⟩ := transmitEnabled_iff.1 he
  rcases h with h | h
  · cases h.symm.trans harmed
  · cases h.symm.trans hstart

theorem replyStands_engineStep {complete : Prop} {bytes : List Byte} {v : State} (h : ReplyStands complete bytes v)
    (e : EngineEvent) : ReplyStands complete bytes (v.engineStep e) := by
  obtain ⟨hcrc, hquiet, hfifo, hwhole⟩ := h
  cases e with
  | crcComplete l =>
    rw [State.engineStep, crcComplete_calm (by simp [hcrc])]
    exact ⟨hcrc, hquiet, hfifo, hwhole⟩
  | transmit =>
    rw [State.engineStep, transmit_quiet hquiet]
    exact ⟨hcrc, hquiet, hfifo, hwhole⟩
  | receive b l e =>
    rw [State.engineStep]
    by_cases hr : v.trxState = .receiving
    · refine ⟨by simpa using hcrc, .inl (by simp [receive_receiving hr]), ?_,
        fun hc => absurd ((hwhole hc).1.symm.trans hr) nofun⟩
      simp only [State.receive, hr]
      exact hfifo.trans ⟨_, rfl⟩
    · rw [receive_notReceiving hr]
      exact ⟨hcrc, hquiet, hfifo, hwhole⟩
  | timer =>
    rw [State.engineStep]
    exact ⟨by simpa using hcrc, by simpa using hquiet, by simpa using hfifo, by simpa using hwhole⟩

theorem replyStands_keptBetweenMoves (complete : Prop) (bytes : List Byte) :
    KeptBetweenMoves (ReplyStands complete bytes) := by
  refine ⟨fun v w e h => ?_, fun v h =>
    engines_keep (P := ReplyStands complete bytes) (fun v h => takeEvents_keep ?_) (fun v e h => replyStands_engineStep h e) h⟩
  all_goals obtain ⟨h1, h2, h3, h4⟩ := h
  · rw [e]; exact ⟨h1, h2, h3, h4⟩
  · exact ⟨h1, h2, h3, h4⟩

theorem replyStands_regRead {complete : Prop} {bytes : List Byte} {v : State} (h : ReplyStands complete bytes v) {r : Reg}
    (hr : r ≠ .fifoData) : ReplyStands complete bytes (v.regRead r).2 := by
  obtain ⟨hcrc, hquiet, hfifo, hwhole⟩ := h
  refine ⟨by simpa using hcrc, by simpa using hquiet, ?_, ?_⟩ <;> rw [regRead_fifo, if_neg hr]
  · exact hfifo
  · simpa using hwhole

/-- A read of `FIFODataReg` takes the first byte (41_chip_commands.md R178). -/
theorem replyStands_pop {complete : Prop} {bytes : List Byte} {v : State} (h : ReplyStands complete bytes v) :
    ReplyStands complete bytes.tail (v.regRead .fifoData).2 := by
  obtain ⟨hcrc, hquiet, hfifo, hwhole⟩ := h
  refine ⟨by simpa using hcrc, by simpa using hquiet, ?_, fun hc => ?_⟩ <;> rw [regRead_fifo, if_pos rfl]
  · rw [← List.drop_one, ← List.drop_one]
    exact List.IsPrefix.drop hfifo 1
  · rw [(hwhole hc).2]
    exact ⟨by simpa using (hwhole hc).1, rfl⟩

theorem ReplyStands.head {complete : Prop} {b : Byte} {bytes : List Byte} {v : State}
    (h : ReplyStands complete (b :: bytes) v) : (v.regRead .fifoData).1 = b := by
  obtain ⟨rest, hrest⟩ := h.fifo
  exact regRead_fifoData_val (bs := bytes ++ rest) hrest.symm

theorem replyStands_areaWrite {complete : Prop} {bytes : List Byte} {v t : State} (h : ReplyStands complete bytes v)
    {a : Area} {i : Nat} {b : Byte} (ht : v.areaWrite a i b = some t) : ReplyStands complete bytes t := by
  obtain ⟨h1, h2, h3, h4⟩ := h
  rw [areaWrite_eq ht]
  exact ⟨h1, h2, h3, h4⟩

/-! ### The drain, line by line -/

/-- The frame of a `TRANSCEIVE` whose last bits are read as `lb` (R215 step 8, R220, R221). -/
def TrxFrame.drainStart (c : Config) (f : TrxFrame) (lb : BitVec 3) : TrxFrame :=
  { f with line := .drainRead, lastBits := lb, bitLen := bitLength c f.n lb, cnt := drainCount c f.n, i := 0 }

theorem trxStep_readLast {f : TrxFrame} (hl : f.line = .readLast) {s : State} (hc : s.cfg.Wf) :
    trxStep f s = .go (f.drainStart s.cfg s.rxLastBits) (s.regRead .control).2 := by
  obtain ⟨d, hd⟩ := regRead_control_val s
  simp only [trxStep, hl, trxAfterLast, hd, rxLastBitsOf_controlValue hc]
  rfl

theorem trxStep_readLevel {f : TrxFrame} (hl : f.line = .readLevel) {s : State} (hs : s.Steady) :
    trxStep f s = .go { f with line := .readLast, n := s.fifo.length } (s.regRead .fifoLevel).2 := by
  simp only [trxStep, hl, regRead_fifoLevel_val, levelOf_length hs.cfg (hs.fifo.trans hs.cfg.2.2.2.2.2.1)]

/-- How many bytes the drain has taken from the FIFO. -/
def TrxFrame.popped (g : TrxFrame) : Nat := if g.line = .drainStore then g.i + 1 else g.i

/-- No engine step takes from the FIFO of `v`: the transceive engine runs, and has not still to send. -/
def State.ReplySafe (v : State) : Prop := v.trxState ≠ .off ∧ (v.trxState = .done ∨ v.bitFraming.getLsbD 7 = false)

/-- The transceive engine and the CRC engine do not run at one time (41_chip_commands.md R160). -/
theorem replyStands_start {v : State} (hv : v.Steady) (h : v.ReplySafe) : ReplyStands (v.trxState = .done) v.fifo v := by
  obtain ⟨hrun, hquiet⟩ := h
  refine ⟨?_, hquiet, ⟨[], List.append_nil _⟩, fun hdone => ⟨hdone, rfl⟩⟩
  rw [hv.crcRuns, not_not.1 (mt hv.trxRuns.2 hrun)]
  exact hv.cfg.codes_ne.2.2.symm

/-- The first `n` bytes of the area are those of the FIFO of `v0`, as far as that goes. -/
def ReplyTaken (v0 : State) (a : Area) (n : Nat) (v : State) : Prop :=
  ∀ k, k < n → k < v0.fifo.length → v.peek a k = v0.fifo.getD k 0#8

theorem replyTaken_keptBetweenMoves (v0 : State) (a : Area) (n : Nat) : KeptBetweenMoves (ReplyTaken v0 a n) :=
  keptBetweenMoves_of_memory fun _ _ hm hk h k hn hl => (peek_congr hm hk a k).trans (h k hn hl)

/-- The frame along a drain that began with `g0` in `v0`. -/
structure TrxFrame.Drains (v0 : State) (g g0 : TrxFrame) : Prop where
  line  : g.line = .drainRead ∨ g.line = .drainStore ∨ g.line = .finalIdle
  ops   : g.out = g0.out ∧ g.cnt = g0.cnt ∧ g.bitLen = g0.bitLen
  final : g.line = .finalIdle → g.i = g.cnt ∧ g.status = .ok
  byte  : v0.ReplySafe → g.line = .drainStore → g.i < v0.fifo.length → g.byte = v0.fifo.getD g.i 0#8

/-- What holds along the drain: only the bytes drained changed, they are the FIFO's first, and the others are still there. -/
def Draining (v0 : State) (g0 g : TrxFrame) (v : State) : Prop :=
  g.Drains v0 g0 ∧ KeptBut v0 v g0.out g.i ∧
    (v0.ReplySafe → ReplyTaken v0 g0.out g.i v ∧ ReplyStands (v0.trxState = .done) (v0.fifo.drop g.popped) v)

/-- What holds once it is over. -/
def Drained (v0 : State) (g0 : TrxFrame) (r : TrxResult) (v : State) : Prop :=
  (r.status = .ok ∧ r.bitLen = g0.bitLen) ∧ (KeptBut v0 v g0.out g0.cnt ∧
    (v0.ReplySafe → ReplyTaken v0 g0.out g0.cnt v)) ∧
    (v.Calm ∧ (v0.ReplySafe → v0.trxState = .done → v.fifo = v0.fifo.drop g0.cnt))

theorem draining_keptBetweenMoves (v0 : State) (g0 g : TrxFrame) : KeptBetweenMoves (Draining v0 g0 g) :=
  (keptBetweenMoves_const _).and ((keptBut_keptBetweenMoves _ _ _).and
    (((replyTaken_keptBetweenMoves _ _ _).and (replyStands_keptBetweenMoves _ _)).imp _))

/-- Engines that are calm leave the FIFO alone. -/
theorem calm_fifo_keptBetweenMoves (p : List Byte → Prop) : KeptBetweenMoves fun v => v.Calm ∧ p v.fifo := by
  refine ⟨fun v w e h => by rw [e]; exact h, fun v h => ?_⟩
  rw [engines_calm h.1]
  exact takeEvents_keep (P := fun v => v.Calm ∧ p v.fifo) h

theorem drained_keptBetweenMoves (v0 : State) (g0 : TrxFrame) (r : TrxResult) : KeptBetweenMoves (Drained v0 g0 r) :=
  (keptBetweenMoves_const _).and (((keptBut_keptBetweenMoves _ _ _).and ((replyTaken_keptBetweenMoves _ _ _).imp _)).and
    (calm_fifo_keptBetweenMoves fun l => v0.ReplySafe → v0.trxState = .done → l = v0.fifo.drop g0.cnt))

/-- One more byte of the reply is written. -/
theorem replyTaken_areaWrite {v0 v t : State} {a : Area} {i : Nat} {b : Byte} (hv : v.Steady)
    (ht : v.areaWrite a i b = some t) (h : ReplyTaken v0 a i v) (hb : i < v0.fifo.length → b = v0.fifo.getD i 0#8) :
    ReplyTaken v0 a (i + 1) t := by
  intro k hk hlen
  rw [peek_areaWrite hv ht rfl]
  obtain hlt | rfl := Nat.lt_succ_iff_lt_or_eq.1 hk
  · rw [if_neg (by simp only [Area.addr]; omega)]
    exact h k hlt hlen
  · rw [if_pos rfl]
    exact hb hlen

/-- The byte read is the next of the reply. -/
theorem draining_drainRead {v0 v : State} {g0 g : TrxFrame} (h : Draining v0 g0 g v) (hl : g.line = .drainRead) :
    Draining v0 g0 { g with line := .drainStore, byte := (v.regRead .fifoData).1 } (v.regRead .fifoData).2 := by
  obtain ⟨⟨-, hops, -, -⟩, hkept, hreply⟩ := h
  rw [TrxFrame.popped, if_neg (by rw [hl]; nofun)] at hreply
  refine ⟨⟨.inr (.inl rfl), hops, nofun, fun hsafe _ hi => ?_⟩, keptBut_congr hkept (by simp) (by simp), fun hsafe => ⟨?_, ?_⟩⟩
  · obtain ⟨-, hstands⟩ := hreply hsafe
    rw [List.drop_eq_getElem_cons hi] at hstands
    exact hstands.head.trans (List.getD_eq_getElem _ _ hi).symm
  · exact fun k hk hlen => (peek_congr (by simp) (by simp) _ _).trans ((hreply hsafe).1 k hk hlen)
  · have hpop := replyStands_pop (hreply hsafe).2
    rwa [List.tail_drop] at hpop

/-- The byte stored is the next of the reply, and the drain goes on or is over. -/
theorem draining_drainStore {v0 v t : State} {g0 g : TrxFrame} (hv : v.Steady) (hi : g.i < g.cnt)
    (h : Draining v0 g0 g v) (hl : g.line = .drainStore) (ht : v.areaWrite g.out g.i g.byte = some t) :
    Draining v0 g0 (trxAfterStore g) t := by
  obtain ⟨⟨-, hops, -, hbyte⟩, hkept, hreply⟩ := h
  rw [TrxFrame.popped, if_pos hl] at hreply
  have ht' : v.areaWrite g0.out g.i g.byte = some t := by rw [← hops.1]; exact ht
  have hkept' : KeptBut v0 t g0.out (g.i + 1) := keptBut_areaWrite hkept ht'
  have hreply' : v0.ReplySafe →
      ReplyTaken v0 g0.out (g.i + 1) t ∧ ReplyStands (v0.trxState = .done) (v0.fifo.drop (g.i + 1)) t := fun hsafe =>
    ⟨replyTaken_areaWrite hv ht' (hreply hsafe).1 (hbyte hsafe hl), replyStands_areaWrite (hreply hsafe).2 ht'⟩
  unfold trxAfterStore
  split_ifs with hn
  · exact ⟨⟨.inl rfl, hops, nofun, nofun⟩, hkept', hreply'⟩
  · exact ⟨⟨.inr (.inr rfl), hops, fun _ => ⟨by show g.i + 1 = g.cnt; omega, rfl⟩, nofun⟩, hkept', hreply'⟩

/-- The idle command leaves what was drained, and the rest in the FIFO. -/
theorem drained_finalIdle {v0 v : State} {g0 g : TrxFrame} (hv : v.Steady) (h : Draining v0 g0 g v)
    (hl : g.line = .finalIdle) :
    Drained v0 g0 ⟨g.status, g.bitLen, g.cause⟩ (v.setReg .command (cmdByte v.cfg.cmdIdle)) := by
  obtain ⟨⟨-, hops, hfinal, -⟩, hkept, hreply⟩ := h
  obtain ⟨hi, hok⟩ := hfinal hl
  rw [TrxFrame.popped, if_neg (by rw [hl]; nofun)] at hreply
  rw [hi, hops.2.1] at hkept hreply
  refine ⟨⟨hok, hops.2.2⟩, ⟨keptBut_congr hkept (by simp) (by simp), fun hsafe k hk hlen => ?_⟩, setReg_idle_calm hv.cfg,
    fun hsafe hdone => ?_⟩
  · exact (peek_congr (by simp) (by simp) _ _).trans ((hreply hsafe).1 k hk hlen)
  · rw [setReg_fifo hv.cfg, if_neg (by simp), if_neg (by simp)]
    exact ((hreply hsafe).2.whole hdone).2

/-- The drain (43_command_engine.md R215 step 8, R221). -/
theorem draining_rule (v0 : State) (g0 : TrxFrame) : TrxRule (Draining v0 g0) (Drained v0 g0) where
  atLine g := draining_keptBetweenMoves v0 g0 g
  atEnd r := drained_keptBetweenMoves v0 g0 r
  line g v hv _ hfits h := by
    obtain ⟨-, -, -, hout, -, hcnt⟩ := hfits
    obtain hl | hl | hl := h.1.line <;> simp only [trxStep, hl]
    · exact draining_drainRead h hl
    · obtain ⟨hi, hcap⟩ := hcnt (.inr hl)
      obtain ⟨t, ht⟩ := areaWrite_of_covers (s := v) g.byte hout (Nat.lt_of_lt_of_le hi hcap)
      rw [ht]
      exact draining_drainStore hv hi h hl ht
    · exact drained_finalIdle hv h hl

/-! ### From the reads of the level and of the last bits to the end -/

section
variable {v : State} {f : TrxFrame}

theorem sound_trx (hv : v.Inv) (hs : v.seq = some (.trx f)) (hf : f.Fits v.cfg) : v.Sound :=
  ⟨hv, fun r hr => by obtain rfl := Option.some.inj (hs.symm.trans hr); exact hf⟩

/-- From the read of the last bits a `TRANSCEIVE` ends with `OK`, and with what the drain takes (R220, R221). -/
theorem readLast_ends (hv : v.Inv) (hs : v.seq = some (.trx f)) (hf : f.Fits v.cfg) (hl : f.line = .readLast) :
    ∃ u, EndsWithin (2 * v.cfg.frameCap + 3) v u ∧
      u.result = some { status := some .ok, bitLen := some (bitLength v.cfg f.n v.rxLastBits) } ∧
      KeptBut v u f.out (drainCount v.cfg f.n) ∧
      (v.ReplySafe → ReplyTaken v f.out (drainCount v.cfg f.n) u) ∧
      (v.trxState = .done → u.fifo = v.fifo.drop (drainCount v.cfg f.n)) := by
  let g := f.drainStart v.cfg v.rxLastBits
  let w := (v.refuseOverlaps.regRead .control).2
  have hline : seqStep (.trx f) v.refuseOverlaps = .next (w.goOn (.trx g)) := by
    have h := trxStep_readLast hl (refuseOverlaps_keeps hv).steady.cfg
    rw [refuseOverlaps_cfg, refuseOverlaps_rxLastBits] at h
    exact seqStep_trx_go h
  have hw : Draining v g g w := by
    refine ⟨⟨.inl rfl, ⟨rfl, rfl, rfl⟩, nofun, nofun⟩, keptBut_zero (by simp [w]) (by simp [w]),
      fun hsafe => ⟨fun k hk => absurd hk (Nat.not_lt_zero k), ?_⟩⟩
    have h := (replyStands_keptBetweenMoves _ _).block _ _ (sameBlock_refuseOverlaps v)
      (replyStands_start hv.steady hsafe)
    exact replyStands_regRead h nofun
  have hkept := draining_keptBetweenMoves v g g
  obtain ⟨t, ht, -, hsound, hcfg, -⟩ := sound_line (sound_trx hv hs hf) hs
  obtain rfl := Host.Outcome.next.inj (hline.symm.trans ht)
  obtain ⟨u, r, ⟨k, hk, hreach⟩, -, -, hres, ⟨hok, hlen⟩, ⟨hmem, htaken⟩, -, hfifo⟩ := (draining_rule v g).ends hsound
    (f := g) (by simp) (hkept.engines _ (hkept.block _ _ (sameBlock_goOn w _) hw))
  have hcount : k ≤ 2 * v.cfg.frameCap + 2 := by
    have hle := drainCount_le v.cfg f.n
    have hleft : TrxFrame.stepsLeft v.cfg g = 2 * (drainCount v.cfg f.n - 0) + 2 := rfl
    rw [engines_cfg, hcfg, hleft] at hk
    omega
  refine ⟨u, endsWithin_line hs hline ⟨k, hcount, hreach⟩, ?_, hmem, htaken,
    fun hdone => hfifo ⟨by rw [hdone]; nofun, .inl hdone⟩ hdone⟩
  rw [hres, trxResultOf, hok, hlen]
  rfl

/-- The state after the read of the level. -/
def State.afterLevel (v : State) (f : TrxFrame) : State :=
  ((v.refuseOverlaps.regRead .fifoLevel).2.goOn (.trx { f with line := .readLast, n := v.fifo.length })).engines

/-- The level read is the FIFO's length then. -/
theorem step_readLevel (hv : v.Inv) (hs : v.seq = some (.trx f)) (hl : f.line = .readLevel) :
    step v = .next (v.afterLevel f) := by
  have h := trxStep_readLevel hl (refuseOverlaps_keeps hv).steady
  rw [refuseOverlaps_fifo] at h
  rw [step_running hs, seqStep_trx_go h]
  rfl

@[simp] theorem afterLevel_mem : (v.afterLevel f).mem = v.mem := by simp [State.afterLevel]

@[simp] theorem afterLevel_scratch : (v.afterLevel f).scratch = v.scratch := by simp [State.afterLevel]

@[simp] theorem afterLevel_seq :
    (v.afterLevel f).seq = some (.trx { f with line := .readLast, n := v.fifo.length }) := by simp [State.afterLevel]

theorem afterLevel_fits (hf : f.Fits v.cfg) :
    TrxFrame.Fits v.cfg { f with line := .readLast, n := v.fifo.length } := by
  obtain ⟨h0, h1, h2, h3, -, -⟩ := hf
  exact ⟨h0, h1, h2, h3, (fun e => by rcases e with e | e <;> cases e), fun e => by rcases e with e | e <;> cases e⟩

/-- Once a reception is complete, nothing of it changes any more (41_chip_commands.md R170). -/
theorem received_keptBetweenMoves (lb : BitVec 3) :
    KeptBetweenMoves fun v => v.trxState = .done ∧ v.rxLastBits = lb := by
  refine ⟨fun v w e h => by rw [e]; exact h, fun v h => engines_keep
    (P := fun v => v.trxState = .done ∧ v.rxLastBits = lb) (fun v h => by simpa using h) (fun v e h => ?_) h⟩
  cases e with
  | crcComplete l => simpa [State.engineStep] using h
  | transmit => rw [State.engineStep, transmit_quiet (.inl h.1)]; exact h
  | receive b l e => rw [State.engineStep, receive_notReceiving (by rw [h.1]; nofun)]; exact h
  | timer => simpa [State.engineStep] using h

/-- A complete reception is the same at the read of the last bits. -/
theorem afterLevel_received (hv : v.Inv) (hdone : v.trxState = .done) :
    (v.afterLevel f).trxState = .done ∧ (v.afterLevel f).fifo = v.fifo ∧ (v.afterLevel f).rxLastBits = v.rxLastBits := by
  have hreply := replyStands_keptBetweenMoves (v.trxState = .done) v.fifo
  have hbits := received_keptBetweenMoves v.rxLastBits
  have h1 := hreply.block _ _ (sameBlock_refuseOverlaps v)
    (replyStands_start hv.steady ⟨by rw [hdone]; nofun, .inl hdone⟩)
  have h2 : ReplyStands (v.trxState = .done) v.fifo (v.afterLevel f) :=
    hreply.engines _ (hreply.block _ _ (sameBlock_goOn _ _) (replyStands_regRead h1 (r := .fifoLevel) nofun))
  have h3 : (v.afterLevel f).trxState = .done ∧ (v.afterLevel f).rxLastBits = v.rxLastBits :=
    hbits.engines _ ⟨by simpa using hdone, by simp⟩
  exact ⟨h3.1, (h2.whole hdone).2, h3.2⟩

end

/-- Host memory outside the first `n` bytes of a host area. -/
theorem KeptBut.hostMemory {s0 v : State} {a : Area} {n : Nat} (h : KeptBut s0 v a n) {x : Nat}
    (hx : x < a.base ∨ a.base + n ≤ x) : Memory.read v.mem x = Memory.read s0.mem x :=
  h.mem x fun _ i hi => by simp only [Area.addr]; omega

/-- The drain leaves what does not fit the frame buffer; an empty FIFO stays empty. -/
theorem drop_drainCount (c : Config) (l : List Byte) : l.drop (drainCount c l.length) = l.drop c.frameCap := by
  by_cases h : l = []
  · simp [h]
  · exact (drainCount_length h).2.2

/-- Settles O49: the read of the level, and the drain from the read of the last bits on. -/
theorem transceiveDelivers : Obligations.TransceiveDelivers := by
  intro v f hv hs hf hspace
  have hpeek : ∀ (u : State) (k : Nat), u.peek f.out k = Memory.read u.mem (f.out.base + k) := fun u k => by
    simp only [State.peek, hspace, Area.addr]
  refine ⟨fun hl hdone => ?_, fun hl => ⟨_, step_readLevel hv hs hl, by simp, by simp⟩, fun hl => ?_⟩
  · obtain ⟨hinv, hcfg⟩ := step_keeps hv (step_readLevel hv hs hl)
    obtain ⟨htrx, hfifo, hbits⟩ := afterLevel_received (f := f) hv hdone
    obtain ⟨u, hu, hres, hmem, htaken, hrest⟩ := readLast_ends hinv afterLevel_seq (hcfg ▸ afterLevel_fits hf) rfl
    have hdrained := htaken ⟨by rw [htrx]; nofun, .inl htrx⟩
    have hleft := hrest htrx
    rw [hcfg] at hu hres hmem hdrained hleft
    rw [drainCount_eq] at hmem hdrained
    rw [hbits] at hres
    rw [hfifo, drop_drainCount] at hleft
    refine ⟨u, endsWithin_step (by simp [hs]) (step_readLevel hv hs hl) hu, hres, hleft, fun i hi hlen => ?_, fun x hx => ?_⟩
    · have htake := hdrained i (lt_min (lt_max_of_lt_left hlen) hi) (by rwa [hfifo])
      rwa [hpeek, hfifo] at htake
    · exact (hmem.hostMemory hx).trans (by rw [afterLevel_mem])
  · obtain ⟨u, hu, hres, hmem, htaken, -⟩ := readLast_ends hv hs hf hl
    rw [drainCount_eq] at hmem htaken
    exact ⟨u, hu, hres, fun hrun hstart i hi hlen => (hpeek u i).symm.trans (htaken ⟨hrun, .inr hstart⟩ i hi hlen),
      fun x hx => hmem.hostMemory hx⟩

end Sys2Proof.Machine

/-! The statements of 43_command_engine.md, fourth part: how a `TRANSCEIVE` that the host issues ends. -/

namespace Sys2Proof.Machine

open Sys2Proof

/-! ### Before the level is read -/

/-- The level is not read yet, or never will be. -/
def TrxFrame.Unread (f : TrxFrame) : Prop :=
  f.line ∉ [.readLast, .drainRead, .drainStore] ∧ (f.line = .finalIdle → f.status = .err)

/-- Only the read of the level leads to the drain, and only the drain to `OK` (43_command_engine.md R218, R219). -/
theorem trxStep_unread {f : TrxFrame} (h : f.Unread) (hl : f.line ≠ .readLevel) (v : State) :
    (trxStep f v).Keeps (fun g _ => g.Unread) fun r _ => r.status = .err := by
  obtain ⟨hline, hfinal⟩ := h
  cases e : f.line <;> simp only [trxStep, e]
  case flush => unfold trxNextInput; split_ifs <;> exact ⟨by simp, nofun⟩
  case readByte =>
    cases v.areaRead f.inp f.i with
    | none => trivial
    | some b => exact ⟨by simp, nofun⟩
  case pushByte => unfold trxNextInput; split_ifs <;> exact ⟨by simp, nofun⟩
  case poll =>
    unfold trxAfterPoll TrxFrame.Unread
    dsimp only
    split_ifs <;> exact ⟨by simp, nofun⟩
  case stopWrite => unfold trxAfterStop; split_ifs <;> exact ⟨by simp, by simp⟩
  case readError => unfold trxAfterError; split_ifs <;> exact ⟨by simp, by simp⟩
  case finalIdle => exact hfinal e
  case readLevel => exact absurd e hl
  case readLast => simp [e] at hline
  case drainRead => simp [e] at hline
  case drainStore => simp [e] at hline
  all_goals exact ⟨by simp, nofun⟩

/-- A `TRANSCEIVE` that never stands at the read of the level never returns `OK`. -/
theorem unread_of_never_read {k : Nat} {s u : State} {f : TrxFrame} (hs : s.seq = some (.trx f)) (hf : f.Unread)
    (hnever : ∀ j x g, Reaches j s x → x.seq = some (.trx g) → g.line ≠ .readLevel) (hu : Reaches k s u) :
    TrxStands (fun g _ => g.Unread) (fun r _ => r.status = .err) u := by
  refine reaches_keeps_along (P := TrxStands (fun g _ => g.Unread) fun r _ => r.status = .err) ?_ hu (.inl ⟨f, hs, hf⟩)
  rintro j v v' hv (⟨g, hg, hunread⟩ | ⟨hnone, -⟩) hne hstep
  · rw [step_running hg] at hstep
    obtain ⟨t, ht, rfl⟩ := thenEngines_next hstep
    have hk := trxStep_unread hunread (hnever j v g hv hg) v.refuseOverlaps
    obtain ⟨g', w, e, rfl⟩ | ⟨r, w, e, rfl⟩ := seqStep_trx_cases ht <;> rw [e] at hk
    · exact .inl ⟨g', by simp, hk⟩
    · exact .inr ⟨by simp, r, by simp, hk⟩
  · exact absurd hnone hne

/-! ### Where nothing is sent -/

/-- Something has been transmitted since `s0`. -/
def State.SentSince (s0 v : State) : Prop := s0.txEvents.length < v.txEvents.length

theorem engineStep_txEvents_length (v : State) (e : EngineEvent) :
    v.txEvents.length ≤ (v.engineStep e).txEvents.length := by
  cases e with
  | transmit =>
    rw [State.engineStep, State.transmit]
    split_ifs
    · exact Nat.le_succ _
    · exact Nat.le_refl _
  | crcComplete l => simp [State.engineStep]
  | receive b l e => simp [State.engineStep]
  | timer => simp [State.engineStep]

/-- A transmission is not taken back. -/
theorem sentSince_keptBetweenMoves (s0 : State) (p : Prop) : KeptBetweenMoves fun v => s0.SentSince v ∨ p := by
  refine ⟨fun v w e h => by rw [e]; exact h, fun v h => engines_keep (P := fun v => s0.SentSince v ∨ p)
    (fun v h => by simpa [State.SentSince] using h) (fun v e h => ?_) h⟩
  exact h.imp_left fun h => Nat.lt_of_lt_of_le h (engineStep_txEvents_length v e)

/-- No flag has been seen, and none will be. -/
def TrxFrame.Unseen (f : TrxFrame) : Prop :=
  f.line ∉ [.readError, .readLevel, .readLast, .drainRead, .drainStore] ∧
    (f.line = .stopRead ∨ f.line = .stopWrite → f.seen = false) ∧
    (f.line = .finalIdle → f.status = .err ∧ f.cause = some .timeout)

/-- The operation's own lines transmit nothing. -/
theorem trxStep_txEvents (f : TrxFrame) (v : State) :
    (trxStep f v).Keeps (fun _ w => w.txEvents = v.txEvents) fun _ w => w.txEvents = v.txEvents := by
  cases e : f.line <;> simp only [trxStep, e]
  case readByte => cases v.areaRead f.inp f.i <;> trivial
  case drainStore =>
    cases ht : v.areaWrite f.out f.i f.byte with
    | none => trivial
    | some t => rw [areaWrite_eq ht]; rfl
  all_goals simp [Move.Keeps, State.clearIrq]

theorem Move.Keeps.mono {φ ρ : Type} {m : Move φ ρ} {P P' : φ → State → Prop} {Q Q' : ρ → State → Prop}
    (h : m.Keeps P Q) (hP : ∀ f s, P f s → P' f s) (hQ : ∀ r s, Q r s → Q' r s) : m.Keeps P' Q' := by
  cases m with
  | go f s => exact hP f s h
  | done r s => exact hQ r s h
  | fault x => trivial

/-- While nothing is sent no flag of `ComIrqReg` is set, so the poll sees none (R216, R225). -/
theorem trxStep_unseen {s0 v : State} {f0 f : TrxFrame} (hv : v.Steady) (h : TrxTrace s0 f0 f v)
    (hw : s0.cfg.waitMask = s0.cfg.regMap.byte .comIrq 0x21#8) (h0 : s0.trxState = .off)
    (hst : s0.SentSince v ∨ f.Unseen) :
    (trxStep f v).Keeps (fun g w => s0.SentSince w ∨ g.Unseen)
      fun r w => s0.SentSince w ∨ (r.status = .err ∧ r.cause = some .timeout) := by
  obtain hsent | ⟨hline, hseen, hfinal⟩ := hst
  · exact (trxStep_txEvents f v).mono (fun _ w e => .inl (by rw [State.SentSince, e]; exact hsent))
      fun _ w e => .inl (by rw [State.SentSince, e]; exact hsent)
  cases e : f.line <;> simp only [trxStep, e]
  case flush => unfold trxNextInput; split_ifs <;> exact .inr ⟨by simp, by simp, nofun⟩
  case readByte =>
    cases v.areaRead f.inp f.i with
    | none => trivial
    | some b => exact .inr ⟨by simp, by simp, nofun⟩
  case pushByte => unfold trxNextInput; split_ifs <;> exact .inr ⟨by simp, by simp, nofun⟩
  case poll =>
    obtain ⟨-, -, -, hirq, -⟩ | ⟨-, -, hev, -⟩ | ⟨-, hev⟩ := h.run h0 (by rw [e]; rfl) (by rw [e]; rfl)
    · have hunseen : waitSeen v.cfg (v.regRead .comIrq).1 = false := by
        rw [waitSeen_regRead hv.cfg (by rw [h.kept.cfg]; exact hw), hirq]
        rfl
      refine .inr ⟨?_, fun _ => hunseen, ?_⟩ <;> unfold trxAfterPoll <;> dsimp only <;> split_ifs <;> simp
    · exact .inl (by simp [State.SentSince, hev])
    · exact .inl (by simp [State.SentSince, hev])
  case stopRead => exact .inr ⟨by simp, fun _ => hseen (.inl e), nofun⟩
  case stopWrite =>
    rw [trxAfterStop, if_neg (by simp [hseen (.inr e)])]
    exact .inr ⟨by simp, by simp, fun _ => ⟨rfl, rfl⟩⟩
  case finalIdle => exact .inr (hfinal e)
  case readError => simp [e] at hline
  case readLevel => simp [e] at hline
  case readLast => simp [e] at hline
  case drainRead => simp [e] at hline
  case drainStore => simp [e] at hline
  all_goals exact .inr ⟨by simp, by simp, nofun⟩

/-- With no transceive running at the issue, and a `WAIT_MASK` of the two flags. -/
theorem unseen_rule {s0 : State} (f0 : TrxFrame) (hw : s0.cfg.waitMask = s0.cfg.regMap.byte .comIrq 0x21#8)
    (h0 : s0.trxState = .off) :
    TrxRule (fun f v => TrxTrace s0 f0 f v ∧ (s0.SentSince v ∨ f.Unseen))
      fun r v => TrxEnd s0 f0 r v ∧ (s0.SentSince v ∨ (r.status = .err ∧ r.cause = some .timeout)) where
  atLine f := (trxTrace_keptBetweenMoves s0 f0 f).and (sentSince_keptBetweenMoves s0 _)
  atEnd r := (trxEnd_keptBetweenMoves s0 f0 r).and (sentSince_keptBetweenMoves s0 _)
  line _ _ hv hok hfits h := (trxStep_trace hv hok hfits h.1).and (trxStep_unseen hv h.1 hw h0 h.2)

/-! ### From the host's issue on -/

/-- The frame in which the host's `TRANSCEIVE` begins. -/
def trxStart (inp out : Region) : TrxFrame := { inp := areaOf inp, len := inp.len, out := areaOf out }

theorem trxResultOf_err {r : TrxResult} (h : r.status = .err) : trxResultOf r = errResult r.cause := by
  simp only [trxResultOf, h]

theorem trxResultOf_status (r : TrxResult) : (trxResultOf r).status = some r.status := by
  unfold trxResultOf
  cases h : r.status <;> rfl

/-- A byte whose low seven bits are those of another and whose bit 7 is clear. -/
theorem framing_stopped {x y : Byte} (hlow : x.extractLsb' 0 7 = y.extractLsb' 0 7) (hbit : x.getLsbD 7 = false) :
    x = y &&& 0x7F#8 := by
  refine byte_ext fun i hi => ?_
  obtain hi | rfl := Nat.lt_succ_iff_lt_or_eq.1 hi
  · have := congrArg (BitVec.getLsbD · i) hlow
    simp only [BitVec.getLsbD_extractLsb', hi, decide_true, Bool.true_and, Nat.zero_add] at this
    rw [BitVec.getLsbD_and, this]
    interval_cases i <;> simp
  · rw [hbit]
    simp

/-- Only host memory changed where the area is a caller's buffer. -/
theorem KeptBut.scratch_eq {s0 v : State} {a : Area} {n : Nat} (h : KeptBut s0 v a n) (ha : a.space = .host)
    (hlen : v.scratch.length = s0.scratch.length) : v.scratch = s0.scratch := by
  refine List.ext_getElem hlen fun k hv h0 => ?_
  have := h.scratch k fun e => absurd (ha.symm.trans e) nofun
  rwa [List.getD_eq_getElem _ _ hv, List.getD_eq_getElem _ _ h0] at this

section
variable {s : State} {inp out : Region}

theorem sound_trxStart (hs : s.Inv) (h1 : 1 ≤ inp.len) (hlen : inp.len ≤ s.cfg.frameCap) (hinp : Holds s.cfg inp inp.len)
    (hout : Holds s.cfg out s.cfg.frameCap) : (s.goOn (.trx (trxStart inp out))).engines.Sound := by
  refine ⟨inv_engines (inv_goOn hs.steady ⟨Nat.zero_le _, nofun, fun e => by rcases e with e | e <;> cases e⟩), fun r hr => ?_⟩
  obtain rfl : Running.trx (trxStart inp out) = r := Option.some.inj (by simpa using hr)
  rw [engines_cfg]
  exact ⟨h1, hlen, covers_area hinp, covers_area hout, (fun e => by rcases e with e | e <;> cases e),
    fun e => by rcases e with e | e <;> cases e⟩

/-- Its trace begins at its first line, whatever engine steps fall before it. -/
theorem trxStart_trace (s : State) (inp out : Region) :
    TrxTrace s (trxStart inp out) (trxStart inp out) (s.goOn (.trx (trxStart inp out))).engines :=
  trxTrace_engines ((sameBlock_goOn s _).trxTrace (trxTrace_start rfl rfl))

/-- A run through the read of the level ends with `OK`, and with what R220 and R221 say of the level and the last bits. -/
theorem transceive_ok {t0 x u : State} {f : TrxFrame} {j k : Nat} (hs : t0.Sound) (hq : t0.seq = some (.trx (trxStart inp out)))
    (htrace : TrxTrace s (trxStart inp out) (trxStart inp out) t0) (hx : Reaches j t0 x) (hxq : x.seq = some (.trx f))
    (hl : f.line = .readLevel) (hu : Reaches k t0 u) (hend : u.seq = none) :
    ∃ y g, (Reaches (j + 1) t0 y ∧ y.seq = some (.trx g) ∧ g.line = .readLast) ∧
      u.result = some { status := some .ok, bitLen := some (bitLength s.cfg x.fifo.length y.rxLastBits) } ∧
      KeptBut s u (areaOf out) (drainCount s.cfg x.fifo.length) := by
  obtain ⟨hsound, -, htr⟩ := (trxTrace_rule s (trxStart inp out)).reaches hs hq htrace hx hxq
  obtain ⟨hmem, hscratch⟩ := htr.memory (by rw [hl]; nofun) (by rw [hl]; nofun) (by rw [hl]; nofun)
  have hcfg : x.cfg = s.cfg := htr.kept.cfg
  have hstep := step_readLevel hsound.inv hxq hl
  obtain ⟨hinv, hycfg⟩ := step_keeps hsound.inv hstep
  obtain ⟨w, ⟨m, -, hw, hwend⟩, hres, hkept, -⟩ := readLast_ends hinv afterLevel_seq
    (hycfg ▸ afterLevel_fits (hsound.fits _ hxq)) rfl
  have hy : Reaches (j + 1) t0 (x.afterLevel f) :=
    reaches_trans hx (reaches_step (by simp [hxq]) hstep ⟨rfl, fun _ h => absurd h (Nat.not_lt_zero _)⟩)
  obtain rfl := reaches_end_unique hu hend (reaches_trans hy hw) hwend
  rw [hycfg, hcfg] at hres hkept
  refine ⟨_, _, ⟨hy, afterLevel_seq, rfl⟩, hres, ⟨fun z hz => ?_, fun z hz => ?_⟩⟩
  · rw [hkept.mem z (by rw [htr.ops.2.2]; exact hz), afterLevel_mem, hmem]
  · rw [hkept.scratch z (by rw [htr.ops.2.2]; exact hz), afterLevel_scratch, hscratch]

/-- A run that does not pass the read of the level ends with `ERR`, one of the two causes, and no memory changed. -/
theorem transceive_err {t0 u : State} {r : TrxResult} {k : Nat} (hq : t0.seq = some (.trx (trxStart inp out)))
    (hnever : ∀ j x g, Reaches j t0 x → x.seq = some (.trx g) → g.line ≠ .readLevel) (hu : Reaches k t0 u)
    (hend : u.seq = none) (hres : u.result = some (trxResultOf r)) (htrx : TrxEnd s (trxStart inp out) r u) :
    ∃ c, (c = .timeout ∨ c = .hwErr) ∧ u.result = some { status := some .err, cause := some c } ∧ u.mem = s.mem := by
  have herr : r.status = .err := by
    obtain ⟨f, hf, -⟩ | ⟨-, r', hres', herr⟩ := unread_of_never_read hq ⟨by simp [trxStart], nofun⟩ hnever hu
    · cases hend.symm.trans hf
    · have := congrArg Result.status (Option.some.inj (hres.symm.trans hres'))
      rw [trxResultOf_status, trxResultOf_status, herr] at this
      exact Option.some.inj this
  obtain ⟨hcause, hmem, -⟩ := htrx.err herr
  rw [trxResultOf_err herr] at hres
  obtain hcause | hcause := hcause <;> rw [hcause] at hres
  · exact ⟨.timeout, .inl rfl, hres, hmem⟩
  · exact ⟨.hwErr, .inr rfl, hres, hmem⟩

end

/-- The scratch buffer is untouched where the response goes to a caller's buffer. -/
theorem TrxEnd.scratch_eq {s u : State} {f0 : TrxFrame} {r : TrxResult} (h : TrxEnd s f0 r u) (ha : f0.out.space = .host)
    (hs : s.Steady) (hu : u.Steady) : u.scratch = s.scratch := by
  cases hr : r.status with
  | err =>
    obtain ⟨-, -, hscratch⟩ := h.err hr
    exact hscratch
  | ok =>
    obtain ⟨-, hkept, -⟩ := h.ok hr
    exact hkept.scratch_eq ha (by rw [hu.scratch, hs.scratch, h.kept.cfg])

/-- Settles O48: the trace from the issue to the end; the result by whether the run passes the read of the level. -/
theorem transceiveCompletes : Obligations.TransceiveCompletes := by
  intro s inp out hs hq h1 hlen hinp hout
  refine ⟨_, exec_transceive_next hq h1 hlen, ?_⟩
  have hsound := sound_trxStart hs h1 hlen hinp hout
  have htrace := trxStart_trace s inp out
  have hstart : (s.goOn (.trx (trxStart inp out))).engines.seq = some (.trx (trxStart inp out)) := engines_seq _
  obtain ⟨u, r, ⟨k, hk, hu, hidle⟩, husound, -, hres, hend⟩ :=
    (trxTrace_rule s (trxStart inp out)).ends hsound hstart htrace
  have hscratch := hend.scratch_eq rfl hs.steady husound.inv.steady
  obtain ⟨⟨hcfg, hframing, hcrc⟩, ⟨hcommand, hcrcOff, htrxOff⟩, hstopped, hevents, -, -⟩ := id hend
  rw [hcfg] at hcommand
  have hcount : k ≤ 2 * inp.len + 1016 + 2 * s.cfg.frameCap := by
    have hleft : TrxFrame.stepsLeft s.cfg (trxStart inp out) = 2 * inp.len + 1000 + 2 * s.cfg.frameCap + 16 := rfl
    rw [engines_cfg, goOn_cfg, hleft] at hk
    omega
  refine ⟨u, ⟨k, hcount, hu, hidle⟩, hcommand, hcrcOff, htrxOff, framing_stopped hframing hstopped, hscratch,
    fun h0 => (hcrc h0).2, hevents, fun hw h0 hsame => ?_, ?_⟩
  · obtain ⟨u', r', ⟨k', -, hu', hidle'⟩, -, -, hres', -, hsent⟩ :=
      (unseen_rule (trxStart inp out) hw h0).ends hsound hstart ⟨htrace, .inr ⟨by simp [trxStart], nofun, nofun⟩⟩
    obtain rfl := reaches_end_unique hu hidle hu' hidle'
    obtain hsent | ⟨herr, hcause⟩ := hsent
    · rw [State.SentSince, hsame] at hsent
      exact absurd hsent (Nat.lt_irrefl _)
    · rw [hres', trxResultOf_err herr, hcause]
      rfl
  · by_cases hread : ∃ j x f, Reaches j (s.goOn (.trx (trxStart inp out))).engines x ∧ x.seq = some (.trx f) ∧
        f.line = .readLevel
    · obtain ⟨j, x, f, hx, hxq, hl⟩ := hread
      obtain ⟨y, g, hy, hok, hkept⟩ := transceive_ok hsound hstart htrace hx hxq hl hu hidle
      rw [drainCount_eq] at hkept
      exact .inr ⟨j, j + 1, x, y, f, g, ⟨hx, hxq, hl⟩, hy, hok, fun z hz => hkept.hostMemory hz⟩
    · exact .inl (transceive_err hstart (fun j x g hx hxq hl => hread ⟨j, x, g, hx, hxq, hl⟩) hu hidle hres hend)

end Sys2Proof.Machine

/-! The statements of 44_card_frames.md, first part: the calls of a card operation, and its checks of length and content. -/

namespace Sys2Proof.Machine

open Sys2Proof

/-! ### The calls (60_exceptions.md R294) -/

section
variable {k : CardFrame} {s t : State}

/-- A called `COMPUTE_CRC` goes on as one of the host. -/
theorem seqStep_cardCrc_of_crc {f g : CrcFrame} (ht : seqStep (.crc f) s = .next t) (hg : t.seq = some (.crc g)) :
    seqStep (.cardCrc k f) s = .next { t with seq := some (.cardCrc k g) } := by
  obtain ⟨f', w, e, rfl⟩ | ⟨r, w, e, rfl⟩ := seqStep_crc_cases ht
  · obtain rfl : f' = g := Running.crc.inj (Option.some.inj hg)
    simp only [seqStep, e]
    rfl
  · cases hg

/-- The last line of a `COMPUTE_CRC` only stores a byte: the host's result is as it was. -/
theorem crcStep_done_result {f : CrcFrame} {r : Byte × Byte} (h : crcStep f s = .done r t) : t.result = s.result := by
  cases hl : f.line <;> simp only [crcStep, hl, reduceCtorEq] at h
  case readByte => cases hw : s.areaRead f.src f.i <;> rw [hw] at h <;> cases h
  case storeLow => cases hw : s.areaWrite f.dst 0 f.lo <;> rw [hw] at h <;> cases h
  case storeHigh =>
    cases hw : s.areaWrite f.dst 1 f.hi with
    | none => rw [hw] at h; cases h
    | some w => rw [hw] at h; cases h; rw [areaWrite_eq hw]

/-- Where one of the host ends, the called one goes on to the `TRANSCEIVE`. -/
theorem seqStep_cardCrc_of_crc_end {f : CrcFrame} (ht : seqStep (.crc f) s = .next t) (hq : t.seq = none) :
    ∃ j g, j.op = k.op ∧ g.line = .clearIrq ∧
      seqStep (.cardCrc k f) s = .next { t with seq := some (.cardTrx j g), result := s.result } := by
  obtain ⟨f', w, e, rfl⟩ | ⟨r, w, e, rfl⟩ := seqStep_crc_cases ht
  · cases hq
  · refine ⟨{ k with line := .callTrx }, k.op.trxFrame w.cfg, rfl, by cases k.op <;> rfl, ?_⟩
    rw [← crcStep_done_result e]
    simp only [seqStep, e]
    rfl

/-- A called `TRANSCEIVE` goes on as one of the host. -/
theorem seqStep_cardTrx_of_trx {f g : TrxFrame} (ht : seqStep (.trx f) s = .next t) (hg : t.seq = some (.trx g)) :
    seqStep (.cardTrx k f) s = .next { t with seq := some (.cardTrx k g) } := by
  obtain ⟨f', w, e, rfl⟩ | ⟨r, w, e, rfl⟩ := seqStep_trx_cases ht
  · obtain rfl : f' = g := Running.trx.inj (Option.some.inj hg)
    simp only [seqStep, e]
    rfl
  · cases hg

end

/-! ### The checks -/

/-- The last line of a called `TRANSCEIVE` is the idle command, and then the card operation's check. -/
theorem seqStep_cardTrx_finalIdle {f : TrxFrame} (hl : f.line = .finalIdle) (k : CardFrame) (s : State) :
    seqStep (.cardTrx k f) s = .next (afterTrx k ⟨f.status, f.bitLen, f.cause⟩
      (s.setReg .command (cmdByte s.cfg.cmdIdle))) := by simp only [seqStep, trxStep, hl]

theorem sameBlock_afterTrx (k : CardFrame) (r : TrxResult) (s : State) : s.SameBlock (afterTrx k r s) := by
  unfold afterTrx
  cases r.status with
  | err => exact sameBlock_finish s _
  | ok =>
    unfold afterTrxOk
    cases k.op with
    | request code buf => exact sameBlock_finish s _
    | readUid cmd arg buf => exact sameBlock_goOn s _
    | select cmd arg serial => exact sameBlock_finish s _
    | readPage page buf => exact sameBlock_finish s _
    | writePage page data => exact sameBlock_goOn s _
    | halt => exact sameBlock_finish s _

theorem hostBytes_congr {s t : State} (h : t.mem = s.mem) (base n : Nat) : t.hostBytes base n = s.hostBytes base n := by
  rw [State.hostBytes, h]; rfl

/-- `READ_UID` step 5 (44_card_frames.md R242, R248). -/
theorem seqStep_check {s : State} {k : CardFrame} {cmd arg : Byte} {buf : Region} (hop : k.op = .readUid cmd arg buf)
    (hl : k.line = .check) (hlen : k.i < buf.len) (hmem : buf.base + k.i < s.cfg.hostMemSize) :
    seqStep (.card k) s = .next (afterCheck k (Memory.read s.mem (buf.base + k.i)) s) := by
  have hr : s.areaRead k.op.buffer k.i = some (Memory.read s.mem (buf.base + k.i)) := by
    rw [hop]
    exact areaRead_eq_some.2 ⟨by simp [State.reaches, CardOp.buffer, areaOf, Area.addr, hlen, hmem], rfl⟩
  simp only [seqStep, cardStep, hl, hr]

/-- Settles O56: the calls by the lines of the host's operations, and each check as the line that makes it. -/
theorem cardLengthChecks : Obligations.CardLengthChecks := by
  refine ⟨fun s t k => ⟨fun f g => seqStep_cardCrc_of_crc, fun f => seqStep_cardCrc_of_crc_end,
    fun f g => seqStep_cardTrx_of_trx⟩, fun s k f hl => ?_, fun s k cmd arg buf u hop hl hlen hmem hu => ?_,
    fun s k page data hs hop hl => ?_⟩
  · have hblock := sameBlock_afterTrx k ⟨f.status, f.bitLen, f.cause⟩ (s.setReg .command (cmdByte s.cfg.cmdIdle))
    have hbytes := hostBytes_congr (setReg_mem s .command (cmdByte s.cfg.cmdIdle))
    refine ⟨_, seqStep_cardTrx_finalIdle hl k s, by rw [hblock]; simp, by rw [hblock]; simp, fun he => ?_, fun he => ?_⟩
    · simp only [afterTrx, he]
      exact ⟨rfl, rfl⟩
    · simp only [afterTrx, he]
      refine ⟨fun code buf hop => ?_, fun cmd arg buf hop => ?_, fun cmd arg serial hop => ?_, fun page buf hop => ?_,
        fun page data hop => ?_, fun hop => ?_⟩ <;> simp only [afterTrxOk, hop]
      · exact ⟨rfl, by rw [← hbytes]; rfl⟩
      · rfl
      · exact ⟨rfl, by rw [← hbytes]; rfl⟩
      · exact ⟨rfl, by rw [← hbytes]; rfl⟩
      · rfl
      · exact ⟨rfl, rfl⟩
  · refine ⟨_, seqStep_check hop hl hlen hmem, ?_⟩
    rw [afterCheck, ← hu]
    by_cases h5 : k.i + 1 < 5
    · rw [if_pos h5]
      exact ⟨rfl, fun _ => rfl, fun h => absurd h5 (Nat.not_lt.2 h)⟩
    · rw [if_neg h5]
      exact ⟨rfl, fun h => absurd h h5, fun _ => ⟨rfl, rfl⟩⟩
  · have hcap : 0 < s.cfg.frameCap := Nat.lt_of_lt_of_le (by decide) hs.steady.cfg.2.2.2.1
    exact ⟨_, seqStep_ackByte hl hcap, rfl, rfl, rfl⟩

end Sys2Proof.Machine

/-! The statements of 44_card_frames.md, second part: a card operation up to the beginning of its `TRANSCEIVE`, whatever the
engines were doing at its issue. -/

namespace Sys2Proof.Machine

open Sys2Proof

/-! ### Memories that read alike -/

theorem Memory.read_below {b : Nat} {w : Byte} {m : Memory} (h : Memory.wf ((b, w) :: m) = true) {a : Nat} (ha : a < b) :
    Memory.read ((b, w) :: m) a = Memory.unlisted := by
  obtain ⟨-, hb, -⟩ := (Memory.wf_cons b w m).1 h
  refine Memory.read_of_not_listed fun x hx => ?_
  obtain rfl | hx := List.mem_cons.1 hx
  · exact ha
  · exact Nat.lt_trans ha (hb x hx)

theorem Memory.read_head (b : Nat) (w : Byte) (m : Memory) : Memory.read ((b, w) :: m) b = w := if_pos rfl

/-- The first listed address of a memory is the first that does not read as unlisted. -/
theorem Memory.head_le {b b' : Nat} {w w' : Byte} {m m' : Memory} (h : Memory.wf ((b, w) :: m) = true)
    (h' : Memory.wf ((b', w') :: m') = true)
    (heq : ∀ a, Memory.read ((b, w) :: m) a = Memory.read ((b', w') :: m') a) : b' ≤ b := by
  by_contra hlt
  have hb := heq b
  rw [Memory.read_head, Memory.read_below h' (Nat.not_le.1 hlt)] at hb
  exact ((Memory.wf_cons b w m).1 h).1 hb

/-- In its canonical form a memory is what its addresses read as. -/
theorem Memory.eq_of_read {m m' : Memory} (h : Memory.wf m = true) (h' : Memory.wf m' = true)
    (heq : ∀ a, Memory.read m a = Memory.read m' a) : m = m' := by
  induction m generalizing m' with
  | nil =>
    cases m' with
    | nil => rfl
    | cons x' m' =>
      have hb := heq x'.1
      rw [Memory.read_head x'.1 x'.2] at hb
      exact absurd hb.symm ((Memory.wf_cons x'.1 x'.2 m').1 h').1
  | cons x m ih =>
    obtain ⟨b, w⟩ := x
    cases m' with
    | nil =>
      have hb := heq b
      rw [Memory.read_head] at hb
      exact absurd hb ((Memory.wf_cons b w m).1 h).1
    | cons x' m' =>
      obtain ⟨b', w'⟩ := x'
      obtain rfl : b = b' := Nat.le_antisymm (Memory.head_le h' h fun a => (heq a).symm) (Memory.head_le h h' heq)
      have hb := heq b
      rw [Memory.read_head, Memory.read_head] at hb
      obtain ⟨-, hlow, hm⟩ := (Memory.wf_cons b w m).1 h
      obtain ⟨-, hlow', hm'⟩ := (Memory.wf_cons b w' m').1 h'
      rw [hb, ih hm hm' fun a => ?_]
      by_cases ha : a = b
      · rw [ha, Memory.read_of_not_listed hlow, Memory.read_of_not_listed hlow']
      · simpa only [Memory.read, if_neg ha] using heq a

/-! ### Writes inside an area -/

theorem KeptBut.trans {s v w : State} {a : Area} {n : Nat} (h : KeptBut s v a n) (h' : KeptBut v w a n) : KeptBut s w a n :=
  ⟨fun x hx => (h'.mem x hx).trans (h.mem x hx), fun k hk => (h'.scratch k hk).trans (h.scratch k hk)⟩

theorem keptBut_write {v w : State} {a : Area} {i n : Nat} {b : Byte} (hw : v.areaWrite a i b = some w) (hi : i < n) :
    KeptBut v w a n :=
  keptBut_mono (keptBut_areaWrite (keptBut_mono (keptBut_zero rfl rfl) (Nat.zero_le i)) hw) hi

theorem reaches_from (v : State) (a : Area) (o i : Nat) : v.reaches (a.from o) i = v.reaches a (o + i) := by
  have haddr : (a.from o).addr i = a.addr (o + i) := Nat.add_assoc _ _ _
  have hlen : i < (a.from o).len ↔ o + i < a.len := by simp only [Area.from]; omega
  rw [State.reaches, State.reaches, haddr, show (a.from o).space = a.space from rfl]
  simp only [hlen]

/-- A write through a part of an area is one of the area. -/
theorem areaWrite_from {v w : State} {a : Area} {o i : Nat} {b : Byte} (hw : v.areaWrite (a.from o) i b = some w) :
    v.areaWrite a (o + i) b = some w := by
  have haddr : (a.from o).addr i = a.addr (o + i) := Nat.add_assoc _ _ _
  rw [State.areaWrite, reaches_from, haddr] at hw
  exact hw

/-- Host memory is as it was where only the scratch buffer was written. -/
theorem KeptBut.mem_eq {s v : State} {a : Area} {n : Nat} (h : KeptBut s v a n) (ha : a.space = .scratch) (hs : s.Steady)
    (hv : v.Steady) : v.mem = s.mem :=
  Memory.eq_of_read hv.memWf hs.memWf fun x => h.mem x fun e => absurd (ha.symm.trans e) nofun

/-! ### What the operation gives its frame -/

/-- The bytes of the frame that the operation gives itself: all but a CRC (30_encoding.md R109-R114). -/
def State.givenBytes (s : State) : CardOp → List Byte
  | .request code _ => [code]
  | .readUid cmd arg _ => [cmd, arg]
  | .select cmd arg serial => s.frameStart (.select cmd arg serial)
  | .readPage page buf => s.frameStart (.readPage page buf)
  | .writePage page data => s.frameStart (.writePage page data)
  | .halt => s.frameStart .halt

theorem givenBytes_eq {op : CardOp} (hop : op.HasCrc) (s : State) : s.givenBytes op = s.frameStart op := by
  cases op with
  | request code buf => exact hop.elim
  | readUid cmd arg buf => exact hop.elim
  | select cmd arg serial => rfl
  | readPage page buf => rfl
  | writePage page data => rfl
  | halt => rfl

theorem givenBytes_length {op : CardOp} (hop : op.HasCrc) (s : State) :
    (s.givenBytes op).length = (op.crcFrame s.cfg).len := by rw [givenBytes_eq hop, frameStart_length hop]

theorem givenBytes_length_le (s : State) (op : CardOp) : (s.givenBytes op).length ≤ 7 := by
  cases op <;> simp [State.givenBytes, State.frameStart, CardOp.start]

/-- The framing with which the frame goes out: only `REQUEST` and `READ_UID` write their own (44_card_frames.md R241, R242;
70_reset_and_hazards.md R315). -/
def CardOp.sendFraming (s : State) : CardOp → Byte
  | .request code buf => (CardOp.request code buf).framing
  | .readUid cmd arg buf => (CardOp.readUid cmd arg buf).framing
  | .select _ _ _ => s.bitFraming
  | .readPage _ _ => s.bitFraming
  | .writePage _ _ => s.bitFraming
  | .halt => s.bitFraming

theorem trxFrame_inp (op : CardOp) (c : Config) : (op.trxFrame c).inp = op.frameArea c := by cases op <;> rfl

/-! ### What is kept before the `TRANSCEIVE` -/

/-- What a card operation issued in `s` leaves alone up to its `TRANSCEIVE`: the parameters, the transceive engine's record
where none was running, the CRC engine where the operation has no CRC, and memory but for the buffer of its frame. -/
structure CardKept (s : State) (op : CardOp) (v : State) : Prop where
  cfg    : v.cfg = s.cfg
  trx    : s.trxState = .off → v.trxState = .off ∧ v.txEvents = s.txEvents
  crc    : ¬ op.HasCrc → (∀ d, s.crcState ≠ .busy d) →
    (∀ d, v.crcState ≠ .busy d) ∧ v.divIrq = s.divIrq ∧ v.crcResult = s.crcResult
  memory : KeptBut s v (op.frameArea s.cfg) s.cfg.frameCap

/-- The first `i` bytes of the frame stand in its buffer, and the framing is the one it goes out with. -/
structure FrameBuilt (s : State) (op : CardOp) (i : Nat) (v : State) : Prop where
  kept    : CardKept s op v
  framing : v.bitFraming = op.sendFraming s
  bytes   : v.areaBytes (op.frameArea s.cfg) i = (s.givenBytes op).take i

/-- The frame is complete but for a CRC, or complete with it. -/
structure FrameReady (s : State) (op : CardOp) (v : State) : Prop where
  steady : v.Steady
  built  : FrameBuilt s op (s.givenBytes op).length v

theorem cardKept_start (s : State) (op : CardOp) : CardKept s op s :=
  ⟨rfl, fun h => ⟨h, rfl⟩, fun _ h => ⟨h, rfl, rfl⟩, keptBut_mono (keptBut_zero rfl rfl) (Nat.zero_le _)⟩

theorem cardKept_engineStep {s v : State} {op : CardOp} (h : CardKept s op v) (e : EngineEvent) :
    CardKept s op (v.engineStep e) := by
  refine ⟨by simpa using h.cfg, fun h0 => ?_, fun hop h0 => ?_, keptBut_congr h.memory (by simp) (by simp)⟩
  · obtain ⟨hoff, hev⟩ := h.trx h0
    obtain ⟨hoff', hev', -⟩ := engineStep_trxOff hoff e
    exact ⟨hoff', hev'.trans hev⟩
  · obtain ⟨hcalm, hirq, hres⟩ := h.crc hop h0
    obtain ⟨hirq', hstate, hres'⟩ | ⟨d, hd, -⟩ := engineStep_crc v e
    · exact ⟨by rwa [hstate], hirq'.trans hirq, hres'.trans hres⟩
    · exact absurd hd (hcalm d)

theorem cardKept_keptBetweenMoves (s : State) (op : CardOp) : KeptBetweenMoves (CardKept s op) := by
  refine ⟨fun v w e h => ?_, fun v h =>
    engines_keep (P := CardKept s op) (fun v h => takeEvents_keep ?_) (fun v e h => cardKept_engineStep h e) h⟩
  · have hmem := keptBut_sameBlock h.memory e
    rw [e] at hmem ⊢
    exact ⟨h.cfg, h.trx, h.crc, hmem⟩
  · exact ⟨h.cfg, h.trx, h.crc, keptBut_congr h.memory rfl rfl⟩

theorem frameBuilt_keptBetweenMoves (s : State) (op : CardOp) (i : Nat) : KeptBetweenMoves (FrameBuilt s op i) := by
  have hkept := cardKept_keptBetweenMoves s op
  refine ⟨fun v w e h => ?_, fun v h => ?_⟩
  · have hbytes : w.areaBytes (op.frameArea s.cfg) i = v.areaBytes (op.frameArea s.cfg) i :=
      areaBytes_congr (by rw [e]) (by rw [e]) _ _
    exact ⟨hkept.block _ _ e h.kept, by rw [e]; exact h.framing, hbytes.trans h.bytes⟩
  · exact ⟨hkept.engines _ h.kept, by simpa using h.framing,
      (areaBytes_congr (by simp) (by simp) _ _).trans h.bytes⟩

/-! ### One more byte of the frame -/

theorem CardKept.write {s v w : State} {op : CardOp} {i : Nat} {b : Byte} (h : CardKept s op v)
    (hw : v.areaWrite (op.frameArea s.cfg) i b = some w) (hi : i < s.cfg.frameCap) : CardKept s op w := by
  have hmem := h.memory.trans (keptBut_write hw hi)
  rw [areaWrite_eq hw] at hmem ⊢
  exact ⟨h.cfg, h.trx, h.crc, hmem⟩

/-- The next byte of the frame is written. -/
theorem FrameBuilt.write {s v w : State} {op : CardOp} {i : Nat} {b : Byte} (h : FrameBuilt s op i v) (hv : v.Steady)
    (hw : v.areaWrite (op.frameArea s.cfg) i b = some w) (hi : i < (s.givenBytes op).length)
    (hb : b = (s.givenBytes op).getD i 0#8) : FrameBuilt s op (i + 1) w := by
  have hcap : 9 ≤ s.cfg.frameCap := by rw [← h.kept.cfg]; exact hv.cfg.2.2.2.1
  have hle := givenBytes_length_le s op
  refine ⟨h.kept.write hw (by omega), (areaWrite_bitFraming hw).trans h.framing, ?_⟩
  rw [areaBytes_write_next hv hw rfl rfl, h.bytes, take_succ_getD hi, hb]

theorem FrameReady.of_built {s v : State} {op : CardOp} {i : Nat} (hv : v.Steady) (h : FrameBuilt s op i v)
    (hi : i = (s.givenBytes op).length) : FrameReady s op v := ⟨hv, hi ▸ h⟩

/-- `COMPUTE_CRC` appends its two bytes, and leaves the rest of the frame as it is (44_card_frames.md R243-R246). -/
theorem frameReady_of_crcEnd {s s1 w : State} {op : CardOp} {r : Byte × Byte} (hop : op.HasCrc) (h : FrameReady s op s1)
    (hw : w.Steady) (hend : CrcEnd s1 (op.crcFrame s.cfg) r w) : FrameReady s op w := by
  obtain ⟨hs1, ⟨⟨hcfg, htrx, -, hmem⟩, hframing, hbytes⟩⟩ := h
  obtain ⟨kept, -, ⟨t, u, ht, hu, hwmem, hwscratch⟩, -⟩ := hend
  have hcap : 9 ≤ s.cfg.frameCap := by rw [← hcfg]; exact hs1.cfg.2.2.2.1
  have hle := givenBytes_length_le s op
  rw [(trxFrame_input hop s.cfg).2.2, ← givenBytes_length hop s] at ht hu
  have ht' := areaWrite_from ht
  have hu' := areaWrite_from hu
  refine ⟨hw, ⟨⟨kept.cfg.trans hcfg, fun h0 => ?_, fun hno => absurd hop hno, ?_⟩, kept.framing.trans hframing, ?_⟩⟩
  · obtain ⟨hoff, hev⟩ := htrx h0
    obtain ⟨hoff', -, -, hev', -⟩ := kept.trx hoff
    exact ⟨hoff', hev'.trans hev⟩
  · exact keptBut_congr ((hmem.trans (keptBut_write ht' (by omega))).trans (keptBut_write hu' (by omega))) hwmem hwscratch
  · rw [← hbytes, areaBytes_congr hwmem hwscratch]
    refine List.map_congr_left fun i hi => ?_
    have hlt := List.mem_range.1 hi
    rw [peek_areaWrite (steady_areaWrite hs1 ht) hu' rfl, if_neg (by simp only [Area.addr]; omega),
      peek_areaWrite hs1 ht' rfl, if_neg (by simp only [Area.addr]; omega)]

/-- What the `TRANSCEIVE` of the operation is given begins with the bytes of the operation. -/
theorem FrameReady.input {s v : State} {op : CardOp} (h : FrameReady s op v) {n : Nat}
    (hn : (op.trxFrame s.cfg).len = (s.givenBytes op).length + n) :
    ∃ tail, tail.length = n ∧ v.areaBytes (op.trxFrame s.cfg).inp (op.trxFrame s.cfg).len = s.givenBytes op ++ tail := by
  have hbytes := h.built.bytes
  rw [List.take_length] at hbytes
  refine ⟨((List.range n).map fun i => (s.givenBytes op).length + i).map (v.peek (op.frameArea s.cfg)), by simp, ?_⟩
  rw [trxFrame_inp, hn, State.areaBytes, List.range_add, List.map_append]
  exact congrArg (· ++ _) hbytes

end Sys2Proof.Machine

/-! The statements of 44_card_frames.md, third part: what holds of a card operation while it runs, and at its two calls. -/

namespace Sys2Proof.Machine

open Sys2Proof

/-! ### Where a card operation stands -/

theorem KeptBetweenMoves.exists {ι : Type} {R : ι → State → Prop} (h : ∀ i, KeptBetweenMoves (R i)) :
    KeptBetweenMoves fun v => ∃ i, R i v :=
  ⟨fun v w e => Exists.imp fun i => (h i).block v w e, fun v => Exists.imp fun i => (h i).engines v⟩

/-- The `TRANSCEIVE` of the operation, begun with its frame, has ended with `r`. -/
def CardSent (s : State) (op : CardOp) (r : TrxResult) (v : State) : Prop :=
  ∃ s2, FrameReady s op s2 ∧ TrxEnd s2 (op.trxFrame s.cfg) r v

/-- What a card operation answers where its `TRANSCEIVE` returned `r`, by its check of length or content
(44_card_frames.md R240, R241 step 4 to R246 step 4). -/
def CardOp.answer (op : CardOp) (r : TrxResult) (v : State) : Result :=
  match r.status with
  | .err => errResult r.cause
  | .ok =>
    match op with
    | .request _ buf => if r.bitLen = 16 then okResult (v.hostBytes buf.base 2) else protoErr
    | .readUid _ _ buf =>
      if xorBytes (v.hostBytes buf.base 5) = 0x00#8 then okResult (v.hostBytes buf.base 5) else protoErr
    | .select _ _ serial => if r.bitLen = 24 then okResult (v.hostBytes serial.base 1) else protoErr
    | .readPage _ buf => if r.bitLen = 144 then okResult (v.hostBytes buf.base 16) else protoErr
    | .writePage _ _ =>
      if r.bitLen = 4 ∧ (v.scratch.getD 0 0x00#8).extractLsb' 0 4 = ack then okResult [] else protoErr
    | .halt => okResult []

/-- The operation has ended with the result `x`. -/
def CardEnded (s : State) (op : CardOp) (x : Result) (v : State) : Prop :=
  ∃ r, CardSent s op r v ∧ x = op.answer r v

/-- The bytes in `c.u` are the caller's, as they stood at the issue. -/
def CardFrame.Loaded (s : State) (op : CardOp) (c : CardFrame) : Prop :=
  c.u = (s.areaBytes op.buffer 4).take c.u.length

/-- What holds at a line of the operation's own. -/
def CardFrame.Stands (s : State) (op : CardOp) (c : CardFrame) (v : State) : Prop :=
  match c.line with
  | .framing => CardKept s op v
  | .put => FrameBuilt s op c.i v
  | .load => c.Loaded s op ∧ FrameBuilt s op c.i v
  | .build => c.Loaded s op ∧ FrameBuilt s op c.i v
  | .callCrc => False
  | .callTrx => False
  | .check => CardSent s op ⟨.ok, c.bitLen, none⟩ v ∧ c.u = v.areaBytes op.buffer c.i
  | .ackByte => CardSent s op ⟨.ok, c.bitLen, none⟩ v

/-- What holds of a card operation issued in `s` while it runs. -/
def Running.Stands (s : State) (op : CardOp) (v : State) : Running → Prop
  | .card c => c.op = op ∧ c.Stands s op v
  | .cardCrc c f => c.op = op ∧ ∃ s1, FrameReady s op s1 ∧ op.HasCrc ∧ CrcTrace s1 (op.crcFrame s.cfg) f v
  | .cardTrx c g => c.op = op ∧ ∃ s2, FrameReady s op s2 ∧ TrxTrace s2 (op.trxFrame s.cfg) g v
  | .writes _ => False
  | .resp _ => False
  | .crc _ => False
  | .trx _ => False

/-- A card operation issued in `s` runs, or has ended. -/
def CardStands (s : State) (op : CardOp) (v : State) : Prop :=
  (∃ r, v.seq = some r ∧ r.Stands s op v) ∨ (v.seq = none ∧ ∃ x, v.result = some x ∧ CardEnded s op x v)

/-! ### Between two moves -/

theorem cardSent_keptBetweenMoves (s : State) (op : CardOp) (r : TrxResult) : KeptBetweenMoves (CardSent s op r) :=
  .exists fun s2 => (keptBetweenMoves_const _).and (trxEnd_keptBetweenMoves s2 _ r)

theorem answer_congr {v w : State} (op : CardOp) (r : TrxResult) (hm : w.mem = v.mem) (hk : w.scratch = v.scratch) :
    op.answer r w = op.answer r v := by
  simp only [CardOp.answer, hostBytes_congr hm, hk]

theorem cardEnded_keptBetweenMoves (s : State) (op : CardOp) (x : Result) : KeptBetweenMoves (CardEnded s op x) :=
  .exists fun r => (cardSent_keptBetweenMoves s op r).and
    (keptBetweenMoves_of_memory fun _ _ hm hk h => h.trans (answer_congr op r hm hk).symm)

theorem cardFrame_stands_keptBetweenMoves (s : State) (op : CardOp) (c : CardFrame) : KeptBetweenMoves (c.Stands s op) := by
  have hbytes : KeptBetweenMoves fun v => c.u = v.areaBytes op.buffer c.i :=
    keptBetweenMoves_of_memory fun _ _ hm hk h => h.trans (areaBytes_congr hm hk _ _).symm
  unfold CardFrame.Stands
  cases c.line with
  | framing => exact cardKept_keptBetweenMoves s op
  | put => exact frameBuilt_keptBetweenMoves s op c.i
  | load => exact (keptBetweenMoves_const _).and (frameBuilt_keptBetweenMoves s op c.i)
  | build => exact (keptBetweenMoves_const _).and (frameBuilt_keptBetweenMoves s op c.i)
  | callCrc => exact keptBetweenMoves_const _
  | callTrx => exact keptBetweenMoves_const _
  | check => exact (cardSent_keptBetweenMoves s op _).and hbytes
  | ackByte => exact cardSent_keptBetweenMoves s op _

theorem stands_keptBetweenMoves (s : State) (op : CardOp) (r : Running) : KeptBetweenMoves fun v => r.Stands s op v := by
  cases r with
  | card c => exact (keptBetweenMoves_const _).and (cardFrame_stands_keptBetweenMoves s op c)
  | cardCrc c f =>
    exact (keptBetweenMoves_const _).and (.exists fun s1 => (keptBetweenMoves_const _).and
      ((keptBetweenMoves_const _).and (crcTrace_keptBetweenMoves s1 _ f)))
  | cardTrx c g =>
    exact (keptBetweenMoves_const _).and (.exists fun s2 => (keptBetweenMoves_const _).and
      (trxTrace_keptBetweenMoves s2 _ g))
  | writes ws => exact keptBetweenMoves_const _
  | resp f => exact keptBetweenMoves_const _
  | crc f => exact keptBetweenMoves_const _
  | trx f => exact keptBetweenMoves_const _

/-- Where the sequencer and the result stand still, the operation stands where it stood. -/
theorem CardStands.imp {s v w : State} {op : CardOp} (h : CardStands s op v) (hseq : w.seq = v.seq)
    (hres : w.result = v.result) (hstep : ∀ R : State → Prop, KeptBetweenMoves R → R v → R w) : CardStands s op w := by
  obtain ⟨r, hr, h⟩ | ⟨hnone, x, hx, h⟩ := h
  · exact .inl ⟨r, hseq.trans hr, hstep _ (stands_keptBetweenMoves s op r) h⟩
  · exact .inr ⟨hseq.trans hnone, x, hres.trans hx, hstep _ (cardEnded_keptBetweenMoves s op x) h⟩

theorem cardStands_goOn {s w : State} {op : CardOp} {r : Running} (h : r.Stands s op w) : CardStands s op (w.goOn r) :=
  .inl ⟨r, rfl, (stands_keptBetweenMoves s op r).block _ _ (sameBlock_goOn w r) h⟩

theorem cardStands_finish {s w : State} {op : CardOp} {x : Result} (h : CardEnded s op x w) : CardStands s op (w.finish x) :=
  .inr ⟨rfl, x, rfl, (cardEnded_keptBetweenMoves s op x).block _ _ (sameBlock_finish w x) h⟩

/-! ### The calls -/

theorem callCrc_stands {s w : State} {op : CardOp} {c : CardFrame} (hc : c.op = op) (hop : op.HasCrc)
    (h : FrameReady s op w) : (callCrc c w).Stands s op w := by
  rw [callCrc, hc, h.built.kept.cfg]
  exact ⟨rfl, w, h, hop, crcTrace_start (by cases op <;> rfl) (by cases op <;> rfl)⟩

theorem callTrx_stands {s w : State} {op : CardOp} {c : CardFrame} (hc : c.op = op) (h : FrameReady s op w) :
    (callTrx c w).Stands s op w := by
  rw [callTrx, hc, h.built.kept.cfg]
  exact ⟨rfl, w, h, trxTrace_start (by cases op <;> rfl) (by cases op <;> rfl)⟩

/-- After its `TRANSCEIVE` the operation ends, or goes on to its check. -/
theorem cardStands_afterTrx {s w : State} {op : CardOp} {c : CardFrame} {r : TrxResult} (hc : c.op = op)
    (h : CardSent s op r w) : CardStands s op (afterTrx c r w) := by
  obtain ⟨status, bitLen, cause⟩ := r
  cases status with
  | err => exact cardStands_finish ⟨_, h, rfl⟩
  | ok =>
    obtain rfl : cause = none := by
      obtain ⟨s2, -, hend⟩ := h
      exact (hend.ok rfl).1
    obtain ⟨op', line, i, u, bl⟩ := c
    obtain rfl : op' = op := hc
    cases op' with
    | request code buf => exact cardStands_finish ⟨_, h, rfl⟩
    | readUid cmd arg buf => exact cardStands_goOn ⟨rfl, h, rfl⟩
    | select cmd arg serial => exact cardStands_finish ⟨_, h, rfl⟩
    | readPage page buf => exact cardStands_finish ⟨_, h, rfl⟩
    | writePage page data => exact cardStands_goOn ⟨rfl, h⟩
    | halt => exact cardStands_finish ⟨_, h, rfl⟩

theorem cardStands_cardCrc {s v t : State} {op : CardOp} {c : CardFrame} {f : CrcFrame} (hv : v.Sound)
    (hr : v.seq = some (.cardCrc c f)) (h : (Running.cardCrc c f).Stands s op v)
    (ht : seqStep (.cardCrc c f) v = .next t) : CardStands s op t := by
  obtain ⟨hc, s1, hready, hop, htrace⟩ := h
  have htr := crcStep_trace hv.inv.steady (hv.fits _ hr).2 htrace
  have hkeeps := crcStep_keeps hv.inv.steady (hv.inv.seq _ hr)
  obtain ⟨f', w, e, rfl⟩ | ⟨b, w, e, rfl⟩ := seqStep_cardCrc_cases ht <;> rw [e] at htr hkeeps
  · exact cardStands_goOn (r := .cardCrc c f') ⟨hc, s1, hready, hop, htr⟩
  · exact cardStands_goOn (callTrx_stands hc (frameReady_of_crcEnd hop hready hkeeps.1 htr))

theorem cardStands_cardTrx {s v t : State} {op : CardOp} {c : CardFrame} {g : TrxFrame} (hv : v.Sound)
    (hr : v.seq = some (.cardTrx c g)) (h : (Running.cardTrx c g).Stands s op v)
    (ht : seqStep (.cardTrx c g) v = .next t) : CardStands s op t := by
  obtain ⟨hc, s2, hready, htrace⟩ := h
  have htr := trxStep_trace hv.inv.steady (hv.inv.seq _ hr) (hv.fits _ hr).2 htrace
  obtain ⟨g', w, e, rfl⟩ | ⟨b, w, e, rfl⟩ := seqStep_cardTrx_cases ht <;> rw [e] at htr
  · exact cardStands_goOn (r := .cardTrx c g') ⟨hc, s2, hready, htr⟩
  · exact cardStands_afterTrx hc ⟨s2, hready, htr⟩

end Sys2Proof.Machine

/-! The statements of 44_card_frames.md, fourth part: a card operation from its first line to its end. -/

namespace Sys2Proof.Machine

open Sys2Proof

/-! ### The operation's own lines -/

/-- The lines that a card operation has of its own. -/
def CardOp.lines : CardOp → List CardLine
  | .request _ _ => [.framing, .put]
  | .readUid _ _ _ => [.framing, .put, .check]
  | .select _ _ _ => [.load, .build]
  | .readPage _ _ => [.put]
  | .writePage _ _ => [.load, .build, .ackByte]
  | .halt => [.build]

theorem line_mem_of_placed {c : CardFrame} (hp : c.Placed) : c.line ∈ c.op.lines := by
  obtain ⟨op, line, i, u, bl⟩ := c
  cases op with
  | request code buf => obtain ⟨hl, -⟩ | ⟨hl, -⟩ := hp <;> simp_all [CardOp.lines]
  | readUid cmd arg buf => obtain ⟨hl, -⟩ | ⟨hl, -⟩ | ⟨hl, -⟩ := hp <;> simp_all [CardOp.lines]
  | select cmd arg serial => obtain ⟨hl, -⟩ | ⟨hl, -⟩ := hp <;> simp_all [CardOp.lines]
  | readPage page buf => exact List.mem_singleton.2 hp.1
  | writePage page data => obtain ⟨hl, -⟩ | ⟨hl, -⟩ | ⟨hl, -⟩ | hl := hp <;> simp_all [CardOp.lines]
  | halt => exact List.mem_singleton.2 hp.1

/-- Only `REQUEST` and `READ_UID` write the framing, as the first thing they do (44_card_frames.md R241, R242). -/
theorem framing_placed {c : CardFrame} (hp : c.Placed) (hl : c.line = .framing) (s : State) :
    c.i = 0 ∧ c.op.sendFraming s = c.op.framing := by
  obtain ⟨op, line, i, u, bl⟩ := c
  subst hl
  cases op with
  | request code buf =>
    obtain ⟨-, hi⟩ | ⟨hl, -⟩ := hp
    · exact ⟨hi, rfl⟩
    · cases hl
  | readUid cmd arg buf =>
    obtain ⟨-, hi⟩ | ⟨hl, -⟩ | ⟨hl, -⟩ := hp
    · exact ⟨hi, rfl⟩
    · cases hl
    · cases hl
  | _ => exact absurd (line_mem_of_placed hp) (by simp [CardOp.lines])

/-- The framing write touches nothing else that is kept. -/
theorem CardKept.setFraming {s v : State} {op : CardOp} (h : CardKept s op v) (hv : v.Steady) (f : Byte) :
    CardKept s op (v.setReg .bitFraming f) :=
  ⟨by simpa using h.cfg, fun h0 => by simpa [setReg_trxState hv.cfg] using h.trx h0,
    fun hop h0 => by
      obtain ⟨hcalm, hirq, hres⟩ := h.crc hop h0
      exact ⟨by simpa [setReg_crcState hv.cfg] using hcalm, by simpa [setReg_divIrq hv.cfg] using hirq,
        by rw [State.setReg, regWrite_crcResult _ _ fun _ => hcalm]; exact hres⟩,
    keptBut_congr h.memory (by simp) (by simp)⟩

/-- The frame's next byte goes to the caller's buffer, and after the last one the calls begin. -/
theorem put_placed {c : CardFrame} (hp : c.Placed) (hl : c.line = .put) (s w : State) :
    c.op.buffer = c.op.frameArea s.cfg ∧ c.i < (s.givenBytes c.op).length ∧
      putByte s.cfg c = (s.givenBytes c.op).getD c.i 0#8 ∧
      (afterPut c w = .card { c with line := .put, i := c.i + 1 } ∨ c.i + 1 = (s.givenBytes c.op).length ∧
        (c.op.HasCrc ∧ afterPut c w = callCrc c w ∨ afterPut c w = callTrx c w)) := by
  obtain ⟨op, line, i, u, bl⟩ := c
  subst hl
  cases op with
  | request code buf =>
    obtain ⟨hl, -⟩ | ⟨-, hi⟩ := hp
    · cases hl
    · obtain rfl : i = 0 := Nat.lt_one_iff.1 hi
      exact ⟨rfl, hi, rfl, .inr ⟨rfl, .inr rfl⟩⟩
  | readUid cmd arg buf =>
    obtain ⟨hl, -⟩ | ⟨-, hi⟩ | ⟨hl, -⟩ := hp
    · cases hl
    · refine ⟨rfl, hi, rfl, ?_⟩
      unfold afterPut
      split_ifs with hmore
      · exact .inl rfl
      · exact .inr ⟨Nat.le_antisymm hi (Nat.not_lt.1 hmore), .inr rfl⟩
    · cases hl
  | readPage page buf =>
    have hi := hp.2
    refine ⟨rfl, hi, rfl, ?_⟩
    unfold afterPut
    split_ifs with hmore
    · exact .inl rfl
    · exact .inr ⟨Nat.le_antisymm hi (Nat.not_lt.1 hmore), .inl ⟨trivial, rfl⟩⟩
  | _ => exact absurd (line_mem_of_placed hp) (by simp [CardOp.lines])

/-- A byte of the caller's buffer is read where the frame is built in the scratch buffer, and the next one is read or built. -/
theorem load_placed {c : CardFrame} (hp : c.Placed) (hl : c.line = .load) (cfg : Config) (b : Byte) :
    (c.op.frameArea cfg).space = .scratch ∧ c.op.buffer.space = .host ∧ c.u.length < 4 ∧
      ∃ l, (l = .load ∨ l = .build) ∧ afterLoad c b = .card { c with line := l, u := c.u ++ [b] } := by
  obtain ⟨op, line, i, u, bl⟩ := c
  subst hl
  cases op with
  | select cmd arg serial =>
    obtain ⟨-, hi, hu⟩ | ⟨hl, -⟩ := hp
    · obtain rfl : i = 0 := hi
      refine ⟨rfl, rfl, hu, ?_⟩
      unfold afterLoad
      dsimp only
      split_ifs
      · exact ⟨_, .inl rfl, rfl⟩
      · exact ⟨_, .inr rfl, rfl⟩
    · cases hl
  | writePage page data =>
    obtain ⟨hl, -⟩ | ⟨-, hi, hi6⟩ | ⟨hl, -⟩ | hl := hp
    · cases hl
    · exact ⟨rfl, rfl, by dsimp only at hi hi6 ⊢; omega, _, .inr rfl, rfl⟩
    · cases hl
    · cases hl
  | _ => exact absurd (line_mem_of_placed hp) (by simp [CardOp.lines])

/-- Only an operation with a CRC builds its frame in the scratch buffer. -/
theorem hasCrc_of_build {c : CardFrame} (hp : c.Placed) (hl : c.line = .build) : c.op.HasCrc := by
  obtain ⟨op, line, i, u, bl⟩ := c
  subst hl
  cases op with
  | select cmd arg serial => trivial
  | readPage page buf => trivial
  | writePage page data => trivial
  | halt => trivial
  | _ => exact absurd (line_mem_of_placed hp) (by simp [CardOp.lines])

theorem afterBuild_line {c c' : CardFrame} {w : State} (h : afterBuild c w = .card c') :
    c'.line = .load ∨ c'.line = .build := by
  unfold afterBuild at h
  cases hop : c.op <;> rw [hop] at h <;> dsimp only at h
  case select =>
    split_ifs at h <;> cases h
    exact .inr rfl
  case writePage =>
    split_ifs at h <;> cases h
    · exact .inr rfl
    · exact .inl rfl
  case halt =>
    split_ifs at h <;> cases h
    exact .inr rfl
  all_goals cases h

section
variable {s v w t : State} {op : CardOp} {c : CardFrame}

theorem loaded_peek (h : CardKept s op v) (ha : (op.frameArea s.cfg).space = .scratch) {b : Area} (hb : b.space = .host)
    (i : Nat) : v.peek b i = s.peek b i := by
  simp only [State.peek, hb]
  exact h.memory.mem _ fun e => absurd (ha.symm.trans e) nofun

/-- `s` with no transceive running, and the scratch buffer of `v`. -/
def State.quietWith (s v : State) : State := { s with trxState := .off, scratch := v.scratch }

/-- The byte that goes to the scratch buffer is the frame's next one, as in a block where no transceive runs. -/
theorem buildByte_given (hs : s.Steady) (hv : v.Steady) (hc : c.op = op) (hp : c.Placed) (hl : c.line = .build)
    (hu : c.Loaded s op) (h : FrameBuilt s op c.i v) : buildByte s.cfg c = (s.givenBytes op).getD c.i 0#8 := by
  have hop : op.HasCrc := hc ▸ hasCrc_of_build hp hl
  have harea : op.frameArea s.cfg = scratchFrom s.cfg 0 := by
    rw [← hc]
    exact (build_placed (hasCrc_of_build hp hl) hp hl s.cfg).1
  have hmem : v.mem = s.mem := h.kept.memory.mem_eq (by rw [harea]; rfl) hs hv
  have hbytes := h.bytes
  rw [givenBytes_eq hop] at hbytes ⊢
  exact buildByte_eq (v := s.quietWith v) hop
    ⟨hc, ⟨rfl, rfl, rfl, rfl, id⟩, (areaBytes_congr (t := s.quietWith v) hmem.symm rfl _ _).trans hbytes, hu,
      fun _ => rfl⟩ hp hl

theorem cardStands_framing (hv : v.Steady) (hc : c.op = op) (hp : c.Placed) (hl : c.line = .framing)
    (h : CardKept s op v) :
    CardStands s op ((v.setReg .bitFraming c.op.framing).goOn (.card { c with line := .put })) := by
  obtain ⟨hi, hframing⟩ := framing_placed hp hl s
  subst hc
  rw [← hframing]
  refine cardStands_goOn ⟨rfl, ?_⟩
  show FrameBuilt s c.op c.i _
  rw [hi]
  exact ⟨h.setFraming hv _, by rw [setReg_bitFraming hv.cfg, if_pos rfl], rfl⟩

theorem cardStands_put (hv : v.Steady) (hc : c.op = op) (hp : c.Placed) (hl : c.line = .put) (h : FrameBuilt s op c.i v)
    (hw : v.areaWrite c.op.buffer c.i (putByte v.cfg c) = some w) : CardStands s op (w.goOn (afterPut c w)) := by
  obtain ⟨harea, hi, hbyte, hnext⟩ := put_placed hp hl s w
  subst hc
  rw [harea, h.kept.cfg] at hw
  have hbuilt := h.write hv hw hi hbyte
  have hready := FrameReady.of_built (steady_areaWrite hv hw) hbuilt
  obtain e | ⟨hfull, ⟨hop, e⟩ | e⟩ := hnext <;> rw [e]
  · exact cardStands_goOn ⟨rfl, hbuilt⟩
  · exact cardStands_goOn (callCrc_stands rfl hop (hready hfull))
  · exact cardStands_goOn (callTrx_stands rfl (hready hfull))

theorem cardStands_load {b : Byte} (hc : c.op = op) (hp : c.Placed) (hl : c.line = .load) (hu : c.Loaded s op)
    (h : FrameBuilt s op c.i v) (hb : v.areaRead c.op.buffer c.u.length = some b) :
    CardStands s op (v.goOn (afterLoad c b)) := by
  obtain ⟨hscratch, hhost, hlen, l, hnext, e⟩ := load_placed hp hl s.cfg b
  subst hc
  have hloaded : c.u ++ [b] = (s.areaBytes c.op.buffer 4).take (c.u ++ [b]).length := by
    rw [List.length_append, List.length_singleton, areaBytes_take_succ _ _ hlen, ← hu, ← (areaRead_eq_some.1 hb).2,
      loaded_peek h.kept hscratch hhost]
  rw [e]
  obtain rfl | rfl := hnext
  · exact cardStands_goOn ⟨rfl, hloaded, h⟩
  · exact cardStands_goOn ⟨rfl, hloaded, h⟩

theorem cardStands_build (hs : s.Steady) (hv : v.Steady) (hc : c.op = op) (hp : c.Placed) (hl : c.line = .build)
    (hu : c.Loaded s op) (h : FrameBuilt s op c.i v)
    (hw : v.areaWrite (scratchFrom v.cfg 0) c.i (buildByte v.cfg c) = some w) :
    CardStands s op (w.goOn (afterBuild c w)) := by
  have hop := hasCrc_of_build hp hl
  have hbyte := buildByte_given hs hv hc hp hl hu h
  obtain ⟨harea, hi⟩ := build_placed hop hp hl s.cfg
  subst hc
  rw [h.kept.cfg, ← harea] at hw
  rw [← givenBytes_length hop] at hi
  have hbuilt := h.write hv hw hi hbyte
  obtain ⟨l, e⟩ | ⟨hfull, e⟩ := afterBuild_cases hop hp hl w
  · have hline := afterBuild_line e
    rw [e]
    obtain rfl | rfl := hline
    · exact cardStands_goOn ⟨rfl, hu, hbuilt⟩
    · exact cardStands_goOn ⟨rfl, hu, hbuilt⟩
  · rw [hbuilt.kept.cfg, ← givenBytes_length hop] at hfull
    rw [e]
    exact cardStands_goOn (callCrc_stands rfl hop (.of_built (steady_areaWrite hv hw) hbuilt hfull))

/-- `READ_UID` step 5: the fifth byte decides (44_card_frames.md R242, R248). -/
theorem cardStands_check {b : Byte} (hc : c.op = op) (hp : c.Placed) (hl : c.line = .check)
    (h : CardSent s op ⟨.ok, c.bitLen, none⟩ v) (hu : c.u = v.areaBytes op.buffer c.i)
    (hb : v.areaRead c.op.buffer c.i = some b) : CardStands s op (afterCheck c b v) := by
  subst hc
  have hnext : c.u ++ [b] = v.areaBytes c.op.buffer (c.i + 1) := by
    rw [areaBytes_succ, ← hu, (areaRead_eq_some.1 hb).2]
  rw [afterCheck, hnext]
  obtain ⟨op, line, i, u, bl⟩ := c
  subst hl
  cases op with
  | readUid cmd arg buf =>
    obtain ⟨hl, -⟩ | ⟨hl, -⟩ | ⟨-, hi⟩ := hp
    · cases hl
    · cases hl
    · by_cases hmore : i + 1 < 5
      · rw [if_pos hmore]
        exact cardStands_goOn ⟨rfl, h, rfl⟩
      · rw [if_neg hmore]
        obtain rfl : i = 4 := by dsimp only at hi; omega
        exact cardStands_finish ⟨_, h, rfl⟩
  | _ => exact absurd (line_mem_of_placed hp) (by simp [CardOp.lines])

/-- `WRITE_PAGE` step 4 (44_card_frames.md R245). -/
theorem cardStands_ackByte (hc : c.op = op) (hp : c.Placed) (hl : c.line = .ackByte)
    (h : CardSent s op ⟨.ok, c.bitLen, none⟩ v) : CardStands s op (afterAck c (v.scratch.getD 0 0#8) v) := by
  obtain ⟨op', line, i, u, bl⟩ := c
  obtain rfl : op' = op := hc
  subst hl
  cases op' with
  | writePage page data => exact cardStands_finish ⟨_, h, rfl⟩
  | _ => exact absurd (line_mem_of_placed hp) (by simp [CardOp.lines])

theorem cardStands_card (hs : s.Steady) (hv : v.Sound) (hr : v.seq = some (.card c))
    (h : (Running.card c).Stands s op v) (ht : seqStep (.card c) v = .next t) : CardStands s op t := by
  obtain ⟨hc, h⟩ := h
  have hp : c.Placed := (hv.fits _ hr).2
  have hvs := hv.inv.steady
  cases hl : c.line <;> simp only [CardFrame.Stands, hl] at h
  case framing =>
    simp only [seqStep, cardStep, hl] at ht
    cases ht
    exact cardStands_framing hvs hc hp hl h
  case put =>
    simp only [seqStep, cardStep, hl] at ht
    cases hw : v.areaWrite c.op.buffer c.i (putByte v.cfg c) with
    | none => rw [hw] at ht; cases ht
    | some w => rw [hw] at ht; cases ht; exact cardStands_put hvs hc hp hl h hw
  case load =>
    simp only [seqStep, cardStep, hl] at ht
    cases hw : v.areaRead c.op.buffer c.u.length with
    | none => rw [hw] at ht; cases ht
    | some b => rw [hw] at ht; cases ht; exact cardStands_load hc hp hl h.1 h.2 hw
  case build =>
    simp only [seqStep, cardStep, hl] at ht
    cases hw : v.areaWrite (scratchFrom v.cfg 0) c.i (buildByte v.cfg c) with
    | none => rw [hw] at ht; cases ht
    | some w => rw [hw] at ht; cases ht; exact cardStands_build hs hvs hc hp hl h.1 h.2 hw
  case check =>
    simp only [seqStep, cardStep, hl] at ht
    cases hw : v.areaRead c.op.buffer c.i with
    | none => rw [hw] at ht; cases ht
    | some b => rw [hw] at ht; cases ht; exact cardStands_check hc hp hl h.1 h.2 hw
  case ackByte =>
    have hcap : 0 < v.cfg.frameCap := Nat.lt_of_lt_of_le (by decide) hvs.cfg.2.2.2.1
    obtain rfl := Host.Outcome.next.inj ((seqStep_ackByte hl hcap).symm.trans ht)
    exact cardStands_ackByte hc hp hl h

end

/-! ### From the issue to the end -/

theorem cardStands_keptAlong {s : State} (hs : s.Steady) (op : CardOp) : KeptAlong (CardStands s op) where
  overlaps v h := h.imp (by simp) (by simp) fun _ hR => hR.block _ _ (sameBlock_refuseOverlaps v)
  engines v h := h.imp (engines_seq v) (engines_result v) fun _ hR => hR.engines v
  line v t r hv h hr ht := by
    obtain ⟨r', hr', h⟩ | ⟨hnone, -⟩ := h
    · obtain rfl : r = r' := Option.some.inj (hr.symm.trans hr')
      cases r with
      | card c => exact cardStands_card hs hv hr h ht
      | cardCrc c f => exact cardStands_cardCrc hv hr h ht
      | cardTrx c g => exact cardStands_cardTrx hv hr h ht
      | writes ws => exact h.elim
      | resp f => exact h.elim
      | crc f => exact h.elim
      | trx f => exact h.elim
    · cases hnone.symm.trans hr

/-- A card operation that overruns nothing ends within its count of steps, its `TRANSCEIVE` run with its frame, and answers
by its check. -/
theorem card_ends {s : State} {c : CardFrame} (hs : s.Inv) (hp : c.Placed) (hfits : c.op.Fits s.cfg)
    (h : c.Stands s c.op s) :
    ∃ u r, EndsWithin (c.stepsLeft s.cfg) (s.goOn (.card c)).engines u ∧ u.Steady ∧ CardSent s c.op r u ∧
      u.result = some (c.op.answer r u) := by
  have hsound : (s.goOn (.card c)).engines.Sound := by
    refine ⟨inv_engines (inv_goOn hs.steady trivial), fun r hr => ?_⟩
    obtain rfl : Running.card c = r := Option.some.inj (by simpa using hr)
    rw [engines_cfg]
    exact ⟨hfits, hp⟩
  have hkept := cardStands_keptAlong hs.steady c.op
  obtain ⟨u, hu, husound, -, hend⟩ := hkept.ends hsound (hkept.engines _ (cardStands_goOn (r := .card c) ⟨rfl, h⟩))
    (engines_seq _)
  rw [engines_cfg] at hu
  have hidle : u.seq = none := by
    obtain ⟨-, -, -, e⟩ := hu
    exact e
  obtain ⟨r, hr, -⟩ | ⟨-, x, hx, r, hsent, rfl⟩ := hend
  · cases hidle.symm.trans hr
  · exact ⟨u, r, hu, husound.inv.steady, hsent, hx⟩

end Sys2Proof.Machine

/-! The statements of 44_card_frames.md, fifth part: how the card operations end. -/

namespace Sys2Proof.Machine

open Sys2Proof

/-! ### The state after a card operation -/

theorem TrxEnd.keptBut {s0 u : State} {f0 : TrxFrame} {r : TrxResult} (h : TrxEnd s0 f0 r u) :
    KeptBut s0 u f0.out s0.cfg.frameCap := by
  cases hr : r.status with
  | err =>
    obtain ⟨-, hmem, hscratch⟩ := h.err hr
    exact keptBut_mono (keptBut_zero hmem hscratch) (Nat.zero_le _)
  | ok =>
    obtain ⟨-, hkept, -⟩ := h.ok hr
    exact hkept

theorem answer_err (op : CardOp) (u : State) {r : TrxResult} (h : r.status = .err) : op.answer r u = errResult r.cause := by
  simp only [CardOp.answer, h]

section
variable {s u : State} {op : CardOp} {r : TrxResult}

/-- The chip is idle (43_command_engine.md R229). -/
theorem CardSent.idle (h : CardSent s op r u) :
    u.commandReg = cmdByte s.cfg.cmdIdle ∧ u.crcState = .off ∧ u.trxState = .off := by
  obtain ⟨s2, hready, hend⟩ := h
  rw [← hready.built.kept.cfg, ← hend.kept.cfg]
  exact hend.idle

/-- The framing left behind is the one of the frame, with `StartSend` clear. -/
theorem CardSent.framing (h : CardSent s op r u) : u.bitFraming = op.sendFraming s &&& 0x7F#8 := by
  obtain ⟨s2, hready, hend⟩ := h
  rw [← hready.built.framing]
  exact framing_stopped hend.kept.framing hend.stopped

/-- An operation without a CRC leaves the CRC engine alone. -/
theorem CardSent.crc (h : CardSent s op r u) (hop : ¬ op.HasCrc) (h0 : ∀ d, s.crcState ≠ .busy d) :
    u.divIrq = s.divIrq ∧ u.crcResult = s.crcResult := by
  obtain ⟨s2, hready, hend⟩ := h
  obtain ⟨hcalm, hirq, hres⟩ := hready.built.kept.crc hop h0
  obtain ⟨-, hirq', hres'⟩ := hend.kept.crc hcalm
  exact ⟨hirq'.trans hirq, hres'.trans hres⟩

/-- What goes out, if anything does, is the frame: the bytes of the operation and `n` more, with its framing. -/
theorem CardSent.events (h : CardSent s op r u) {n : Nat} (hn : (op.trxFrame s.cfg).len = (s.givenBytes op).length + n)
    (h0 : s.trxState = .off) :
    u.txEvents = s.txEvents ∨ ∃ tail, tail.length = n ∧
      u.txEvents = ⟨s.givenBytes op ++ tail, txLastBitsOf (op.sendFraming s)⟩ :: s.txEvents := by
  obtain ⟨s2, hready, hend⟩ := h
  obtain ⟨tail, hlen, hinput⟩ := hready.input hn
  obtain ⟨hoff, hev⟩ := hready.built.kept.trx h0
  have hsent := hend.events hoff
  rw [hinput, hev, hready.built.framing] at hsent
  exact hsent.imp_right fun e => ⟨tail, hlen, e⟩

/-- The same with the two bytes of a CRC after the bytes of the operation. -/
theorem CardSent.events_crc (h : CardSent s op r u)
    (hn : (op.trxFrame s.cfg).len = (s.givenBytes op).length + 2) (h0 : s.trxState = .off) :
    u.txEvents = s.txEvents ∨ ∃ lo hi,
      u.txEvents = ⟨s.givenBytes op ++ [lo, hi], txLastBitsOf (op.sendFraming s)⟩ :: s.txEvents := by
  refine (h.events hn h0).imp_right ?_
  rintro ⟨tail, hlen, hev⟩
  obtain ⟨lo, hi, rfl⟩ := List.length_eq_two.1 hlen
  exact ⟨lo, hi, hev⟩

/-- Memory changes in the buffer of the frame, and in that of the answer. -/
theorem CardSent.memory (h : CardSent s op r u) :
    ∃ v, v.Steady ∧ KeptBut s v (op.frameArea s.cfg) s.cfg.frameCap ∧
      KeptBut v u (op.trxFrame s.cfg).out s.cfg.frameCap := by
  obtain ⟨s2, hready, hend⟩ := h
  have hkept := hend.keptBut
  rw [hready.built.kept.cfg] at hkept
  exact ⟨s2, hready.steady, hready.built.kept.memory, hkept⟩

/-- All but `SELECT` receive the answer where they built the frame. -/
theorem CardSent.keptBut (h : CardSent s op r u) (hout : (op.trxFrame s.cfg).out = op.frameArea s.cfg) :
    KeptBut s u (op.frameArea s.cfg) s.cfg.frameCap := by
  obtain ⟨v, -, hbuilt, hreply⟩ := h.memory
  exact hbuilt.trans (hout ▸ hreply)

theorem CardSent.cfg (h : CardSent s op r u) : u.cfg = s.cfg := by
  obtain ⟨s2, hready, hend⟩ := h
  exact hend.kept.cfg.trans hready.built.kept.cfg

/-- The scratch buffer is untouched where frame and answer are in the caller's buffer. -/
theorem CardSent.scratch_eq (h : CardSent s op r u) (hout : (op.trxFrame s.cfg).out = op.frameArea s.cfg)
    (hhost : (op.frameArea s.cfg).space = .host) (hs : s.Steady) (hu : u.Steady) : u.scratch = s.scratch :=
  (h.keptBut hout).scratch_eq hhost (by rw [hu.scratch, hs.scratch, h.cfg])

/-- An `ERR` of the `TRANSCEIVE` is the operation's, with one of its two causes (44_card_frames.md R240). -/
theorem CardSent.err_result (h : CardSent s op r u) (he : r.status = .err) (hres : u.result = some (op.answer r u)) :
    u.result = some { status := some .err, cause := some .timeout } ∨
      u.result = some { status := some .err, cause := some .hwErr } := by
  obtain ⟨s2, -, hend⟩ := h
  obtain ⟨hcause, -⟩ := hend.err he
  rw [hres, answer_err op u he]
  obtain hcause | hcause := hcause <;> rw [hcause]
  · exact .inl rfl
  · exact .inr rfl

/-- Where it returned `ERR`, the frame still stands in its buffer, and memory is else as it was. -/
theorem CardSent.err_memory (h : CardSent s op r u) (he : r.status = .err) :
    KeptBut s u (op.frameArea s.cfg) s.cfg.frameCap ∧
      u.areaBytes (op.frameArea s.cfg) (s.givenBytes op).length = s.givenBytes op := by
  obtain ⟨s2, hready, hend⟩ := h
  obtain ⟨-, hmem, hscratch⟩ := hend.err he
  have hbytes := hready.built.bytes
  rw [List.take_length] at hbytes
  exact ⟨keptBut_congr hready.built.kept.memory hmem hscratch, (areaBytes_congr hmem hscratch _ _).trans hbytes⟩

end

/-! ### The six operations -/

/-- Settles O50: the end of the operation by `card_ends`, and the answer by the length of what was received. -/
theorem requestCompletes : Obligations.RequestCompletes := by
  intro s code buf hs hq hfits
  obtain ⟨u, r, hu, hus, hsent, hres⟩ := card_ends (c := { op := .request code buf, line := .framing }) hs
    (.inl ⟨rfl, rfl⟩) hfits (cardKept_start s _)
  obtain ⟨hcommand, hcrc, htrx⟩ := hsent.idle
  refine ⟨_, issueOp_idle _ hq, u, hu, hcommand, hcrc, htrx,
    hsent.framing.trans (show 0x07#8 &&& 0x7F#8 = 0x07#8 by decide), hsent.scratch_eq rfl rfl hs.steady hus, hsent.crc id,
    fun h0 => (hsent.events (n := 0) rfl h0).imp_right ?_, fun x hx => (hsent.keptBut rfl).hostMemory hx, ?_⟩
  · rintro ⟨tail, hlen, hev⟩
    rw [hev, List.length_eq_zero_iff.1 hlen]
    rfl
  · cases hr : r.status with
    | err => exact .inr (.inr ⟨hsent.err_result hr hres, List.head_eq_of_cons_eq (hsent.err_memory hr).2⟩)
    | ok =>
      simp only [CardOp.answer, hr] at hres
      split_ifs at hres
      · exact .inl ⟨_, _, hres, rfl, rfl⟩
      · exact .inr (.inl hres)

theorem xorBytes_five (a b c d e : Byte) : xorBytes [a, b, c, d, e] = a ^^^ b ^^^ c ^^^ d ^^^ e := by
  simp [xorBytes]

theorem hostBytes_five (u : State) (a : Nat) : u.hostBytes a 5 = [Memory.read u.mem a, Memory.read u.mem (a + 1),
    Memory.read u.mem (a + 2), Memory.read u.mem (a + 3), Memory.read u.mem (a + 4)] := rfl

/-- Settles O51: the end of the operation by `card_ends`, and the answer by the exclusive or of the five bytes. -/
theorem readUidCompletes : Obligations.ReadUidCompletes := by
  intro s cmd arg buf hs hq hfits
  obtain ⟨u, r, hu, hus, hsent, hres⟩ := card_ends (c := { op := .readUid cmd arg buf, line := .framing }) hs
    (.inl ⟨rfl, rfl⟩) hfits (cardKept_start s _)
  obtain ⟨hcommand, hcrc, htrx⟩ := hsent.idle
  refine ⟨_, issueOp_idle _ hq, u, hu, hcommand, hcrc, htrx,
    hsent.framing.trans (show 0x00#8 &&& 0x7F#8 = 0x00#8 by decide), hsent.scratch_eq rfl rfl hs.steady hus, hsent.crc id,
    fun h0 => (hsent.events (n := 0) rfl h0).imp_right ?_, fun x hx => (hsent.keptBut rfl).hostMemory hx, ?_⟩
  · rintro ⟨tail, hlen, hev⟩
    rw [hev, List.length_eq_zero_iff.1 hlen]
    rfl
  · cases hr : r.status with
    | err => exact .inr (.inr ⟨hsent.err_result hr hres, (hsent.err_memory hr).2⟩)
    | ok =>
      simp only [CardOp.answer, hr, hostBytes_five, xorBytes_five] at hres
      split_ifs at hres with hx
      · exact .inl ⟨_, _, _, _, _, hres, rfl, hx⟩
      · exact .inr (.inl ⟨_, _, _, _, _, hres, rfl, hx⟩)

theorem select_givenBytes (s : State) (cmd arg : Byte) (serial : Region) :
    ∃ u0 u1 u2 u3, [u0, u1, u2, u3] = s.hostBytes serial.base 4 ∧
      s.givenBytes (.select cmd arg serial) = [cmd, arg, u0, u1, u2, u3, u0 ^^^ u1 ^^^ u2 ^^^ u3] := by
  refine ⟨_, _, _, _, rfl, ?_⟩
  show [cmd, arg] ++ s.hostBytes serial.base 4 ++ [xorBytes (s.hostBytes serial.base 4)] = _
  simp [State.hostBytes, List.range_succ, xorBytes]

/-- Settles O52: the end of the operation by `card_ends`; its frame is in the scratch buffer, its answer in the caller's. -/
theorem selectCompletes : Obligations.SelectCompletes := by
  intro s cmd arg serial hs hq hfits
  obtain ⟨u, r, hu, hus, hsent, hres⟩ := card_ends (c := { op := .select cmd arg serial, line := .load }) hs
    (.inl ⟨rfl, rfl, Nat.succ_pos 3⟩) hfits ⟨rfl, cardKept_start s _, rfl, rfl⟩
  obtain ⟨hcommand, hcrc, htrx⟩ := hsent.idle
  obtain ⟨u0, u1, u2, u3, hbytes, hgiven⟩ := select_givenBytes s cmd arg serial
  refine ⟨_, issueOp_idle _ hq, u, hu, hcommand, hcrc, htrx, hsent.framing,
    fun h0 => (hsent.events_crc (by rw [hgiven]; rfl) h0).imp_right ?_, fun x hx => ?_, ?_⟩
  · rintro ⟨lo, hi, hev⟩
    rw [hgiven] at hev
    exact ⟨u0, u1, u2, u3, lo, hi, hbytes, hev⟩
  · obtain ⟨v, -, hbuilt, hreply⟩ := hsent.memory
    exact (hreply.hostMemory hx).trans (hbuilt.mem x nofun)
  · cases hr : r.status with
    | err => exact .inr (.inr ⟨hsent.err_result hr hres, (hsent.err_memory hr).1.mem_eq rfl hs.steady hus⟩)
    | ok =>
      simp only [CardOp.answer, hr] at hres
      split_ifs at hres
      · exact .inl hres
      · exact .inr (.inl hres)

/-- Settles O53: the end of the operation by `card_ends`, and the answer by the length of what was received. -/
theorem readPageCompletes : Obligations.ReadPageCompletes := by
  intro s page buf hs hq hfits _
  obtain ⟨u, r, hu, hus, hsent, hres⟩ := card_ends (c := { op := .readPage page buf, line := .put }) hs
    ⟨rfl, Nat.two_pos⟩ hfits ⟨cardKept_start s _, rfl, rfl⟩
  obtain ⟨hcommand, hcrc, htrx⟩ := hsent.idle
  refine ⟨_, issueOp_idle _ hq, u, hu, hcommand, hcrc, htrx, hsent.framing, hsent.scratch_eq rfl rfl hs.steady hus,
    hsent.events_crc rfl, fun x hx => (hsent.keptBut rfl).hostMemory hx, ?_⟩
  cases hr : r.status with
  | err => exact .inr (.inr ⟨hsent.err_result hr hres, (hsent.err_memory hr).2⟩)
  | ok =>
    simp only [CardOp.answer, hr] at hres
    split_ifs at hres
    · exact .inl hres
    · exact .inr (.inl hres)

/-- Settles O54: the end of the operation by `card_ends`; frame and answer are in the scratch buffer. -/
theorem writePageCompletes : Obligations.WritePageCompletes := by
  intro s page data hs hq hfits
  obtain ⟨u, r, hu, hus, hsent, hres⟩ := card_ends (c := { op := .writePage page data, line := .build }) hs
    (.inl ⟨rfl, Nat.two_pos, rfl⟩) hfits ⟨rfl, cardKept_start s _, rfl, rfl⟩
  obtain ⟨hcommand, hcrc, htrx⟩ := hsent.idle
  refine ⟨_, issueOp_idle _ hq, u, hu, hcommand, hcrc, htrx, hsent.framing,
    (hsent.keptBut rfl).mem_eq rfl hs.steady hus, fun h0 => (hsent.events_crc rfl h0).imp_right ?_, ?_⟩
  · rintro ⟨lo, hi, hev⟩
    exact ⟨_, _, _, _, lo, hi, rfl, hev⟩
  · cases hr : r.status with
    | err => exact .inr ((hsent.err_result hr hres).elim (fun e => ⟨_, e⟩) fun e => ⟨_, e⟩)
    | ok =>
      simp only [CardOp.answer, hr] at hres
      split_ifs at hres with hack
      · exact .inl ⟨hres, hack.2⟩
      · exact .inr ⟨_, hres⟩

/-- Settles O55: the end of the operation by `card_ends`, which checks nothing of an answer. -/
theorem haltCompletes : Obligations.HaltCompletes := by
  intro s hs hq
  obtain ⟨u, r, hu, hus, hsent, hres⟩ := card_ends (c := { op := .halt, line := .build }) hs
    ⟨rfl, Nat.two_pos⟩ trivial ⟨rfl, cardKept_start s _, rfl, rfl⟩
  obtain ⟨hcommand, hcrc, htrx⟩ := hsent.idle
  refine ⟨_, issueOp_idle _ hq, u, hu, hcommand, hcrc, htrx, hsent.framing,
    (hsent.keptBut rfl).mem_eq rfl hs.steady hus, hsent.events_crc rfl, ?_⟩
  cases hr : r.status with
  | err => exact .inr (hsent.err_result hr hres)
  | ok =>
    simp only [CardOp.answer, hr] at hres
    exact .inl hres

end Sys2Proof.Machine

/-! The statements of 60_exceptions.md, first part: an operation that overruns nothing comes to its end (R301). -/

namespace Sys2Proof.Machine

open Sys2Proof

/-! ### An ended operation has handed over a result -/

/-- Where no operation runs, the host has a result. -/
def State.Answered (t : State) : Prop := t.seq = none → t.result ≠ none

theorem answered_goOn (s : State) (r : Running) : (s.goOn r).Answered := nofun

theorem answered_finish (s : State) (x : Result) : (s.finish x).Answered := fun _ => nofun

theorem State.Answered.congr {s t : State} (h : s.Answered) (hseq : t.seq = s.seq) (hres : t.result = s.result) :
    t.Answered := by
  rw [State.Answered, hseq, hres]; exact h

theorem writesStep_answered (ws : List (Reg × Byte)) (s : State) : (writesStep ws s).Answered := by
  match ws with
  | [] => exact answered_finish _ _
  | [_] => exact answered_finish _ _
  | _ :: _ :: _ => exact answered_goOn _ _

theorem respStep_answered (f : RespFrame) (s : State) : (respStep f s).Answered := by
  cases hl : f.line <;> simp only [respStep, hl]
  case readLast => exact answered_goOn _ _
  case drain =>
    split
    · exact answered_goOn _ _
    · exact answered_finish _ _

theorem afterTrx_answered (c : CardFrame) (r : TrxResult) (s : State) : (afterTrx c r s).Answered := by
  unfold afterTrx
  cases r.status with
  | err => exact answered_finish _ _
  | ok =>
    simp only [afterTrxOk]
    cases c.op with
    | readUid cmd arg buf => exact answered_goOn _ _
    | writePage page data => exact answered_goOn _ _
    | _ => exact answered_finish _ _

theorem afterCheck_answered (c : CardFrame) (b : Byte) (s : State) : (afterCheck c b s).Answered := by
  simp only [afterCheck]
  split
  · exact answered_goOn _ _
  · exact answered_finish _ _

theorem cardStep_answered {c : CardFrame} {s t : State} (h : cardStep c s = .next t) : t.Answered := by
  cases hl : c.line <;> simp only [cardStep, hl] at h
  case framing => cases h; exact answered_goOn _ _
  case callCrc => cases h; exact answered_goOn _ _
  case callTrx => cases h; exact answered_goOn _ _
  case put => split at h <;> cases h; exact answered_goOn _ _
  case load => split at h <;> cases h; exact answered_goOn _ _
  case build => split at h <;> cases h; exact answered_goOn _ _
  case check => split at h <;> cases h; exact afterCheck_answered _ _ _
  case ackByte => split at h <;> cases h; exact answered_finish _ _

/-- A line that ends its operation hands over a result. -/
theorem seqStep_answered {r : Running} {s t : State} (h : seqStep r s = .next t) : t.Answered := by
  cases r with
  | writes ws => cases h; exact writesStep_answered _ _
  | resp f => cases h; exact respStep_answered _ _
  | card c => exact cardStep_answered h
  | crc f =>
    obtain ⟨f', w, -, rfl⟩ | ⟨x, w, -, rfl⟩ := seqStep_crc_cases h
    · exact answered_goOn _ _
    · exact answered_finish _ _
  | trx f =>
    obtain ⟨f', w, -, rfl⟩ | ⟨x, w, -, rfl⟩ := seqStep_trx_cases h
    · exact answered_goOn _ _
    · exact answered_finish _ _
  | cardCrc c f =>
    obtain ⟨f', w, -, rfl⟩ | ⟨x, w, -, rfl⟩ := seqStep_cardCrc_cases h
    · exact answered_goOn _ _
    · exact answered_goOn _ _
  | cardTrx c f =>
    obtain ⟨f', w, -, rfl⟩ | ⟨x, w, -, rfl⟩ := seqStep_cardTrx_cases h
    · exact answered_goOn _ _
    · exact afterTrx_answered _ _ _

theorem answered_keptAlong : KeptAlong State.Answered where
  overlaps s h := h.congr (by simp) (by simp)
  engines s h := h.congr (by simp) (by simp)
  line _ _ _ _ _ _ ht := seqStep_answered ht

/-- Settles O44: along a sound operation the count of steps left falls to the end, where the last line has handed over a
result. -/
theorem operationEndsInBoundedSteps : Obligations.OperationEndsInBoundedSteps := by
  intro s r hs hr hf
  have hsound : s.Sound := ⟨hs, fun q hq => by rw [hr] at hq; cases hq; exact hf⟩
  have hrunning : s.Answered := fun hq => by rw [hr] at hq; cases hq
  obtain ⟨u, ⟨k, hk, hreach, hend⟩, husound, hcfg, hans⟩ := answered_keptAlong.ends hsound hrunning hr
  exact ⟨u, ⟨k, hk, hreach, hend⟩, husound.inv, hcfg, hans hend⟩

end Sys2Proof.Machine

/-! The statements of 60_exceptions.md, second part: pending flags (R290), issues made during an operation (R298), and
refused compounds (R287). -/

namespace Sys2Proof.Machine

open Sys2Proof

/-! ### Flags stay pending -/

/-- No flag of `s` is cleared in `u`. -/
def State.FlagsStay (s u : State) : Prop :=
  ∀ i, (s.comIrq.getLsbD i = true → u.comIrq.getLsbD i = true) ∧ (s.divIrq.getLsbD i = true → u.divIrq.getLsbD i = true)

theorem State.FlagsStay.refl (s : State) : s.FlagsStay s := fun _ => ⟨id, id⟩

theorem State.FlagsStay.trans {s t u : State} (h : s.FlagsStay t) (h' : t.FlagsStay u) : s.FlagsStay u :=
  fun i => ⟨(h' i).1 ∘ (h i).1, (h' i).2 ∘ (h i).2⟩

/-- One more flag of `ComIrqReg` is set. -/
theorem flagsStay_comIrq {s u : State} (bit : BitVec 7) (hc : u.comIrq = s.comIrq ||| bit) (hd : u.divIrq = s.divIrq) :
    s.FlagsStay u := fun i => ⟨fun h => by rw [hc, BitVec.getLsbD_or, h, Bool.true_or], fun h => hd ▸ h⟩

/-- One more flag of `DivIrqReg` is set. -/
theorem flagsStay_divIrq {s u : State} (bit : BitVec 7) (hc : u.comIrq = s.comIrq) (hd : u.divIrq = s.divIrq ||| bit) :
    s.FlagsStay u := fun i => ⟨fun h => hc ▸ h, fun h => by rw [hd, BitVec.getLsbD_or, h, Bool.true_or]⟩

/-- An engine step that is enabled sets one flag at most, and clears none (R290). -/
theorem engineStep_flagsStay (s : State) (e : EngineEvent) : s.FlagsStay (s.engineStep e) := by
  cases e with
  | crcComplete left =>
    simp only [State.engineStep, State.crcComplete]
    split
    · exact flagsStay_divIrq crcIrqBit rfl rfl
    · exact .refl s
    · exact .refl s
  | transmit =>
    simp only [State.engineStep, State.transmit]
    split
    · exact flagsStay_comIrq txIrqBit rfl rfl
    · exact .refl s
  | receive bytes lastBits err =>
    simp only [State.engineStep, State.receive]
    split
    · exact flagsStay_comIrq rxIrqBit rfl rfl
    · exact .refl s
    · exact .refl s
    · exact .refl s
  | timer =>
    simp only [State.engineStep, State.timerStep]
    split
    · exact flagsStay_comIrq timerIrqBit rfl rfl
    · exact flagsStay_comIrq timerIrqBit rfl rfl
    · exact .refl s
    · exact .refl s

theorem engines_flagsStay (s : State) : s.FlagsStay s.engines :=
  engines_keep (P := s.FlagsStay) (fun u h => h.trans fun _ => by simp) (fun u e h => h.trans (engineStep_flagsStay u e))
    (.refl s)

/-- A raw read that is made is the transaction of the register named. -/
theorem exec_regRead_cases {a : RegAddr} {s t : State} (h : exec (.regRead a) s = .next t) :
    ∃ r, regOf s.cfg a = some r ∧ t = (s.regRead r).2.finish { data := [(s.regRead r).1] } := by
  obtain ⟨r, ha, hr⟩ := withReg_next (whenIdle_next h).2
  exact ⟨r, ha, (Host.Outcome.next.inj hr).symm⟩

/-- A raw write that is made is the transaction of the register named. -/
theorem exec_regWrite_cases {a : RegAddr} {v : Byte} {s t : State} (h : exec (.regWrite a v) s = .next t) :
    ∃ r, regOf s.cfg a = some r ∧ t = (s.regWrite r v).finish {} := by
  obtain ⟨r, ha, hr⟩ := withReg_next (whenIdle_next h).2
  obtain ⟨-, hw⟩ := whenIdle_next hr
  split at hw
  · cases hw
  · exact ⟨r, ha, (Host.Outcome.next.inj hw).symm⟩

/-- Settles O33: an engine step only sets flags, a read writes none, and a write reaches the flags of its own register. -/
theorem flagsStayPending : Obligations.FlagsStayPending := by
  refine fun s => ⟨engines_flagsStay s, fun a t ht => ?_, fun a v t ht hne => ?_, fun a v t ht hne => ?_⟩
  · obtain ⟨r, -, rfl⟩ := exec_regRead_cases ht
    simp
  · obtain ⟨r, ha, rfl⟩ := exec_regWrite_cases ht
    rw [finish_comIrq, regWrite_comIrq, if_neg (by rintro rfl; exact hne ha)]
  · obtain ⟨r, ha, rfl⟩ := exec_regWrite_cases ht
    rw [finish_divIrq, regWrite_divIrq, if_neg (by rintro rfl; exact hne ha)]

/-! ### Issues during an operation -/

theorem emitWithCrc_running {first : List Byte} {l h : Byte} {s : State} {r : Running} (hr : s.seq = some r) :
    emitWithCrc first l h s = .refused .operationInProgress := by
  unfold emitWithCrc
  split <;> exact whenIdle_running _ hr

/-- Every instruction asks first whether an operation runs (R298). -/
theorem exec_running {s : State} {r : Running} (hr : s.seq = some r) (i : Instr) :
    exec i s = .refused .operationInProgress := by
  cases i with
  | computeCrc src dst => simp only [exec, execComputeCrc]; split <;> exact whenIdle_running _ hr
  | transceive inp out => simp only [exec, execTransceive]; split <;> exact whenIdle_running _ hr
  | frameSelect => exact emitWithCrc_running hr
  | frameRead => exact emitWithCrc_running hr
  | frameWrite => exact emitWithCrc_running hr
  | _ => exact whenIdle_running _ hr

/-- Settles O8: `whenIdle` refuses every instruction, and a step records the reasons before it takes its line. -/
theorem issueDuringOperationRefused : Obligations.IssueDuringOperationRefused := by
  refine fun s r hr => ⟨exec_running hr, fun ws rest ho => ?_⟩
  rw [step_running hr, step_running (r := r) (by exact hr), refuseOverlaps_cons ho, refuseOverlaps_cons rfl]
  rfl

/-! ### Refused compounds -/

/-- A raw write is refused where the byte is refused, and for the same reason (40_bus.md R143). -/
theorem exec_regWrite_refused_iff {a : RegAddr} {v : Byte} {r : Reg} {x : Refusal} {s : State} (hq : s.seq = none)
    (ha : regOf s.cfg a = some r) : exec (.regWrite a v) s = .refused x ↔ writeRefusal s.cfg r v = some x := by
  cases hv : writeRefusal s.cfg r v with
  | none => simp [exec_regWrite_next hq ha hv]
  | some y => simp [exec_regWrite_refused hq ha hv]

/-- A compound is refused where the byte it makes of the held value is refused, and for the same reason (R287, log 14). -/
theorem rawModify_refused_iff {r : Reg} {f : Byte → Byte} {x : Refusal} {s : State} (hq : s.seq = none) :
    rawModify r f s = .refused x ↔ writeRefusal s.cfg r (f (s.cfg.regMap.byte r (s.heldValue r))) = some x := by
  cases hv : writeRefusal s.cfg r (f (s.cfg.regMap.byte r (s.heldValue r))) with
  | none => simp [rawModify_next hq hv]
  | some y => simp [rawModify_refused hq hv]

/-- The byte of fields whose reserved bits are 0 has none to drop. -/
theorem dropReserved_byte {c : Config} (hc : c.Wf) {r : Reg} {v : Byte} (h : v &&& ~~~reservedBits r = v) :
    dropReserved c r (c.regMap.byte r v) = c.regMap.byte r v := by
  have fields : c.regMap.fields r (dropReserved c r (c.regMap.byte r v)) = v := by
    rw [← dropReserved_read hc r v 0#8, fields_dropReserved hc, h]
  rw [← hc.byte_fields r (dropReserved c r (c.regMap.byte r v)), fields]

/-- A compound on a register whose held value has its reserved bits 0 is refused as the write of the changed value is. -/
theorem compound_refused_as_write {s : State} {a : RegAddr} {r : Reg} (hc : s.cfg.Wf) (hq : s.seq = none)
    (ha : regOf s.cfg a = some r) (hv : s.heldValue r &&& ~~~reservedBits r = s.heldValue r) (m : Byte) (x : Refusal) :
    (exec (.setBits a m) s = .refused x ↔
        exec (.regWrite a (s.cfg.regMap.byte r (s.heldValue r) ||| m)) s = .refused x) ∧
      (exec (.clearBits a m) s = .refused x ↔
        exec (.regWrite a (s.cfg.regMap.byte r (s.heldValue r) &&& ~~~m)) s = .refused x) := by
  rw [exec_setBits m hq ha, exec_clearBits m hq ha, rawModify_refused_iff hq, rawModify_refused_iff hq,
    exec_regWrite_refused_iff hq ha, exec_regWrite_refused_iff hq ha, setIn, clearIn, dropReserved_byte hc hv]
  exact ⟨Iff.rfl, Iff.rfl⟩

/-- A compound on a register that refuses every write is refused. -/
theorem compound_refused {s : State} {a : RegAddr} {r : Reg} {x : Refusal} (hq : s.seq = none)
    (ha : regOf s.cfg a = some r) (hx : ∀ f, fieldRefusal s.cfg r f = some x) (m : Byte) :
    exec (.setBits a m) s = .refused x ∧ exec (.clearBits a m) s = .refused x := by
  rw [exec_setBits m hq ha, exec_clearBits m hq ha]
  exact ⟨rawModify_refused hq (hx _), rawModify_refused hq (hx _)⟩

/-- Settles O27: the invariant holds the reserved bits of `CommandReg` and `BitFramingReg` at 0, so the byte checked is the
one that the compound writes; the other four registers refuse every write. -/
theorem compoundRefusedAtIssue : Obligations.CompoundRefusedAtIssue := by
  intro s a m x hs hq
  have hc := hs.steady.cfg
  refine ⟨fun ha => ?_, fun ha => ?_, fun r ha hr => ?_, fun ha => compound_refused hq ha (fun _ => rfl) m⟩
  · exact compound_refused_as_write hc hq ha (command_reserved (fieldRefusal_command_none hs.steady.command).1) m x
  · exact compound_refused_as_write hc hq ha (framing_reserved (fieldRefusal_framing.1 hs.steady.framing)) m x
  · obtain rfl | rfl | rfl := hr <;> exact compound_refused hq ha (fun _ => rfl) m

end Sys2Proof.Machine

/-! The statements of 60_exceptions.md, third part: the buffer byte that each line touches, and the fault where it overruns
(R286). -/

namespace Sys2Proof.Machine

open Sys2Proof

/-! ### The buffer byte that a line touches -/

/-- The byte of a buffer that the next line of a `COMPUTE_CRC` reads or writes, as an area and an index (42_crc_unit.md
R200). -/
def CrcFrame.access (f : CrcFrame) : Option (Area × Nat) :=
  match f.line with
  | .readByte => some (f.src, f.i)
  | .storeLow => some (f.dst, 0)
  | .storeHigh => some (f.dst, 1)
  | _ => none

/-- The same of a `TRANSCEIVE` (43_command_engine.md R215). -/
def TrxFrame.access (f : TrxFrame) : Option (Area × Nat) :=
  match f.line with
  | .readByte => some (f.inp, f.i)
  | .drainStore => some (f.out, f.i)
  | _ => none

/-- The same of a card operation on a line of its own (44_card_frames.md R241-R246). -/
def CardFrame.access (cfg : Config) (c : CardFrame) : Option (Area × Nat) :=
  match c.line with
  | .put => some (c.op.buffer, c.i)
  | .load => some (c.op.buffer, c.u.length)
  | .build => some (scratchFrom cfg 0, c.i)
  | .check => some (c.op.buffer, c.i)
  | .ackByte => some (scratchFrom cfg 0, 0)
  | _ => none

/-- The same of the running operation. -/
def Running.access (cfg : Config) : Running → Option (Area × Nat)
  | .writes _ => none
  | .resp _ => none
  | .crc f => f.access
  | .trx f => f.access
  | .card c => c.access cfg
  | .cardCrc _ f => f.access
  | .cardTrx _ f => f.access

/-- The byte that a line touches, where it touches one, may not be reached. -/
def AccessOverruns (cfg : Config) (x : Option (Area × Nat)) : Prop := ∃ p, x = some p ∧ Overruns cfg p.1 p.2

@[simp] theorem accessOverruns_none (cfg : Config) : ¬ AccessOverruns cfg none := nofun

@[simp] theorem accessOverruns_some (cfg : Config) (a : Area) (i : Nat) :
    AccessOverruns cfg (some (a, i)) ↔ Overruns cfg a i := by
  simp [AccessOverruns]

/-- A byte of a caller's region overruns outside the region or from `HOST_MEM_SIZE` on (20_memory.md R84). -/
theorem overruns_areaOf {cfg : Config} {r : Region} {i : Nat} :
    Overruns cfg (areaOf r) i ↔ ¬ (i < r.len ∧ r.base + i < cfg.hostMemSize) := Iff.rfl

/-- A scratch byte overruns from `FRAME_CAP` on (44_card_frames.md R253). -/
theorem overruns_scratch {cfg : Config} {i : Nat} : Overruns cfg (scratchFrom cfg 0) i ↔ cfg.frameCap ≤ i :=
  iff_of_eq (congrArg (cfg.frameCap ≤ ·) (Nat.zero_add i))

/-! ### A line faults where its access overruns -/

/-- A byte may be reached or its access overruns (20_memory.md R84, 44_card_frames.md R253). -/
theorem reaches_iff_not_overruns {s : State} {a : Area} {i : Nat} :
    s.reaches a i = true ↔ ¬ Overruns s.cfg a i := by
  obtain ⟨space, base, len⟩ := a
  cases space with
  | host => exact (Bool.and_eq_true_iff.trans (and_congr decide_eq_true_iff decide_eq_true_iff)).trans not_not.symm
  | scratch => exact decide_eq_true_iff.trans Nat.not_le.symm

theorem areaRead_eq_none {s : State} {a : Area} {i : Nat} : s.areaRead a i = none ↔ Overruns s.cfg a i := by
  by_cases h : Overruns s.cfg a i
  · exact iff_of_true (area_overrun 0#8 (mt reaches_iff_not_overruns.1 (not_not.2 h))).1 h
  · exact iff_of_false (by simp [areaRead_eq_some.2 ⟨reaches_iff_not_overruns.2 h, rfl⟩]) h

theorem areaWrite_eq_none {s : State} {a : Area} {i : Nat} {v : Byte} :
    s.areaWrite a i v = none ↔ Overruns s.cfg a i := by
  by_cases h : Overruns s.cfg a i
  · exact iff_of_true (area_overrun v (mt reaches_iff_not_overruns.1 (not_not.2 h))).2 h
  · obtain ⟨t, ht⟩ := areaWrite_reaches v (reaches_iff_not_overruns.2 h)
    exact iff_of_false (by simp [ht]) h

theorem crcStep_fault_iff {f : CrcFrame} {s : State} :
    crcStep f s = .fault .bufferOverrun ↔ AccessOverruns s.cfg f.access := by
  cases hl : f.line <;> simp only [crcStep, CrcFrame.access, hl]
  case readByte => cases h : s.areaRead f.src f.i <;> simp [← areaRead_eq_none, h]
  case storeLow => cases h : s.areaWrite f.dst 0 f.lo <;> simp [← areaWrite_eq_none (v := f.lo), h]
  case storeHigh => cases h : s.areaWrite f.dst 1 f.hi <;> simp [← areaWrite_eq_none (v := f.hi), h]
  all_goals simp

theorem trxStep_fault_iff {f : TrxFrame} {s : State} :
    trxStep f s = .fault .bufferOverrun ↔ AccessOverruns s.cfg f.access := by
  cases hl : f.line <;> simp only [trxStep, TrxFrame.access, hl]
  case readByte => cases h : s.areaRead f.inp f.i <;> simp [← areaRead_eq_none, h]
  case drainStore =>
    cases h : s.areaWrite f.out f.i f.byte <;> simp [← areaWrite_eq_none (v := f.byte), h]
  all_goals simp

theorem cardStep_fault_iff {c : CardFrame} {s : State} :
    cardStep c s = .fault .bufferOverrun ↔ AccessOverruns s.cfg (c.access s.cfg) := by
  cases hl : c.line <;> simp only [cardStep, CardFrame.access, hl]
  case put =>
    cases h : s.areaWrite c.op.buffer c.i (putByte s.cfg c) <;> simp [← areaWrite_eq_none (v := putByte s.cfg c), h]
  case load => cases h : s.areaRead c.op.buffer c.u.length <;> simp [← areaRead_eq_none, h]
  case build =>
    cases h : s.areaWrite (scratchFrom s.cfg 0) c.i (buildByte s.cfg c) <;>
      simp [← areaWrite_eq_none (v := buildByte s.cfg c), h]
  case check => cases h : s.areaRead c.op.buffer c.i <;> simp [← areaRead_eq_none, h]
  case ackByte => cases h : s.areaRead (scratchFrom s.cfg 0) 0 <;> simp [← areaRead_eq_none, h]
  all_goals simp

/-- The sequencer's step faults exactly where its line touches a byte that may not be reached. -/
theorem seqStep_fault_iff {r : Running} {s : State} :
    seqStep r s = .fault .bufferOverrun ↔ AccessOverruns s.cfg (r.access s.cfg) := by
  cases r with
  | writes ws => simp [seqStep, Running.access]
  | resp f => simp [seqStep, Running.access]
  | card c => exact cardStep_fault_iff
  | crc f =>
    rw [Running.access, ← crcStep_fault_iff, seqStep]
    cases crcStep f s <;> simp
  | cardCrc c f =>
    rw [Running.access, ← crcStep_fault_iff, seqStep]
    cases crcStep f s <;> simp
  | trx f =>
    rw [Running.access, ← trxStep_fault_iff, seqStep]
    cases trxStep f s <;> simp
  | cardTrx c f =>
    rw [Running.access, ← trxStep_fault_iff, seqStep]
    cases trxStep f s <;> simp

/-! ### How a step ends -/

/-- A step of a running operation faults exactly where its line's access overruns: the issues refused before the line
change no parameter. -/
theorem step_fault_iff {s : State} {r : Running} (hr : s.seq = some r) :
    step s = .fault .bufferOverrun ↔ AccessOverruns s.cfg (r.access s.cfg) := by
  rw [← refuseOverlaps_cfg, ← seqStep_fault_iff, step_running hr]
  cases seqStep r s.refuseOverlaps <;> simp [thenEngines]

/-- No move answers a refusal: a refused issue leaves its reason, and a line has none (log 15, log 28). -/
theorem move_ne_refused (s : State) (x : Refusal) : move s ≠ .refused x := by
  unfold move
  split
  · exact seqStep_ne_refused _ _ _
  · unfold hostMove
    split
    · nofun
    · exact answer_ne_refused _ _ _

theorem step_ne_refused (s : State) (x : Refusal) : step s ≠ .refused x := by
  unfold step
  cases hm : move s with
  | next t => nofun
  | fault y => nofun
  | refused y => exact absurd hm (move_ne_refused s y)

/-- A step that does not fault goes on. -/
theorem step_next {s : State} (h : step s ≠ .fault .bufferOverrun) : ∃ t, step s = .next t := by
  cases hs : step s with
  | next t => exact ⟨t, rfl⟩
  | fault x => cases x; exact absurd hs h
  | refused x => exact absurd hs (step_ne_refused s x)

/-- No step faults where no operation runs: an issue meets no buffer (60_exceptions.md R286, R287). -/
theorem step_idle_ne_fault {s : State} (hq : s.seq = none) (x : Fault) : step s ≠ .fault x := by
  cases hw : s.issues with
  | nil => rw [step_wait hq hw]; nofun
  | cons w rest =>
    cases hd : decode s.cfg w with
    | error e => rw [step_undecoded hq hw hd]; nofun
    | ok i =>
      rw [step_issue hq hw hd]
      cases he : exec i { s with issues := rest } with
      | fault y => exact absurd he (exec_ne_fault _ _ _)
      | next t => nofun
      | refused y => nofun

/-- A line that touches no buffer goes on (70_reset_and_hazards.md R325). -/
theorem step_next_of_no_access {s : State} {r : Running} (hr : s.seq = some r) (ha : r.access s.cfg = none) :
    ∃ t, step s = .next t :=
  step_next (mt (step_fault_iff hr).1 (by rw [ha]; exact accessOverruns_none _))

theorem CrcFrame.access_eq_none {f : CrcFrame} (h : f.line ∉ [.readByte, .storeLow, .storeHigh]) : f.access = none := by
  cases hl : f.line <;> simp_all [CrcFrame.access]

theorem TrxFrame.access_eq_none {f : TrxFrame} (h : f.line ∉ [.readByte, .drainStore]) : f.access = none := by
  cases hl : f.line <;> simp_all [TrxFrame.access]

theorem CardFrame.access_eq_none {c : CardFrame} (cfg : Config) (h : c.line ∈ [.framing, .callCrc, .callTrx]) :
    c.access cfg = none := by
  cases hl : c.line <;> simp_all [CardFrame.access]

/-- The step of a `COMPUTE_CRC` that the host issued or a card operation called (60_exceptions.md R294). -/
theorem step_crc_fault_iff {s : State} {f : CrcFrame} (h : s.seq = some (.crc f) ∨ ∃ c, s.seq = some (.cardCrc c f)) :
    step s = .fault .bufferOverrun ↔ AccessOverruns s.cfg f.access := by
  obtain hr | ⟨c, hr⟩ := h <;> exact step_fault_iff hr

/-- The step of a `TRANSCEIVE` that the host issued or a card operation called (R294). -/
theorem step_trx_fault_iff {s : State} {f : TrxFrame} (h : s.seq = some (.trx f) ∨ ∃ c, s.seq = some (.cardTrx c f)) :
    step s = .fault .bufferOverrun ↔ AccessOverruns s.cfg f.access := by
  obtain hr | ⟨c, hr⟩ := h <;> exact step_fault_iff hr

/-- Settles O40: a step faults where the byte that its line touches may not be reached, line by line; without such a byte,
or with no operation running, it goes on. -/
theorem overrunFaults : Obligations.OverrunFaults := by
  refine ⟨fun s f h => ?_, fun s f h => ?_, fun s c h => ?_, fun s => ⟨step_ne_refused s, ?_⟩⟩
  · have hstep := step_crc_fault_iff h
    refine ⟨fun hl => ?_, fun hl => ?_, fun hl => ?_⟩ <;>
      simpa only [CrcFrame.access, hl, accessOverruns_some] using hstep
  · have hstep := step_trx_fault_iff h
    refine ⟨fun hl => ?_, fun hl => ?_⟩ <;> simpa only [TrxFrame.access, hl, accessOverruns_some] using hstep
  · have hstep := step_fault_iff h
    rw [Running.access] at hstep
    refine ⟨fun buf hb => ?_, fun buf hb hl => ?_, fun hl => ?_, fun hl => ?_⟩
    · obtain ⟨code, hop, hl⟩ | ⟨page, hop, hl⟩ | ⟨cmd, arg, hop, hl | hl⟩ := hb <;>
        simpa only [CardFrame.access, hl, hop, CardOp.buffer, accessOverruns_some, overruns_areaOf] using hstep
    · obtain ⟨cmd, arg, hop⟩ | ⟨page, hop⟩ := hb <;>
        simpa only [CardFrame.access, hl, hop, CardOp.buffer, accessOverruns_some, overruns_areaOf] using hstep
    · simpa only [CardFrame.access, hl, accessOverruns_some, overruns_scratch] using hstep
    · simpa only [CardFrame.access, hl, accessOverruns_some, overruns_scratch, Nat.le_zero] using hstep
  · rintro (hq | ⟨ws, hr⟩ | ⟨f, hr⟩ | ⟨f, hr | ⟨c, hr⟩, hl⟩ | ⟨f, hr | ⟨c, hr⟩, hl⟩ | ⟨c, hr, hl⟩)
    · exact step_next (step_idle_ne_fault hq _)
    · exact step_next_of_no_access hr rfl
    · exact step_next_of_no_access hr rfl
    · exact step_next_of_no_access hr (CrcFrame.access_eq_none hl)
    · exact step_next_of_no_access hr (CrcFrame.access_eq_none hl)
    · exact step_next_of_no_access hr (TrxFrame.access_eq_none hl)
    · exact step_next_of_no_access hr (TrxFrame.access_eq_none hl)
    · exact step_next_of_no_access hr (CardFrame.access_eq_none _ hl)

end Sys2Proof.Machine

/-! The statements of 70_reset_and_hazards.md: the reset state is a launch state, and every launch state meets the
invariant (R311). -/

namespace Sys2Proof.Machine

open Sys2Proof

/-! ### The launch values of `CommandReg` and `BitFramingReg` -/

/-- With Idle in `CommandReg` neither engine's command is the current one (41_chip_commands.md R160). -/
theorem commandOf_idle_ne {c : Config} (hc : c.Wf) :
    commandOf (cmdByte c.cmdIdle) ≠ c.cmdCalcCrc ∧ commandOf (cmdByte c.cmdIdle) ≠ c.cmdTransceive := by
  obtain ⟨hcrc, htrx, -⟩ := hc.codes_ne
  rw [commandOf_cmdByte]
  exact ⟨hcrc, htrx⟩

/-- A launch value of `BitFramingReg` is legal: `RxAlign` and the reserved bit, 6:3, are among the bits 7:3 that R311 fixes
at 0. -/
theorem fieldRefusal_launchFraming {c : Config} {v : Byte} (h : v.extractLsb' 3 5 = 0#5) :
    fieldRefusal c .bitFraming v = none := by
  have hlow : v.extractLsb' 3 4 = (v.extractLsb' 3 5).setWidth 4 :=
    (BitVec.setWidth_extractLsb'_of_le (by decide)).symm
  rw [fieldRefusal_framing, hlow, h]
  rfl

/-! ### Launch states meet the invariant -/

/-- A launch state is steady: Idle is the current command and both engines are off. -/
theorem Launch.steady {s : State} (h : Launch s) : s.Steady := by
  obtain ⟨hcfg, hcmd, hcrc, htrx, hfifo, hframing, hlines, -, hscratch, hmemWf, hmemIn⟩ := h
  obtain ⟨hneCrc, hneTrx⟩ := commandOf_idle_ne hcfg
  exact {
    cfg := hcfg
    memWf := hmemWf
    memIn := hmemIn
    fifo := hfifo
    scratch := hscratch
    lines := hlines
    command := by rw [hcmd]; exact fieldRefusal_cmd (by simp)
    framing := fieldRefusal_launchFraming hframing
    crcRuns := by rw [hcmd]; exact iff_of_true hcrc hneCrc
    trxRuns := by rw [hcmd]; exact iff_of_true htrx hneTrx
    busy := fun data hbusy => by rw [hcrc] at hbusy; cases hbusy }

/-- Settles O42: a launch state is steady (`Launch.steady`), and it runs no operation whose rule could fail. -/
theorem launchMeetsInvariant : Obligations.LaunchMeetsInvariant := fun _ h =>
  ⟨h.steady, fun _ hr => by rw [h.seq] at hr; cases hr⟩

/-- The reset state has the values that R311 fixes. -/
theorem launch_reset : Launch State.reset where
  cfg := default_wf
  command := rfl
  crc := rfl
  trx := rfl
  fifo := Nat.zero_le _
  framing := rfl
  lines := ⟨rfl, rfl, rfl, rfl⟩
  seq := rfl
  scratch := List.length_replicate
  mem := ⟨rfl, nofun⟩

/-- Settles O41: `launch_reset`, and then the invariant as of every launch state. -/
theorem resetMeetsInvariant : Obligations.ResetMeetsInvariant :=
  ⟨launch_reset, launchMeetsInvariant _ launch_reset⟩

end Sys2Proof.Machine
